-- ==== Sys2Proof/Word.lean ====
section
/-! DEFINITION. The word types of the register window and of the field link. -/

namespace Sys2Proof

/-- A sixteen-bit word of the register window (chapter 10). -/
abbrev Word := BitVec 16

/-- A byte of a field link frame (section 1.2), also a command code or an argument (R182). -/
abbrev Byte := BitVec 8

/-- A 32-bit write value or response value (R4, R5). -/
abbrev Value := BitVec 32

/-- A word address of the window, 0 to 127 (chapter 10). -/
abbrev Address := BitVec 7

end Sys2Proof
end

