-- ==== Sys2Proof/Syntax.lean ====
section
/-! DEFINITION. The commands of the AS416: one constructor of Instr per row of spec/opcode_table.json. -/

namespace Sys2Proof

/-- The five field words of the selected station entry (section 2.3; addresses 0x19 to 0x1D). -/
inductive StationField where
  | addressEnable
  | responseTimeout
  | limits
  | busyBackoff
  | conversionTime
  deriving DecidableEq, Repr

/-- The five field words of the selected item descriptor (section 3.4; addresses 0x21 to 0x25). -/
inductive ItemField where
  | kind
  | index
  | valueHigh
  | valueLow
  | routing
  deriving DecidableEq, Repr

/-- The three field words of the selected chain definition (section 3.4; addresses 0x29 to 0x2B). -/
inductive ChainField where
  | control
  | first
  | count
  deriving DecidableEq, Repr

/-- The three field words of the selected pace timer (section 6.1; addresses 0x31 to 0x33). -/
inductive TimerField where
  | control
  | periodHigh
  | periodLow
  deriving DecidableEq, Repr

/-- The four staging words (R139; addresses 0x40 to 0x43). -/
inductive StagingField where
  | request
  | index
  | dataHigh
  | dataLow
  deriving DecidableEq, Repr

/-- A command or a happening the AS416 takes, whole and indivisible: one constructor per row of the
table. Where R182 says that a command's argument is not read, the constructor carries none. A write
carries the whole word the host put on the data lines; a pin or link happening carries what came. -/
inductive Instr where
  /-- Command code 1 (R49, R60). -/
  | arm
  /-- Command code 2 (R159). -/
  | disarm
  /-- Command code 3 (R77). -/
  | start
  /-- Command code 4 (R78). -/
  | stopAfterPass
  /-- Command code 5 with its argument byte (R121). -/
  | trigger (arg : Byte)
  /-- Command code 6 (R151). -/
  | abortItem
  /-- Command code 7 (R153). -/
  | abortChain
  /-- Command code 8 (R156). -/
  | abortAll
  /-- Command code 9 with its argument byte (R35). -/
  | revive (arg : Byte)
  /-- Command code 10 (R142). -/
  | submit
  /-- Command code 11 with its argument byte (R144). -/
  | cancel (arg : Byte)
  /-- Command code 12 with its argument byte (R145). -/
  | release (arg : Byte)
  /-- Command code 13 (R188). -/
  | softReset
  /-- A command write with a code of 0 or 14 to 255 (R182). -/
  | unknownCommand (code arg : Byte)
  /-- A read of the pop word (R168). -/
  | pop
  /-- A read of the first snapshot word (R163). -/
  | snapshotCapture
  /-- A write to the event latch (R186). -/
  | eventLatchClear (value : Word)
  /-- A write to the event enable word (R187). -/
  | eventEnableWrite (value : Word)
  /-- A write to the interrupt control word (R187). -/
  | interruptControlWrite (value : Word)
  /-- A write to the window status word (R184). -/
  | windowStatusClear (value : Word)
  /-- A write to the drop counter (R172). -/
  | dropCounterClear (value : Word)
  /-- A write to the overrun word (R120). -/
  | overrunClear (value : Word)
  /-- A write to the link configuration word (R2). -/
  | linkConfigurationWrite (value : Word)
  /-- A write to the direct defaults word (R26). -/
  | directDefaultsWrite (value : Word)
  /-- A write to the arbiter configuration word (R127). -/
  | arbiterConfigurationWrite (value : Word)
  /-- A write to the result configuration word (R169). -/
  | resultConfigurationWrite (value : Word)
  /-- A write to the station select word (R27). -/
  | stationSelectWrite (value : Word)
  /-- A write to a station field word (R28). -/
  | stationFieldWrite (field : StationField) (value : Word)
  /-- A write to the item select word (R46). -/
  | itemSelectWrite (value : Word)
  /-- A write to an item field word (R47). -/
  | itemFieldWrite (field : ItemField) (value : Word)
  /-- A write to the chain select word (R46). -/
  | chainSelectWrite (value : Word)
  /-- A write to a chain field word (R48). -/
  | chainFieldWrite (field : ChainField) (value : Word)
  /-- A write to the timer select word (R110). -/
  | timerSelectWrite (value : Word)
  /-- A write to a timer field word (R110). -/
  | timerFieldWrite (field : TimerField) (value : Word)
  /-- A write to the line edge word (R114). -/
  | lineEdgeWrite (value : Word)
  /-- A write to the trigger select word (R116). -/
  | triggerSelectWrite (value : Word)
  /-- A write to the trigger entry word (R116). -/
  | triggerEntryWrite (value : Word)
  /-- A write to a staging word (R139). -/
  | stagingWrite (field : StagingField) (value : Word)
  /-- A write to the direct slot select word (R140). -/
  | directSlotSelectWrite (value : Word)
  /-- A write to the result select word (R163). -/
  | resultSelectWrite (value : Word)
  /-- A write to the mask select word (R175). -/
  | maskSelectWrite (value : Word)
  /-- A write to a read-only word or to an address that holds no word (R179). -/
  | readOnlyWrite (address : Address) (value : Word)
  /-- RESET_N goes low (R189). -/
  | resetNAssert
  /-- RESET_N goes high (R189). -/
  | resetNRelease
  /-- The filter interval of a trigger line ends (R115). -/
  | lineEdge (line : Fin 4)
  /-- A pace timer's count reaches its period (R112). -/
  | paceTimerExpiry (timer : Fin 4)
  /-- The stop bit of the command frame's check byte has been sent (R10). -/
  | frameSent
  /-- A start bit while the engine waits for a response byte (R11, R12). -/
  | responseStartBit
  /-- The response timer expires (R11). -/
  | responseTimeout
  /-- Two byte times have passed with no next byte (R12). -/
  | byteGapExpiry
  /-- A start bit in the end watch (R12). -/
  | endWatchStartBit
  /-- The end watch passes quietly (R13). -/
  | endWatchExpiry
  /-- A start bit that belongs to no attempt (R18). -/
  | strayByte
  /-- The end of SETTLE between two attempts (R15). -/
  | settleEnd
  /-- The end of BACKOFF (R15). -/
  | backoffEnd
  /-- The end of the settle that follows a cut by SOFT_RESET (R20). -/
  | resetSettleEnd
  /-- The active item's conversion timer expires (R65). -/
  | conversionTimerExpiry
  /-- The suspended item's conversion timer expires (R93). -/
  | suspendedTimerExpiry
  /-- The end of the pause after a grant given back unused (R129). -/
  | grantPauseEnd
  /-- The lock window timer expires (R137). -/
  | lockWindowExpiry
  /-- A byte of the response has been received, with or without a framing error (R3, R12). -/
  | responseByteReceived (value : Byte) (framingError : Bool)
  /-- A TRIG pin changes to the given level, high when true (R115). -/
  | triggerPinChange (line : Fin 4) (level : Bool)
  deriving DecidableEq, Repr

end Sys2Proof
end

