-- ==== Sys2Proof/Decode.lean ====
section
/-! DEFINITION. What the host's accesses spell: the command of a word written to the command word, the command of a
write or a read at each address of the window (R179, R182, section 10.7), and the command a word spells by the table's
bits. No row of spec/opcode_table.json gives bits, so by the table's bits no word spells one. -/

namespace Sys2Proof

/-- The command a word of nbits bits spells by the table's bits: none, since no row of the table gives its bits (log
entry 16). The bits of the command word are commandOfWord's. -/
def decodeTableWord (_nbits _w : Nat) : Option Instr := none

/-- The command a word written to the command word spells: bits 15 to 8 are its code, bits 7 to 0 its argument, which
only TRIGGER, REVIVE, CANCEL and RELEASE read (R182). -/
def commandOfWord (w : Word) : Instr :=
  let code : Byte := w.extractLsb' 8 8
  let arg : Byte := w.extractLsb' 0 8
  match code.toNat with
  | 1 => .arm
  | 2 => .disarm
  | 3 => .start
  | 4 => .stopAfterPass
  | 5 => .trigger arg
  | 6 => .abortItem
  | 7 => .abortChain
  | 8 => .abortAll
  | 9 => .revive arg
  | 10 => .submit
  | 11 => .cancel arg
  | 12 => .release arg
  | 13 => .softReset
  | _ => .unknownCommand code arg

/-- The command a write of a word at an address of the window is (section 10.7); a write to a read-only word or to an
address that holds no word is READ_ONLY_WRITE (R179). -/
def writeCommand (a : Address) (v : Word) : Instr :=
  match a.toNat with
  | 0x02 => commandOfWord v
  | 0x04 => .windowStatusClear v
  | 0x05 => .eventLatchClear v
  | 0x06 => .eventEnableWrite v
  | 0x07 => .interruptControlWrite v
  | 0x08 => .linkConfigurationWrite v
  | 0x09 => .arbiterConfigurationWrite v
  | 0x0A => .resultConfigurationWrite v
  | 0x0B => .directDefaultsWrite v
  | 0x18 => .stationSelectWrite v
  | 0x19 => .stationFieldWrite .addressEnable v
  | 0x1A => .stationFieldWrite .responseTimeout v
  | 0x1B => .stationFieldWrite .limits v
  | 0x1C => .stationFieldWrite .busyBackoff v
  | 0x1D => .stationFieldWrite .conversionTime v
  | 0x20 => .itemSelectWrite v
  | 0x21 => .itemFieldWrite .kind v
  | 0x22 => .itemFieldWrite .index v
  | 0x23 => .itemFieldWrite .valueHigh v
  | 0x24 => .itemFieldWrite .valueLow v
  | 0x25 => .itemFieldWrite .routing v
  | 0x28 => .chainSelectWrite v
  | 0x29 => .chainFieldWrite .control v
  | 0x2A => .chainFieldWrite .first v
  | 0x2B => .chainFieldWrite .count v
  | 0x30 => .timerSelectWrite v
  | 0x31 => .timerFieldWrite .control v
  | 0x32 => .timerFieldWrite .periodHigh v
  | 0x33 => .timerFieldWrite .periodLow v
  | 0x35 => .lineEdgeWrite v
  | 0x38 => .triggerSelectWrite v
  | 0x39 => .triggerEntryWrite v
  | 0x3A => .overrunClear v
  | 0x40 => .stagingWrite .request v
  | 0x41 => .stagingWrite .index v
  | 0x42 => .stagingWrite .dataHigh v
  | 0x43 => .stagingWrite .dataLow v
  | 0x44 => .directSlotSelectWrite v
  | 0x50 => .resultSelectWrite v
  | 0x5F => .dropCounterClear v
  | 0x60 => .maskSelectWrite v
  | _ => .readOnlyWrite a v

/-- The command a read at an address of the window is, for the two words whose read has a side effect: the pop word
(R168) and the first word of the snapshot view (R163). Any other read changes nothing (R179). -/
def readCommand (a : Address) : Option Instr :=
  match a.toNat with
  | 0x51 => some .snapshotCapture
  | 0x58 => some .pop
  | _ => none

end Sys2Proof
end

