-- ==== Sys2Proof/Config.lean ====
section
/-! DEFINITION. What the part fixes (identification words, capacities, time units) and the two free values: the order
in which happenings that fall due at the same moment are taken, and which grants to the Sequencer are happenings of their
own. -/

namespace Sys2Proof.Config

/-- The part code word (R185). -/
def partCode : Word := 0x0416#16

/-- The revision word: major 1, minor 2 (R185). -/
def revision : Word := 0x0102#16

/-- The completion queue holds at most 32 records (R167). -/
def queueCapacity : Nat := 32

/-- An item is restarted at most three times within one chain run (R101). -/
def restartLimit : Nat := 3

/-- The drop counter rises to 65535 and no further (R172). -/
def dropLimit : Word := 65535#16

/-- One interval unit is 10 µs (scope, Time); the model counts microseconds. -/
def intervalUnit : Nat := 10

/-- The fixed busy backoff of the direct defaults, in interval units (R26). -/
def directBackoff : Byte := 10#8

/-- FREE VALUE (DESIGN CHOICE, log entry 2; safe). Which of several happenings that fall due at the same
moment is taken first: the manual gives the outcome of either order and never says which order comes. It
is applied to the moment and to the list of what is due. -/
opaque tieOrder : Nat → List Instr → Nat

/-- FREE VALUE (DEDUCED, log entry 27; safe). Whether a grant to the Sequencer is a happening of its own, after the
happening that lets it be made and in the same moment: the manual shows it both ways. It is applied to the moment and to
the Sequencer's state, whose type is declared later. -/
opaque grantApart {σ : Type} : Nat → σ → Bool

end Sys2Proof.Config
end

