-- ==== Sys2Proof/Machine/State.lean ====
section
/-! DEFINITION. The state of the AS416, block by block as the manual's block overview lists them, its value
after reset, and the reasons a command can stop. Tables are vectors of fixed size; a register field keeps
the width the register summary gives it. Moments are counted in microseconds. -/

namespace Sys2Proof.Machine

/-! ## Names shared by several blocks -/

/-- A chain: NORMAL or INJ k (R43, R44). -/
inductive Chain where
  | normal
  | inj (k : Fin 8)
  deriving DecidableEq, Repr

/-- The five operations of the field link (section 1.2). -/
inductive Op where
  | ping
  | read
  | write
  | sample
  | fetch
  deriving DecidableEq, Repr

/-- The final outcome of a transaction (R16). -/
inductive TxnOutcome where
  | done
  | rejected
  | noResponse
  | badFrame
  | busyLimit
  deriving DecidableEq, Repr

/-- The outcome of an item's completion (R68). -/
inductive ItemOutcome where
  | done
  | rejected
  | noResponse
  | badFrame
  | busyLimit
  | offline
  | starved
  | aborted
  deriving DecidableEq, Repr

/-- A command's answer (R183) or the reason of a refused write (R184): one encoding (section 10.7). -/
inductive Answer where
  | none
  | accepted
  | queued
  | wrongState
  | configError
  | duplicateAddress
  | noTarget
  | overrun
  | full
  | invalid
  | late
  | noSuch
  | readOnly
  deriving DecidableEq, Repr

/-! ## Host Window (chapter 10) -/

/-- The Host Window's own state (R190), and the value last returned by a read with a side effect. -/
structure HostWindow where
  /-- Command status, command code (R183). -/
  commandCode : Byte := 0#8
  /-- Command status, answer (R183). -/
  answer : Answer := .none
  /-- Command status, detail field (R183). -/
  detail : BitVec 4 := 0#4
  /-- Window status, refused flag (R184). -/
  refused : Bool := false
  /-- Window status, repeated flag (R184). -/
  repeated : Bool := false
  /-- Window status, reason of the latest refusal (R184). -/
  reason : Answer := .none
  /-- Window status, address of the latest refusal (R184). -/
  refusedAddress : Address := 0#7
  /-- Event latch, one flag per event (R186). -/
  latch : BitVec 12 := 0#12
  /-- Event enables, in the latch's positions (R187). -/
  enable : BitVec 12 := 0#12
  /-- Master enable of the interrupt control word (R187). -/
  master : Bool := false
  /-- The value driven on D15 to D0 by the latest read that has a side effect (R178, R180). The MODEL's own field, 0 at
  reset (DESIGN CHOICE, log entry 6). -/
  readValue : Word := 0#16
  deriving DecidableEq, Repr

/-! ## Station Table (chapter 2) -/

/-- The seven configuration fields of a station entry (R22). -/
structure StationEntry where
  address : BitVec 5 := 0#5
  enabled : Bool := false
  timeout : BitVec 9 := 50#9
  retry : BitVec 3 := 2#3
  backoff : BitVec 8 := 10#8
  convTime : BitVec 16 := 100#16
  failLimit : BitVec 4 := 3#4
  deriving DecidableEq, Repr

/-- Sixteen entries, their consecutive-failure counts (R31) and the station select word (R27). -/
structure StationTable where
  entries : Vector StationEntry 16 := Vector.replicate 16 {}
  failures : Vector (BitVec 4) 16 := Vector.replicate 16 0#4
  select : Fin 16 := 0
  deriving DecidableEq, Repr

/-! ## Item Memory and Chain Table (chapter 3) -/

/-- The kind of an item (R39, R40). -/
inductive ItemKind where
  | off
  | read
  | write
  | sampleFetch
  deriving DecidableEq, Repr

/-- The post option of an item (R39, R41). -/
inductive Post where
  | always
  | errors
  | never
  deriving DecidableEq, Repr

/-- An item descriptor (R39). A slot of none is NONE. -/
structure Item where
  kind : ItemKind := .off
  station : Fin 16 := 0
  index : Byte := 0#8
  length : BitVec 3 := 1#3
  value : Value := 0#32
  slot : Option (Fin 64) := none
  post : Post := .always
  deriving DecidableEq, Repr

/-- The mode of the NORMAL chain (R43). -/
inductive PassMode where
  | oneShot
  | continuous
  deriving DecidableEq, Repr

/-- The fields every chain definition has (R43, R44). -/
structure ChainDef where
  enabled : Bool := false
  first : BitVec 6 := 0#6
  count : BitVec 7 := 1#7
  deriving DecidableEq, Repr

/-- The failure kinds of the configuration check (R55). -/
inductive CheckKind where
  | none
  | chainRange
  | noChain
  | station
  | slot
  | triggerTarget
  | emptyChain
  deriving DecidableEq, Repr

/-- The check detail word (R55). -/
structure CheckDetail where
  kind : CheckKind := .none
  index : BitVec 6 := 0#6
  deriving DecidableEq, Repr

/-- Item memory, the chain table, their select words and the check detail word (R39, R43, R44, R46, R55). -/
structure ItemMemory where
  items : Vector Item 64 := Vector.replicate 64 {}
  itemSelect : Fin 64 := 0
  normal : ChainDef := {}
  normalMode : PassMode := .oneShot
  inj : Vector ChainDef 8 := Vector.replicate 8 {}
  chainSelect : Chain := .inj 0
  check : CheckDetail := {}
  deriving DecidableEq, Repr

/-! ## Trigger Unit (chapter 6) -/

/-- The mode of a pace timer (R110). -/
inductive TimerMode where
  | periodic
  | single
  deriving DecidableEq, Repr

/-- The configuration of a pace timer (R110). -/
structure TimerConfig where
  enabled : Bool := false
  mode : TimerMode := .periodic
  period : BitVec 24 := 100#24
  deriving DecidableEq, Repr

/-- The run state of a pace timer (R111). A running timer's count is held as the moment it is due. -/
inductive TimerRun where
  | stopped
  | running (due : Nat)
  | expired
  deriving DecidableEq, Repr

/-- The edge selection of a trigger line (R114). -/
inductive EdgeSelect where
  | none
  | rising
  | falling
  | both
  deriving DecidableEq, Repr

/-- A source of the trigger table (R116). -/
inductive Source where
  | timer (k : Fin 4)
  | line (k : Fin 4)
  deriving DecidableEq, Repr

/-- An entry of the trigger table (R116). -/
structure TriggerEntry where
  enabled : Bool := false
  source : Source := .timer 0
  target : Chain := .inj 0
  deriving DecidableEq, Repr

/-- The Trigger Unit: timers (R110, R111), lines (R114, R115), the trigger table (R116), the overrun flags
(R120, bit 8 for NORMAL and bit k for INJ k), and the level of each TRIG pin. -/
structure TriggerUnit where
  timers : Vector TimerConfig 4 := Vector.replicate 4 {}
  runs : Vector TimerRun 4 := Vector.replicate 4 .stopped
  timerSelect : Fin 4 := 0
  edges : Vector EdgeSelect 4 := Vector.replicate 4 .none
  /-- The level of pins TRIG0 to TRIG3, high when true: an input from the plant, low in State.reset (DESIGN CHOICE,
  log entry 5). -/
  pins : Vector Bool 4 := Vector.replicate 4 false
  /-- The filtered level of each line (R115). -/
  filtered : Vector Bool 4 := Vector.replicate 4 false
  /-- The moment a running filter interval ends (R115). -/
  filters : Vector (Option Nat) 4 := Vector.replicate 4 none
  entries : Vector TriggerEntry 8 := Vector.replicate 8 {}
  triggerSelect : Fin 8 := 0
  overrun : BitVec 9 := 0#9
  deriving DecidableEq, Repr

/-! ## Sequencer (chapters 4, 5 and 8) -/

/-- The top states (R57). -/
inductive Top where
  | stopped
  | idle
  | running
  | queueWait
  | stopping
  deriving DecidableEq, Repr

/-- The active context (R59). -/
inductive Context where
  | none
  | normal
  | inj (k : Fin 8)
  deriving DecidableEq, Repr

/-- The phases of an item that is in progress (section 4.3). COMPLETE and BOUNDARY are read out when no
item is in progress (R81). -/
inductive Phase where
  | grantWait
  | onLink
  | converting
  | fetchWait
  | onLinkFetch
  deriving DecidableEq, Repr

/-- The run state of the current item of the active context (R62, R65, R99, R101, R149). -/
structure ItemRun where
  item : Nat := 0
  position : Nat := 0
  phase : Phase := .grantWait
  restarts : Nat := 0
  touched : Bool := false
  /-- The moment its latest SAMPLE was acknowledged (R65). -/
  ackTime : Nat := 0
  /-- The moment its running conversion timer is due (R65). -/
  convDue : Option Nat := none
  /-- The item abort mark (R149). -/
  abortMark : Bool := false
  deriving DecidableEq, Repr

/-- What every run context keeps of its own (R59), with the chain abort mark (R149). The mask has 64 flags;
an injected chain uses the lowest 16 (R45; log entry 19). -/
structure RunContext where
  position : Nat := 0
  mask : BitVec 64 := 0#64
  done : Nat := 0
  errors : Nat := 0
  chainAbort : Bool := false
  deriving DecidableEq, Repr

/-- The NORMAL pass context (R71). -/
structure PassContext where
  present : Bool := false
  number : BitVec 16 := 0#16
  run : RunContext := {}
  startPending : Bool := false
  stopAfter : Bool := false
  deriving DecidableEq, Repr

/-- The suspension record (R92). fetchDue is set once its phase reads FETCH_WAIT and clear in CONVERTING. -/
structure Suspension where
  item : Nat := 0
  position : Nat := 0
  fetchDue : Bool := false
  ackTime : Nat := 0
  convDue : Option Nat := none
  restarts : Nat := 0
  touched : Bool := false
  deriving DecidableEq, Repr

/-- The Sequencer (section 4.1, R59, R71, R84, R92), with the item last completed since the last ARM (R81). -/
structure Sequencer where
  top : Top := .stopped
  active : Context := .none
  item : Option ItemRun := none
  /-- The run context of the injected chain that is running, none once its run has ended (R59, R98). -/
  injRun : Option RunContext := none
  pass : PassContext := {}
  /-- The pending-injection set, bit k for INJ k (R84). -/
  pendingSet : BitVec 8 := 0#8
  suspended : Option Suspension := none
  lastItem : Nat := 0
  lastPosition : Nat := 0
  deriving DecidableEq, Repr

/-! ## Link Arbiter (chapter 7) -/

/-- The priority mode (R127). -/
inductive PriorityMode where
  | seqFirst
  | shared
  | directFirst
  deriving DecidableEq, Repr

/-- The lock state (R126). HELD carries the lock successor; WINDOW carries the tag whose transaction opened
the window and the moment the lock window timer is due. -/
inductive Lock where
  | none
  | held (successor : Option (Fin 4))
  | window (opener : Fin 4) (due : Nat)
  | lapsing
  deriving DecidableEq, Repr

/-- The last grantee (R132). -/
inductive Grantee where
  | sequencer
  | direct
  deriving DecidableEq, Repr

/-- The Link Arbiter's state (R126) and the pause after a grant given back unused (R129). The owner and the
sequencer request are views of the other blocks' state (Ops.lean). -/
structure Arbiter where
  tenure : Bool := false
  mode : PriorityMode := .shared
  windowLength : BitVec 8 := 50#8
  lock : Lock := .none
  boundaryGrant : Bool := false
  lastGrantee : Grantee := .sequencer
  /-- The moment a running pause ends (R129). -/
  pause : Option Nat := none
  /-- A grant to the Sequencer is still to be made, as a happening of its own: the MODEL's own field (log entry 27). -/
  apart : Bool := false
  deriving DecidableEq, Repr

/-! ## Direct Request Unit (chapter 7) -/

/-- The staging record, held as written (R139). -/
structure Staging where
  address : BitVec 5 := 0#5
  opcode : BitVec 3 := 0#3
  index : Byte := 0#8
  length : BitVec 3 := 1#3
  data : Value := 0#32
  urgent : Bool := false
  lock : Bool := false
  deriving DecidableEq, Repr

/-- A slot's copy of its request (R140). A FREE slot's copy holds 0 in every field. -/
structure Request where
  address : BitVec 5 := 0#5
  op : Op := .ping
  index : Byte := 0#8
  length : BitVec 3 := 0#3
  data : Value := 0#32
  urgent : Bool := false
  lock : Bool := false
  deriving DecidableEq, Repr

/-- The state of a direct slot (R140). -/
inductive SlotState where
  | free
  | queued
  | active
  | done
  | cancelled
  deriving DecidableEq, Repr

/-- A direct slot (R140). -/
structure DirectSlot where
  state : SlotState := .free
  request : Request := {}
  outcome : Option TxnOutcome := none
  value : Value := 0#32
  cancelLate : Bool := false
  deriving DecidableEq, Repr

/-- The Direct Request Unit: staging (R139), slots (R140), service-order list (R141), direct defaults (R26). -/
structure DirectUnit where
  staging : Staging := {}
  slots : Vector DirectSlot 4 := Vector.replicate 4 {}
  order : List (Fin 4) := []
  slotSelect : Fin 4 := 0
  defTimeout : BitVec 9 := 50#9
  defRetry : BitVec 3 := 2#3
  deriving DecidableEq, Repr

/-! ## Link Engine (chapter 1) -/

/-- The link rate (R2). -/
inductive LinkRate where
  | k62
  | k250
  | k1000
  deriving DecidableEq, Repr

/-- The engine states (section 1.4). -/
inductive EngineState where
  | idle
  | sending
  | awaitResponse
  | receiving
  | settle
  | backoff
  deriving DecidableEq, Repr

/-- The requester of a transaction (section 1.4). -/
inductive Requester where
  | sequencer
  | direct (tag : Fin 4)
  deriving DecidableEq, Repr

/-- The parameter set of a transaction (R8). -/
structure Params where
  timeout : BitVec 9
  retry : BitVec 3
  backoff : BitVec 8
  deriving DecidableEq, Repr

/-- The engine's record of the transaction in flight (section 1.4), with the orphan mark (R149). -/
structure Transaction where
  requester : Requester
  address : BitVec 5
  op : Op
  index : Byte
  length : BitVec 3
  /-- The write value, for a WRITE only (R8). -/
  value : Option Value
  params : Params
  rate : LinkRate
  attempt : Nat
  orphan : Bool
  deriving DecidableEq, Repr

/-- A received byte and whether its stop bit sampled at space (R3). -/
structure RxByte where
  value : Byte
  framingError : Bool
  deriving DecidableEq, Repr

/-- The Link Engine. In SETTLE with no transaction it is in the settle that follows a cut (R20). -/
structure LinkEngine where
  rate : LinkRate := .k250
  phase : EngineState := .idle
  txn : Option Transaction := none
  /-- The moment the phase's running timer is due, none when no timer runs. -/
  timer : Option Nat := none
  /-- The bytes of the response received in this attempt, in order. -/
  rx : List RxByte := []
  /-- Set in RECEIVING once the response is complete: the end watch runs (R12). -/
  endWatch : Bool := false
  /-- The half microsecond at which the byte now coming in on LRXD began, none when none comes in (R3). -/
  incoming : Option Nat := none
  deriving DecidableEq, Repr

/-! ## Result Store (chapter 9) -/

/-- The state of a result slot (R161). -/
inductive ResultState where
  | empty
  | fresh
  | seen
  deriving DecidableEq, Repr

/-- A result slot (R161). A last outcome of none is NONE. -/
structure ResultSlot where
  value : Value := 0#32
  outcome : Option ItemOutcome := none
  state : ResultState := .empty
  overwritten : Bool := false
  writer : Chain := .normal
  passNumber : BitVec 16 := 0#16
  deriving DecidableEq, Repr

/-- The snapshot view (R163). -/
structure Snapshot where
  slot : Fin 64 := 0
  content : ResultSlot := {}
  deriving DecidableEq, Repr

/-- An ITEM record (R165). passNumber is 0 where the chain is not NORMAL. -/
structure ItemRecord where
  chain : Chain
  position : Nat
  item : Nat
  outcome : ItemOutcome
  slot : Option (Fin 64)
  restarts : Nat
  value : Option Value
  passNumber : BitVec 16
  deriving DecidableEq, Repr

/-- A completion record (R165, R166). -/
inductive Record where
  | item (r : ItemRecord)
  | passEnd (passNumber : BitVec 16) (done errors : Nat) (aborted : Bool)
  | injEnd (k : Fin 8) (done errors : Nat) (aborted : Bool)
  deriving DecidableEq, Repr

/-- The overflow policy (R169). -/
inductive Policy where
  | stall
  | drop
  deriving DecidableEq, Repr

/-- The Result Store (R161, R163, R167 to R175). A record view of none is kind NONE. -/
structure ResultStore where
  slots : Vector ResultSlot 64 := Vector.replicate 64 {}
  /-- The completion queue, oldest first (R167). -/
  queue : List Record := []
  /-- The hold list, head first (R170). -/
  hold : List Record := []
  drops : BitVec 16 := 0#16
  normalMask : BitVec 64 := 0#64
  injMasks : Vector (BitVec 16) 8 := Vector.replicate 8 0#16
  view : Option Record := none
  snapshot : Snapshot := {}
  resultSelect : Fin 64 := 0
  maskSelect : Fin 10 := 0
  policy : Policy := .stall
  deriving DecidableEq, Repr

/-! ## Local-bus port (section 10.1) -/

/-- The lines of the local bus that the host drives (section 10.1). A level is high when true; CS_N, RD_N and WR_N are
active low. In State.reset no access is on the bus: the three are high, and A6 to A0 and D15 to D0 are 0 (DESIGN CHOICE,
log entry 26). -/
structure BusPins where
  csN : Bool := true
  rdN : Bool := true
  wrN : Bool := true
  address : Address := 0#7
  data : Word := 0#16
  deriving DecidableEq, Repr

/-- The local-bus port (R178). -/
structure Port where
  pins : BusPins := {}
  /-- The access that is on the bus takes nothing more: both strobes were low together in it (R178), or RESET_N was low
  (R189). -/
  spoilt : Bool := false
  /-- The word the AS416 drives on D15 to D0, none where it does not drive them (R178, R189). -/
  driven : Option Word := none
  deriving DecidableEq, Repr

/-! ## The machine -/

/-- The whole state of the AS416, the commands that wait, and the model's clock. -/
structure State where
  window : HostWindow := {}
  stations : StationTable := {}
  tables : ItemMemory := {}
  trigger : TriggerUnit := {}
  seq : Sequencer := {}
  arb : Arbiter := {}
  direct : DirectUnit := {}
  link : LinkEngine := {}
  results : ResultStore := {}
  port : Port := {}
  /-- RESET_N is low: every block is held in reset (R189). -/
  resetHeld : Bool := false
  /-- The present moment in microseconds: the model's clock (log entry 1). -/
  now : Nat := 0
  /-- The commands that wait, first in, first out. -/
  pending : List Instr := []
  deriving DecidableEq, Repr

/-- The faults. There is none: the manual names no condition that stops the part, every wrong access or
command having an answer or a refusal of its own (R183, R184). Nothing raises one. -/
inductive Fault where
  deriving DecidableEq, Repr

/-- The refusals. -/
inductive Refusal where
  /-- Raised by exec for a row that has no meaning yet. Safe: the run stops. -/
  | notModelled (mnemonic : String)
  /-- Raised by UNKNOWN_COMMAND with the code of a known command and by READ_ONLY_WRITE at a writable
  address: terms that are no command of their row (WellFormed.lean). Safe: the run stops. -/
  | illFormed
  deriving DecidableEq, Repr

/-- The machine right after RESET_N, released (R189): every field at the value its chapter gives. -/
def State.reset : State := {}

end Sys2Proof.Machine
end

