-- ==== Sys2Proof/Machine/Operands.lean ====
section
/-! DEFINITION. The fields of the window's words: cutting a field out of a written word, putting one into a
read word, and the encodings of section 10.7. -/

namespace Sys2Proof.Machine

/-- The n bits of a written word from bit lo up. -/
def cut (w : Word) (lo n : Nat) : BitVec n := w.extractLsb' lo n

/-- One bit of a written word. -/
def flagAt (w : Word) (i : Nat) : Bool := w.getLsbD i

/-- A field placed in a read word from bit lo up; the bits no field names read 0 (R179). -/
def place {n : Nat} (v : BitVec n) (lo : Nat) : Word := v.setWidth 16 <<< lo

/-- A flag placed in a read word. -/
def placeFlag (b : Bool) (lo : Nat) : Word := place (BitVec.ofBool b) lo

/-- A small number placed in a read word. -/
def placeNat (n width lo : Nat) : Word := place (BitVec.ofNat width n) lo

/-- The upper 16 bits of a 32-bit value. -/
def highHalf (v : Value) : Word := v.extractLsb' 16 16

/-- The lower 16 bits of a 32-bit value. -/
def lowHalf (v : Value) : Word := v.extractLsb' 0 16

/-- A value with its upper half replaced (R47, R139). -/
def withHigh (v : Value) (w : Word) : Value := w ++ lowHalf v

/-- A value with its lower half replaced (R47, R139). -/
def withLow (v : Value) (w : Word) : Value := highHalf v ++ w

/-! ## Shared encodings (section 10.7) -/

/-- The code of an answer or reason. -/
def Answer.code : Answer → Nat
  | .none => 0
  | .accepted => 1
  | .queued => 2
  | .wrongState => 3
  | .configError => 4
  | .duplicateAddress => 5
  | .noTarget => 6
  | .overrun => 7
  | .full => 8
  | .invalid => 9
  | .late => 10
  | .noSuch => 11
  | .readOnly => 12

/-- The code of an item outcome. -/
def ItemOutcome.code : ItemOutcome → Nat
  | .done => 1
  | .rejected => 2
  | .noResponse => 3
  | .badFrame => 4
  | .busyLimit => 5
  | .offline => 6
  | .starved => 7
  | .aborted => 8

/-- A transaction's outcome as an item's outcome (R64, R67). -/
def TxnOutcome.toItem : TxnOutcome → ItemOutcome
  | .done => .done
  | .rejected => .rejected
  | .noResponse => .noResponse
  | .badFrame => .badFrame
  | .busyLimit => .busyLimit

/-- The code of an outcome field in which 0 is NONE. -/
def outcomeCode : Option ItemOutcome → Nat
  | none => 0
  | some o => o.code

/-- The chain and writer code: 0 NORMAL, 1 to 8 INJ0 to INJ7. -/
def Chain.code : Chain → Nat
  | .normal => 0
  | .inj k => k.val + 1

/-- The select number of a chain: 0 to 7 INJ0 to INJ7, 8 NORMAL (R46, R50, R121). -/
def Chain.selectCode : Chain → Nat
  | .normal => 8
  | .inj k => k.val

/-- The chain a select number, TRIGGER argument or trigger target names; none above 8 (R46, R116, R121). -/
def chainOfSelect (n : Nat) : Option Chain :=
  if h : n < 8 then some (.inj ⟨n, h⟩) else if n = 8 then some .normal else none

/-- The active context code. -/
def Context.code : Context → Nat
  | .none => 0
  | .normal => 1
  | .inj k => k.val + 2

/-- The top state code. -/
def Top.code : Top → Nat
  | .stopped => 0
  | .idle => 1
  | .running => 2
  | .queueWait => 3
  | .stopping => 4

/-- The phase code of an item in progress; COMPLETE is 5 and BOUNDARY is 6. -/
def Phase.code : Phase → Nat
  | .grantWait => 0
  | .onLink => 1
  | .converting => 2
  | .fetchWait => 3
  | .onLinkFetch => 4

/-- The engine state code. -/
def EngineState.code : EngineState → Nat
  | .idle => 0
  | .sending => 1
  | .awaitResponse => 2
  | .receiving => 3
  | .settle => 4
  | .backoff => 5

/-- The check kind code. -/
def CheckKind.code : CheckKind → Nat
  | .none => 0
  | .chainRange => 1
  | .noChain => 2
  | .station => 3
  | .slot => 4
  | .triggerTarget => 5
  | .emptyChain => 6

/-! ## Field encodings of single words (section 10.7) -/

/-- The operation a code names; none for 5 to 7 (section 1.2). -/
def Op.ofCode (c : BitVec 3) : Option Op :=
  match c.toNat with
  | 0 => some .ping
  | 1 => some .read
  | 2 => some .write
  | 3 => some .sample
  | 4 => some .fetch
  | _ => none

/-- The operation code of a command frame (section 1.2). -/
def Op.code : Op → BitVec 3
  | .ping => 0#3
  | .read => 1#3
  | .write => 2#3
  | .sample => 3#3
  | .fetch => 4#3

/-- The link rate a code names; none for 3 (R2). -/
def LinkRate.ofCode (c : BitVec 2) : Option LinkRate :=
  match c.toNat with
  | 0 => some .k62
  | 1 => some .k250
  | 2 => some .k1000
  | _ => none

/-- The code of a link rate. -/
def LinkRate.code : LinkRate → BitVec 2
  | .k62 => 0#2
  | .k250 => 1#2
  | .k1000 => 2#2

/-- The duration of one byte on the link in microseconds (scope, Time). -/
def LinkRate.byteTime : LinkRate → Nat
  | .k62 => 160
  | .k250 => 40
  | .k1000 => 10

/-- The priority mode a code names; none for 3 (R127). -/
def PriorityMode.ofCode (c : BitVec 2) : Option PriorityMode :=
  match c.toNat with
  | 0 => some .seqFirst
  | 1 => some .shared
  | 2 => some .directFirst
  | _ => none

/-- The code of a priority mode. -/
def PriorityMode.code : PriorityMode → BitVec 2
  | .seqFirst => 0#2
  | .shared => 1#2
  | .directFirst => 2#2

/-- The item kind a code names: the two bits have no value out of range (R47). -/
def ItemKind.ofCode (c : BitVec 2) : ItemKind :=
  match c.toNat with
  | 0 => .off
  | 1 => .read
  | 2 => .write
  | _ => .sampleFetch

/-- The code of an item kind. -/
def ItemKind.code : ItemKind → BitVec 2
  | .off => 0#2
  | .read => 1#2
  | .write => 2#2
  | .sampleFetch => 3#2

/-- The post option a code names; none for 3 (R47). -/
def Post.ofCode (c : BitVec 2) : Option Post :=
  match c.toNat with
  | 0 => some .always
  | 1 => some .errors
  | 2 => some .never
  | _ => none

/-- The code of a post option. -/
def Post.code : Post → BitVec 2
  | .always => 0#2
  | .errors => 1#2
  | .never => 2#2

/-- The slot a routing code names: some none is NONE, none is no slot (R47). -/
def slotOfCode (c : BitVec 7) : Option (Option (Fin 64)) :=
  if h : c.toNat < 64 then some (some ⟨c.toNat, h⟩) else if c.toNat = 127 then some none else none

/-- The code of a result slot field, 127 for NONE. -/
def slotCode : Option (Fin 64) → Nat
  | none => 127
  | some k => k.val

/-- The mode bit of the chain control word (R48). -/
def PassMode.ofBit (b : Bool) : PassMode := if b then .continuous else .oneShot

/-- The mode bit of the chain control word. -/
def PassMode.bit (m : PassMode) : Bool := m == .continuous

/-- The mode bit of the timer control word (R110). -/
def TimerMode.ofBit (b : Bool) : TimerMode := if b then .single else .periodic

/-- The mode bit of the timer control word. -/
def TimerMode.bit (m : TimerMode) : Bool := m == .single

/-- The run state code of the timer status word (R111). -/
def TimerRun.code : TimerRun → BitVec 2
  | .stopped => 0#2
  | .running _ => 1#2
  | .expired => 2#2

/-- The edge selection a code names: every encoding names one (R114). -/
def EdgeSelect.ofCode (c : BitVec 2) : EdgeSelect :=
  match c.toNat with
  | 0 => .none
  | 1 => .rising
  | 2 => .falling
  | _ => .both

/-- The code of an edge selection. -/
def EdgeSelect.code : EdgeSelect → BitVec 2
  | .none => 0#2
  | .rising => 1#2
  | .falling => 2#2
  | .both => 3#2

/-- The source a code names: 0 to 3 TIMER0 to TIMER3, 4 to 7 LINE0 to LINE3 (R116). -/
def Source.ofCode (c : BitVec 3) : Source :=
  if c.getLsbD 2 then .line (c.extractLsb' 0 2).toFin else .timer (c.extractLsb' 0 2).toFin

/-- The code of a source. -/
def Source.code : Source → Nat
  | .timer k => k.val
  | .line k => k.val + 4

/-- The code of a direct slot's state. -/
def SlotState.code : SlotState → Nat
  | .free => 0
  | .queued => 1
  | .active => 2
  | .done => 3
  | .cancelled => 4

/-- The code of a result slot's state. -/
def ResultState.code : ResultState → Nat
  | .empty => 0
  | .fresh => 1
  | .seen => 2

/-- The index a select word's bits 7 to 0 name, when it is below n (R27, R46, R110, R116, R140, R163). -/
def selectByte (n : Nat) (w : Word) : Option (Fin n) :=
  if h : (cut w 0 8).toNat < n then some ⟨_, h⟩ else none

/-- The index the mask select word's bits 3 to 0 name, when it is below 10 (R175). -/
def selectNibble (n : Nat) (w : Word) : Option (Fin n) :=
  if h : (cut w 0 4).toNat < n then some ⟨_, h⟩ else none

/-! ## Word addresses (section 10.7) -/

/-- The address of a station field word. -/
def stationFieldAddress : StationField → Address
  | .addressEnable => 0x19#7
  | .responseTimeout => 0x1A#7
  | .limits => 0x1B#7
  | .busyBackoff => 0x1C#7
  | .conversionTime => 0x1D#7

/-- The address of an item field word. -/
def itemFieldAddress : ItemField → Address
  | .kind => 0x21#7
  | .index => 0x22#7
  | .valueHigh => 0x23#7
  | .valueLow => 0x24#7
  | .routing => 0x25#7

/-- The address of a chain field word. -/
def chainFieldAddress : ChainField → Address
  | .control => 0x29#7
  | .first => 0x2A#7
  | .count => 0x2B#7

/-- The address of a timer field word. -/
def timerFieldAddress : TimerField → Address
  | .control => 0x31#7
  | .periodHigh => 0x32#7
  | .periodLow => 0x33#7

/-! ## The local bus (section 10.1) -/

/-- CS_N and RD_N are both low (R178). -/
def BusPins.reading (p : BusPins) : Bool := !p.csN && !p.rdN

/-- CS_N and WR_N are both low (R178). -/
def BusPins.writing (p : BusPins) : Bool := !p.csN && !p.wrN

/-- An access is on the bus: CS_N is low with a strobe (R178; DEDUCED, log entry 26). -/
def BusPins.inAccess (p : BusPins) : Bool := p.reading || p.writing

end Sys2Proof.Machine
end

