-- ==== Sys2Proof/Machine/Flags.lean ====
section
/-! DEFINITION. The event latch, INT_N and the overrun flags (R120, R186, R187). -/

namespace Sys2Proof.Machine

/-- The twelve events of the latch (section 10.5). -/
inductive Event where
  | passEnd
  | injEnd
  | itemError
  | queueData
  | queueStall
  | recordDropped
  | triggerOverrun
  | stationOffline
  | stationBack
  | directDone
  | lockLapsed
  | seqStopped
  deriving DecidableEq, Repr

/-- The event's position in the latch and in the enables (section 10.7). -/
def Event.bit : Event → Nat
  | .passEnd => 0
  | .injEnd => 1
  | .itemError => 2
  | .queueData => 3
  | .queueStall => 4
  | .recordDropped => 5
  | .triggerOverrun => 6
  | .stationOffline => 7
  | .stationBack => 8
  | .directDone => 9
  | .lockLapsed => 10
  | .seqStopped => 11

/-- The flag of one event. -/
def Event.mask (e : Event) : BitVec 12 := 1#12 <<< e.bit

/-- A block raises an event: its flag is set, whatever the enables say (R186). -/
def raise (e : Event) (s : State) : State :=
  { s with window := { s.window with latch := s.window.latch ||| e.mask } }

/-- The event's latch flag is set. -/
def State.latched (s : State) (e : Event) : Bool := s.window.latch.getLsbD e.bit

/-- INT_N is asserted, driven low: the master enable is set and some event has both its latch flag and its
enable set (R187). While RESET_N is low it is released (R189). -/
def State.intAsserted (s : State) : Bool :=
  !s.resetHeld && s.window.master && s.window.latch &&& s.window.enable != 0#12

/-- The overrun flag's position: bit 8 NORMAL, bit k INJ k (section 10.7). -/
def Chain.overrunBit (c : Chain) : Nat := c.selectCode

/-- A start to the chain is dropped: its overrun flag is set and TRIGGER_OVERRUN is raised (R120). -/
def dropStart (c : Chain) (s : State) : State :=
  raise .triggerOverrun
    { s with trigger := { s.trigger with overrun := s.trigger.overrun ||| (1#9 <<< c.overrunBit) } }

end Sys2Proof.Machine
end

