-- ==== Sys2Proof/Machine/Ops.lean ====
section
/-! DEFINITION. The named operations every block shares: taking a happening only while RESET_N is high,
answering a command, refusing a write, and the queries the blocks make of each other. -/

namespace Sys2Proof.Machine

/-- A happening takes the state to t, except while RESET_N is low: then the window takes no access and
nothing happens in any block (R189). -/
def live (s t : State) : Host.Outcome State Fault Refusal :=
  if s.resetHeld then .next s else .next t

/-- The command status is written with code, answer and detail (R183). -/
def answer (code : Byte) (a : Answer) (detail : BitVec 4) (s : State) : State :=
  { s with window := { s.window with commandCode := code, answer := a, detail := detail } }

/-- A write is refused and recorded in the window status (R184). -/
def refuseWrite (address : Address) (reason : Answer) (s : State) : State :=
  { s with window := { s.window with
      refused := true, repeated := s.window.refused, reason := reason, refusedAddress := address } }

/-- The Sequencer is STOPPED, so that the tables may be written (R28, R47). -/
def State.isStopped (s : State) : Bool := s.seq.top == .stopped

/-- The Sequencer is IDLE, RUNNING or QUEUE_WAIT: starts are taken, timers count, edges are source events
(R57, R112, R115). -/
def State.isArmed (s : State) : Bool :=
  s.seq.top == .idle || s.seq.top == .running || s.seq.top == .queueWait

/-- A write to a word that is locked while the Sequencer is not STOPPED: refused WRONG_STATE then, refused
INVALID when the value is out of range, and taken otherwise (R184's order of reasons). -/
def lockedWrite (address : Address) (new : Option State) (s : State) : State :=
  if s.isStopped then
    match new with
    | some t => t
    | none => refuseWrite address .invalid s
  else refuseWrite address .wrongState s

/-- A write that every state takes, refused INVALID when the value is out of range. -/
def openWrite (address : Address) (new : Option State) (s : State) : State :=
  match new with
  | some t => t
  | none => refuseWrite address .invalid s

/-! ## Queries -/

/-- The definition of a chain (R43, R44). -/
def State.chainDef (s : State) : Chain → ChainDef
  | .normal => s.tables.normal
  | .inj k => s.tables.inj[k]

/-- The descriptor of an item number; a number past 63, which no armed chain reaches (R50), reads as an OFF
item. -/
def State.itemAt (s : State) (n : Nat) : Item := if h : n < 64 then s.tables.items[n] else {}

/-- The item number at a position of a chain (R45). -/
def State.itemNumber (s : State) (c : Chain) (p : Nat) : Nat := (s.chainDef c).first.toNat + p

/-- Position p of the chain lies inside its count and holds an item that is not OFF (R45). -/
def State.isExpected (s : State) (c : Chain) (p : Nat) : Bool :=
  p < (s.chainDef c).count.toNat && (s.itemAt (s.itemNumber c p)).kind != .off

/-- The lowest expected position at or above p (R72, R73, R95). -/
def State.nextExpected (s : State) (c : Chain) (p : Nat) : Option Nat :=
  (List.range 64).find? fun q => p ≤ q && s.isExpected c q

/-- The expected mask of a chain (R45): the flags of its expected positions. -/
def State.expectedMask (s : State) (c : Chain) : BitVec 64 :=
  (List.range 64).foldl (fun m p => if s.isExpected c p then m ||| (1#64 <<< p) else m) 0#64

/-- The station entry an item names (R40). -/
def State.stationOf (s : State) (n : Nat) : StationEntry := s.stations.entries[(s.itemAt n).station]

/-- The active chain, when a chain is active (R59). -/
def Context.chain : Context → Option Chain
  | .none => Option.none
  | .normal => some .normal
  | .inj k => some (.inj k)

/-- The Sequencer's request for the link stands: its current item is in GRANT_WAIT or FETCH_WAIT (R62, R128). -/
def State.seqRequest (s : State) : Bool :=
  match s.seq.item with
  | some it => it.phase == .grantWait || it.phase == .fetchWait
  | none => false

/-- The owner of the link (R126). -/
inductive Owner where
  | none
  | sequencer
  | direct (tag : Fin 4)
  deriving DecidableEq, Repr

/-- Who the link belongs to at the moment (R126). R128 says that no notice changes the owner, while by R126 it is NONE
once tenure is clear with nothing on the link; R126 is followed, so after a suspension or an abort in CONVERTING the
owner falls at the tenure notice (DEDUCED, log entry 24). -/
def State.owner (s : State) : Owner :=
  match s.link.txn with
  | some t =>
    match t.requester with
    | .sequencer => .sequencer
    | .direct tag => .direct tag
  | none =>
    match s.arb.lock with
    | .window opener _ => .direct opener
    | _ => if s.arb.tenure then .sequencer else .none

/-- The moment that lies the given number of interval units ahead. -/
def State.after (s : State) (units : Nat) : Nat := s.now + Config.intervalUnit * units

/-- Membership of INJ k in the pending-injection set (R84). -/
def State.isPending (s : State) (k : Fin 8) : Bool := s.seq.pendingSet.getLsbD k.val

/-- The lowest-indexed member of the pending-injection set (R86). -/
def State.lowestPending (s : State) : Option (Fin 8) :=
  [0, 1, 2, 3, 4, 5, 6, 7].find? s.isPending

/-- A transaction of the Sequencer is with the Link Engine (R80). -/
def State.seqOnLink (s : State) : Bool :=
  match s.link.txn with
  | some t => t.requester == .sequencer
  | none => false

end Sys2Proof.Machine
end

