-- ==== Sys2Proof/Machine/Engine.lean ====
section
/-! DEFINITION. The Link Engine's operations: the check byte, command frames, taking a transaction with its
start notice, receiving and judging a response (chapter 1, R99). -/

namespace Sys2Proof.Machine

/-! ## Frames -/

/-- One shift of the check register (R6, step 3). -/
def crcShift (r : Byte) : Byte := if r.getLsbD 7 then (r <<< 1) ^^^ 0x2F#8 else r <<< 1

/-- One byte taken into the check register (R6, steps 2 and 3). -/
def crcByte (r b : Byte) : Byte :=
  crcShift (crcShift (crcShift (crcShift (crcShift (crcShift (crcShift (crcShift (r ^^^ b))))))))

/-- The check byte over a list of bytes (R6). -/
def crc (bytes : List Byte) : Byte := bytes.foldl crcByte 0xFF#8

/-- The low n bytes of a value, most significant of them first (R4). -/
def lowBytes (v : Value) : Nat → List Byte
  | 0 => []
  | n + 1 => v.extractLsb' (8 * n) 8 :: lowBytes v n

/-- The bytes of a command frame before its check byte (R4). A WRITE carries its value (statement StepKeepsEngine). -/
def Transaction.body (t : Transaction) : List Byte :=
  [t.address ++ t.op.code, t.index, t.length.setWidth 8] ++
    (if t.op = .write then lowBytes (t.value.getD 0#32) t.length.toNat else [])

/-- The command frame of a transaction (R4). -/
def Transaction.frame (t : Transaction) : List Byte := t.body ++ [crc t.body]

/-- The expected length of the response frame, fixed from its header byte (R5). -/
def Transaction.expectedLength (t : Transaction) (header : Byte) : Nat :=
  if header.extractLsb' 0 3 = 1#3 ∧ (t.op = .read ∨ t.op = .fetch) then t.length.toNat + 2 else 2

/-- A value assembled from data bytes, most significant first, right-aligned in 32 bits (R5). -/
def assemble (bytes : List Byte) : Value :=
  bytes.foldl (fun acc b => (acc <<< 8) ||| b.setWidth 32) 0#32

/-! ## The line as the engine drives it (R1) -/

/-- LDIR is high exactly while a command frame is sent (R1, R10). -/
def State.ldir (s : State) : Bool := s.link.phase == .sending

/-- The frame on LTXD; an empty list is the mark level at rest (R1). -/
def State.lineFrame (s : State) : List Byte :=
  match s.link.phase, s.link.txn with
  | .sending, some t => t.frame
  | _, _ => []

/-! ## Taking a transaction -/

/-- The write value handed over with an operation: for a WRITE only (R8, R39). -/
def Op.writeValue (op : Op) (v : Value) : Option Value := if op = .write then some v else none

/-- The moment that lies the given number of byte times ahead at a link rate. -/
def State.afterBytes (s : State) (rate : LinkRate) (n : Nat) : Nat := s.now + rate.byteTime * n

/-- An attempt begins: the engine enters SENDING and the frame takes one byte time a byte (R3, R10). -/
def startAttempt (t : Transaction) (s : State) : State :=
  { s with link := { s.link with
      phase := .sending, txn := some t, timer := some (s.afterBytes t.rate t.frame.length),
      rx := [], endWatch := false } }

/-- The item waits for a conversion: CONVERTING or FETCH_WAIT (R99). -/
def ItemRun.waits (it : ItemRun) : Bool := it.phase == .converting || it.phase == .fetchWait

/-- The start notice reaches the suspended item (R99). -/
def touchSuspended (a : BitVec 5) (s : State) : State :=
  match s.seq.suspended with
  | some r =>
    if (s.stationOf r.item).address = a then
      { s with seq := { s.seq with suspended := some { r with touched := true } } }
    else s
  | none => s

/-- The start notice reaches the active item, when it waits (R99). -/
def touchActive (a : BitVec 5) (s : State) : State :=
  match s.seq.item with
  | some it =>
    if it.waits ∧ (s.stationOf it.item).address = a then
      { s with seq := { s.seq with item := some { it with touched := true } } }
    else s
  | none => s

/-- The transaction-start notice: it touches waiting items and makes the direct slot ACTIVE (R9, R99, R143). -/
def startNotice (t : Transaction) (s : State) : State :=
  match t.requester with
  | .sequencer => touchSuspended t.address s
  | .direct tag =>
    let s' := touchActive t.address (touchSuspended t.address s)
    { s' with direct := { s'.direct with
        slots := s'.direct.slots.set tag { s'.direct.slots[tag] with state := .active } } }

/-- The engine takes a transaction: it reads the link rate, sets attempt 1, gives the start notice and enters
SENDING (R8, R9). -/
def takeTransaction (requester : Requester) (address : BitVec 5) (op : Op) (index : Byte) (length : BitVec 3)
    (value : Option Value) (params : Params) (s : State) : State :=
  let t : Transaction :=
    { requester := requester, address := address, op := op, index := index, length := length, value := value,
      params := params, rate := s.link.rate, attempt := 1, orphan := false }
  startAttempt t (startNotice t s)

/-! ## The response -/

/-- The result of an attempt (R14). -/
inductive AttemptResult where
  /-- The value is present for an ACK to READ or FETCH only (R13). -/
  | ack (value : Option Value)
  | busy
  | reject
  | timeout
  | corrupt
  deriving DecidableEq, Repr

/-- A complete response is judged at the end of the end watch (R13). An ACK to READ or FETCH keeps the value
assembled from its data bytes (R5). -/
def Transaction.judge (t : Transaction) (rx : List RxByte) : AttemptResult :=
  let bytes := rx.map (·.value)
  let header := bytes.headD 0#8
  let before := bytes.dropLast
  if rx.any (·.framingError) || bytes.getLastD 0#8 != crc before || header.extractLsb' 3 5 != t.address then
    .corrupt
  else
    match (header.extractLsb' 0 3).toNat with
    | 1 => .ack (if t.op = .read ∨ t.op = .fetch then some (assemble (before.drop 1)) else none)
    | 2 => .busy
    | 3 => .reject
    | _ => .corrupt

/-- The engine waits four byte times before the next attempt (R15). -/
def enterSettle (t : Transaction) (s : State) : State :=
  { s with link := { s.link with
      phase := .settle, timer := some (s.afterBytes t.rate 4), rx := [], endWatch := false } }

/-- The engine waits the busy backoff before the next attempt (R15). -/
def enterBackoff (t : Transaction) (s : State) : State :=
  { s with link := { s.link with
      phase := .backoff, timer := some (s.after t.params.backoff.toNat), rx := [], endWatch := false } }

/-- SETTLE or BACKOFF ends: the attempt number rises and the same frame is sent again (R15). -/
def nextAttempt (s : State) : State :=
  match s.link.txn with
  | some t => startAttempt { t with attempt := t.attempt + 1 } s
  | none => s

/-- The engine drops its transaction and enters IDLE (R17, R21). -/
def engineIdle (s : State) : State :=
  { s with link := { s.link with phase := .idle, txn := none, timer := none, rx := [], endWatch := false } }

/-- Attempts remain: the attempt number is less than the retry limit plus one (R14). -/
def Transaction.attemptsRemain (t : Transaction) : Bool := t.attempt < t.params.retry.toNat + 1

end Sys2Proof.Machine
end

