-- ==== Sys2Proof/Machine/Results.lean ====
section
/-! DEFINITION. The Result Store's operations: slot updates, offers to the completion queue, the hold list,
pops and captures (chapter 9). -/

namespace Sys2Proof.Machine

/-! ## Result slots -/

/-- A completion handed over by the Sequencer (R68). -/
structure Completion where
  chain : Chain
  position : Nat
  item : Nat
  outcome : ItemOutcome
  slot : Option (Fin 64)
  post : Post
  restarts : Nat
  value : Option Value
  passNumber : BitVec 16
  deriving DecidableEq, Repr

/-- A slot written by a completion of any outcome but ABORTED (R162). -/
def ResultSlot.written (r : ResultSlot) (c : Completion) : ResultSlot :=
  { value := match c.outcome, c.value with
      | .done, some v => v
      | _, _ => r.value
    outcome := some c.outcome
    state := .fresh
    overwritten := r.state == .fresh
    writer := c.chain
    passNumber := c.passNumber }

/-- The slot a completion names is updated; an ABORTED completion and a slot of NONE write nothing (R162). -/
def writeSlot (c : Completion) (s : State) : State :=
  match c.slot with
  | none => s
  | some k =>
    if c.outcome = .aborted then s
    else { s with results := { s.results with slots := s.results.slots.set k ((s.results.slots[k]).written c) } }

/-- The outcome is a failure: neither DONE nor ABORTED (R164, R68). -/
def ItemOutcome.isFailure : ItemOutcome → Bool
  | .done => false
  | .aborted => false
  | _ => true

/-! ## The completion queue -/

/-- A record was produced by an abort (R173). -/
def Record.isAbort : Record → Bool
  | .item r => r.outcome == .aborted
  | .passEnd _ _ _ aborted => aborted
  | .injEnd _ _ _ aborted => aborted

/-- A record enters the queue at its tail; into an empty queue, QUEUE_DATA is raised (R167). -/
def enqueue (r : Record) (s : State) : State :=
  let s' := { s with results := { s.results with queue := s.results.queue ++ [r] } }
  if s.results.queue = [] then raise .queueData s' else s'

/-- A record is discarded, counted and reported (R172). -/
def discard (s : State) : State :=
  raise .recordDropped
    { s with results := { s.results with
        drops := if s.results.drops = Config.dropLimit then s.results.drops else s.results.drops + 1#16 } }

/-- A record joins the hold list; the first one puts the Sequencer in QUEUE_WAIT and raises QUEUE_STALL
(R170, R79). -/
def holdRecord (r : Record) (s : State) : State :=
  let s' := { s with results := { s.results with hold := s.results.hold ++ [r] } }
  if s.results.hold = [] then
    raise .queueStall { s' with seq := { s'.seq with top := .queueWait } }
  else s'

/-- The queue has room for a record. -/
def State.queueHasRoom (s : State) : Bool := s.results.queue.length < Config.queueCapacity

/-- A record is offered: it enters, is held, or is discarded (R167, R170, R172, R173). -/
def offer (r : Record) (s : State) : State :=
  if s.queueHasRoom && s.results.hold == [] then enqueue r s
  else if r.isAbort || s.results.policy == .drop then discard s
  else holdRecord r s

/-- A held record posted by DISARM enters if there is room and is discarded otherwise (R174). -/
def postRecord (s : State) (r : Record) : State :=
  if s.queueHasRoom then enqueue r s else discard s

/-- DISARM posts the hold list, head first (R174). -/
def postHoldList (s : State) : State :=
  s.results.hold.foldl postRecord { s with results := { s.results with hold := [] } }

/-! ## Completions and run ends -/

/-- The ITEM record of a completion (R165). -/
def Completion.record (c : Completion) : Record :=
  .item { chain := c.chain, position := c.position, item := c.item, outcome := c.outcome, slot := c.slot,
          restarts := c.restarts, value := c.value, passNumber := c.passNumber }

/-- The post option calls for an ITEM record (R165). -/
def Post.calls (p : Post) (o : ItemOutcome) : Bool :=
  match p with
  | .always => true
  | .errors => o != .done
  | .never => false

/-- The Result Store takes a completion: the slot, ITEM_ERROR, the ITEM record (R162, R164, R165). -/
def takeCompletion (c : Completion) (s : State) : State :=
  let s1 := writeSlot c s
  let s2 := if c.outcome.isFailure then raise .itemError s1 else s1
  if c.post.calls c.outcome then offer c.record s2 else s2

/-- A chain's last-pass mask becomes its run's running mask (R175). -/
def copyMask (c : Chain) (m : BitVec 64) (s : State) : State :=
  match c with
  | .normal => { s with results := { s.results with normalMask := m } }
  | .inj k => { s with results := { s.results with injMasks := s.results.injMasks.set k (m.setWidth 16) } }

/-! ## The host's reads with side effects -/

/-- The oldest record leaves the queue for the record view; an empty queue gives kind NONE (R168). -/
def popRecord (s : State) : State :=
  match s.results.queue with
  | [] => { s with results := { s.results with view := none } }
  | r :: rest => { s with results := { s.results with view := some r, queue := rest } }

/-- The head of the hold list enters the queue (R171). -/
def moveHeld (s : State) : State :=
  match s.results.hold with
  | [] => s
  | r :: rest => enqueue r { s with results := { s.results with hold := rest } }

/-- The selected slot is copied into the snapshot view and marked SEEN unless it is EMPTY (R163). -/
def captureSlot (s : State) : State :=
  let k := s.results.resultSelect
  let r := s.results.slots[k]
  { s with results := { s.results with
      snapshot := { slot := k, content := r },
      slots := s.results.slots.set k
        (if r.state = .empty then r else { r with state := .seen, overwritten := false }) } }

end Sys2Proof.Machine
end

