-- ==== Sys2Proof/Machine/Stations.lean ====
section
/-! DEFINITION. The Station Table's operations: the match by link address, health, and the health update at
the end of a transaction (chapter 2). -/

namespace Sys2Proof.Machine

/-- The entry matches the link address (R23). -/
def StationEntry.matchesAddress (e : StationEntry) (a : BitVec 5) : Bool :=
  e.enabled && e.address != 0#5 && e.address == a

/-- The entry that matches a link address; by R29 there is at most one (R23). -/
def State.matchEntry (s : State) (a : BitVec 5) : Option (Fin 16) :=
  (List.finRange 16).find? fun e => (s.stations.entries[e]).matchesAddress a

/-- The health of an entry (R31). -/
inductive Health where
  | online
  | suspect
  | offline
  deriving DecidableEq, Repr

/-- Health follows from the count and the failure limit (R31). -/
def State.health (s : State) (e : Fin 16) : Health :=
  if s.stations.failures[e] = 0#4 then .online
  else if s.stations.failures[e] = (s.stations.entries[e]).failLimit then .offline
  else .suspect

/-- The health code of section 10.7. -/
def Health.code : Health → Nat
  | .online => 0
  | .suspect => 1
  | .offline => 2

/-- The Sequencer's health query answers OFFLINE for the station of an item (R36). -/
def State.itemOffline (s : State) (item : Nat) : Bool := s.health (s.itemAt item).station == .offline

/-- The entry's count is replaced. -/
def setFailures (e : Fin 16) (n : BitVec 4) (s : State) : State :=
  { s with stations := { s.stations with failures := s.stations.failures.set e n } }

/-- The outcome is a well-formed reply: DONE, REJECTED or BUSY_LIMIT (R32). -/
def TxnOutcome.heard : TxnOutcome → Bool
  | .done => true
  | .rejected => true
  | .busyLimit => true
  | .noResponse => false
  | .badFrame => false

/-- An entry's count moves by an outcome, raising STATION_OFFLINE or STATION_BACK (R32, R33, R34). -/
def moveHealth (e : Fin 16) (o : TxnOutcome) (s : State) : State :=
  let count := s.stations.failures[e]
  let limit := (s.stations.entries[e]).failLimit
  if o.heard then
    if s.health e = .offline then raise .stationBack (setFailures e 0#4 s) else setFailures e 0#4 s
  else if count.toNat < limit.toNat then
    let s' := setFailures e (count + 1#4) s
    if count.toNat + 1 = limit.toNat then raise .stationOffline s' else s'
  else s

/-- The Station Table takes a transaction-end notice (R32). -/
def noticeHealth (a : BitVec 5) (o : TxnOutcome) (s : State) : State :=
  match s.matchEntry a with
  | some e => moveHealth e o s
  | none => s

/-- An entry is replaced by a write that is taken, which resets its health (R30). -/
def writeEntry (new : StationEntry) (s : State) : State :=
  { s with stations := { s.stations with
      entries := s.stations.entries.set s.stations.select new,
      failures := s.stations.failures.set s.stations.select 0#4 } }

/-- Another enabled entry holds this nonzero link address (R29). -/
def State.addressTaken (s : State) (a : BitVec 5) : Bool :=
  (List.finRange 16).any fun e => e != s.stations.select && (s.stations.entries[e]).matchesAddress a

/-- The selected entry with the fields of a written field word, none when a value is out of range (R28). -/
def applyStationField (f : StationField) (w : Word) (e : StationEntry) : Option StationEntry :=
  match f with
  | .addressEnable => some { e with enabled := flagAt w 15, address := cut w 0 5 }
  | .responseTimeout =>
    if 2 ≤ (cut w 0 9).toNat ∧ (cut w 0 9).toNat ≤ 500 then some { e with timeout := cut w 0 9 } else none
  | .limits =>
    if cut w 8 4 = 0#4 then none else some { e with failLimit := cut w 8 4, retry := cut w 0 3 }
  | .busyBackoff => if cut w 0 8 = 0#8 then none else some { e with backoff := cut w 0 8 }
  | .conversionTime => some { e with convTime := cut w 0 16 }

/-- The write would leave the selected entry enabled with a nonzero address another enabled entry holds. Only
the address and enabled word is checked (R29). -/
def State.duplicates (s : State) (f : StationField) (new : StationEntry) : Bool :=
  f == .addressEnable && new.enabled && new.address != 0#5 && s.addressTaken new.address

end Sys2Proof.Machine
end

