-- ==== Sys2Proof/Machine/Sequencing.lean ====
section
/-! DEFINITION. The Sequencer's operations: items beginning and completing, passes, injected runs, suspension
and restore, starts, and the early ends of the abort commands (chapters 4, 5 and 8). -/

namespace Sys2Proof.Machine

/-! ## Small updates of the Sequencer's state -/

/-- The top state becomes t. -/
def setTop (t : Top) (s : State) : State := { s with seq := { s.seq with top := t } }

/-- The active context becomes c. -/
def setActive (c : Context) (s : State) : State := { s with seq := { s.seq with active := c } }

/-- The current item becomes it. -/
def setItem (it : Option ItemRun) (s : State) : State := { s with seq := { s.seq with item := it } }

/-- The suspension record becomes r. -/
def setSuspended (r : Option Suspension) (s : State) : State := { s with seq := { s.seq with suspended := r } }

/-- The Sequencer's notice that tenure begins or ends (R69, R128). -/
def setTenure (b : Bool) (s : State) : State := { s with arb := { s.arb with tenure := b } }

/-- The NORMAL pass context becomes p. -/
def setPass (p : PassContext) (s : State) : State := { s with seq := { s.seq with pass := p } }

/-- The injected run context becomes r. -/
def setInjRun (r : Option RunContext) (s : State) : State := { s with seq := { s.seq with injRun := r } }

/-- The run context of a chain is changed (R59). For an injected chain it is the one that runs. -/
def updateRun (c : Chain) (f : RunContext → RunContext) (s : State) : State :=
  match c with
  | .normal => setPass { s.seq.pass with run := f s.seq.pass.run } s
  | .inj _ => setInjRun (s.seq.injRun.map f) s

/-- The run context of a chain; an injected chain without one reads as a fresh context. -/
def State.runOf (s : State) : Chain → RunContext
  | .normal => s.seq.pass.run
  | .inj _ => s.seq.injRun.getD {}

/-! ## Items -/

/-- The item at the active run's position begins: GRANT_WAIT, restart count 0, touched clear (R62). -/
def beginItem (c : Chain) (s : State) : State :=
  setItem (some { item := s.itemNumber c (s.runOf c).position, position := (s.runOf c).position }) s

/-- The completion of an item run, as handed to the Result Store (R68). -/
def State.completionOf (s : State) (c : Chain) (it : ItemRun) (o : ItemOutcome) (v : Option Value) : Completion :=
  { chain := c, position := it.position, item := it.item, outcome := o,
    slot := (s.itemAt it.item).slot, post := (s.itemAt it.item).post, restarts := it.restarts,
    value := v, passNumber := if c = .normal then s.seq.pass.number else 0#16 }

/-- A completion in its run context: the position's flag is set and a count rises (R68). -/
def RunContext.completed (r : RunContext) (position : Nat) (o : ItemOutcome) : RunContext :=
  { r with
    mask := r.mask ||| (1#64 <<< position)
    done := if o = .done then r.done + 1 else r.done
    errors := if o.isFailure then r.errors + 1 else r.errors }

/-- The item of a chain completes: the Result Store takes it, the run context counts it (R68, R150). -/
def completeItem (c : Chain) (it : ItemRun) (o : ItemOutcome) (v : Option Value) (s : State) : State :=
  let s1 := takeCompletion (s.completionOf c it o v) s
  let s2 := updateRun c (fun r => r.completed it.position o) s1
  { s2 with seq := { s2.seq with lastItem := it.item, lastPosition := it.position } }

/-- The current item completes: its timer stops, its request is withdrawn and its tenure ends (R68, R69, R150). -/
def finishItem (c : Chain) (it : ItemRun) (o : ItemOutcome) (v : Option Value) (s : State) : State :=
  setTenure false (setItem none (completeItem c it o v s))

/-! ## Passes and runs -/

/-- A NORMAL pass begins (R72): number, mask, counts and position; from IDLE the Sequencer is RUNNING with
NORMAL active, with no active context NORMAL stands at a boundary, behind an injected chain it is set aside. -/
def beginPass (s : State) : State :=
  let s1 := setPass { s.seq.pass with
    present := true, number := s.seq.pass.number + 1#16,
    run := { position := (s.nextExpected .normal 0).getD 0 } } s
  let s2 := if s1.seq.active = .none then setActive .normal s1 else s1
  if s2.seq.top = .idle then setTop .running s2 else s2

/-- A NORMAL pass ends (R74): mask, PASS_END record, PASS_END event, pass-boundary notice (R131). Outside SEQ_FIRST
the notice changes nothing: a grant flag still set from an earlier arming in SEQ_FIRST stays as it is, where R131's
words "leaves the flag clear" could be read as clearing it (DESIGN CHOICE, log entry 25). -/
def endPass (aborted : Bool) (s : State) : State :=
  let run := s.seq.pass.run
  let s1 := copyMask .normal run.mask s
  let s2 := offer (.passEnd s.seq.pass.number run.done run.errors aborted) s1
  let s3 := raise .passEnd s2
  let s4 := if s3.arb.mode = .seqFirst then { s3 with arb := { s3.arb with boundaryGrant := true } } else s3
  setPass { s4.seq.pass with present := false, run := { run with chainAbort := false } } s4

/-- A new pass follows the end of a pass (R75, R154). -/
def State.passFollows (s : State) : Bool :=
  match s.tables.normalMode with
  | .oneShot => s.seq.pass.startPending
  | .continuous => !s.seq.pass.stopAfter

/-- What follows the end of the active NORMAL pass (R75, R154): the flag that decided is cleared, and either a
new pass begins with NORMAL active or no context is active. -/
def followPass (s : State) : State :=
  let follows := s.passFollows
  let s1 := setPass { s.seq.pass with
    startPending := if s.tables.normalMode = .oneShot then false else s.seq.pass.startPending,
    stopAfter := if s.tables.normalMode = .continuous then false else s.seq.pass.stopAfter } s
  let s2 := setItem none s1
  if follows then beginPass (setActive .normal s2) else setActive .none s2

/-- The active context an injected run leaves when it ends, of itself or by ABORT_CHAIN (R97, R98). It stays INJ k with
its run ended until the hand-over, but in QUEUE_WAIT with no suspension record NORMAL is active at its boundary where a
pass is set aside, and else no context is. R155's "stays INJ k with its run ended, by R98" is read as R98's first case
(DEDUCED, log entry 7). -/
def State.contextAfterRun (s : State) : Context :=
  if s.seq.top = .queueWait ∧ s.seq.suspended = none then
    if s.seq.pass.present then .normal else .none
  else s.seq.active

/-- The run of INJ k ends (R96): mask, INJ_END record, INJ_END event, and the active context it leaves (R97, R98). -/
def endInjRun (k : Fin 8) (aborted : Bool) (s : State) : State :=
  let run := s.runOf (.inj k)
  let s1 := copyMask (.inj k) run.mask s
  let s2 := offer (.injEnd k run.done run.errors aborted) s1
  let s3 := setInjRun none (setItem none (raise .injEnd s2))
  setActive s3.contextAfterRun s3

/-- A chain's run ends, with what follows for NORMAL (R74, R96). -/
def endRun (c : Chain) (aborted : Bool) (s : State) : State :=
  match c with
  | .normal => followPass (endPass aborted s)
  | .inj k => endInjRun k aborted s

/-- After a completion the position advances to the next expected one, or the run ends (R73, R95). -/
def advance (c : Chain) (s : State) : State :=
  match s.nextExpected c ((s.runOf c).position + 1) with
  | some p => updateRun c (fun r => { r with position := p }) s
  | none => endRun c false s

/-- The current item completes and its run goes on (R68, R73, R95). -/
def completeCurrent (c : Chain) (it : ItemRun) (o : ItemOutcome) (v : Option Value) (s : State) : State :=
  advance c (finishItem c it o v s)

/-! ## Injection, hand-over and restore -/

/-- The lowest pending chain is taken: it leaves the set and its run begins (R86, R94). -/
def takeLowest (s : State) : State :=
  match s.lowestPending with
  | none => s
  | some k =>
    let s1 : State := { s with seq := { s.seq with
      top := .running, active := .inj k,
      pendingSet := s.seq.pendingSet &&& ~~~(1#8 <<< k.val),
      injRun := some { position := (s.nextExpected (.inj k) 0).getD 0 },
      item := none } }
    beginItem (.inj k) s1

/-- An injection may break into NORMAL here: at a boundary, in GRANT_WAIT with restart count 0, in CONVERTING
and in FETCH_WAIT (section 5.2, R88, R89, R90). -/
def State.normalYields (s : State) : Bool :=
  match s.seq.item with
  | none => true
  | some it =>
    match it.phase with
    | .grantWait => it.restarts == 0
    | .converting => true
    | .fetchWait => true
    | _ => false

/-- NORMAL is set aside: an item that waits for its first grant is discarded uncharged, an item that waits for
its conversion goes into the suspension record with its tenure ended (R88, R89, R92). -/
def setAside (s : State) : State :=
  match s.seq.item with
  | none => s
  | some it =>
    if it.waits then
      setTenure false (setItem none (setSuspended (some
        { item := it.item, position := it.position, fetchDue := it.phase == .fetchWait, ackTime := it.ackTime,
          convDue := it.convDue, restarts := it.restarts, touched := it.touched }) s))
    else setItem none s

/-- An IDLE or RUNNING Sequencer whose active context is not an injected chain goes on: a pending chain is
taken where it may break in, NORMAL's next item begins, or the Sequencer is IDLE (R62, R86, R87, R88, R58). -/
def proceed (s : State) : State :=
  match s.seq.top with
  | .idle | .running =>
    match s.seq.active with
    | .none => if s.seq.pendingSet = 0#8 then setTop .idle s else takeLowest s
    | .normal =>
      if s.seq.pendingSet ≠ 0#8 ∧ s.normalYields then takeLowest (setAside s)
      else if s.seq.item = none then beginItem .normal s else s
    | .inj _ => s
  | _ => s

/-- The item run a suspension record stands for (R92). -/
def Suspension.toRun (r : Suspension) : ItemRun :=
  { item := r.item, position := r.position, phase := if r.fetchDue then .fetchWait else .converting,
    restarts := r.restarts, touched := r.touched, ackTime := r.ackTime, convDue := r.convDue }

/-- An item restarted from SAMPLE: the count rises, the flag is cleared, the timer stops, and it is in
GRANT_WAIT (R102). -/
def ItemRun.restarted (it : ItemRun) : ItemRun :=
  { it with phase := .grantWait, restarts := it.restarts + 1, touched := false, convDue := none }

/-- The suspended item is restored (R100): OFFLINE, restart, STARVED or resumed, in the order of the checks. -/
def restore (r : Suspension) (s : State) : State :=
  let s1 := setActive .normal (setSuspended none s)
  if s.itemOffline r.item then proceed (completeCurrent .normal r.toRun .offline none s1)
  else if r.touched then
    if r.restarts < Config.restartLimit then setItem (some r.toRun.restarted) s1
    else proceed (completeCurrent .normal r.toRun .starved none s1)
  else setItem (some r.toRun) s1

/-- The hand-over at the end of an injected run (R97): the next pending chain, the restore, NORMAL at its
boundary, or IDLE. -/
def handOver (s : State) : State :=
  if s.seq.pendingSet ≠ 0#8 then takeLowest s
  else
    match s.seq.suspended with
    | some r => restore r s
    | none =>
      if s.seq.pass.present then beginItem .normal (setActive .normal s)
      else setTop .idle (setActive .none s)

/-- An IDLE or RUNNING Sequencer goes on with what its state calls for, in the happening that left it so
(R62, R86, R97); in any other top state nothing begins (R79). -/
def schedule (s : State) : State :=
  match s.seq.top with
  | .idle | .running =>
    match s.seq.active, s.seq.injRun with
    | .inj _, none => handOver s
    | .inj k, some _ => if s.seq.item = none then beginItem (.inj k) s else s
    | _, _ => proceed s
  | _ => s

/-! ## Transactions of the current item -/

/-- The current item hands its transaction to the Link Engine, built from the descriptor and the station entry
(R24, R40); the write value goes with a WRITE only (R8, R39). -/
def sendFor (it : ItemRun) (op : Op) (s : State) : State :=
  let d := s.itemAt it.item
  let e := s.stationOf it.item
  takeTransaction .sequencer e.address op d.index d.length (op.writeValue d.value)
    { timeout := e.timeout, retry := e.retry, backoff := e.backoff } s

/-- The first transaction of an item's kind (R40). -/
def ItemKind.firstOp : ItemKind → Op
  | .write => .write
  | .sampleFetch => .sample
  | _ => .read

/-- The end notice of the current item's transaction moves the item (R64, R65, R67, R152, R153). -/
def itemTransactionEnd (c : Chain) (it : ItemRun) (o : TxnOutcome) (v : Option Value) (s : State) : State :=
  if it.abortMark then
    if (s.runOf c).chainAbort then endRun c true (finishItem c it .aborted none s)
    else completeCurrent c it .aborted none s
  else
    match it.phase with
    | .onLink =>
      if (s.itemAt it.item).kind = .sampleFetch ∧ o = .done then
        let time := (s.stationOf it.item).convTime.toNat
        setItem (some { it with
          phase := if time = 0 then .fetchWait else .converting, touched := false, ackTime := s.now,
          convDue := if time = 0 then none else some (s.after time) }) s
      else completeCurrent c it o.toItem v s
    | .onLinkFetch => completeCurrent c it o.toItem v s
    | _ => s

/-- The Sequencer takes an end notice: an orphaned transaction's is discarded and ends STOPPING; any other
belongs to the current item (R64, R157, R160). The injection point it may leave is looked at once (R86). -/
def seqEndNotice (t : Transaction) (o : TxnOutcome) (v : Option Value) (s : State) : State :=
  if t.orphan then
    if s.seq.top = .stopping then raise .seqStopped (setTop .stopped s) else s
  else
    match s.seq.active.chain, s.seq.item with
    | some c, some it => schedule (itemTransactionEnd c it o v s)
    | _, _ => s

/-! ## Starts -/

/-- A start delivered to NORMAL in ONE_SHOT mode (R76). -/
def startNormal (s : State) : Answer × State :=
  if s.seq.pass.present then
    if s.seq.pass.startPending then (.overrun, dropStart .normal s)
    else (.queued, setPass { s.seq.pass with startPending := true } s)
  else (.accepted, beginPass s)

/-- INJ k joins the pending-injection set (R85). -/
def joinPending (k : Fin 8) (s : State) : State :=
  { s with seq := { s.seq with pendingSet := s.seq.pendingSet ||| (1#8 <<< k.val) } }

/-- A start delivered alone to INJ k, with the answer of R85. -/
def startInjected (k : Fin 8) (s : State) : Answer × State :=
  if s.isPending k then (.overrun, dropStart (.inj k) s)
  else
    let s' := schedule (joinPending k s)
    (if s'.isPending k then .queued else .accepted, s')

/-! ## Aborts -/

/-- The transaction with the engine takes the orphan mark (R157). -/
def orphanTransaction (s : State) : State :=
  { s with link := { s.link with txn := s.link.txn.map fun t => { t with orphan := true } } }

/-- The current item as R153 and R156 treat it when its run ends early: one that has sent nothing is dropped
without a completion, any other completes ABORTED, and a transaction on the wire is orphaned. -/
def abandonItem (c : Chain) (s : State) : State :=
  match s.seq.item with
  | none => s
  | some it =>
    match it.phase with
    | .grantWait => if it.restarts = 0 then setItem none s else finishItem c it .aborted none s
    | .converting => finishItem c it .aborted none s
    | .fetchWait => finishItem c it .aborted none s
    | .onLink => orphanTransaction (finishItem c it .aborted none s)
    | .onLinkFetch => orphanTransaction (finishItem c it .aborted none s)

/-- The current item has a transaction with the Link Engine. -/
def State.itemOnLink (s : State) : Bool :=
  match s.seq.item with
  | some it => it.phase == .onLink || it.phase == .onLinkFetch
  | none => false

/-- Step 1 of ABORT_ALL: an injected run in progress ends early (R156). -/
def abortInjected (s : State) : State :=
  match s.seq.active, s.seq.injRun with
  | .inj k, some _ => endInjRun k true (abandonItem (.inj k) s)
  | _, _ => s

/-- Step 2 of ABORT_ALL: the suspended item completes ABORTED and its record ends (R156). -/
def abortSuspended (s : State) : State :=
  match s.seq.suspended with
  | some r => setSuspended none (completeItem .normal r.toRun .aborted none s)
  | none => s

/-- Step 3 of ABORT_ALL: a NORMAL pass that is present ends early, and none follows (R156). The flag says
whether NORMAL was the active context when the command was taken. -/
def abortPass (normalActive : Bool) (s : State) : State :=
  if s.seq.pass.present then endPass true (if normalActive then abandonItem .normal s else s) else s

/-- Steps 4 and 5 of ABORT_ALL: waiting work is removed and no context is active; the Sequencer is IDLE, or
QUEUE_WAIT while records are held (R156). -/
def clearWork (s : State) : State :=
  { s with
    seq := { s.seq with
      top := if s.results.hold = [] then .idle else .queueWait
      active := .none, item := none, injRun := none, suspended := none, pendingSet := 0#8
      pass := { s.seq.pass with startPending := false, stopAfter := false } }
    arb := { s.arb with tenure := false } }

/-- The work of ABORT_ALL, in the order of R156's steps; its records go to the Result Store (DEDUCED, log entry 9). -/
def abortEverything (s : State) : State :=
  clearWork (abortPass (s.seq.active == .normal) (abortSuspended (abortInjected s)))

/-- QUEUE_WAIT ends when the hold list is empty: RUNNING with an active context, IDLE with none, and the work
that waits begins (R58, R79, R91, R98). -/
def endQueueWait (s : State) : State :=
  if s.seq.top = .queueWait ∧ s.results.hold = [] then
    schedule (setTop (if s.seq.active = .none then .idle else .running) s)
  else s

end Sys2Proof.Machine
end

