-- ==== Sys2Proof/Machine/Arbitration.lean ====
section
/-! DEFINITION. The Link Arbiter's operations: grants, decisions, lock groups, the Direct Request Unit's
hand-over and the end of a transaction (chapter 7, R14, R17). -/

namespace Sys2Proof.Machine

/-! ## Small updates -/

/-- The lock state becomes k. -/
def setLock (k : Lock) (s : State) : State := { s with arb := { s.arb with lock := k } }

/-- A direct slot is replaced. -/
def setSlot (t : Fin 4) (d : DirectSlot) (s : State) : State :=
  { s with direct := { s.direct with slots := s.direct.slots.set t d } }

/-- The service-order list becomes l. -/
def setOrder (l : List (Fin 4)) (s : State) : State := { s with direct := { s.direct with order := l } }

/-- The request of a slot carries URGENT. -/
def State.urgent (s : State) (t : Fin 4) : Bool := (s.direct.slots[t]).request.urgent

/-- The request of a slot carries LOCK. -/
def State.carriesLock (s : State) (t : Fin 4) : Bool := (s.direct.slots[t]).request.lock

/-- The first entry of the service-order list that is not URGENT (R128, R135). -/
def State.firstPlain (s : State) : Option (Fin 4) := s.direct.order.find? fun t => !s.urgent t

/-! ## Grants to the Sequencer -/

/-- The grant is given back unused: the item completes without traffic and the pause of one interval unit runs
(R63, R105, R129). -/
def giveBack (c : Chain) (it : ItemRun) (o : ItemOutcome) (s : State) : State :=
  schedule (completeCurrent c it o none { s with arb := { s.arb with pause := some (s.after 1) } })

/-- The item's transaction is handed over with this grant: tenure begins or goes on (R63, R66, R69, R102). -/
def sendWithGrant (it : ItemRun) (phase : Phase) (op : Op) (s : State) : State :=
  sendFor it op (setTenure true (setItem (some { it with phase := phase }) s))

/-- The Sequencer acts on a grant for an item in GRANT_WAIT (R63, R102). -/
def grantFirst (c : Chain) (it : ItemRun) (s : State) : State :=
  if s.itemOffline it.item then giveBack c it .offline s
  else sendWithGrant it .onLink (s.itemAt it.item).kind.firstOp s

/-- The Sequencer acts on a grant for an item in FETCH_WAIT: health, touched flag, FETCH (R105). -/
def grantFetch (c : Chain) (it : ItemRun) (s : State) : State :=
  if s.itemOffline it.item then giveBack c it .offline s
  else if it.touched then
    if it.restarts < Config.restartLimit then sendWithGrant it.restarted .onLink .sample s
    else giveBack c it .starved s
  else sendWithGrant it .onLinkFetch .fetch s

/-- A grant to the Sequencer: the last grantee is SEQUENCER and the pass-boundary grant flag is cleared
(R131, R132); the Sequencer takes it for its current item (R129). -/
def grantSequencer (s : State) : State :=
  let s1 := { s with arb := { s.arb with lastGrantee := .sequencer, boundaryGrant := false } }
  match s1.seq.active.chain, s1.seq.item with
  | some c, some it =>
    match it.phase with
    | .grantWait => grantFirst c it s1
    | .fetchWait => grantFetch c it s1
    | _ => s1
  | _, _ => s1

/-! ## Grants to the Direct Request Unit -/

/-- The parameter set of a direct transaction: the matching entry's, or the direct defaults (R25, R26). -/
def State.directParams (s : State) (a : BitVec 5) : Params :=
  match s.matchEntry a with
  | some e =>
    { timeout := (s.stations.entries[e]).timeout, retry := (s.stations.entries[e]).retry,
      backoff := (s.stations.entries[e]).backoff }
  | none => { timeout := s.direct.defTimeout, retry := s.direct.defRetry, backoff := Config.directBackoff }

/-- The lock state a direct grant leaves: HELD with the successor R135 names when the request carries LOCK;
within a group a request without LOCK keeps it HELD with no successor (R135, R136, R137). -/
def State.lockAfterGrant (s : State) (t : Fin 4) : Lock :=
  if s.carriesLock t then .held s.firstPlain
  else if s.arb.lock = .none then .none
  else .held none

/-- A grant to direct slot t: its tag leaves the list, the lock follows, and its request is handed to the Link
Engine, its data with a WRITE only (R8, R131, R132, R135, R143). -/
def grantDirect (t : Fin 4) (s : State) : State :=
  let s1 := setOrder (s.direct.order.erase t) s
  let s2 := setLock (s1.lockAfterGrant t) s1
  let s3 := if s2.urgent t then s2
    else { s2 with arb := { s2.arb with lastGrantee := .direct, boundaryGrant := false } }
  let r := (s3.direct.slots[t]).request
  takeTransaction (.direct t) r.address r.op r.index r.length (r.op.writeValue r.data) (s3.directParams r.address) s3

/-! ## Decisions -/

/-- A decision can be made: the engine is IDLE, no pause runs, the lock state is NONE (R130). -/
def State.canDecide (s : State) : Bool :=
  s.link.phase == .idle && s.arb.pause == none && s.arb.lock == .none

/-- The contested choice goes to the direct request (R132). -/
def State.directWins (s : State) : Bool :=
  match s.arb.mode with
  | .seqFirst => s.arb.boundaryGrant
  | .shared => s.arb.lastGrantee == .sequencer
  | .directFirst => true

/-- Whom a decision grants the link to. -/
inductive Grant where
  | none
  | sequencer
  | direct (tag : Fin 4)
  deriving DecidableEq, Repr

/-- The grant of a decision, by the first case of R133 that applies. -/
def State.decision (s : State) : Grant :=
  match s.direct.order with
  | [] => if s.seqRequest then .sequencer else .none
  | t :: _ =>
    if s.urgent t then .direct t
    else if s.arb.tenure then (if s.seqRequest then .sequencer else .none)
    else if s.seqRequest then (if s.directWins then .direct t else .sequencer)
    else .direct t

/-- No grant is left to a happening of its own any more. -/
def settleApart (s : State) : State := { s with arb := { s.arb with apart := false } }

/-- The arbiter decides in this happening, where a decision can be made (R130, R133). -/
def decideNow (s : State) : State :=
  if s.canDecide then
    match s.decision with
    | .none => settleApart s
    | .sequencer => grantSequencer (settleApart s)
    | .direct t => grantDirect t (settleApart s)
  else settleApart s

/-- A happening that can be followed by a decision has come to its end (R130; when it is asked: DEDUCED, log entry 10).
The decision is made in it, but for a grant to the Sequencer, which may be a happening of its own in the same moment: a
command taken before it finds the item in GRANT_WAIT or FETCH_WAIT and the engine free (R152, R159). Which of the two it
is, is free (DEDUCED, log entry 27). A happening taken in between that can be followed by a decision makes it, on the
requests as it leaves them (R130). -/
def arbitrate (s : State) : State :=
  if s.canDecide = true ∧ s.decision = .sequencer ∧ s.arb.apart = false ∧ Config.grantApart s.now s.seq = true then
    { s with arb := { s.arb with apart := true } }
  else decideNow s

/-! ## The end of a transaction -/

/-- The Direct Request Unit takes an end notice (R143). -/
def directEndNotice (t : Fin 4) (o : TxnOutcome) (v : Option Value) (s : State) : State :=
  raise .directDone (setSlot t { s.direct.slots[t] with
    state := .done, outcome := some o, value := v.getD 0#32 } s)

/-- A lock lapses: NONE, LOCK_LAPSED, and a decision in the same happening (R137, R138). -/
def lapse (s : State) : State := decideNow (raise .lockLapsed (setLock .none s))

/-- What the arbiter does when the transaction of direct slot t has ended (R130, R136, R138). -/
def afterDirect (t : Fin 4) (s : State) : State :=
  match s.arb.lock with
  | .held successor =>
    if s.carriesLock t then
      match successor with
      | some n => grantDirect n s
      | none => setLock (.window t (s.after s.arb.windowLength.toNat)) s
    else decideNow (setLock .none s)
  | .lapsing => lapse s
  | _ => arbitrate s

/-- A transaction ends (R17): the Station Table takes the notice, the engine is IDLE, the requester takes the
notice, and the arbiter learns that the engine is free (R8, R129). A grant to the Sequencer that follows is made in this
happening or as the next one, so that an ABORT_ITEM or a DISARM may find the next item in GRANT_WAIT (R152, R159; log
entry 27). -/
def endTransaction (t : Transaction) (o : TxnOutcome) (v : Option Value) (s : State) : State :=
  let s1 := engineIdle (noticeHealth t.address o s)
  match t.requester with
  | .sequencer => arbitrate (seqEndNotice t o v s1)
  | .direct tag => afterDirect tag (directEndNotice tag o v s1)

/-- An attempt has a result: the transaction ends, or the engine waits for the next attempt (R14, R16). -/
def attemptEnd (r : AttemptResult) (s : State) : State :=
  match s.link.txn with
  | none => s
  | some t =>
    match r with
    | .ack v => endTransaction t .done v s
    | .reject => endTransaction t .rejected none s
    | .timeout => if t.attemptsRemain then enterSettle t s else endTransaction t .noResponse none s
    | .corrupt => if t.attemptsRemain then enterSettle t s else endTransaction t .badFrame none s
    | .busy => if t.attemptsRemain then enterBackoff t s else endTransaction t .busyLimit none s

/-! ## Source events -/

/-- The chains a source event is delivered to (R117), each once; R53 makes every enabled entry's target an
enabled chain, and NORMAL in ONE_SHOT mode (log entry 18). -/
def State.targets (s : State) (src : Source) (c : Chain) : Bool :=
  s.trigger.entries.toList.any (fun e => e.enabled && e.source == src && e.target == c) &&
    (s.chainDef c).enabled && (c != .normal || s.tables.normalMode == .oneShot)

/-- The injected chains of a delivery, lowest first. -/
def State.injectedTargets (s : State) (src : Source) : List (Fin 8) :=
  [0, 1, 2, 3, 4, 5, 6, 7].filter fun k => s.targets src (.inj k)

/-- One start of a delivery to INJ k, taken against the set as it stood before the delivery (R117). -/
def deliverInjected (before : BitVec 8) (s : State) (k : Fin 8) : State :=
  if before.getLsbD k.val then dropStart (.inj k) s else joinPending k s

/-- A source event is handed to the trigger table and its targets to the Sequencer in one happening; with an
empty set of targets it delivers nothing (R117, R118, R119). A grant to the Sequencer that becomes possible is made in
this happening or as the next one (R152; log entry 27). -/
def deliver (src : Source) (s : State) : State :=
  if s.targets src .normal = false ∧ s.injectedTargets src = [] then s
  else
    let s1 := if s.targets src .normal then (startNormal s).2 else s
    let s2 := (s.injectedTargets src).foldl (deliverInjected s.seq.pendingSet) s1
    arbitrate (schedule s2)

end Sys2Proof.Machine
end

