-- ==== Sys2Proof/WellFormed.lean ====
section
/-! DEFINITION. Which terms of Instr are commands of the AS416: two rows of the table are defined by the
code or the address they carry (R182, R179); every other operand is in range by its type. -/

namespace Sys2Proof

/-- The word addresses the register summary (section 10.7) lists as writable in some way: RW, RW/S, W
and W1C words. A write to any other address is a READ_ONLY_WRITE (R179). -/
def writableAddresses : List Nat :=
  [0x02, 0x04, 0x05, 0x06, 0x07, 0x08, 0x09, 0x0A, 0x0B,
   0x18, 0x19, 0x1A, 0x1B, 0x1C, 0x1D,
   0x20, 0x21, 0x22, 0x23, 0x24, 0x25,
   0x28, 0x29, 0x2A, 0x2B,
   0x30, 0x31, 0x32, 0x33, 0x35,
   0x38, 0x39, 0x3A,
   0x40, 0x41, 0x42, 0x43, 0x44,
   0x50, 0x5F, 0x60]

/-- The address holds a read-only word or no word at all (R179). -/
def isReadOnlyAddress (a : Address) : Bool := !(writableAddresses.contains a.toNat)

/-- The code names no command: 0 or 14 to 255 (R182). -/
def isUnknownCode (code : Byte) : Bool := code.toNat == 0 || 14 ≤ code.toNat

/-- The term is a command of its row of the table. -/
def Instr.wellFormed : Instr → Bool
  | .unknownCommand code _ => isUnknownCode code
  | .readOnlyWrite a _ => isReadOnlyAddress a
  | _ => true

end Sys2Proof
end

