-- ==== Sys2Proof/Machine/Commands.lean ====
section
/-! DEFINITION. The commands of the command word (R182): ARM to SOFT_RESET and the unknown codes. Each writes
its answer into the command status in the happening of the write (R183). -/

namespace Sys2Proof.Machine

/-- The low four bits of an argument as written, the detail of TRIGGER, REVIVE, CANCEL and RELEASE (R183). -/
def argDetail (arg : Byte) : BitVec 4 := arg.extractLsb' 0 4

/-! ## ARM (R49 to R55, R60) -/

/-- The nine chains in the order of the chain checks (R49). -/
def chainOrder : List Chain :=
  [.normal, .inj 0, .inj 1, .inj 2, .inj 3, .inj 4, .inj 5, .inj 6, .inj 7]

/-- The item lies in the range of at least one enabled chain (R50). -/
def State.inEnabledChain (s : State) (n : Nat) : Bool :=
  chainOrder.any fun c =>
    (s.chainDef c).enabled && (s.chainDef c).first.toNat ≤ n &&
      n < (s.chainDef c).first.toNat + (s.chainDef c).count.toNat

/-- CHAIN_RANGE (R50). -/
def State.badRange (s : State) (c : Chain) : Bool :=
  (s.chainDef c).enabled && 64 < (s.chainDef c).first.toNat + (s.chainDef c).count.toNat

/-- STATION (R51). -/
def State.badStation (s : State) (n : Nat) : Bool :=
  s.inEnabledChain n && (s.itemAt n).kind != .off &&
    ((s.stationOf n).address == 0#5 || !(s.stationOf n).enabled)

/-- SLOT (R52). -/
def State.badSlot (s : State) (n : Nat) : Bool :=
  s.inEnabledChain n && (s.itemAt n).kind == .write && (s.itemAt n).slot.isSome

/-- TRIGGER_TARGET (R53). -/
def State.badTarget (s : State) (e : Fin 8) : Bool :=
  let t := s.trigger.entries[e]
  t.enabled &&
    (!(s.chainDef t.target).enabled || (t.target == .normal && s.tables.normalMode == .continuous))

/-- EMPTY_CHAIN (R54). -/
def State.emptyChain (s : State) (c : Chain) : Bool :=
  (s.chainDef c).enabled && s.nextExpected c 0 == none

/-- The check detail of a failure found at a chain. -/
def chainFailure (kind : CheckKind) (c : Chain) : CheckDetail := ⟨kind, BitVec.ofNat 6 c.selectCode⟩

/-- The check detail of a failure found at an item. -/
def itemFailure (kind : CheckKind) (n : Nat) : CheckDetail := ⟨kind, BitVec.ofNat 6 n⟩

/-- The first failure of the configuration check, in the order of R49; none when every check passes. -/
def State.configCheck (s : State) : Option CheckDetail :=
  ((chainOrder.find? s.badRange).map (chainFailure .chainRange))
  <|> (if chainOrder.any (fun c => (s.chainDef c).enabled) then none else some ⟨.noChain, 0#6⟩)
  <|> (((List.range 64).find? s.badStation).map (itemFailure .station))
  <|> (((List.range 64).find? s.badSlot).map (itemFailure .slot))
  <|> (((List.finRange 8).find? s.badTarget).map fun e => ⟨.triggerTarget, BitVec.ofNat 6 e.val⟩)
  <|> ((chainOrder.find? s.emptyChain).map (chainFailure .emptyChain))

/-- The run state an accepted ARM gives a timer (R111). -/
def State.startTimer (s : State) (k : Fin 4) : TimerRun :=
  if (s.trigger.timers[k]).enabled then .running (s.after (s.trigger.timers[k]).period.toNat) else .stopped

/-- The check detail word is written (R55). -/
def setCheck (d : CheckDetail) (s : State) : State := { s with tables := { s.tables with check := d } }

/-- Arming: the pass context, the injection state, the masks, the timers and the top state (R60). -/
def armed (s : State) : State :=
  { s with
    seq := { top := .idle }
    trigger := { s.trigger with runs := #v[s.startTimer 0, s.startTimer 1, s.startTimer 2, s.startTimer 3] }
    results := { s.results with normalMask := 0#64, injMasks := Vector.replicate 8 0#16 } }

/-- ARM (R49, R60). -/
def execArm (s : State) : Host.Outcome State Fault Refusal :=
  live s
    (if s.isStopped then
      match s.configCheck with
      | some d => answer 1#8 .configError 0#4 (setCheck d s)
      | none => answer 1#8 .accepted 0#4 (armed (setCheck {} s))
    else answer 1#8 .wrongState 0#4 s)

/-! ## DISARM (R159) -/

/-- Every pace timer becomes STOPPED, its count discarded (R113). -/
def stopTimers (s : State) : State :=
  { s with trigger := { s.trigger with runs := Vector.replicate 4 .stopped } }

/-- The last step of DISARM: STOPPING while a transaction of the Sequencer is with the engine, else STOPPED
with SEQ_STOPPED (R159). -/
def stopSequencer (s : State) : State :=
  if s.seqOnLink then setTop .stopping s else raise .seqStopped (setTop .stopped s)

/-- DISARM: abort work, hold list, timers, top state, in that order (R159). Ending tenure or withdrawing the
request lets the arbiter decide on the direct requests that remain (R146). -/
def execDisarm (s : State) : Host.Outcome State Fault Refusal :=
  live s
    (if s.isArmed then
      answer 2#8 .accepted 0#4 (arbitrate (stopSequencer (stopTimers (postHoldList (abortEverything s)))))
    else answer 2#8 .wrongState 0#4 s)

/-! ## START, STOP_AFTER_PASS, TRIGGER -/

/-- A start delivered alone to a chain, by TRIGGER or by START in ONE_SHOT mode, with its answer (R76, R85): a
start that is taken lets the Sequencer and the arbiter go on in the same happening. -/
def startChain (c : Chain) (s : State) : Answer × State :=
  match c with
  | .normal =>
    let r := startNormal s
    if r.1 = .accepted then (r.1, arbitrate (schedule r.2)) else r
  | .inj k =>
    let r := startInjected k s
    if r.1 = .overrun then r else (r.1, arbitrate r.2)

/-- START (R77). -/
def execStart (s : State) : Host.Outcome State Fault Refusal :=
  live s
    (if !s.isArmed || !s.tables.normal.enabled then answer 3#8 .wrongState 0#4 s
    else
      match s.tables.normalMode with
      | .oneShot =>
        let r := startChain .normal s
        answer 3#8 r.1 0#4 r.2
      | .continuous =>
        if s.seq.pass.present then answer 3#8 .wrongState 0#4 s
        else answer 3#8 .accepted 0#4 (arbitrate (schedule (beginPass s))))

/-- STOP_AFTER_PASS (R78). -/
def execStopAfterPass (s : State) : Host.Outcome State Fault Refusal :=
  live s
    (if s.isArmed && s.tables.normalMode == .continuous && s.seq.pass.present then
      answer 4#8 .accepted 0#4 (setPass { s.seq.pass with stopAfter := true } s)
    else answer 4#8 .noTarget 0#4 s)

/-- TRIGGER, its conditions in the order of R121. -/
def execTrigger (arg : Byte) (s : State) : Host.Outcome State Fault Refusal :=
  live s
    (match chainOfSelect arg.toNat with
    | none => answer 5#8 .invalid (argDetail arg) s
    | some c =>
      if !s.isArmed || !(s.chainDef c).enabled || (c == .normal && s.tables.normalMode == .continuous) then
        answer 5#8 .wrongState (argDetail arg) s
      else
        let r := startChain c s
        answer 5#8 r.1 (argDetail arg) r.2)

/-! ## ABORT_ITEM, ABORT_CHAIN, ABORT_ALL -/

/-- ABORT_ITEM (R151): a waiting item completes ABORTED at once, an item on the line is marked (R152). -/
def execAbortItem (s : State) : Host.Outcome State Fault Refusal :=
  live s
    (match s.seq.top, s.seq.active.chain, s.seq.item with
    | .running, some c, some it =>
      match it.phase with
      | .grantWait => answer 6#8 .noTarget 0#4 s
      | .onLink => answer 6#8 .accepted 0#4 (setItem (some { it with abortMark := true }) s)
      | .onLinkFetch => answer 6#8 .accepted 0#4 (setItem (some { it with abortMark := true }) s)
      | .converting => answer 6#8 .accepted 0#4 (arbitrate (schedule (completeCurrent c it .aborted none s)))
      | .fetchWait => answer 6#8 .accepted 0#4 (arbitrate (schedule (completeCurrent c it .aborted none s)))
    | _, _, _ => answer 6#8 .noTarget 0#4 s)

/-- The chain ABORT_CHAIN reaches: the active chain with its run in progress, in an armed state (R153). -/
def State.abortableChain (s : State) : Option Chain :=
  if s.isArmed then
    match s.seq.active, s.seq.injRun with
    | .normal, _ => some .normal
    | .inj k, some _ => some (.inj k)
    | _, _ => none
  else none

/-- Both abort marks are set: the current item's and its run's (R153). -/
def markChain (c : Chain) (s : State) : State :=
  updateRun c (fun r => { r with chainAbort := true })
    (setItem (s.seq.item.map fun it => { it with abortMark := true }) s)

/-- ABORT_CHAIN (R153, R154, R155). -/
def execAbortChain (s : State) : Host.Outcome State Fault Refusal :=
  live s
    (match s.abortableChain with
    | none => answer 7#8 .noTarget 0#4 s
    | some c =>
      if s.itemOnLink then answer 7#8 .accepted 0#4 (markChain c s)
      else answer 7#8 .accepted 0#4 (arbitrate (schedule (endRun c true (abandonItem c s)))))

/-- There is work for ABORT_ALL: an active context, a pass, or a pending chain (R156). -/
def State.hasWork (s : State) : Bool :=
  s.seq.active != .none || s.seq.pass.present || s.seq.pendingSet != 0#8

/-- ABORT_ALL (R156). -/
def execAbortAll (s : State) : Host.Outcome State Fault Refusal :=
  live s
    (if s.isArmed && s.hasWork then answer 8#8 .accepted 0#4 (arbitrate (abortEverything s))
    else answer 8#8 .noTarget 0#4 s)

/-! ## REVIVE -/

/-- REVIVE (R35). -/
def execRevive (arg : Byte) (s : State) : Host.Outcome State Fault Refusal :=
  live s
    (if h : arg.toNat < 16 then answer 9#8 .accepted (argDetail arg) (setFailures ⟨arg.toNat, h⟩ 0#4 s)
    else answer 9#8 .invalid (argDetail arg) s)

/-! ## SUBMIT, CANCEL, RELEASE -/

/-- The staged request, when it may be submitted (R142). -/
def Staging.request (g : Staging) : Option Request :=
  match Op.ofCode g.opcode with
  | some op =>
    if g.address = 0#5 ∨ g.length.toNat = 0 ∨ 4 < g.length.toNat ∨ (g.urgent ∧ g.lock) then none
    else some { address := g.address, op := op, index := g.index, length := g.length, data := g.data,
                urgent := g.urgent, lock := g.lock }
  | none => none

/-- The lowest-numbered FREE slot (R142). -/
def State.freeSlot (s : State) : Option (Fin 4) :=
  [0, 1, 2, 3].find? fun t => (s.direct.slots[t]).state == .free

/-- Where a tag enters the service-order list: URGENT after the URGENT entries and before the others, any other
at the end (R141). -/
def State.insertTag (s : State) (t : Fin 4) (urgent : Bool) : List (Fin 4) :=
  if urgent then
    s.direct.order.takeWhile s.urgent ++ t :: s.direct.order.dropWhile s.urgent
  else s.direct.order ++ [t]

/-- The accepted request's slot becomes QUEUED and its tag enters the list (R141, R142). -/
def queueRequest (t : Fin 4) (r : Request) (s : State) : State :=
  setOrder (s.insertTag t r.urgent)
    (setSlot t { state := .queued, request := r, outcome := none, value := 0#32, cancelLate := false } s)

/-- The request with the Link Engine carries LOCK (R135). -/
def State.lockOnLink (s : State) : Bool :=
  match s.link.txn with
  | some t =>
    match t.requester with
    | .direct tag => s.carriesLock tag
    | .sequencer => false
  | none => false

/-- What the arbiter does with a request just queued: successor, grant under an open window, or a decision
(R130, R135, R137, R138). -/
def arbiterSubmit (t : Fin 4) (urgent : Bool) (s : State) : State :=
  match s.arb.lock with
  | .none => arbitrate s
  | .held none => if s.lockOnLink && !urgent then setLock (.held (some t)) s else s
  | .held (some _) => s
  | .window _ _ => if urgent then s else grantDirect t s
  | .lapsing => s

/-- SUBMIT (R142). -/
def execSubmit (s : State) : Host.Outcome State Fault Refusal :=
  live s
    (match s.direct.staging.request, s.freeSlot with
    | none, _ => answer 10#8 .invalid 0#4 s
    | some _, none => answer 10#8 .full 0#4 s
    | some r, some t =>
      answer 10#8 .accepted (BitVec.ofNat 4 t.val) (arbiterSubmit t r.urgent (queueRequest t r s)))

/-- A queued request is cancelled: its slot is CANCELLED, its tag leaves the list, a lock that waited for it is
LAPSING, and the arbiter decides on what is left (R144, R138, R130). -/
def cancelQueued (t : Fin 4) (s : State) : State :=
  let s1 := setOrder (s.direct.order.erase t) (setSlot t { s.direct.slots[t] with state := .cancelled } s)
  if s1.arb.lock = .held (some t) then setLock .lapsing s1 else arbitrate s1

/-- CANCEL (R144). -/
def execCancel (arg : Byte) (s : State) : Host.Outcome State Fault Refusal :=
  live s
    (if h : arg.toNat < 4 then
      let t : Fin 4 := ⟨arg.toNat, h⟩
      match (s.direct.slots[t]).state with
      | .queued => answer 11#8 .accepted (argDetail arg) (cancelQueued t s)
      | .active => answer 11#8 .late (argDetail arg) (setSlot t { s.direct.slots[t] with cancelLate := true } s)
      | .done => answer 11#8 .late (argDetail arg) s
      | .free => answer 11#8 .noSuch (argDetail arg) s
      | .cancelled => answer 11#8 .noSuch (argDetail arg) s
    else answer 11#8 .invalid (argDetail arg) s)

/-- RELEASE (R145). -/
def execRelease (arg : Byte) (s : State) : Host.Outcome State Fault Refusal :=
  live s
    (if h : arg.toNat < 4 then
      let t : Fin 4 := ⟨arg.toNat, h⟩
      match (s.direct.slots[t]).state with
      | .done => answer 12#8 .accepted (argDetail arg) (setSlot t {} s)
      | .cancelled => answer 12#8 .accepted (argDetail arg) (setSlot t {} s)
      | .queued => answer 12#8 .wrongState (argDetail arg) s
      | .active => answer 12#8 .wrongState (argDetail arg) s
      | .free => answer 12#8 .noSuch (argDetail arg) s
    else answer 12#8 .invalid (argDetail arg) s)

/-! ## SOFT_RESET and the unknown codes -/

/-- The Link Engine's part of SOFT_RESET: IDLE stays IDLE, a settle after an earlier cut runs on, and a
transaction is cut with no end notice and a settle of four byte times (R20, R188). -/
def cutTransaction (s : State) : State :=
  match s.link.phase, s.link.txn with
  | .idle, _ => s
  | _, none => s
  | _, some t =>
    { s with link := { s.link with
        phase := .settle, txn := none, timer := some (s.afterBytes t.rate 4), rx := [], endWatch := false } }

/-- Every other block's part of SOFT_RESET: configuration kept, run state cleared, a running grant pause included
(DEDUCED, log entry 8). The Sequencer takes the run state of R82 in every top state: in STOPPED too the pass number, the
position and the counts that a DISARM kept become 0, where R83 also says that a SOFT_RESET taken in STOPPED leaves the
Sequencer as it was (DEDUCED, log entry 28) (R188, R38, R56, R83, R109, R125, R147, R148, R177, R190). -/
def clearRunState (s : State) : State :=
  { s with
    window := { s.window with
      refused := false, repeated := false, reason := .none, refusedAddress := 0#7, latch := 0#12 }
    stations := { s.stations with failures := Vector.replicate 16 0#4 }
    tables := { s.tables with check := {} }
    trigger := { s.trigger with runs := Vector.replicate 4 .stopped, overrun := 0#9 }
    seq := {}
    arb := { mode := s.arb.mode, windowLength := s.arb.windowLength }
    direct := { s.direct with slots := Vector.replicate 4 {}, order := [] }
    results := { resultSelect := s.results.resultSelect, maskSelect := s.results.maskSelect,
                 policy := s.results.policy } }

/-- SOFT_RESET (R188). -/
def execSoftReset (s : State) : Host.Outcome State Fault Refusal :=
  live s (answer 13#8 .accepted 0#4 (clearRunState (cutTransaction s)))

/-- A command write with a code of 0 or 14 to 255 (R182). A term with the code of a known command is no command
of this row and is refused. -/
def execUnknownCommand (code arg : Byte) (s : State) : Host.Outcome State Fault Refusal :=
  if (Instr.unknownCommand code arg).wellFormed then live s (answer code .invalid 0#4 s)
  else .refused .illFormed

end Sys2Proof.Machine
end

