-- ==== Sys2Proof/Machine/ConfigWrites.lean ====
section
/-! DEFINITION. Writes to the configuration, select and staging words of the window, each taken or refused by
the rule of the state it reaches (chapters 1 to 3, 6, 7, 9; R179, R184). -/

namespace Sys2Proof.Machine

/-! ## Configuration words of one block -/

/-- LINK_CONFIGURATION_WRITE: taken only with the Sequencer STOPPED and the Link Engine IDLE; value 3 names no
rate (R2). -/
def execLinkConfigurationWrite (value : Word) (s : State) : Host.Outcome State Fault Refusal :=
  live s
    (if s.isStopped && s.link.phase == .idle then
      openWrite 0x08#7
        ((LinkRate.ofCode (cut value 0 2)).map fun r => { s with link := { s.link with rate := r } }) s
    else refuseWrite 0x08#7 .wrongState s)

/-- DIRECT_DEFAULTS_WRITE: taken in every state; timeout 2 to 500, retry limit 0 to 7 (R26). -/
def execDirectDefaultsWrite (value : Word) (s : State) : Host.Outcome State Fault Refusal :=
  live s
    (openWrite 0x0B#7
      (if 2 ≤ (cut value 0 9).toNat ∧ (cut value 0 9).toNat ≤ 500 ∧ (cut value 12 4).toNat ≤ 7 then
        some { s with direct := { s.direct with defTimeout := cut value 0 9, defRetry := cut value 12 3 } }
      else none) s)

/-- ARBITER_CONFIGURATION_WRITE: mode 0 to 2 and a window length of 1 to 255 (R127). -/
def execArbiterConfigurationWrite (value : Word) (s : State) : Host.Outcome State Fault Refusal :=
  live s
    (lockedWrite 0x09#7
      (match PriorityMode.ofCode (cut value 8 2) with
       | some m =>
         if cut value 0 8 = 0#8 then none
         else some { s with arb := { s.arb with mode := m, windowLength := cut value 0 8 } }
       | none => none) s)

/-- RESULT_CONFIGURATION_WRITE (R169). -/
def execResultConfigurationWrite (value : Word) (s : State) : Host.Outcome State Fault Refusal :=
  live s
    (lockedWrite 0x0A#7
      (some { s with results := { s.results with policy := if flagAt value 0 then .drop else .stall } }) s)

/-! ## Station Table -/

/-- STATION_SELECT_WRITE (R27). -/
def execStationSelectWrite (value : Word) (s : State) : Host.Outcome State Fault Refusal :=
  live s
    (openWrite 0x18#7
      ((selectByte 16 value).map fun k => { s with stations := { s.stations with select := k } }) s)

/-- STATION_FIELD_WRITE: in STOPPED, in range and no duplicate address, the fields are written together and the
entry's health is reset (R28, R29, R30). -/
def execStationFieldWrite (field : StationField) (value : Word) (s : State) :
    Host.Outcome State Fault Refusal :=
  live s
    (if s.isStopped then
      match applyStationField field value s.stations.entries[s.stations.select] with
      | none => refuseWrite (stationFieldAddress field) .invalid s
      | some e =>
        if s.duplicates field e then refuseWrite (stationFieldAddress field) .duplicateAddress s else writeEntry e s
    else refuseWrite (stationFieldAddress field) .wrongState s)

/-! ## Item memory and chain table -/

/-- ITEM_SELECT_WRITE (R46). -/
def execItemSelectWrite (value : Word) (s : State) : Host.Outcome State Fault Refusal :=
  live s
    (openWrite 0x20#7
      ((selectByte 64 value).map fun k => { s with tables := { s.tables with itemSelect := k } }) s)

/-- The descriptor with the fields of a written field word, none when a value is out of range (R47). -/
def applyItemField (f : ItemField) (w : Word) (d : Item) : Option Item :=
  match f with
  | .kind => some { d with kind := ItemKind.ofCode (cut w 0 2), station := (cut w 8 4).toFin }
  | .index =>
    if 1 ≤ (cut w 8 3).toNat ∧ (cut w 8 3).toNat ≤ 4 then some { d with length := cut w 8 3, index := cut w 0 8 }
    else none
  | .valueHigh => some { d with value := withHigh d.value w }
  | .valueLow => some { d with value := withLow d.value w }
  | .routing =>
    match slotOfCode (cut w 0 7), Post.ofCode (cut w 8 2) with
    | some k, some p => some { d with slot := k, post := p }
    | _, _ => none

/-- ITEM_FIELD_WRITE (R47). -/
def execItemFieldWrite (field : ItemField) (value : Word) (s : State) : Host.Outcome State Fault Refusal :=
  live s
    (lockedWrite (itemFieldAddress field)
      ((applyItemField field value s.tables.items[s.tables.itemSelect]).map fun d =>
        { s with tables := { s.tables with items := s.tables.items.set s.tables.itemSelect d } }) s)

/-- CHAIN_SELECT_WRITE (R46). -/
def execChainSelectWrite (value : Word) (s : State) : Host.Outcome State Fault Refusal :=
  live s
    (openWrite 0x28#7
      ((chainOfSelect (cut value 0 4).toNat).map fun c =>
        { s with tables := { s.tables with chainSelect := c } }) s)

/-- The largest count of a chain (R48). -/
def Chain.maxCount : Chain → Nat
  | .normal => 64
  | .inj _ => 16

/-- The definition of a chain is replaced. -/
def setChainDef (c : Chain) (d : ChainDef) (m : ItemMemory) : ItemMemory :=
  match c with
  | .normal => { m with normal := d }
  | .inj k => { m with inj := m.inj.set k d }

/-- The chain table with the fields of a written field word of the selected chain, none when out of range
(R48). -/
def applyChainField (f : ChainField) (w : Word) (s : State) : Option ItemMemory :=
  let c := s.tables.chainSelect
  let d := s.chainDef c
  match f with
  | .control =>
    if c = .normal then
      some (setChainDef c { d with enabled := flagAt w 15 }
        { s.tables with normalMode := PassMode.ofBit (flagAt w 0) })
    else if flagAt w 0 then none
    else some (setChainDef c { d with enabled := flagAt w 15 } s.tables)
  | .first => some (setChainDef c { d with first := cut w 0 6 } s.tables)
  | .count =>
    if 1 ≤ (cut w 0 7).toNat ∧ (cut w 0 7).toNat ≤ c.maxCount then
      some (setChainDef c { d with count := cut w 0 7 } s.tables)
    else none

/-- CHAIN_FIELD_WRITE (R48). -/
def execChainFieldWrite (field : ChainField) (value : Word) (s : State) : Host.Outcome State Fault Refusal :=
  live s (lockedWrite (chainFieldAddress field) ((applyChainField field value s).map fun m => { s with tables := m }) s)

/-! ## Trigger Unit -/

/-- TIMER_SELECT_WRITE (R110). -/
def execTimerSelectWrite (value : Word) (s : State) : Host.Outcome State Fault Refusal :=
  live s
    (openWrite 0x30#7
      ((selectByte 4 value).map fun k => { s with trigger := { s.trigger with timerSelect := k } }) s)

/-- The timer with the fields of a written field word, none when its period would be 0 (R110). -/
def applyTimerField (f : TimerField) (w : Word) (t : TimerConfig) : Option TimerConfig :=
  match f with
  | .control => some { t with enabled := flagAt w 15, mode := TimerMode.ofBit (flagAt w 0) }
  | .periodHigh =>
    let p : BitVec 24 := cut w 0 8 ++ t.period.extractLsb' 0 16
    if p = 0#24 then none else some { t with period := p }
  | .periodLow =>
    let p : BitVec 24 := t.period.extractLsb' 16 8 ++ w
    if p = 0#24 then none else some { t with period := p }

/-- TIMER_FIELD_WRITE (R110). -/
def execTimerFieldWrite (field : TimerField) (value : Word) (s : State) : Host.Outcome State Fault Refusal :=
  live s
    (lockedWrite (timerFieldAddress field)
      ((applyTimerField field value s.trigger.timers[s.trigger.timerSelect]).map fun t =>
        { s with trigger := { s.trigger with timers := s.trigger.timers.set s.trigger.timerSelect t } }) s)

/-- LINE_EDGE_WRITE: every encoding names a selection (R114). -/
def execLineEdgeWrite (value : Word) (s : State) : Host.Outcome State Fault Refusal :=
  live s
    (lockedWrite 0x35#7
      (some { s with trigger := { s.trigger with edges :=
        #v[EdgeSelect.ofCode (cut value 0 2), EdgeSelect.ofCode (cut value 2 2),
           EdgeSelect.ofCode (cut value 4 2), EdgeSelect.ofCode (cut value 6 2)] } }) s)

/-- TRIGGER_SELECT_WRITE (R116). -/
def execTriggerSelectWrite (value : Word) (s : State) : Host.Outcome State Fault Refusal :=
  live s
    (openWrite 0x38#7
      ((selectByte 8 value).map fun k => { s with trigger := { s.trigger with triggerSelect := k } }) s)

/-- The selected trigger table entry is replaced. -/
def setTriggerEntry (e : TriggerEntry) (s : State) : State :=
  { s with trigger := { s.trigger with entries := s.trigger.entries.set s.trigger.triggerSelect e } }

/-- TRIGGER_ENTRY_WRITE (R116). -/
def execTriggerEntryWrite (value : Word) (s : State) : Host.Outcome State Fault Refusal :=
  live s
    (lockedWrite 0x39#7
      ((chainOfSelect (cut value 8 4).toNat).map fun c =>
        setTriggerEntry { enabled := flagAt value 15, source := Source.ofCode (cut value 0 3), target := c } s) s)

/-! ## Direct Request Unit and Result Store -/

/-- The staging record with the fields of a written staging word, stored as written (R139). -/
def applyStagingField (f : StagingField) (w : Word) (g : Staging) : Staging :=
  match f with
  | .request =>
    { g with address := cut w 8 5, lock := flagAt w 5, urgent := flagAt w 4, opcode := cut w 0 3 }
  | .index => { g with length := cut w 8 3, index := cut w 0 8 }
  | .dataHigh => { g with data := withHigh g.data w }
  | .dataLow => { g with data := withLow g.data w }

/-- STAGING_WRITE: taken in every state, refused for no value (R139). -/
def execStagingWrite (field : StagingField) (value : Word) (s : State) : Host.Outcome State Fault Refusal :=
  live s { s with direct := { s.direct with staging := applyStagingField field value s.direct.staging } }

/-- DIRECT_SLOT_SELECT_WRITE (R140). -/
def execDirectSlotSelectWrite (value : Word) (s : State) : Host.Outcome State Fault Refusal :=
  live s
    (openWrite 0x44#7
      ((selectByte 4 value).map fun k => { s with direct := { s.direct with slotSelect := k } }) s)

/-- RESULT_SELECT_WRITE (R163). -/
def execResultSelectWrite (value : Word) (s : State) : Host.Outcome State Fault Refusal :=
  live s
    (openWrite 0x50#7
      ((selectByte 64 value).map fun k => { s with results := { s.results with resultSelect := k } }) s)

/-- MASK_SELECT_WRITE (R175). -/
def execMaskSelectWrite (value : Word) (s : State) : Host.Outcome State Fault Refusal :=
  live s
    (openWrite 0x60#7
      ((selectNibble 10 value).map fun k => { s with results := { s.results with maskSelect := k } }) s)

end Sys2Proof.Machine
end

