-- ==== Sys2Proof/Machine/LinkEvents.lean ====
section
/-! DEFINITION. The happenings of the Link Engine (section 1.4, R20). One that names a moment the engine is not
at cannot come, and leaves the state as it is (log entry 3). -/

namespace Sys2Proof.Machine

/-- FRAME_SENT: in SENDING, the response timer starts and the engine awaits the response (R10). -/
def frameSent (s : State) : State :=
  match s.link.phase, s.link.txn with
  | .sending, some t =>
    { s with link := { s.link with
        phase := .awaitResponse, timer := some (s.after t.params.timeout.toNat) } }
  | _, _ => s

/-- FRAME_SENT (R10). -/
def execFrameSent (s : State) : Host.Outcome State Fault Refusal := live s (frameSent s)

/-- A start bit: in AWAIT_RESPONSE the response timer stops and the response begins (R11); in RECEIVING, after a
byte, the next byte begins in time and the gap stops (R12; DEDUCED, log entry 13). -/
def responseStartBit (s : State) : State :=
  match s.link.phase with
  | .awaitResponse => { s with link := { s.link with phase := .receiving, timer := none, rx := [], endWatch := false } }
  | .receiving => if s.link.endWatch then s else { s with link := { s.link with timer := none } }
  | _ => s

/-- RESPONSE_START_BIT (R11). -/
def execResponseStartBit (s : State) : Host.Outcome State Fault Refusal := live s (responseStartBit s)

/-- RESPONSE_TIMEOUT: in AWAIT_RESPONSE the attempt's result is TIMEOUT (R11). -/
def execResponseTimeout (s : State) : Host.Outcome State Fault Refusal :=
  live s (if s.link.phase = .awaitResponse then attemptEnd .timeout s else s)

/-- BYTE_GAP_EXPIRY: in RECEIVING, with a byte received, the gap running and the frame short, the result is
CORRUPT (R12). -/
def execByteGapExpiry (s : State) : Host.Outcome State Fault Refusal :=
  live s
    (if s.link.phase = .receiving ∧ s.link.endWatch = false ∧ s.link.timer.isSome then attemptEnd .corrupt s
    else s)

/-- END_WATCH_START_BIT: the station sent more bytes than the frame may hold, so the result is CORRUPT (R12). -/
def execEndWatchStartBit (s : State) : Host.Outcome State Fault Refusal :=
  live s (if s.link.phase = .receiving ∧ s.link.endWatch = true then attemptEnd .corrupt s else s)

/-- The complete response is judged (R13). -/
def judgeResponse (s : State) : State :=
  match s.link.txn with
  | some t => attemptEnd (t.judge s.link.rx) s
  | none => s

/-- END_WATCH_EXPIRY (R13). -/
def execEndWatchExpiry (s : State) : Host.Outcome State Fault Refusal :=
  live s (if s.link.phase = .receiving ∧ s.link.endWatch = true then judgeResponse s else s)

/-- STRAY_BYTE: the byte is received and discarded; it changes nothing (R18). -/
def execStrayByte (s : State) : Host.Outcome State Fault Refusal := live s s

/-- SETTLE_END: the next attempt of the transaction begins (R15). -/
def execSettleEnd (s : State) : Host.Outcome State Fault Refusal :=
  live s (if s.link.phase = .settle then nextAttempt s else s)

/-- BACKOFF_END: the next attempt of the transaction begins (R15). -/
def execBackoffEnd (s : State) : Host.Outcome State Fault Refusal :=
  live s (if s.link.phase = .backoff then nextAttempt s else s)

/-- RESET_SETTLE_END: the engine enters IDLE and the arbiter learns that it is free (R20, R147). -/
def execResetSettleEnd (s : State) : Host.Outcome State Fault Refusal :=
  live s
    (if s.link.phase = .settle ∧ s.link.txn = none then arbitrate (engineIdle s) else s)

/-- A byte of the response is counted in: H′ fixes the expected length, each byte restarts the gap, and the byte
expected as C begins the end watch (R5, R12). -/
def receiveByte (b : RxByte) (s : State) : State :=
  match s.link.phase, s.link.txn with
  | .receiving, some t =>
    if s.link.endWatch then s
    else
      let rx := s.link.rx ++ [b]
      let complete := t.expectedLength ((rx.head?.map (·.value)).getD 0#8) ≤ rx.length
      { s with link := { s.link with
          rx := rx, endWatch := complete,
          timer := some (s.afterBytes t.rate (if complete then 1 else 2)) } }
  | _, _ => s

/-- RESPONSE_BYTE_RECEIVED (R12). -/
def execResponseByteReceived (value : Byte) (framingError : Bool) (s : State) :
    Host.Outcome State Fault Refusal :=
  live s (receiveByte { value := value, framingError := framingError } s)

end Sys2Proof.Machine
end

