-- ==== Sys2Proof/Machine/TimerEvents.lean ====
section
/-! DEFINITION. The happenings of the timers, the trigger lines and the reset pin (R65, R93, R112, R115, R129,
R137, R189). One whose timer does not run cannot come, and leaves the state as it is (log entry 3). -/

namespace Sys2Proof.Machine

/-! ## Trigger Unit -/

/-- A timer's run state is replaced. -/
def setRun (k : Fin 4) (r : TimerRun) (s : State) : State :=
  { s with trigger := { s.trigger with runs := s.trigger.runs.set k r } }

/-- The run state a timer has after its expiry (R112). -/
def State.runAfterExpiry (s : State) (k : Fin 4) : TimerRun :=
  match (s.trigger.timers[k]).mode with
  | .periodic => .running (s.after (s.trigger.timers[k]).period.toNat)
  | .single => .expired

/-- PACE_TIMER_EXPIRY: a RUNNING timer expires; its source event goes to the trigger table at once (R112,
R117). A timer counts in the armed states only (R123). -/
def paceTimerExpiry (k : Fin 4) (s : State) : State :=
  match s.trigger.runs[k] with
  | .running _ => if s.isArmed then deliver (.timer k) (setRun k (s.runAfterExpiry k) s) else s
  | _ => s

/-- PACE_TIMER_EXPIRY (R112). -/
def execPaceTimerExpiry (timer : Fin 4) (s : State) : Host.Outcome State Fault Refusal :=
  live s (paceTimerExpiry timer s)

/-- The edge selection names an edge to the given level (R115). -/
def EdgeSelect.names (e : EdgeSelect) (level : Bool) : Bool :=
  match e with
  | .none => false
  | .rising => level
  | .falling => !level
  | .both => true

/-- LINE_EDGE: the filter interval of the line ends and the filtered level takes the pin's level; the edge is a
source event when the part is armed and the selection names it (R115). -/
def lineEdge (k : Fin 4) (s : State) : State :=
  if (s.trigger.filters[k]).isSome ∧ s.trigger.pins[k] ≠ s.trigger.filtered[k] then
    let level := s.trigger.pins[k]
    let s1 := { s with trigger := { s.trigger with
      filtered := s.trigger.filtered.set k level, filters := s.trigger.filters.set k none } }
    if s.isArmed && (s.trigger.edges[k]).names level then deliver (.line k) s1 else s1
  else s

/-- LINE_EDGE (R115). -/
def execLineEdge (line : Fin 4) (s : State) : Host.Outcome State Fault Refusal := live s (lineEdge line s)

/-- TRIGGER_PIN_CHANGE: a change away from the filtered level starts the filter interval of one interval unit, a
change back cancels it (R115). While RESET_N is low only the pin moves (R189). -/
def triggerPinChange (k : Fin 4) (level : Bool) (s : State) : State :=
  if s.trigger.pins[k] = level then s
  else
    { s with trigger := { s.trigger with
        pins := s.trigger.pins.set k level
        filters := s.trigger.filters.set k
          (if level = s.trigger.filtered[k] ∨ s.resetHeld then none else some (s.after 1)) } }

/-- TRIGGER_PIN_CHANGE (R115). The pin is an input from the plant, so its level moves in reset too. -/
def execTriggerPinChange (line : Fin 4) (level : Bool) (s : State) : Host.Outcome State Fault Refusal :=
  .next (triggerPinChange line level s)

/-! ## Sequencer and arbiter timers -/

/-- CONVERSION_TIMER_EXPIRY: the active item in CONVERTING enters FETCH_WAIT and asks for the link (R65, R66). -/
def conversionTimerExpiry (s : State) : State :=
  match s.seq.item with
  | some it =>
    if it.phase = .converting then
      arbitrate (setItem (some { it with phase := .fetchWait, convDue := none }) s)
    else s
  | none => s

/-- CONVERSION_TIMER_EXPIRY (R65). -/
def execConversionTimerExpiry (s : State) : Host.Outcome State Fault Refusal :=
  live s (conversionTimerExpiry s)

/-- SUSPENDED_TIMER_EXPIRY: the record's phase changes from CONVERTING to FETCH_WAIT (R93). -/
def suspendedTimerExpiry (s : State) : State :=
  match s.seq.suspended with
  | some r => if r.fetchDue then s else setSuspended (some { r with fetchDue := true, convDue := none }) s
  | none => s

/-- SUSPENDED_TIMER_EXPIRY (R93). -/
def execSuspendedTimerExpiry (s : State) : Host.Outcome State Fault Refusal := live s (suspendedTimerExpiry s)

/-- GRANT_PAUSE_END: the pause ends and the arbiter decides on the requests as they stand (R129, R130). A grant that was
left to a happening of its own is made here too (log entry 27). -/
def execGrantPauseEnd (s : State) : Host.Outcome State Fault Refusal :=
  live s
    (if s.arb.pause.isSome || s.arb.apart then decideNow { s with arb := { s.arb with pause := none } } else s)

/-- LOCK_WINDOW_EXPIRY: the lock lapses and the arbiter decides (R137). -/
def lockWindowExpiry (s : State) : State :=
  match s.arb.lock with
  | .window _ _ => lapse s
  | _ => s

/-- LOCK_WINDOW_EXPIRY (R137). -/
def execLockWindowExpiry (s : State) : Host.Outcome State Fault Refusal := live s (lockWindowExpiry s)

/-! ## The reset pin -/

/-- The access that is on the bus, if one is, ends: nothing more of it is taken, and D15 to D0 are not driven (R189). -/
def Port.cut (p : Port) : Port := { p with spoilt := p.pins.inAccess, driven := none }

/-- Every block at its RESET_N values, and the access on the bus cut (R189); the TRIG pins, the lines of the bus, the
clock and the waiting commands lie outside. -/
def resetBlocks (s : State) : State :=
  { trigger := { pins := s.trigger.pins }, port := s.port.cut, now := s.now, pending := s.pending }

/-- RESET_N_ASSERT: any access and transaction is cut and every block is held in its reset condition (R189, R21). -/
def execResetNAssert (s : State) : Host.Outcome State Fault Refusal :=
  .next { resetBlocks s with resetHeld := true }

/-- The filter of a line at the release of RESET_N: the filtered level reads low until the pin has held its level
for one interval unit (R115). -/
def State.filterAtRelease (s : State) (k : Fin 4) : Option Nat :=
  if s.trigger.pins[k] then some (s.after 1) else none

/-- RESET_N_RELEASE: every block takes its RESET_N values and the window takes accesses (R189). -/
def execResetNRelease (s : State) : Host.Outcome State Fault Refusal :=
  .next
    { resetBlocks s with
      trigger := { (resetBlocks s).trigger with
        filters := #v[s.filterAtRelease 0, s.filterAtRelease 1, s.filterAtRelease 2, s.filterAtRelease 3] } }

end Sys2Proof.Machine
end

