-- ==== Sys2Proof/Machine/Reads.lean ====
section
/-! DEFINITION. What a read of each word of the window returns: the register summary of section 10.7 (R81,
R179, R181). The side effects of the pop word and the first snapshot word are the commands POP and
SNAPSHOT_CAPTURE; this is the content of the words. -/

namespace Sys2Proof.Machine

/-! ## Sequencer status (R81) -/

/-- The phase field: the current item's phase, BOUNDARY while the active context stands at a boundary,
COMPLETE with no active context or with an injected run ended (R81, R98). -/
def State.phaseCode (s : State) : Nat :=
  match s.seq.active, s.seq.item with
  | .none, _ => 5
  | _, some it => it.phase.code
  | .normal, none => 6
  | .inj _, none => if s.seq.injRun = none then 5 else 6

/-- The current item and position fields (R81): the item in progress, the one that begins next at a boundary,
the last one completed otherwise, and 0 in STOPPED. -/
def State.currentItem (s : State) : Nat × Nat :=
  if s.seq.top = .stopped then (0, 0)
  else
    match s.seq.active.chain, s.seq.item with
    | none, _ => (s.seq.lastItem, s.seq.lastPosition)
    | some _, some it => (it.item, it.position)
    | some c, none =>
      if s.phaseCode = 6 then (s.itemNumber c (s.runOf c).position, (s.runOf c).position)
      else (s.seq.lastItem, s.seq.lastPosition)

/-- The restart count field: 0 when the phase reads BOUNDARY or COMPLETE (R81). -/
def State.restartField (s : State) : Nat :=
  match s.seq.item with
  | some it => if s.seq.active = .none then 0 else it.restarts
  | none => 0

/-- Sequencer status 0. -/
def State.seqStatus0 (s : State) : Word :=
  placeFlag s.seq.pass.stopAfter 15 ||| placeFlag s.seq.pass.startPending 14 |||
  placeFlag s.seq.pass.present 13 ||| placeNat s.restartField 2 11 ||| placeNat s.phaseCode 3 8 |||
  placeNat s.seq.active.code 4 4 ||| placeNat s.seq.top.code 3 0

/-- Sequencer status 1. -/
def State.seqStatus1 (s : State) : Word := placeNat s.currentItem.2 6 8 ||| placeNat s.currentItem.1 6 0

/-- Sequencer status 2. -/
def State.seqStatus2 (s : State) : Word :=
  (match s.seq.suspended with
   | some r => placeFlag true 15 ||| placeNat r.restarts 2 12 ||| placeFlag r.fetchDue 11
   | none => 0#16) ||| place s.seq.pendingSet 0

/-- Sequencer status 3. -/
def State.seqStatus3 (s : State) : Word :=
  match s.seq.suspended with
  | some r => placeNat r.position 6 8 ||| placeNat r.item 6 0
  | none => 0#16

/-- Link status (R126). -/
def State.linkStatus (s : State) : Word :=
  placeFlag (s.arb.lock != .none) 8 |||
  (match s.owner with
   | .direct t => placeNat t.val 2 6 ||| placeNat 2 2 4
   | .sequencer => placeNat 1 2 4
   | .none => 0#16) ||| placeNat s.link.phase.code 3 0

/-! ## Window, stations, tables, triggers -/

/-- Command status (R183). -/
def State.commandStatus (s : State) : Word :=
  place s.window.commandCode 8 ||| placeNat s.window.answer.code 4 4 ||| place s.window.detail 0

/-- Window status (R184). -/
def State.windowStatus (s : State) : Word :=
  placeFlag s.window.refused 15 ||| placeFlag s.window.repeated 14 |||
  placeNat s.window.reason.code 4 8 ||| place s.window.refusedAddress 0

/-- The selected station entry. -/
def State.selectedEntry (s : State) : StationEntry := s.stations.entries[s.stations.select]

/-- Health summary: one flag per entry that is OFFLINE (R31). -/
def State.healthSummary (s : State) : Word :=
  (List.finRange 16).foldl (fun w e => if s.health e = .offline then w ||| (1#16 <<< e.val) else w) 0#16

/-- The selected item descriptor. -/
def State.selectedItem (s : State) : Item := s.tables.items[s.tables.itemSelect]

/-- The chain control word: with INJ k selected the mode reads ONE_SHOT (R46). -/
def State.chainControl (s : State) : Word :=
  placeFlag (s.chainDef s.tables.chainSelect).enabled 15 |||
  placeFlag (s.tables.chainSelect == .normal && s.tables.normalMode.bit) 0

/-- The selected timer. -/
def State.selectedTimer (s : State) : TimerConfig := s.trigger.timers[s.trigger.timerSelect]

/-- Four two-bit fields, bits 2k+1 to 2k for number k (timer status, line edge). -/
def placePairs (f0 f1 f2 f3 : BitVec 2) : Word := place f0 0 ||| place f1 2 ||| place f2 4 ||| place f3 6

/-- Timer status (R111). -/
def State.timerStatus (s : State) : Word :=
  placePairs s.trigger.runs[0].code s.trigger.runs[1].code s.trigger.runs[2].code s.trigger.runs[3].code

/-- The line edge word (R114). -/
def State.lineEdgeWord (s : State) : Word :=
  placePairs s.trigger.edges[0].code s.trigger.edges[1].code s.trigger.edges[2].code s.trigger.edges[3].code

/-- Line level: bit k is the filtered level of TRIGk (R115). -/
def State.lineLevel (s : State) : Word :=
  placeFlag s.trigger.filtered[0] 0 ||| placeFlag s.trigger.filtered[1] 1 |||
  placeFlag s.trigger.filtered[2] 2 ||| placeFlag s.trigger.filtered[3] 3

/-- The selected trigger table entry (R116). -/
def State.triggerEntryWord (s : State) : Word :=
  let e := s.trigger.entries[s.trigger.triggerSelect]
  placeFlag e.enabled 15 ||| placeNat e.target.selectCode 4 8 ||| placeNat e.source.code 3 0

/-! ## Direct unit and results -/

/-- The selected direct slot (R140). -/
def State.selectedSlot (s : State) : DirectSlot := s.direct.slots[s.direct.slotSelect]

/-- The slot state word (R140). -/
def State.slotStateWord (s : State) : Word :=
  let d := s.selectedSlot
  placeFlag d.request.lock 9 ||| placeFlag d.request.urgent 8 ||| placeFlag d.cancelLate 7 |||
  placeNat (outcomeCode (d.outcome.map TxnOutcome.toItem)) 3 4 ||| placeNat d.state.code 3 0

/-- The slot request word (R140). -/
def State.slotRequestWord (s : State) : Word :=
  place s.selectedSlot.request.address 8 ||| place s.selectedSlot.request.op.code 0

/-- The first word of the snapshot view (R163). -/
def State.snapshotWord0 (s : State) : Word :=
  let r := s.results.snapshot.content
  placeNat r.writer.code 4 12 ||| placeNat (outcomeCode r.outcome) 3 9 ||| placeFlag r.overwritten 8 |||
  placeNat r.state.code 2 6 ||| placeNat s.results.snapshot.slot.val 6 0

/-- The five words of the record view (R168, section 10.7); kind NONE reads 0 everywhere. -/
def recordWord (v : Option Record) (i : Nat) : Word :=
  match v, i with
  | some (.item r), 0 =>
    placeNat r.outcome.code 4 12 ||| placeNat r.position 6 6 ||| placeNat r.chain.code 4 2 ||| placeNat 1 2 0
  | some (.item r), 1 =>
    placeFlag r.value.isSome 15 ||| placeNat r.restarts 2 13 ||| placeNat (slotCode r.slot) 7 6 |||
    placeNat r.item 6 0
  | some (.item r), 2 => highHalf (r.value.getD 0#32)
  | some (.item r), 3 => lowHalf (r.value.getD 0#32)
  | some (.item r), 4 => r.passNumber
  | some (.passEnd _ _ _ _), 0 => placeNat 2 2 0
  | some (.passEnd _ done errors aborted), 1 => placeFlag aborted 15 ||| placeNat errors 7 8 ||| placeNat done 7 0
  | some (.passEnd n _ _ _), 4 => n
  | some (.injEnd k _ _ _), 0 => placeNat (Chain.inj k).code 4 2 ||| placeNat 3 2 0
  | some (.injEnd _ done errors aborted), 1 => placeFlag aborted 15 ||| placeNat errors 7 8 ||| placeNat done 7 0
  | _, _ => 0#16

/-- The mask the mask select word chooses (R175). -/
def State.selectedMask (s : State) : BitVec 64 :=
  if h : s.results.maskSelect.val < 8 then (s.results.injMasks[s.results.maskSelect.val]).setWidth 64
  else if s.results.maskSelect.val = 8 then s.results.normalMask
  else s.seq.pass.run.mask

/-- The queue status word (R169). -/
def State.queueStatus (s : State) : Word :=
  placeFlag (s.results.policy == .drop) 12 ||| placeNat s.results.hold.length 2 8 |||
  placeNat s.results.queue.length 6 0

/-! ## The window -/

/-- The content of the word at an address; a write-only word and an address that holds no word read 0
(R179). -/
def State.wordAt (s : State) (a : Nat) : Word :=
  match a with
  | 0x00 => Config.partCode
  | 0x01 => Config.revision
  | 0x03 => s.commandStatus
  | 0x04 => s.windowStatus
  | 0x05 => place s.window.latch 0
  | 0x06 => place s.window.enable 0
  | 0x07 => placeFlag s.intAsserted 15 ||| placeFlag s.window.master 0
  | 0x08 => place s.link.rate.code 0
  | 0x09 => place s.arb.mode.code 8 ||| place s.arb.windowLength 0
  | 0x0A => placeFlag (s.results.policy == .drop) 0
  | 0x0B => place s.direct.defRetry 12 ||| place s.direct.defTimeout 0
  | 0x10 => s.seqStatus0
  | 0x11 => s.seqStatus1
  | 0x12 => s.seq.pass.number
  | 0x13 => s.seqStatus2
  | 0x14 => s.seqStatus3
  | 0x15 => s.linkStatus
  | 0x16 => place s.tables.check.index 8 ||| placeNat s.tables.check.kind.code 3 0
  | 0x18 => placeNat s.stations.select.val 8 0
  | 0x19 => placeFlag s.selectedEntry.enabled 15 ||| place s.selectedEntry.address 0
  | 0x1A => place s.selectedEntry.timeout 0
  | 0x1B => place s.selectedEntry.failLimit 8 ||| place s.selectedEntry.retry 0
  | 0x1C => place s.selectedEntry.backoff 0
  | 0x1D => s.selectedEntry.convTime
  | 0x1E => place s.stations.failures[s.stations.select] 8 ||| placeNat (s.health s.stations.select).code 2 0
  | 0x1F => s.healthSummary
  | 0x20 => placeNat s.tables.itemSelect.val 8 0
  | 0x21 => placeNat s.selectedItem.station.val 4 8 ||| place s.selectedItem.kind.code 0
  | 0x22 => place s.selectedItem.length 8 ||| place s.selectedItem.index 0
  | 0x23 => highHalf s.selectedItem.value
  | 0x24 => lowHalf s.selectedItem.value
  | 0x25 => place s.selectedItem.post.code 8 ||| placeNat (slotCode s.selectedItem.slot) 7 0
  | 0x28 => placeNat s.tables.chainSelect.selectCode 4 0
  | 0x29 => s.chainControl
  | 0x2A => place (s.chainDef s.tables.chainSelect).first 0
  | 0x2B => place (s.chainDef s.tables.chainSelect).count 0
  | 0x30 => placeNat s.trigger.timerSelect.val 8 0
  | 0x31 => placeFlag s.selectedTimer.enabled 15 ||| placeFlag s.selectedTimer.mode.bit 0
  | 0x32 => place (s.selectedTimer.period.extractLsb' 16 8) 0
  | 0x33 => s.selectedTimer.period.extractLsb' 0 16
  | 0x34 => s.timerStatus
  | 0x35 => s.lineEdgeWord
  | 0x36 => s.lineLevel
  | 0x38 => placeNat s.trigger.triggerSelect.val 8 0
  | 0x39 => s.triggerEntryWord
  | 0x3A => place s.trigger.overrun 0
  | 0x40 => place s.direct.staging.address 8 ||| placeFlag s.direct.staging.lock 5 |||
      placeFlag s.direct.staging.urgent 4 ||| place s.direct.staging.opcode 0
  | 0x41 => place s.direct.staging.length 8 ||| place s.direct.staging.index 0
  | 0x42 => highHalf s.direct.staging.data
  | 0x43 => lowHalf s.direct.staging.data
  | 0x44 => placeNat s.direct.slotSelect.val 8 0
  | 0x45 => s.slotStateWord
  | 0x46 => s.slotRequestWord
  | 0x47 => highHalf s.selectedSlot.value
  | 0x48 => lowHalf s.selectedSlot.value
  | 0x50 => placeNat s.results.resultSelect.val 8 0
  | 0x51 => s.snapshotWord0
  | 0x52 => highHalf s.results.snapshot.content.value
  | 0x53 => lowHalf s.results.snapshot.content.value
  | 0x54 => s.results.snapshot.content.passNumber
  | 0x58 => recordWord s.results.view 0
  | 0x59 => recordWord s.results.view 0
  | 0x5A => recordWord s.results.view 1
  | 0x5B => recordWord s.results.view 2
  | 0x5C => recordWord s.results.view 3
  | 0x5D => recordWord s.results.view 4
  | 0x5E => s.queueStatus
  | 0x5F => s.results.drops
  | 0x60 => placeNat s.results.maskSelect.val 4 0
  | 0x61 => s.selectedMask.extractLsb' 0 16
  | 0x62 => s.selectedMask.extractLsb' 16 16
  | 0x63 => s.selectedMask.extractLsb' 32 16
  | 0x64 => s.selectedMask.extractLsb' 48 16
  | _ => 0#16

/-- A read of a word of the window: its content, and no answer while RESET_N is low (R179, R189). -/
def State.readWord (s : State) (a : Address) : Option Word :=
  if s.resetHeld then none else some (s.wordAt a.toNat)

end Sys2Proof.Machine
end

