-- ==== Sys2Proof/Machine/WindowAccess.lean ====
section
/-! DEFINITION. The host's accesses that are neither commands nor configuration writes: the two reads with side
effects, the clears, the enables, and writes to read-only words (chapter 10). -/

namespace Sys2Proof.Machine

/-- The value a read returns is fixed at the moment it is taken (R178). -/
def returnWord (a : Nat) (s : State) : State :=
  { s with window := { s.window with readValue := s.wordAt a } }

/-- POP: the oldest record goes into the record view, a held record moves into the queue, QUEUE_WAIT may end, and
the first word of the view is returned (R168, R171, R79, R180). Only a pop that ends QUEUE_WAIT reaches the
Sequencer and the arbiter. -/
def popWord (s : State) : State :=
  let s1 := moveHeld (popRecord s)
  if s1.seq.top = .queueWait ∧ s1.results.hold = [] then arbitrate (endQueueWait s1) else s1

/-- POP (R168). -/
def execPop (s : State) : Host.Outcome State Fault Refusal := live s (returnWord 0x58 (popWord s))

/-- SNAPSHOT_CAPTURE (R163). -/
def execSnapshotCapture (s : State) : Host.Outcome State Fault Refusal :=
  live s (returnWord 0x51 (captureSlot s))

/-- EVENT_LATCH_CLEAR: ones clear their flags, zeros leave theirs (R186). -/
def execEventLatchClear (value : Word) (s : State) : Host.Outcome State Fault Refusal :=
  live s { s with window := { s.window with latch := s.window.latch &&& ~~~(cut value 0 12) } }

/-- EVENT_ENABLE_WRITE (R187). -/
def execEventEnableWrite (value : Word) (s : State) : Host.Outcome State Fault Refusal :=
  live s { s with window := { s.window with enable := cut value 0 12 } }

/-- INTERRUPT_CONTROL_WRITE (R187): bit 0 is the master enable, bit 15 is read-only. -/
def execInterruptControlWrite (value : Word) (s : State) : Host.Outcome State Fault Refusal :=
  live s { s with window := { s.window with master := flagAt value 0 } }

/-- WINDOW_STATUS_CLEAR: bit 15 set clears the whole word, bit 15 clear leaves it (R184). -/
def execWindowStatusClear (value : Word) (s : State) : Host.Outcome State Fault Refusal :=
  live s
    (if flagAt value 15 then
      { s with window := { s.window with
          refused := false, repeated := false, reason := .none, refusedAddress := 0#7 } }
    else s)

/-- DROP_COUNTER_CLEAR: a write of any value sets the counter to 0 (R172). -/
def clearDrops (_value : Word) (s : State) : State :=
  { s with results := { s.results with drops := 0#16 } }

/-- DROP_COUNTER_CLEAR (R172). -/
def execDropCounterClear (value : Word) (s : State) : Host.Outcome State Fault Refusal :=
  live s (clearDrops value s)

/-- OVERRUN_CLEAR: ones clear their flags, zeros leave theirs (R120). -/
def execOverrunClear (value : Word) (s : State) : Host.Outcome State Fault Refusal :=
  live s { s with trigger := { s.trigger with overrun := s.trigger.overrun &&& ~~~(cut value 0 9) } }

/-- READ_ONLY_WRITE (R179): refused with reason READ_ONLY. A term with a writable address is no command of this
row and is refused by the model. -/
def execReadOnlyWrite (address : Address) (value : Word) (s : State) : Host.Outcome State Fault Refusal :=
  if (Instr.readOnlyWrite address value).wellFormed then live s (refuseWrite address .readOnly s)
  else .refused .illFormed

end Sys2Proof.Machine
end

