-- ==== Sys2Proof/Machine/Dispatch.lean ====
section
/-! DEFINITION. The meaning of every command, one arm per row of the table. -/

namespace Sys2Proof.Machine

def exec (i : Instr) (s : State) : Host.Outcome State Fault Refusal :=
  match i with
  | .arm => Sys2Proof.Machine.execArm s
  | .disarm => Sys2Proof.Machine.execDisarm s
  | .start => Sys2Proof.Machine.execStart s
  | .stopAfterPass => Sys2Proof.Machine.execStopAfterPass s
  | .trigger arg => Sys2Proof.Machine.execTrigger arg s
  | .abortItem => Sys2Proof.Machine.execAbortItem s
  | .abortChain => Sys2Proof.Machine.execAbortChain s
  | .abortAll => Sys2Proof.Machine.execAbortAll s
  | .revive arg => Sys2Proof.Machine.execRevive arg s
  | .submit => Sys2Proof.Machine.execSubmit s
  | .cancel arg => Sys2Proof.Machine.execCancel arg s
  | .release arg => Sys2Proof.Machine.execRelease arg s
  | .softReset => Sys2Proof.Machine.execSoftReset s
  | .unknownCommand code arg => Sys2Proof.Machine.execUnknownCommand code arg s
  | .pop => Sys2Proof.Machine.execPop s
  | .snapshotCapture => Sys2Proof.Machine.execSnapshotCapture s
  | .eventLatchClear value => Sys2Proof.Machine.execEventLatchClear value s
  | .eventEnableWrite value => Sys2Proof.Machine.execEventEnableWrite value s
  | .interruptControlWrite value => Sys2Proof.Machine.execInterruptControlWrite value s
  | .windowStatusClear value => Sys2Proof.Machine.execWindowStatusClear value s
  | .dropCounterClear value => Sys2Proof.Machine.execDropCounterClear value s
  | .overrunClear value => Sys2Proof.Machine.execOverrunClear value s
  | .linkConfigurationWrite value => Sys2Proof.Machine.execLinkConfigurationWrite value s
  | .directDefaultsWrite value => Sys2Proof.Machine.execDirectDefaultsWrite value s
  | .arbiterConfigurationWrite value => Sys2Proof.Machine.execArbiterConfigurationWrite value s
  | .resultConfigurationWrite value => Sys2Proof.Machine.execResultConfigurationWrite value s
  | .stationSelectWrite value => Sys2Proof.Machine.execStationSelectWrite value s
  | .stationFieldWrite field value => Sys2Proof.Machine.execStationFieldWrite field value s
  | .itemSelectWrite value => Sys2Proof.Machine.execItemSelectWrite value s
  | .itemFieldWrite field value => Sys2Proof.Machine.execItemFieldWrite field value s
  | .chainSelectWrite value => Sys2Proof.Machine.execChainSelectWrite value s
  | .chainFieldWrite field value => Sys2Proof.Machine.execChainFieldWrite field value s
  | .timerSelectWrite value => Sys2Proof.Machine.execTimerSelectWrite value s
  | .timerFieldWrite field value => Sys2Proof.Machine.execTimerFieldWrite field value s
  | .lineEdgeWrite value => Sys2Proof.Machine.execLineEdgeWrite value s
  | .triggerSelectWrite value => Sys2Proof.Machine.execTriggerSelectWrite value s
  | .triggerEntryWrite value => Sys2Proof.Machine.execTriggerEntryWrite value s
  | .stagingWrite field value => Sys2Proof.Machine.execStagingWrite field value s
  | .directSlotSelectWrite value => Sys2Proof.Machine.execDirectSlotSelectWrite value s
  | .resultSelectWrite value => Sys2Proof.Machine.execResultSelectWrite value s
  | .maskSelectWrite value => Sys2Proof.Machine.execMaskSelectWrite value s
  | .readOnlyWrite address value => Sys2Proof.Machine.execReadOnlyWrite address value s
  | .resetNAssert => Sys2Proof.Machine.execResetNAssert s
  | .resetNRelease => Sys2Proof.Machine.execResetNRelease s
  | .lineEdge line => Sys2Proof.Machine.execLineEdge line s
  | .paceTimerExpiry timer => Sys2Proof.Machine.execPaceTimerExpiry timer s
  | .frameSent => Sys2Proof.Machine.execFrameSent s
  | .responseStartBit => Sys2Proof.Machine.execResponseStartBit s
  | .responseTimeout => Sys2Proof.Machine.execResponseTimeout s
  | .byteGapExpiry => Sys2Proof.Machine.execByteGapExpiry s
  | .endWatchStartBit => Sys2Proof.Machine.execEndWatchStartBit s
  | .endWatchExpiry => Sys2Proof.Machine.execEndWatchExpiry s
  | .strayByte => Sys2Proof.Machine.execStrayByte s
  | .settleEnd => Sys2Proof.Machine.execSettleEnd s
  | .backoffEnd => Sys2Proof.Machine.execBackoffEnd s
  | .resetSettleEnd => Sys2Proof.Machine.execResetSettleEnd s
  | .conversionTimerExpiry => Sys2Proof.Machine.execConversionTimerExpiry s
  | .suspendedTimerExpiry => Sys2Proof.Machine.execSuspendedTimerExpiry s
  | .grantPauseEnd => Sys2Proof.Machine.execGrantPauseEnd s
  | .lockWindowExpiry => Sys2Proof.Machine.execLockWindowExpiry s
  | .responseByteReceived value framingError => Sys2Proof.Machine.execResponseByteReceived value framingError s
  | .triggerPinChange line level => Sys2Proof.Machine.execTriggerPinChange line level s

end Sys2Proof.Machine
end

