-- ==== Sys2Proof/Machine/Clock.lean ====
section
/-! DEFINITION. What the part does while no command waits: happenings that have fallen due are taken one at a
time, and otherwise a microsecond passes (DESIGN CHOICE, log entry 1). -/

namespace Sys2Proof.Machine

/-- A moment has come. -/
def State.isDue (s : State) (t : Option Nat) : Bool :=
  match t with
  | some d => d ≤ s.now
  | none => false

/-- The happening the engine's running timer stands for in its phase (R10, R11, R12, R13, R15, R20). -/
def State.engineHappening (s : State) : Option Instr :=
  match s.link.phase with
  | .idle => none
  | .sending => some .frameSent
  | .awaitResponse => some .responseTimeout
  | .receiving => if s.link.endWatch then some .endWatchExpiry else some .byteGapExpiry
  | .settle => if s.link.txn = none then some .resetSettleEnd else some .settleEnd
  | .backoff => some .backoffEnd

/-- The engine's happening, when its timer is due. -/
def State.engineDue (s : State) : List Instr :=
  if s.isDue s.link.timer then s.engineHappening.toList else []

/-- The moment a pace timer is due, when it runs (R111). -/
def TimerRun.due : TimerRun → Option Nat
  | .running d => some d
  | _ => none

/-- The pace timers that are due (R112). -/
def State.timersDue (s : State) : List Instr :=
  ([0, 1, 2, 3].filter fun k : Fin 4 => s.isDue (s.trigger.runs[k]).due).map .paceTimerExpiry

/-- The line filters that are due (R115). -/
def State.filtersDue (s : State) : List Instr :=
  ([0, 1, 2, 3].filter fun k : Fin 4 => s.isDue s.trigger.filters[k]).map .lineEdge

/-- The conversion timers that are due (R65, R93). -/
def State.conversionsDue (s : State) : List Instr :=
  (if s.isDue (s.seq.item.bind (·.convDue)) then [.conversionTimerExpiry] else []) ++
    (if s.isDue (s.seq.suspended.bind (·.convDue)) then [.suspendedTimerExpiry] else [])

/-- The moment the lock window timer is due (R137). -/
def Lock.due : Lock → Option Nat
  | .window _ d => some d
  | _ => Option.none

/-- The arbiter's timers that are due (R129, R137); a grant left to a happening of its own is due at once (log entry 27). -/
def State.arbiterDue (s : State) : List Instr :=
  (if s.isDue s.arb.pause || s.arb.apart then [.grantPauseEnd] else []) ++
    (if s.isDue s.arb.lock.due then [.lockWindowExpiry] else [])

/-- Every happening that has fallen due. -/
def State.due (s : State) : List Instr :=
  s.engineDue ++ s.timersDue ++ s.filtersDue ++ s.conversionsDue ++ s.arbiterDue

/-- Which of several due happenings is taken: the free value Config.tieOrder decides between them. -/
def State.pick (s : State) (c : Instr) (rest : List Instr) : Instr :=
  match rest with
  | [] => c
  | _ :: _ => (c :: rest).getD (Config.tieOrder s.now (c :: rest) % (rest.length + 1)) c

/-- A microsecond passes. -/
def tick (s : State) : State := { s with now := s.now + 1 }

/-- No command waits: a due happening is taken, or a microsecond passes. -/
def idle (s : State) : Host.Outcome State Fault Refusal :=
  if s.resetHeld then .next (tick s)
  else
    match s.due with
    | [] => .next (tick s)
    | c :: rest => exec (s.pick c rest) s

end Sys2Proof.Machine
end

