-- ==== Sys2Proof/Machine/Step.lean ====
section
/-! DEFINITION. One step of the block: the command at the front of the queue, or the part's own time. -/

namespace Sys2Proof.Machine

/-- The command at the front of the queue is taken, with the queue's rest; with no command waiting the part goes
on by itself (Clock.lean). -/
def step (s : State) : Host.Outcome State Fault Refusal :=
  match s.pending with
  | [] => idle s
  | c :: rest => exec c { s with pending := rest }

/-- The state with the command a word spells put at the front of its queue; no word spells one (Decode.lean). -/
def State.withFetchWord (s : State) (nbits w : Nat) : State :=
  match Sys2Proof.decodeTableWord nbits w with
  | some c => { s with pending := c :: s.pending }
  | none => s

/-- The host's write of a word at an address waits as the command it is (R178, R179, R182). -/
def State.hostWrite (s : State) (a : Address) (v : Word) : State :=
  { s with pending := s.pending ++ [Sys2Proof.writeCommand a v] }

/-- The host's read at an address waits as the command it is where it has a side effect; any other read is State.readWord
(R179). -/
def State.hostRead (s : State) (a : Address) : State :=
  { s with pending := s.pending ++ (Sys2Proof.readCommand a).toList }

end Sys2Proof.Machine
end

