-- ==== Sys2Proof/Machine/Port.lean ====
section
/-! DEFINITION. The local-bus port strobe by strobe (section 10.1): which access an edge of the strobes is, and when the
AS416 drives the data lines (R178, R189). -/

namespace Sys2Proof.Machine

/-- The state a command leaves; a term that is no command of its row leaves it as it stands. -/
def State.take (s : State) (c : Instr) : State :=
  match exec c s with
  | .next t => t
  | .fault _ => s
  | .refused _ => s

/-- The state once the commands that wait have been taken, in order. -/
def settle : List Instr → State → State
  | [], s => { s with pending := [] }
  | c :: rest, s => settle rest (State.take { s with pending := rest } c)

/-- The state once every command that waits has been taken: none waits when an access is taken (R182). -/
def State.settled (s : State) : State := settle s.pending s

/-- A write of a word at an address is taken, as the command it is (R178, R179). -/
def State.takeWrite (s : State) (a : Address) (v : Word) : State := s.take (Sys2Proof.writeCommand a v)

/-- A read at an address is taken: the word returned, and the state with the read's side effect, if it has one (R178,
R179, R180). -/
def State.takeRead (s : State) (a : Address) : Word × State :=
  match Sys2Proof.readCommand a with
  | some c => ((s.take c).window.readValue, s.take c)
  | none => (s.wordAt a.toNat, s)

/-- Whether the access on the bus takes nothing more once the lines stand as new: while RESET_N is low (R189), once both
strobes are low together, and for the rest of an access in which either has been (R178). -/
def State.spoilsAccess (s : State) (new : BusPins) : Bool :=
  new.inAccess && (s.resetHeld || (new.reading && new.writing) || (s.port.pins.inAccess && s.port.spoilt))

/-- The write an edge to the lines new takes: at the first rising edge of WR_N or CS_N after both have been low
together, with the address and the data of that edge, unless the access is spoilt (R178). -/
def State.writeAtEdge (s : State) (new : BusPins) : State :=
  if s.port.pins.writing && !new.writing && !s.port.spoilt && !s.resetHeld then s.takeWrite new.address new.data else s

/-- The read an edge to the lines new takes, and what is driven on D15 to D0 from then on: a read is taken when RD_N and
CS_N have both become low, unless the access is spoilt; its value is driven for as long as both stay low (R178). -/
def State.readAtEdge (s : State) (new : BusPins) : Option Word × State :=
  if new.reading && !s.spoilsAccess new then
    if s.port.pins.reading then (s.port.driven, s)
    else
      let read := s.takeRead new.address
      (some read.1, read.2)
  else (none, s)

/-- The lines of the bus that the host drives change to new, in one moment. Commands that wait come first; a write that
ends comes before a read that begins (log entry 26). -/
def State.busEdge (s : State) (new : BusPins) : State :=
  let s1 := s.settled
  let read := (s1.writeAtEdge new).readAtEdge new
  { read.2 with port := { pins := new, spoilt := s1.spoilsAccess new, driven := read.1 } }

end Sys2Proof.Machine
end

