-- ==== Sys2Proof/Machine/Line.lean ====
section
/-! DEFINITION. The line bit by bit (R1, R3): the level of LTXD at the present moment, how a byte stands in a
waveform of LRXD, and how the Link Engine receives a waveform bit by bit. A level is true at mark and false at space. -/

namespace Sys2Proof.Machine

/-! ## What the engine sends -/

/-- The duration of one bit on the link in microseconds (R2, R3): a byte time is ten of them. -/
def LinkRate.bitTime : LinkRate → Nat
  | .k62 => 16
  | .k250 => 4
  | .k1000 => 1

/-- The ten bits of a byte in the order they are sent: start bit at space, eight data bits, least significant first,
stop bit at mark (R3). -/
def byteBits (b : Byte) : List Bool := false :: ((List.range 8).map b.getLsbD ++ [true])

/-- The bits of the frame on LTXD, its bytes back to back (R3). -/
def State.lineBits (s : State) : List Bool := s.lineFrame.flatMap byteBits

/-- The level of LTXD from the present microsecond to the next: in SENDING the bit whose time it is, else mark
(R1, R3). The frame ends when the engine's timer is due (R10). -/
def State.ltxd (s : State) : Bool :=
  match s.link.phase, s.link.txn, s.link.timer with
  | .sending, some t, some due =>
    let elapsed := t.rate.byteTime * t.frame.length - (due - s.now)
    s.lineBits.getD (elapsed / t.rate.bitTime) true
  | _, _, _ => true

/-! ## What the engine hears

A waveform of LRXD gives its level at every half microsecond, so that the middle of a bit is a moment at every
link rate. State.listen takes one half microsecond of it; the byte that is coming in is remembered in State from its
start bit to the end of its stop bit (log entry 14). -/

/-- The level in the middle of bit i of a byte whose start bit begins at half microsecond h (R3). -/
def sampleBit (rate : LinkRate) (level : Nat → Bool) (h i : Nat) : Bool := level (h + rate.bitTime * (2 * i + 1))

/-- A start bit begins at h: a change from mark to space there that is still at space in the middle of its bit time. A
shorter pulse is ignored (R3). -/
def isStartBit (rate : LinkRate) (level : Nat → Bool) (h : Nat) : Bool :=
  0 < h && level (h - 1) && !level h && !sampleBit rate level h 0

/-- The byte whose start bit begins at h: eight data bits, least significant first, and a framing error where the stop
bit samples at space (R3). -/
def sampleByte (rate : LinkRate) (level : Nat → Bool) (h : Nat) : RxByte :=
  { value := (List.range 8).foldl
      (fun v i => if sampleBit rate level h (i + 1) then v ||| (1#8 <<< i) else v) 0#8
    framingError := !sampleBit rate level h 9 }

/-- The byte that began at b is over at h: ten bit times have passed, or, once the middle of its stop bit has passed,
the next start bit begins early (R3). -/
def byteOver (rate : LinkRate) (level : Nat → Bool) (b h : Nat) : Bool :=
  b + 20 * rate.bitTime ≤ h || (b + 19 * rate.bitTime < h && isStartBit rate level h)

/-- What LRXD brings at one half microsecond. -/
inductive LineEvent where
  | startBit
  | byte (b : RxByte)
  deriving DecidableEq, Repr

/-- A start bit at h, where no byte is coming in. -/
def startAt (rate : LinkRate) (level : Nat → Bool) (h : Nat) : List LineEvent × Option Nat :=
  if isStartBit rate level h then ([.startBit], some h) else ([], none)

/-- What half microsecond h of a waveform brings, and the beginning of the byte that comes in after it. A byte is
received when it is over, and only then is a next start bit looked for (R3). -/
def receiveAt (rate : LinkRate) (level : Nat → Bool) (h : Nat) (incoming : Option Nat) : List LineEvent × Option Nat :=
  match incoming with
  | none => startAt rate level h
  | some b =>
    if byteOver rate level b h then
      (.byte (sampleByte rate level b) :: (startAt rate level h).1, (startAt rate level h).2)
    else ([], some b)

/-- The link rate in use: that of the transaction, or the configured one where the engine holds none (R2, R3). -/
def State.lineRate (s : State) : LinkRate :=
  match s.link.txn with
  | some t => t.rate
  | none => s.link.rate

/-- The happening a start bit is in the present state: the response's or one of its bytes' in AWAIT_RESPONSE and
RECEIVING (R11, R12), one too many in the end watch (R12), a stray byte's in IDLE, SETTLE and BACKOFF (R18). -/
def State.hearsStart (s : State) : Option Instr :=
  match s.link.phase with
  | .sending => none
  | .awaitResponse => some .responseStartBit
  | .receiving => some (if s.link.endWatch then .endWatchStartBit else .responseStartBit)
  | .idle => some .strayByte
  | .settle => some .strayByte
  | .backoff => some .strayByte

/-- The happening a received byte is in the present state: a byte of the response in RECEIVING (R12); elsewhere it is
discarded (R18). -/
def State.hearsByte (s : State) (b : RxByte) : Option Instr :=
  if s.link.phase = .receiving ∧ s.link.endWatch = false then some (.responseByteReceived b.value b.framingError)
  else none

/-- What LRXD brings is taken, as the happening it is in the present state. -/
def State.hear (s : State) (e : LineEvent) : State :=
  match e with
  | .startBit => (s.hearsStart.map s.take).getD s
  | .byte b => ((s.hearsByte b).map s.take).getD s

/-- A half microsecond h of a waveform of LRXD, with the commands that wait taken first. While LDIR is high, and while
RESET_N is low, nothing is received (R1, R21). -/
def State.listen (s : State) (level : Nat → Bool) (h : Nat) : State :=
  let s1 := s.settled
  let heard := if s1.ldir || s1.resetHeld then ([], none) else receiveAt s1.lineRate level h s1.link.incoming
  let s2 := heard.1.foldl State.hear s1
  { s2 with link := { s2.link with incoming := heard.2 } }

end Sys2Proof.Machine
end

