-- ==== Sys2Proof/Safety.lean ====
section
/-! DEFINITION. What holds of the AS416 at every moment between two happenings, block by block, as the rules of
the manual state it: the statements for the provers say that every step keeps it. And the terms in which the statements
say what completions, ends of runs and aborts leave. -/

namespace Sys2Proof.Machine

/-- The configuration a taken write leaves: every field in its range (R22, R26, R39, R43, R44, R110, R127), the
failure counts within their limits (R31), and no two enabled entries with one nonzero address (R29). -/
structure State.TablesOk (s : State) : Prop where
  timeout : ∀ e : Fin 16, 2 ≤ (s.stations.entries[e]).timeout.toNat ∧ (s.stations.entries[e]).timeout.toNat ≤ 500
  backoff : ∀ e : Fin 16, (s.stations.entries[e]).backoff ≠ 0#8
  failLimit : ∀ e : Fin 16, (s.stations.entries[e]).failLimit ≠ 0#4
  failures : ∀ e : Fin 16, (s.stations.failures[e]).toNat ≤ (s.stations.entries[e]).failLimit.toNat
  addresses : ∀ e f : Fin 16, (s.stations.entries[e]).enabled = true → (s.stations.entries[f]).enabled = true →
    (s.stations.entries[e]).address ≠ 0#5 → (s.stations.entries[e]).address = (s.stations.entries[f]).address → e = f
  lengths : ∀ n : Fin 64, 1 ≤ (s.tables.items[n]).length.toNat ∧ (s.tables.items[n]).length.toNat ≤ 4
  normalCount : 1 ≤ s.tables.normal.count.toNat ∧ s.tables.normal.count.toNat ≤ 64
  injCount : ∀ k : Fin 8, 1 ≤ (s.tables.inj[k]).count.toNat ∧ (s.tables.inj[k]).count.toNat ≤ 16
  periods : ∀ k : Fin 4, (s.trigger.timers[k]).period ≠ 0#24
  windowLength : s.arb.windowLength ≠ 0#8
  defaults : 2 ≤ s.direct.defTimeout.toNat ∧ s.direct.defTimeout.toNat ≤ 500

/-- A result slot's overwritten flag is set only while the slot is FRESH (R162). -/
def State.SlotsOk (s : State) : Prop :=
  ∀ k : Fin 64, (s.results.slots[k]).overwritten = true → (s.results.slots[k]).state = .fresh

/-- The Link Engine: in IDLE it holds no transaction, outside IDLE it holds one or settles after a cut, its timer
runs wherever its state waits for one, and the attempt number stays within the retry limit (R8, R14, R20). -/
structure State.LinkOk (s : State) : Prop where
  idle : s.link.phase = .idle → s.link.txn = none ∧ s.link.timer = none
  free : s.link.txn = none → s.link.phase = .idle ∨ s.link.phase = .settle
  timed : s.link.phase = .sending ∨ s.link.phase = .awaitResponse ∨ s.link.phase = .settle ∨
    s.link.phase = .backoff ∨ (s.link.phase = .receiving ∧ s.link.endWatch = true) → s.link.timer.isSome = true
  attempts : ∀ t, s.link.txn = some t → 1 ≤ t.attempt ∧ t.attempt ≤ t.params.retry.toNat + 1
  remaining : ∀ t, s.link.txn = some t → s.link.phase = .settle ∨ s.link.phase = .backoff →
    t.attempt ≤ t.params.retry.toNat
  /-- The record holds a write value for a WRITE only (R8). -/
  writeValue : ∀ t, s.link.txn = some t → (t.value.isSome = true ↔ t.op = .write)

/-- The Direct Request Unit: the service-order list holds exactly the QUEUED slots, each once, URGENT entries first
(R141), and the ACTIVE slot is the one whose transaction is with the engine (R140, R143). -/
structure State.DirectOk (s : State) : Prop where
  once : s.direct.order.Nodup
  queued : ∀ t : Fin 4, t ∈ s.direct.order ↔ (s.direct.slots[t]).state = .queued
  urgentFirst : s.direct.order.Pairwise fun a b => s.urgent b = true → s.urgent a = true
  active : ∀ t : Fin 4, (s.direct.slots[t]).state = .active ↔ ∃ x, s.link.txn = some x ∧ x.requester = .direct t

/-- A transaction of the Sequencer is with the engine, with the given orphan mark (R149, R157). -/
def State.seqTransaction (s : State) (orphan : Bool) : Prop :=
  ∃ x, s.link.txn = some x ∧ x.requester = .sequencer ∧ x.orphan = orphan

/-- The Sequencer and the lists its records enter (R57, R59, R62, R79, R80, R84, R92, R98, R101, R160, R167, R171). -/
structure State.SequencerOk (s : State) : Prop where
  /-- STOPPED and STOPPING hold no work (R60, R159, R160). -/
  stopped : s.seq.top = .stopped ∨ s.seq.top = .stopping → s.seq.active = .none ∧ s.seq.pendingSet = 0#8
  /-- IDLE has no active context and no pending chain (R57). -/
  idle : s.seq.top = .idle → s.seq.active = .none ∧ s.seq.pendingSet = 0#8
  /-- RUNNING: an active context whose item is in progress (R57, R62). -/
  running : s.seq.top = .running ↔ s.seq.item.isSome = true
  /-- QUEUE_WAIT lasts exactly while records are held (R79, R171). -/
  waiting : s.seq.top = .queueWait ↔ s.results.hold ≠ []
  /-- With no active context no chain run exists (R59). -/
  context : s.seq.active = .none → s.seq.item = none ∧ s.seq.pass.present = false
  /-- Only an injected chain has an injected run context (R59). -/
  injected : s.seq.injRun.isSome = true → ∃ k, s.seq.active = .inj k
  /-- An injected run that has ended waits for its hand-over only in QUEUE_WAIT with an item suspended (R97, R98). -/
  ended : ∀ k, s.seq.active = .inj k → s.seq.injRun = none →
    s.seq.top = .queueWait ∧ s.seq.suspended.isSome = true
  /-- The NORMAL pass is present while NORMAL is active and while its item is suspended (R71, R92). -/
  pass : s.seq.active = .normal ∨ s.seq.suspended.isSome = true → s.seq.pass.present = true
  /-- A suspension record exists only while the active context is an injected chain (R92). -/
  suspended : s.seq.suspended.isSome = true → ∃ k, s.seq.active = .inj k
  /-- No restart count exceeds 3 (R101). -/
  restarts : ∀ i, s.seq.item = some i → i.restarts ≤ 3
  suspendedRestarts : ∀ r, s.seq.suspended = some r → r.restarts ≤ 3
  /-- Every member of the pending-injection set is enabled (R84). -/
  members : ∀ k : Fin 8, s.isPending k = true → (s.tables.inj[k]).enabled = true
  /-- Tenure is held for an item that has left GRANT_WAIT, and always while it is on the line (R69). -/
  tenure : s.arb.tenure = true → ∃ i, s.seq.item = some i ∧ i.phase ≠ .grantWait
  held : s.itemOnLink = true → s.arb.tenure = true
  /-- The item is on the line exactly while an unmarked transaction of the Sequencer is with the engine (R64). -/
  onLink : s.itemOnLink = true ↔ s.seqTransaction false
  /-- STOPPING waits for an orphaned transaction (R160). -/
  stopping : s.seq.top = .stopping → s.seqTransaction true
  /-- The queue and the hold list keep their sizes (R167), and while records are held the queue is full (R171). -/
  queue : s.results.queue.length ≤ 32
  hold : s.results.hold.length ≤ 2
  full : s.results.hold ≠ [] → s.results.queue.length = 32

/-- The Link Arbiter: a lock waits for a direct transaction or stands open on an idle engine (R135 to R138), and a
pause runs on an idle, unlocked link (R129). -/
structure State.LockOk (s : State) : Prop where
  held : ∀ n, s.arb.lock = .held n → ∃ x t, s.link.txn = some x ∧ x.requester = .direct t
  successor : ∀ n, s.arb.lock = .held (some n) → n ∈ s.direct.order ∧ s.urgent n = false
  lapsing : s.arb.lock = .lapsing → ∃ x t, s.link.txn = some x ∧ x.requester = .direct t
  window : ∀ t d, s.arb.lock = .window t d → s.link.phase = .idle
  pause : s.arb.pause.isSome = true → s.link.phase = .idle ∧ s.arb.lock = .none

/-- No decision that would grant the link is left unmade (R130), but for a grant to the Sequencer that is left to a
happening of its own; and one is left so only where a decision would make it (log entry 27). -/
def State.Decided (s : State) : Prop :=
  (s.arb.apart = true → s.canDecide = true ∧ s.decision = .sequencer) ∧
  (s.arb.apart = false → s.canDecide = true → s.decision = .none)

/-- Everything that holds between two happenings. -/
structure State.Inv (s : State) : Prop where
  tables : s.TablesOk
  slots : s.SlotsOk
  link : s.LinkOk
  direct : s.DirectOk
  sequencer : s.SequencerOk
  lock : s.LockOk
  decided : s.Decided

/-! ## What completions and ends of runs leave

The statements about a happening that completes an item or ends a run say what it leaves in these terms. -/

/-- In w the queue, the hold list, the drop counter and the top state are those that offering the records l, in order,
leaves of s, and every event the offers raise is latched (R167, R170, R172, R173). -/
def State.Offers (s w : State) (l : List Record) : Prop :=
  let o := l.foldl (fun t r => offer r t) s
  w.results.queue = o.results.queue ∧ w.results.hold = o.results.hold ∧ w.results.drops = o.results.drops ∧
  w.seq.top = o.seq.top ∧ ∀ e : Event, o.latched e = true → w.latched e = true

/-- How a run goes on from s to w, with run its context as the completion just made leaves it and l the ITEM record
that completion offered, if any. The run goes on at its next expected position (R73, R95); or it ends, early by
ABORT_CHAIN or at its last expected position. The end of a NORMAL pass offers PASS_END, copies the mask, gives the
pass-boundary notice (outside SEQ_FIRST the grant flag stays as it is: DESIGN CHOICE, log entry 25) and decides by the
mode and its flag whether a pass follows (R74, R75, R131, R154); that of an
injected run offers INJ_END, copies the mask and leaves the active context of R98 (R96, R98). -/
def State.RunGoesOn (s w : State) (c : Chain) (run : RunContext) (l : List Record) (early : Bool) : Prop :=
  (∀ q, early = false → s.nextExpected c (run.position + 1) = some q →
    w.seq.active = s.seq.active ∧ w.runOf c = { run with position := q } ∧ s.Offers w l) ∧
  (early = true ∨ s.nextExpected c (run.position + 1) = none →
    (c = .normal →
      let p := s.seq.pass
      let oneShot := s.tables.normalMode = .oneShot
      let follows := if oneShot then p.startPending else !p.stopAfter
      let flags := { p with startPending := if oneShot then false else p.startPending
                            stopAfter := if oneShot then p.stopAfter else false }
      s.Offers w (l ++ [.passEnd p.number run.done run.errors early]) ∧
      w.results.normalMask = run.mask ∧ w.latched .passEnd = true ∧
      w.arb.boundaryGrant = (s.arb.mode == .seqFirst || s.arb.boundaryGrant) ∧
      w.seq.active = (if follows then .normal else .none) ∧
      w.seq.pass = if follows then
        { flags with
          present := true, number := p.number + 1#16
          run := { position := (s.nextExpected .normal 0).getD 0, mask := 0#64, done := 0, errors := 0,
                   chainAbort := false } }
        else { flags with present := false, run := { run with chainAbort := false } }) ∧
    ∀ k, c = .inj k →
      s.Offers w (l ++ [.injEnd k run.done run.errors early]) ∧
      w.results.injMasks = s.results.injMasks.set k (run.mask.setWidth 16) ∧ w.latched .injEnd = true ∧
      w.seq.injRun = none ∧ w.seq.pass = s.seq.pass ∧
      w.seq.active = if w.seq.top = .queueWait ∧ s.seq.suspended = none then
        (if s.seq.pass.present then .normal else .none) else .inj k)

/-- The ITEM record of an item of chain c that completes with an outcome, or no record where the item's post option calls
for none (R41, R165). -/
def State.itemRecords (s : State) (c : Chain) (it : ItemRun) (o : ItemOutcome) (v : Option Value) : List Record :=
  let d := s.itemAt it.item
  if d.post = .always ∨ (d.post = .errors ∧ o ≠ .done) then
    [.item { chain := c, position := it.position, item := it.item, outcome := o, slot := d.slot,
             restarts := it.restarts, value := v, passNumber := if c = .normal then s.seq.pass.number else 0#16 }]
  else []

/-- From s to w the current item of chain c completes with an outcome and a value, and its run goes on or ends: no item
is in progress and no tenure held, the position's flag is set and a count rises, the slot and the ITEM record follow the
item's routing, a failure raises ITEM_ERROR, and the rest of the part is as it was (R68, R69, R150, R162, R164, R165). -/
def State.Completes (s w : State) (c : Chain) (it : ItemRun) (o : ItemOutcome) (v : Option Value) (early : Bool) : Prop :=
  let old := s.runOf c
  let failed := o ≠ .done ∧ o ≠ .aborted
  (w.seq.item = none ∧ w.arb.tenure = false ∧ w.seq.lastItem = it.item ∧ w.seq.lastPosition = it.position ∧
    w.seq.pendingSet = s.seq.pendingSet ∧ w.seq.suspended = s.seq.suspended) ∧
  (w.stations = s.stations ∧ w.tables = s.tables ∧ w.trigger = s.trigger ∧ w.link = s.link ∧ w.direct = s.direct ∧
    w.arb = { s.arb with tenure := false, boundaryGrant := w.arb.boundaryGrant }) ∧
  (failed → w.latched .itemError = true) ∧
  w.results.slots = (match (s.itemAt it.item).slot with
    | some k => if o = .aborted then s.results.slots else s.results.slots.set k
        { value := if o = .done then v.getD (s.results.slots[k]).value else (s.results.slots[k]).value
          outcome := some o, state := .fresh, overwritten := (s.results.slots[k]).state == .fresh, writer := c
          passNumber := if c = .normal then s.seq.pass.number else 0#16 }
    | none => s.results.slots) ∧
  s.RunGoesOn w c
    { old with
      mask := old.mask ||| (1#64 <<< it.position)
      done := if o = .done then old.done + 1 else old.done
      errors := if failed then old.errors + 1 else old.errors }
    (s.itemRecords c it o v) early

/-- The current item completes ABORTED when its run ends early: not one that has sent nothing in this run (R153). -/
def State.abandons (s : State) : Option ItemRun := s.seq.item.filter fun it => it.phase != .grantWait || it.restarts != 0

/-- The flag of the current item's position in the running mask, where the item completes at the early end of its run
(R150, R153). -/
def State.abandonedFlag (s : State) : BitVec 64 := (s.abandons.map fun it => 1#64 <<< it.position).getD 0#64

/-- The ITEM record of the current item, where the item completes at the early end of its run (R150, R153). -/
def State.abandonedRecords (s : State) (c : Chain) : List Record :=
  (s.abandons.map fun it => s.itemRecords c it .aborted none).getD []

/-- The records of an injected run in progress that ends early: its item's, then INJ_END (R153, R156). -/
def State.injectedAbortRecords (s : State) : List Record :=
  match s.seq.active, s.seq.injRun with
  | .inj k, some r => s.abandonedRecords (.inj k) ++ [.injEnd k r.done r.errors true]
  | _, _ => []

/-- The record of a suspended item that completes ABORTED (R156). -/
def State.suspendedAbortRecords (s : State) : List Record :=
  match s.seq.suspended with
  | some r => s.itemRecords .normal r.toRun .aborted none
  | none => []

/-- The records of a NORMAL pass that ends early: its current item's, where NORMAL is active, then PASS_END (R156). -/
def State.passAbortRecords (s : State) : List Record :=
  if s.seq.pass.present then
    (if s.seq.active = .normal then s.abandonedRecords .normal else []) ++
      [.passEnd s.seq.pass.number s.seq.pass.run.done s.seq.pass.run.errors true]
  else []

/-- The records ABORT_ALL and DISARM offer, in the order of R156. -/
def State.abortRecords (s : State) : List Record :=
  s.injectedAbortRecords ++ s.suspendedAbortRecords ++ s.passAbortRecords

/-- From s to u every run in progress has ended early by ABORT_ALL or DISARM: its mask is copied with the flag of an item
that completes ABORTED, its end is latched, and the end of a pass gives the pass-boundary notice, which leaves the grant
flag as it is outside SEQ_FIRST (DESIGN CHOICE, log entry 25) (R74, R96, R131, R150, R156). -/
def State.EndsEarly (s u : State) : Prop :=
  let flag := match s.seq.suspended with
    | some r => 1#64 <<< r.position
    | none => if s.seq.active = .normal then s.abandonedFlag else 0#64
  (∀ k r, s.seq.active = .inj k → s.seq.injRun = some r → u.latched .injEnd = true ∧
    u.results.injMasks = s.results.injMasks.set k ((r.mask ||| s.abandonedFlag).setWidth 16)) ∧
  (s.seq.injRun = none → u.results.injMasks = s.results.injMasks) ∧
  (s.seq.pass.present = true → u.latched .passEnd = true ∧ u.results.normalMask = s.seq.pass.run.mask ||| flag ∧
    u.arb.boundaryGrant = (s.arb.mode == .seqFirst || s.arb.boundaryGrant)) ∧
  (s.seq.pass.present = false → u.results.normalMask = s.results.normalMask ∧
    u.arb.boundaryGrant = s.arb.boundaryGrant)

/-- Two states hold the same configuration: every word that is locked while the part is armed (R2, R28, R47, R110,
R114, R116, R127, R169). -/
structure State.SameConfiguration (s t : State) : Prop where
  entries : t.stations.entries = s.stations.entries
  items : t.tables.items = s.tables.items
  normal : t.tables.normal = s.tables.normal
  normalMode : t.tables.normalMode = s.tables.normalMode
  inj : t.tables.inj = s.tables.inj
  timers : t.trigger.timers = s.trigger.timers
  edges : t.trigger.edges = s.trigger.edges
  triggers : t.trigger.entries = s.trigger.entries
  mode : t.arb.mode = s.arb.mode
  windowLength : t.arb.windowLength = s.arb.windowLength
  policy : t.results.policy = s.results.policy
  rate : t.link.rate = s.link.rate

end Sys2Proof.Machine
end

