-- ==== Sys2Proof/Certificates/Slice0/Obligations.lean ====
section
/-! DEFINITION. The statements for the provers, each a proposition about the model. OBLIGATIONS.json gives the title,
the basis and the rules of each. Every statement about a command assumes that RESET_N is high, unless it says
otherwise: while it is low nothing is taken (ResetHoldsEveryBlock). What a word reads as is written out bit by bit, from
bit 15 down, with a 0 for every bit its layout in section 10.7 does not name (R179). Where a statement says arbitrate, a
grant to the Sequencer is made in that happening or as a happening of its own in the same moment (DirectGrantResult says
which states that can leave; DEDUCED, log entry 27). -/

open Sys2Proof Sys2Proof.Machine

/-! ## The block and its queue -/

/-- A step takes the command at the front of the queue and runs it on the state with the queue's rest. -/
def Obligations.StepTakesFrontCommand : Prop :=
  ∀ (s : State) (c : Instr) (rest : List Instr), s.pending = c :: rest →
    step s = exec c { s with pending := rest }

/-- With no command waiting, a microsecond passes, or one happening that has fallen due is taken (the model's clock, log
entries 1 and 2). A timer's happening has fallen due exactly when that timer runs and its moment is reached: the engine's
timer by its state and end watch, the pace timers, the line filters, the conversion timers of the current and of the
suspended item, the pause of the arbiter, and the lock window timer; a grant to the Sequencer left to a happening of its
own is due at once, and GRANT_PAUSE_END stands for it (DEDUCED, log entry 27). -/
def Obligations.IdleStepLetsTimePass : Prop :=
  (∀ s : State, s.pending = [] →
    (s.resetHeld = true ∨ s.due = [] → step s = .next { s with now := s.now + 1 }) ∧
    (s.resetHeld = false → s.due ≠ [] → ∃ c ∈ s.due, step s = exec c s)) ∧
  ∀ (s : State) (c : Instr),
    let reached := fun t : Option Nat => ∃ d, t = some d ∧ d ≤ s.now
    let engine := reached s.link.timer
    (c ∈ s.due ↔
      (c = .frameSent ∧ s.link.phase = .sending ∧ engine) ∨
      (c = .responseTimeout ∧ s.link.phase = .awaitResponse ∧ engine) ∨
      (c = .endWatchExpiry ∧ s.link.phase = .receiving ∧ s.link.endWatch = true ∧ engine) ∨
      (c = .byteGapExpiry ∧ s.link.phase = .receiving ∧ s.link.endWatch = false ∧ engine) ∨
      (c = .settleEnd ∧ s.link.phase = .settle ∧ s.link.txn ≠ none ∧ engine) ∨
      (c = .resetSettleEnd ∧ s.link.phase = .settle ∧ s.link.txn = none ∧ engine) ∨
      (c = .backoffEnd ∧ s.link.phase = .backoff ∧ engine) ∨
      (∃ k d, c = .paceTimerExpiry k ∧ s.trigger.runs[k] = .running d ∧ d ≤ s.now) ∨
      (∃ k, c = .lineEdge k ∧ reached s.trigger.filters[k]) ∨
      (∃ it, c = .conversionTimerExpiry ∧ s.seq.item = some it ∧ reached it.convDue) ∨
      (∃ r, c = .suspendedTimerExpiry ∧ s.seq.suspended = some r ∧ reached r.convDue) ∨
      (c = .grantPauseEnd ∧ (reached s.arb.pause ∨ s.arb.apart = true)) ∨
      (∃ t d, c = .lockWindowExpiry ∧ s.arb.lock = .window t d ∧ d ≤ s.now))

/-- Every command of the table answers a next state in every state, in reset as well, where it may take nothing. That a
term which is no command of its row is refused by the name illFormed is the model's own choice (DESIGN CHOICE, log entry
15). -/
def Obligations.EveryCommandIsTaken : Prop :=
  ∀ (c : Instr) (s : State),
    (c.wellFormed = true → ∃ t, exec c s = .next t) ∧
    (c.wellFormed = false → exec c s = .refused .illFormed)

/-! ## Resets -/

/-- While RESET_N is low nothing is taken but changes of the reset pin and of the TRIG pins: no command, no access and
no other happening changes the state, a read is not answered, and INT_N is released (section 10.6). -/
def Obligations.ResetHoldsEveryBlock : Prop :=
  ∀ s : State, s.resetHeld = true →
    s.intAsserted = false ∧ (∀ a, s.readWord a = none) ∧
    ∀ c : Instr, c.wellFormed = true → c ≠ .resetNAssert → c ≠ .resetNRelease →
      (∀ k l, c ≠ .triggerPinChange k l) → exec c s = .next s

/-- RESET_N_ASSERT puts every block at its RESET_N values and holds it there; RESET_N_RELEASE leaves them there, with a
filter interval begun for every line whose pin is high. Either cuts the access that is on the bus, and that access takes
nothing more until it ends: how far an access extends is the model's inference (DEDUCED, log entry 26). The TRIG pins, the
lines of the bus, the clock and the queue lie outside. That the interval begins at the release is an inference too
(DEDUCED, log entry 4), and so is the end of a running grant pause by the reset (DEDUCED, log entry 8). -/
def Obligations.PinResetResult : Prop :=
  ∀ s : State,
    let port : Port := { pins := s.port.pins, spoilt := s.port.pins.inAccess, driven := none }
    exec .resetNAssert s = .next { State.reset with
      trigger := { State.reset.trigger with pins := s.trigger.pins }
      port := port
      resetHeld := true, now := s.now, pending := s.pending } ∧
    ∃ f : Vector (Option Nat) 4,
      exec .resetNRelease s = .next { State.reset with
        trigger := { State.reset.trigger with pins := s.trigger.pins, filters := f }
        port := port
        now := s.now, pending := s.pending } ∧
      ∀ k : Fin 4, f[k] = if s.trigger.pins[k] then some (s.now + 10) else none

/-- The values every block takes at RESET_N, as its chapter gives them. -/
def Obligations.ResetValues : Prop :=
  -- chapter 10: the window, read through its words
  (State.reset.readWord 0x03#7 = some 0#16 ∧ State.reset.readWord 0x04#7 = some 0#16 ∧
    State.reset.readWord 0x05#7 = some 0#16 ∧ State.reset.readWord 0x06#7 = some 0#16 ∧
    State.reset.readWord 0x07#7 = some 0#16 ∧ State.reset.readWord 0x08#7 = some 1#16 ∧
    State.reset.intAsserted = false) ∧
  -- chapter 2
  (∀ e : Fin 16, State.reset.stations.entries[e] =
      { address := 0#5, enabled := false, timeout := 50#9, retry := 2#3, backoff := 10#8, convTime := 100#16,
        failLimit := 3#4 } ∧ State.reset.stations.failures[e] = 0#4 ∧ State.reset.health e = .online) ∧
  (State.reset.stations.select = 0 ∧ State.reset.direct.defTimeout = 50#9 ∧ State.reset.direct.defRetry = 2#3) ∧
  -- chapter 3
  (∀ n : Fin 64, State.reset.tables.items[n] =
      { kind := .off, station := 0, index := 0#8, length := 1#3, value := 0#32, slot := none, post := .always }) ∧
  (∀ c : Chain, State.reset.chainDef c = { enabled := false, first := 0#6, count := 1#7 }) ∧
  (State.reset.tables.normalMode = .oneShot ∧ State.reset.tables.itemSelect = 0 ∧
    State.reset.tables.chainSelect = .inj 0 ∧ State.reset.tables.check = ⟨.none, 0#6⟩) ∧
  -- chapters 4, 5 and 8
  (State.reset.seq.top = .stopped ∧ State.reset.seq.active = .none ∧ State.reset.seq.item = none ∧
    State.reset.seq.injRun = none ∧ State.reset.seq.suspended = none ∧ State.reset.seq.pendingSet = 0#8 ∧
    State.reset.seq.pass = { present := false, number := 0#16, run := { position := 0, mask := 0#64, done := 0, errors := 0, chainAbort := false }, startPending := false, stopAfter := false } ∧
    State.reset.seqRequest = false ∧ State.reset.readWord 0x10#7 = some 0x0500#16 ∧
    State.reset.readWord 0x11#7 = some 0#16 ∧ State.reset.readWord 0x12#7 = some 0#16 ∧
    State.reset.readWord 0x13#7 = some 0#16 ∧ State.reset.readWord 0x14#7 = some 0#16) ∧
  -- chapter 6
  (∀ k : Fin 4, State.reset.trigger.timers[k] = { enabled := false, mode := .periodic, period := 100#24 } ∧
    State.reset.trigger.runs[k] = .stopped ∧ State.reset.trigger.edges[k] = .none ∧
    State.reset.trigger.filtered[k] = false) ∧
  (∀ e : Fin 8, State.reset.trigger.entries[e] = { enabled := false, source := .timer 0, target := .inj 0 }) ∧
  (State.reset.trigger.timerSelect = 0 ∧ State.reset.trigger.triggerSelect = 0 ∧ State.reset.trigger.overrun = 0#9) ∧
  -- chapter 7
  (State.reset.owner = .none ∧ State.reset.arb.tenure = false ∧ State.reset.arb.mode = .shared ∧
    State.reset.arb.windowLength = 50#8 ∧ State.reset.arb.lock = .none ∧ State.reset.arb.boundaryGrant = false ∧
    State.reset.arb.lastGrantee = .sequencer) ∧
  (∀ t : Fin 4, State.reset.direct.slots[t] = { state := .free, outcome := none, value := 0#32, cancelLate := false }) ∧
  (State.reset.direct.order = [] ∧ State.reset.direct.slotSelect = 0 ∧
    State.reset.direct.staging = { address := 0#5, opcode := 0#3, index := 0#8, length := 1#3, data := 0#32, urgent := false, lock := false }) ∧
  -- chapter 1
  (State.reset.link.phase = .idle ∧ State.reset.link.txn = none ∧ State.reset.link.timer = none ∧
    State.reset.link.rate = .k250 ∧ State.reset.ldir = false ∧ State.reset.lineFrame = []) ∧
  -- chapter 9
  (∀ n : Fin 64, State.reset.results.slots[n] =
      { value := 0#32, outcome := none, state := .empty, overwritten := false, writer := .normal, passNumber := 0#16 }) ∧
  (State.reset.results.queue = [] ∧ State.reset.results.hold = [] ∧ State.reset.results.drops = 0#16 ∧
    State.reset.results.normalMask = 0#64 ∧ (∀ k : Fin 8, State.reset.results.injMasks[k] = 0#16) ∧
    State.reset.results.view = none ∧ (∀ i, recordWord State.reset.results.view i = 0#16) ∧
    State.reset.results.snapshot = { slot := 0, content := { value := 0#32, outcome := none, state := .empty, overwritten := false, writer := .normal, passNumber := 0#16 } } ∧
    State.reset.results.resultSelect = 0 ∧ State.reset.results.maskSelect = 0 ∧ State.reset.results.policy = .stall) ∧
  (∀ e : Event, State.reset.latched e = false)

/-- SOFT_RESET, block by block: the configuration is kept, the run state is cleared, and a transaction is cut into a
settle of four byte times; a settle that follows an earlier cut runs on. That a running grant pause ends with it is the
model's inference (DEDUCED, log entry 8), and so is that in STOPPED too it sets the run state of R82, the pass number that
a DISARM kept included (DEDUCED, log entry 28). -/
def Obligations.SoftResetResult : Prop :=
  ∀ s : State, s.resetHeld = false → ∃ l : LinkEngine,
    exec .softReset s = .next
      { window := { s.window with
          commandCode := 13#8, answer := .accepted, detail := 0#4, refused := false, repeated := false,
          reason := .none, refusedAddress := 0#7, latch := 0#12 }
        stations := { s.stations with failures := Vector.replicate 16 0#4 }
        tables := { s.tables with check := ⟨.none, 0#6⟩ }
        trigger := { s.trigger with runs := Vector.replicate 4 .stopped, overrun := 0#9 }
        seq := State.reset.seq
        arb := { State.reset.arb with mode := s.arb.mode, windowLength := s.arb.windowLength }
        direct := { s.direct with slots := State.reset.direct.slots, order := [] }
        link := l
        results := { State.reset.results with
          resultSelect := s.results.resultSelect, maskSelect := s.results.maskSelect, policy := s.results.policy }
        port := s.port, resetHeld := false, now := s.now, pending := s.pending } ∧
    (s.link.phase = .idle ∨ s.link.txn = none → l = s.link) ∧
    (∀ x, s.link.phase ≠ .idle → s.link.txn = some x →
      l = { rate := s.link.rate, phase := .settle, txn := none, timer := some (s.now + x.rate.byteTime * 4), rx := [],
            endWatch := false, incoming := s.link.incoming })

/-! ## What every step keeps -/

/-- The state after reset meets every invariant of Safety.lean. -/
def Obligations.ResetMeetsInvariant : Prop := State.reset.Inv

/-- Every step keeps the tables in range, the failure counts within their limits and the enabled addresses apart. -/
def Obligations.StepKeepsTables : Prop :=
  ∀ s t : State, s.Inv → step s = .next t → t.TablesOk

/-- Every step keeps a result slot's overwritten flag clear unless the slot is FRESH. -/
def Obligations.StepKeepsOverwrittenFlags : Prop :=
  ∀ s t : State, s.SlotsOk → step s = .next t → t.SlotsOk

/-- Every step keeps the Link Engine's record, timer and attempt number in step with its state, and the record holds a
write value for a WRITE and for no other operation. -/
def Obligations.StepKeepsEngine : Prop :=
  ∀ s t : State, s.Inv → step s = .next t → t.LinkOk

/-- Every step keeps the service-order list: exactly the QUEUED slots, each once, URGENT entries first; and the ACTIVE
slot is the one whose transaction is with the engine. -/
def Obligations.StepKeepsServiceOrder : Prop :=
  ∀ s t : State, s.Inv → step s = .next t → t.DirectOk

/-- Every step keeps the Sequencer's top state, contexts, suspension record, pending set, tenure, queue and hold list in
the relations chapters 4, 5, 8 and 9 state. An injected run that has ended waits for its hand-over only in QUEUE_WAIT
with an item suspended, by R98, also where ABORT_CHAIN ended it: R155's words there are read as R98's first case
(DEDUCED, log entry 7). -/
def Obligations.StepKeepsSequencer : Prop :=
  ∀ s t : State, s.Inv → step s = .next t → t.SequencerOk

/-- Every step keeps the lock state's conditions and leaves no grant unmade that a decision would make, but for a grant to
the Sequencer that is left to a happening of its own in the same moment, as R152's and R159's pairs read; and one is left
so only while a decision would make it. That every other grant is made in the happening that lets it be made, and that
either may be so for the Sequencer's, is the model's inference (DEDUCED, log entry 27). -/
def Obligations.StepKeepsArbiter : Prop :=
  ∀ s t : State, s.Inv → step s = .next t → t.LockOk ∧ t.Decided

/-! ## Rules of the whole machine -/

/-- While the Sequencer is not STOPPED, no command and no happening but the reset pin changes a locked word. -/
def Obligations.ConfigurationStandsWhileArmed : Prop :=
  ∀ (c : Instr) (s t : State), s.seq.top ≠ .stopped → c ≠ .resetNAssert → c ≠ .resetNRelease →
    exec c s = .next t → s.SameConfiguration t

/-- STOPPED is left by ARM alone, and STOPPING only into STOPPED. -/
def Obligations.StoppedLeftByArmAlone : Prop :=
  ∀ (c : Instr) (s t : State), s.Inv → exec c s = .next t →
    (s.seq.top = .stopped → c ≠ .arm → t.seq.top = .stopped) ∧
    (s.seq.top = .stopping → t.seq.top = .stopping ∨ t.seq.top = .stopped)

/-- ARM, DISARM and the abort commands leave every entry's configuration, count and health as they stand. -/
def Obligations.AbortsLeaveHealth : Prop :=
  ∀ (c : Instr) (s t : State), c ∈ [Instr.arm, .disarm, .abortItem, .abortChain, .abortAll] →
    exec c s = .next t → t.stations = s.stations ∧ ∀ e, t.health e = s.health e

/-- No abort, DISARM, CANCEL or STOP_AFTER_PASS touches a transaction in flight, but for the orphan mark. ABORT_ALL and
DISARM set the mark where the current item is in ON_LINK or ON_LINK_FETCH, no other of these commands sets it, and none
clears it. -/
def Obligations.AbortsCutNoFrame : Prop :=
  ∀ (c : Instr) (s t : State), s.link.phase ≠ .idle →
    (c ∈ [Instr.disarm, .stopAfterPass, .abortItem, .abortChain, .abortAll] ∨ ∃ arg, c = .cancel arg) →
    exec c s = .next t →
    ∃ mark : Transaction → Bool,
      t.link = { s.link with txn := s.link.txn.map fun x => { x with orphan := mark x } } ∧
      (∀ x, s.link.txn = some x → x.orphan = true → mark x = true) ∧
      (c ≠ .disarm → c ≠ .abortAll → ∀ x, s.link.txn = some x → mark x = x.orphan) ∧
      (c = .disarm ∨ c = .abortAll → s.resetHeld = false → s.Inv → ∀ x, s.link.txn = some x →
        (mark x = true ↔ x.orphan = true ∨
          ∃ it, s.seq.item = some it ∧ (it.phase = .onLink ∨ it.phase = .onLinkFetch)))

/-- The arbiter's decision by R133 and R132, case by case. -/
def Obligations.DecisionFollowsPriority : Prop :=
  ∀ s : State,
    (s.direct.order = [] → s.seqRequest = true → s.decision = .sequencer) ∧
    (s.direct.order = [] → s.seqRequest = false → s.decision = .none) ∧
    ∀ (t : Fin 4) (l : List (Fin 4)), s.direct.order = t :: l →
      (s.urgent t = true → s.decision = .direct t) ∧
      (s.urgent t = false → s.arb.tenure = true →
        s.decision = if s.seqRequest then .sequencer else .none) ∧
      (s.urgent t = false → s.arb.tenure = false → s.seqRequest = false → s.decision = .direct t) ∧
      (s.urgent t = false → s.arb.tenure = false → s.seqRequest = true →
        s.decision = match s.arb.mode with
          | .seqFirst => if s.arb.boundaryGrant then .direct t else .sequencer
          | .shared => if s.arb.lastGrantee = .sequencer then .direct t else .sequencer
          | .directFirst => .direct t)

/-! ## Writes of the window -/

/-- The flag words: ones clear the flags of the event latch and of the overrun word, the enables and the master enable
are written, a write clears the drop counter, and bit 15 clears the window status. Nothing else changes. And what the
latch, the enables, the overrun word and the drop counter read as. -/
def Obligations.FlagWritesResult : Prop :=
  ([Event.passEnd, .injEnd, .itemError, .queueData, .queueStall, .recordDropped, .triggerOverrun, .stationOffline,
      .stationBack, .directDone, .lockLapsed, .seqStopped].map Event.bit = List.range 12 ∧
    Chain.normal.overrunBit = 8 ∧ ∀ k : Fin 8, (Chain.inj k).overrunBit = k.val) ∧
  ∀ (s : State) (v : Word), s.resetHeld = false →
    (s.readWord 0x05#7 = some (0#4 ++ s.window.latch) ∧ s.readWord 0x06#7 = some (0#4 ++ s.window.enable) ∧
      s.readWord 0x3A#7 = some (0#7 ++ s.trigger.overrun) ∧ s.readWord 0x5F#7 = some s.results.drops ∧
      ∀ e : Event, s.latched e = s.window.latch.getLsbD e.bit) ∧
    (∃ l : BitVec 12, exec (.eventLatchClear v) s = .next { s with window := { s.window with latch := l } } ∧
      ∀ e : Event, l.getLsbD e.bit = (s.latched e && !v.getLsbD e.bit)) ∧
    (∃ n : BitVec 12, exec (.eventEnableWrite v) s = .next { s with window := { s.window with enable := n } } ∧
      ∀ e : Event, n.getLsbD e.bit = v.getLsbD e.bit) ∧
    exec (.interruptControlWrite v) s = .next { s with window := { s.window with master := v.getLsbD 0 } } ∧
    (v.getLsbD 15 = true → exec (.windowStatusClear v) s = .next { s with window := { s.window with
      refused := false, repeated := false, reason := .none, refusedAddress := 0#7 } }) ∧
    (v.getLsbD 15 = false → exec (.windowStatusClear v) s = .next s) ∧
    exec (.dropCounterClear v) s = .next { s with results := { s.results with drops := 0#16 } } ∧
    (∃ o : BitVec 9, exec (.overrunClear v) s = .next { s with trigger := { s.trigger with overrun := o } } ∧
      ∀ c : Chain, o.getLsbD c.overrunBit = (s.trigger.overrun.getLsbD c.overrunBit && !v.getLsbD c.overrunBit))

/-- INT_N is asserted exactly when the master enable is set and some event has both its flag and its enable set, and bit
15 of the interrupt control word shows it. -/
def Obligations.InterruptFollowsLatch : Prop :=
  ∀ s : State, s.resetHeld = false →
    (s.intAsserted = true ↔
      s.window.master = true ∧ ∃ e : Event, s.latched e = true ∧ s.window.enable.getLsbD e.bit = true) ∧
    s.readWord 0x07#7 = some (BitVec.ofBool s.intAsserted ++ 0#14 ++ BitVec.ofBool s.window.master)

/-- What a read of the status words returns in any state: the identification words, the command and window status, the
sequencer status with its readings BOUNDARY, COMPLETE and STOPPED, the link status with the owner, the queue status and
the mask words; and every code of section 10.7. That the owner is SEQUENCER by the tenure flag, which falls at a notice,
is the model's reading of R126 beside R128 (DEDUCED, log entry 24). -/
def Obligations.StatusWordsRead : Prop :=
  -- the shared encodings of section 10.7
  ([Answer.none, .accepted, .queued, .wrongState, .configError, .duplicateAddress, .noTarget, .overrun, .full,
      .invalid, .late, .noSuch, .readOnly].map Answer.code = List.range 13 ∧
    [none, some ItemOutcome.done, some .rejected, some .noResponse, some .badFrame, some .busyLimit, some .offline,
      some .starved, some .aborted].map outcomeCode = List.range 9 ∧
    [TxnOutcome.done, .rejected, .noResponse, .badFrame, .busyLimit].map TxnOutcome.toItem =
      [ItemOutcome.done, .rejected, .noResponse, .badFrame, .busyLimit] ∧
    (∀ o : ItemOutcome, outcomeCode (some o) = o.code) ∧
    (Chain.normal.code = 0 ∧ ∀ k : Fin 8, (Chain.inj k).code = k.val + 1) ∧
    [Top.stopped, .idle, .running, .queueWait, .stopping].map Top.code = List.range 5 ∧
    [Phase.grantWait, .onLink, .converting, .fetchWait, .onLinkFetch].map Phase.code = List.range 5 ∧
    [EngineState.idle, .sending, .awaitResponse, .receiving, .settle, .backoff].map EngineState.code = List.range 6 ∧
    [CheckKind.none, .chainRange, .noChain, .station, .slot, .triggerTarget, .emptyChain].map CheckKind.code =
      List.range 7) ∧
  -- the codes of single words
  ((Chain.normal.selectCode = 8 ∧ ∀ k : Fin 8, (Chain.inj k).selectCode = k.val) ∧
    (slotCode none = 127 ∧ ∀ k : Fin 64, slotCode (some k) = k.val) ∧
    ((∀ k : Fin 4, (Source.timer k).code = k.val) ∧ ∀ k : Fin 4, (Source.line k).code = k.val + 4) ∧
    [Health.online, .suspect, .offline].map Health.code = List.range 3 ∧
    [ResultState.empty, .fresh, .seen].map ResultState.code = List.range 3 ∧
    [SlotState.free, .queued, .active, .done, .cancelled].map SlotState.code = List.range 5 ∧
    [LinkRate.k62, .k250, .k1000].map LinkRate.code = [0#2, 1#2, 2#2] ∧
    [PriorityMode.seqFirst, .shared, .directFirst].map PriorityMode.code = [0#2, 1#2, 2#2] ∧
    [ItemKind.off, .read, .write, .sampleFetch].map ItemKind.code = [0#2, 1#2, 2#2, 3#2] ∧
    [Post.always, .errors, .never].map Post.code = [0#2, 1#2, 2#2] ∧
    [EdgeSelect.none, .rising, .falling, .both].map EdgeSelect.code = [0#2, 1#2, 2#2, 3#2] ∧
    (TimerRun.stopped.code = 0#2 ∧ (∀ d, (TimerRun.running d).code = 1#2) ∧ TimerRun.expired.code = 2#2) ∧
    [Op.ping, .read, .write, .sample, .fetch].map Op.code = [0#3, 1#3, 2#3, 3#3, 4#3]) ∧
  ∀ s : State, s.resetHeld = false →
    (s.readWord 0x00#7 = some 0x0416#16 ∧ s.readWord 0x01#7 = some 0x0102#16) ∧
    -- command status and window status
    s.readWord 0x03#7 = some (s.window.commandCode ++ BitVec.ofNat 4 s.window.answer.code ++ s.window.detail) ∧
    s.readWord 0x04#7 = some (BitVec.ofBool s.window.refused ++ BitVec.ofBool s.window.repeated ++ 0#2 ++
      BitVec.ofNat 4 s.window.reason.code ++ 0#1 ++ s.window.refusedAddress) ∧
    -- sequencer status
    (let p := s.seq.pass
     let context := match s.seq.active with
       | .none => 0
       | .normal => 1
       | .inj k => k.val + 2
     let shows := fun (phase item position restarts : Nat) =>
       s.readWord 0x10#7 = some (BitVec.ofBool p.stopAfter ++ BitVec.ofBool p.startPending ++ BitVec.ofBool p.present ++
         BitVec.ofNat 2 restarts ++ BitVec.ofNat 3 phase ++ BitVec.ofNat 4 context ++ 0#1 ++
         BitVec.ofNat 3 s.seq.top.code) ∧
       (s.seq.top ≠ .stopped →
         s.readWord 0x11#7 = some (0#2 ++ BitVec.ofNat 6 position ++ 0#2 ++ BitVec.ofNat 6 item))
     (∀ it, s.seq.active ≠ .none → s.seq.item = some it → shows it.phase.code it.item it.position it.restarts) ∧
     (s.seq.active = .normal → s.seq.item = none →
       shows 6 (s.tables.normal.first.toNat + p.run.position) p.run.position 0) ∧
     (∀ k r, s.seq.active = .inj k → s.seq.item = none → s.seq.injRun = some r →
       shows 6 ((s.tables.inj[k]).first.toNat + r.position) r.position 0) ∧
     (s.seq.active = .none ∨ (∃ k, s.seq.active = .inj k ∧ s.seq.item = none ∧ s.seq.injRun = none) →
       shows 5 s.seq.lastItem s.seq.lastPosition 0) ∧
     (s.seq.top = .stopped → s.readWord 0x11#7 = some 0#16)) ∧
    s.readWord 0x12#7 = some s.seq.pass.number ∧
    (s.seq.suspended = none → s.readWord 0x13#7 = some (0#8 ++ s.seq.pendingSet) ∧ s.readWord 0x14#7 = some 0#16) ∧
    (∀ r, s.seq.suspended = some r →
      s.readWord 0x13#7 = some (1#1 ++ 0#1 ++ BitVec.ofNat 2 r.restarts ++ BitVec.ofBool r.fetchDue ++ 0#3 ++
        s.seq.pendingSet) ∧
      s.readWord 0x14#7 = some (0#2 ++ BitVec.ofNat 6 r.position ++ 0#2 ++ BitVec.ofNat 6 r.item)) ∧
    -- link status
    (let owner := fun (who tag : Nat) => s.readWord 0x15#7 = some (0#7 ++ BitVec.ofBool (s.arb.lock != .none) ++
       BitVec.ofNat 2 tag ++ BitVec.ofNat 2 who ++ 0#1 ++ BitVec.ofNat 3 s.link.phase.code)
     (∀ x t, s.link.txn = some x → x.requester = .direct t → owner 2 t.val) ∧
     (∀ x, s.link.txn = some x → x.requester = .sequencer → owner 1 0) ∧
     (s.link.txn = none →
       (∀ t d, s.arb.lock = .window t d → owner 2 t.val) ∧
       ((∀ t d, s.arb.lock ≠ .window t d) → owner (if s.arb.tenure then 1 else 0) 0))) ∧
    -- queue status and mask words
    s.readWord 0x5E#7 = some (0#3 ++ BitVec.ofBool (s.results.policy == .drop) ++ 0#2 ++
      BitVec.ofNat 2 s.results.hold.length ++ 0#2 ++ BitVec.ofNat 6 s.results.queue.length) ∧
    ∃ m : BitVec 64,
      (s.readWord 0x61#7 = some (m.extractLsb' 0 16) ∧ s.readWord 0x62#7 = some (m.extractLsb' 16 16) ∧
        s.readWord 0x63#7 = some (m.extractLsb' 32 16) ∧ s.readWord 0x64#7 = some (m.extractLsb' 48 16)) ∧
      (∀ k : Fin 8, s.results.maskSelect.val = k.val → m = (s.results.injMasks[k]).setWidth 64) ∧
      (s.results.maskSelect.val = 8 → m = s.results.normalMask) ∧
      (s.results.maskSelect.val = 9 → m = s.seq.pass.run.mask)

/-- The accesses of the host. A write is the command its address names in section 10.7, and to the command word the
command its upper byte names, with its lower byte as argument; a write to a read-only word or to no word is recorded as
a refusal, and a command write with an unknown code is answered INVALID. Two reads have a side effect; the command word
and an address with no word read 0. At the port an access is taken at one moment of its strobes, or not at all where
both strobes are low together or RESET_N is low, and D15 to D0 are driven while a read that was taken lasts. The
model's own: that an access lasts as long as CS_N is low with RD_N or WR_N low, that a spoilt one takes nothing more
until it ends, that commands that wait come first, and a write that ends before a read that begins in the same moment
(DEDUCED, log entry 26); and that State.hostWrite and State.hostRead put a whole access into the queue as the command it
is (DESIGN CHOICE, log entries 16 and 20). -/
def Obligations.WindowAccesses : Prop :=
  -- the command word
  (∀ (arg : Byte) (w : Word), writeCommand 0x02#7 w = commandOfWord w ∧
    commandOfWord (1#8 ++ arg) = .arm ∧ commandOfWord (2#8 ++ arg) = .disarm ∧ commandOfWord (3#8 ++ arg) = .start ∧
    commandOfWord (4#8 ++ arg) = .stopAfterPass ∧ commandOfWord (5#8 ++ arg) = .trigger arg ∧
    commandOfWord (6#8 ++ arg) = .abortItem ∧ commandOfWord (7#8 ++ arg) = .abortChain ∧
    commandOfWord (8#8 ++ arg) = .abortAll ∧ commandOfWord (9#8 ++ arg) = .revive arg ∧
    commandOfWord (10#8 ++ arg) = .submit ∧ commandOfWord (11#8 ++ arg) = .cancel arg ∧
    commandOfWord (12#8 ++ arg) = .release arg ∧ commandOfWord (13#8 ++ arg) = .softReset ∧
    ∀ code : Byte, code.toNat = 0 ∨ 14 ≤ code.toNat → commandOfWord (code ++ arg) = .unknownCommand code arg) ∧
  -- the other writable words
  (∀ v : Word,
    (writeCommand 0x04#7 v = .windowStatusClear v ∧ writeCommand 0x05#7 v = .eventLatchClear v ∧
      writeCommand 0x06#7 v = .eventEnableWrite v ∧ writeCommand 0x07#7 v = .interruptControlWrite v ∧
      writeCommand 0x08#7 v = .linkConfigurationWrite v ∧ writeCommand 0x09#7 v = .arbiterConfigurationWrite v ∧
      writeCommand 0x0A#7 v = .resultConfigurationWrite v ∧ writeCommand 0x0B#7 v = .directDefaultsWrite v) ∧
    (writeCommand 0x18#7 v = .stationSelectWrite v ∧ writeCommand 0x19#7 v = .stationFieldWrite .addressEnable v ∧
      writeCommand 0x1A#7 v = .stationFieldWrite .responseTimeout v ∧
      writeCommand 0x1B#7 v = .stationFieldWrite .limits v ∧ writeCommand 0x1C#7 v = .stationFieldWrite .busyBackoff v ∧
      writeCommand 0x1D#7 v = .stationFieldWrite .conversionTime v) ∧
    (writeCommand 0x20#7 v = .itemSelectWrite v ∧ writeCommand 0x21#7 v = .itemFieldWrite .kind v ∧
      writeCommand 0x22#7 v = .itemFieldWrite .index v ∧ writeCommand 0x23#7 v = .itemFieldWrite .valueHigh v ∧
      writeCommand 0x24#7 v = .itemFieldWrite .valueLow v ∧ writeCommand 0x25#7 v = .itemFieldWrite .routing v) ∧
    (writeCommand 0x28#7 v = .chainSelectWrite v ∧ writeCommand 0x29#7 v = .chainFieldWrite .control v ∧
      writeCommand 0x2A#7 v = .chainFieldWrite .first v ∧ writeCommand 0x2B#7 v = .chainFieldWrite .count v) ∧
    (writeCommand 0x30#7 v = .timerSelectWrite v ∧ writeCommand 0x31#7 v = .timerFieldWrite .control v ∧
      writeCommand 0x32#7 v = .timerFieldWrite .periodHigh v ∧ writeCommand 0x33#7 v = .timerFieldWrite .periodLow v ∧
      writeCommand 0x35#7 v = .lineEdgeWrite v ∧ writeCommand 0x38#7 v = .triggerSelectWrite v ∧
      writeCommand 0x39#7 v = .triggerEntryWrite v ∧ writeCommand 0x3A#7 v = .overrunClear v) ∧
    (writeCommand 0x40#7 v = .stagingWrite .request v ∧ writeCommand 0x41#7 v = .stagingWrite .index v ∧
      writeCommand 0x42#7 v = .stagingWrite .dataHigh v ∧ writeCommand 0x43#7 v = .stagingWrite .dataLow v ∧
      writeCommand 0x44#7 v = .directSlotSelectWrite v) ∧
    (writeCommand 0x50#7 v = .resultSelectWrite v ∧ writeCommand 0x5F#7 v = .dropCounterClear v ∧
      writeCommand 0x60#7 v = .maskSelectWrite v)) ∧
  -- every other address: a read-only word, or no word
  (∀ a : Address,
    let writable := [0x02, 0x04, 0x05, 0x06, 0x07, 0x08, 0x09, 0x0A, 0x0B, 0x18, 0x19, 0x1A, 0x1B, 0x1C, 0x1D,
      0x20, 0x21, 0x22, 0x23, 0x24, 0x25, 0x28, 0x29, 0x2A, 0x2B, 0x30, 0x31, 0x32, 0x33, 0x35, 0x38, 0x39, 0x3A,
      0x40, 0x41, 0x42, 0x43, 0x44, 0x50, 0x5F, 0x60]
    (isReadOnlyAddress a = true ↔ a.toNat ∉ writable) ∧
    (isReadOnlyAddress a = true → ∀ v : Word, writeCommand a v = .readOnlyWrite a v)) ∧
  -- the reads with a side effect
  (readCommand 0x51#7 = some .snapshotCapture ∧ readCommand 0x58#7 = some .pop ∧
    ∀ a : Address, a ≠ 0x51#7 → a ≠ 0x58#7 → readCommand a = none) ∧
  -- an access joins the queue
  (∀ (s : State) (a : Address) (v : Word),
    s.hostWrite a v = { s with pending := s.pending ++ [writeCommand a v] } ∧
    s.hostRead a = { s with pending := s.pending ++ (readCommand a).toList }) ∧
  -- refusals, and the words that read 0
  (∀ s : State, s.resetHeld = false →
    (∀ (a : Address) (v : Word), isReadOnlyAddress a = true →
      exec (.readOnlyWrite a v) s = .next { s with window := { s.window with
        refused := true, repeated := s.window.refused, reason := .readOnly, refusedAddress := a } }) ∧
    (∀ code arg : Byte, code.toNat = 0 ∨ 14 ≤ code.toNat →
      exec (.unknownCommand code arg) s = .next { s with window := { s.window with
        commandCode := code, answer := .invalid, detail := 0#4 } }) ∧
    ∀ a : Address, a.toNat ∈ [0x02, 0x0C, 0x0D, 0x0E, 0x0F, 0x17, 0x26, 0x27, 0x2C, 0x2D, 0x2E, 0x2F, 0x37, 0x3B, 0x3C,
        0x3D, 0x3E, 0x3F, 0x49, 0x4A, 0x4B, 0x4C, 0x4D, 0x4E, 0x4F, 0x55, 0x56, 0x57] ∨ 0x65 ≤ a.toNat →
      s.readWord a = some 0#16) ∧
  -- the strobes: which lines are low
  (∀ p : BusPins, (p.reading = true ↔ p.csN = false ∧ p.rdN = false) ∧
    (p.writing = true ↔ p.csN = false ∧ p.wrN = false) ∧
    (p.inAccess = true ↔ p.reading = true ∨ p.writing = true)) ∧
  -- a change of the lines while no command waits
  (∀ (s : State) (new : BusPins), s.pending = [] →
    let old := s.port.pins
    let put := fun (t : State) (spoilt : Bool) (driven : Option Word) =>
      ({ t with port := { pins := new, spoilt := spoilt, driven := driven } } : State)
    -- while RESET_N is low nothing is taken, of this access or of its rest
    (s.resetHeld = true → s.busEdge new = put s new.inAccess none) ∧
    (s.resetHeld = false →
      -- both strobes low together: the AS416 stops driving, and the access takes nothing more
      (new.reading = true → new.writing = true → s.busEdge new = put s true none) ∧
      (s.port.spoilt = true → old.inAccess = true → s.busEdge new = put s new.inAccess none) ∧
      -- nothing on the bus, or a write begun
      (old.writing = false → new.reading = false → (old.inAccess = true → s.port.spoilt = false) →
        s.busEdge new = put s false none) ∧
      -- a read is taken when RD_N and CS_N have both become low
      (∀ w, old.reading = false → old.writing = false → new.reading = true → new.writing = false →
        s.readWord new.address = some w → (old.inAccess = true → s.port.spoilt = false) →
        (readCommand new.address = none → s.busEdge new = put s false (some w)) ∧
        (∀ c t, readCommand new.address = some c → exec c s = .next t →
          s.busEdge new = put t false (some t.window.readValue))) ∧
      -- and its value is driven for as long as both stay low
      (old.reading = true → new.reading = true → old.writing = false → new.writing = false → s.port.spoilt = false →
        s.busEdge new = put s false s.port.driven) ∧
      -- a write is taken when WR_N or CS_N has become high again, with the address and the data of that edge
      (∀ t, old.writing = true → new.writing = false → s.port.spoilt = false →
        exec (writeCommand new.address new.data) s = .next t →
        (new.reading = false → s.busEdge new = put t false none) ∧
        (new.reading = true → old.reading = false → t.port = s.port → t.resetHeld = false →
          (readCommand new.address = none → s.busEdge new = put t false (some (t.wordAt new.address.toNat))) ∧
          (∀ c u, readCommand new.address = some c → exec c t = .next u →
            s.busEdge new = put u false (some u.window.readValue)))))) ∧
  -- commands that wait are taken first, in order
  (∀ (s : State) (new : BusPins), s.busEdge new = s.settled.busEdge new ∧ s.settled.pending = [] ∧
    (s.pending = [] → s.settled = s) ∧
    ∀ (c : Instr) (rest : List Instr) (t : State), s.pending = c :: rest → step s = .next t → t.pending = rest →
      s.settled = t.settled)

/-- A select write names an entry in its range and changes nothing else; beyond its last entry it is refused INVALID.
And what each select word reads as. -/
def Obligations.SelectWritesResult : Prop :=
  ∀ (s : State) (v : Word), s.resetHeld = false →
    let n := (v.extractLsb' 0 8).toNat
    let m := (v.extractLsb' 0 4).toNat
    let reads := fun (a : Address) (k : Nat) => s.readWord a = some (0#8 ++ BitVec.ofNat 8 k)
    (reads 0x18#7 s.stations.select.val ∧ reads 0x20#7 s.tables.itemSelect.val ∧
      reads 0x28#7 s.tables.chainSelect.selectCode ∧ reads 0x30#7 s.trigger.timerSelect.val ∧
      reads 0x38#7 s.trigger.triggerSelect.val ∧ reads 0x44#7 s.direct.slotSelect.val ∧
      reads 0x50#7 s.results.resultSelect.val ∧ reads 0x60#7 s.results.maskSelect.val) ∧
    (∀ k : Fin 16, n = k.val →
      exec (.stationSelectWrite v) s = .next { s with stations := { s.stations with select := k } }) ∧
    (16 ≤ n → exec (.stationSelectWrite v) s = .next (refuseWrite 0x18#7 .invalid s)) ∧
    (∀ k : Fin 64, n = k.val →
      exec (.itemSelectWrite v) s = .next { s with tables := { s.tables with itemSelect := k } }) ∧
    (64 ≤ n → exec (.itemSelectWrite v) s = .next (refuseWrite 0x20#7 .invalid s)) ∧
    (∀ c : Chain, m = c.selectCode →
      exec (.chainSelectWrite v) s = .next { s with tables := { s.tables with chainSelect := c } }) ∧
    (9 ≤ m → exec (.chainSelectWrite v) s = .next (refuseWrite 0x28#7 .invalid s)) ∧
    (∀ k : Fin 4, n = k.val →
      exec (.timerSelectWrite v) s = .next { s with trigger := { s.trigger with timerSelect := k } }) ∧
    (4 ≤ n → exec (.timerSelectWrite v) s = .next (refuseWrite 0x30#7 .invalid s)) ∧
    (∀ k : Fin 8, n = k.val →
      exec (.triggerSelectWrite v) s = .next { s with trigger := { s.trigger with triggerSelect := k } }) ∧
    (8 ≤ n → exec (.triggerSelectWrite v) s = .next (refuseWrite 0x38#7 .invalid s)) ∧
    (∀ k : Fin 4, n = k.val →
      exec (.directSlotSelectWrite v) s = .next { s with direct := { s.direct with slotSelect := k } }) ∧
    (4 ≤ n → exec (.directSlotSelectWrite v) s = .next (refuseWrite 0x44#7 .invalid s)) ∧
    (∀ k : Fin 64, n = k.val →
      exec (.resultSelectWrite v) s = .next { s with results := { s.results with resultSelect := k } }) ∧
    (64 ≤ n → exec (.resultSelectWrite v) s = .next (refuseWrite 0x50#7 .invalid s)) ∧
    (∀ k : Fin 10, m = k.val →
      exec (.maskSelectWrite v) s = .next { s with results := { s.results with maskSelect := k } }) ∧
    (10 ≤ m → exec (.maskSelectWrite v) s = .next (refuseWrite 0x60#7 .invalid s))

/-- The staging words are stored as written in every state; the direct defaults are written in range and refused INVALID
out of it. And what the staging words, the direct defaults and the words of the selected slot read as. -/
def Obligations.DirectWordsWritten : Prop :=
  ∀ (s : State) (v : Word), s.resetHeld = false →
    let g := s.direct.staging
    let d := s.direct.slots[s.direct.slotSelect]
    (s.readWord 0x0B#7 = some (0#1 ++ s.direct.defRetry ++ 0#3 ++ s.direct.defTimeout) ∧
      s.readWord 0x40#7 = some (0#3 ++ g.address ++ 0#2 ++ BitVec.ofBool g.lock ++ BitVec.ofBool g.urgent ++ 0#1 ++
        g.opcode) ∧
      s.readWord 0x41#7 = some (0#5 ++ g.length ++ g.index) ∧
      s.readWord 0x42#7 = some (g.data.extractLsb' 16 16) ∧ s.readWord 0x43#7 = some (g.data.extractLsb' 0 16)) ∧
    (s.readWord 0x45#7 = some (0#6 ++ BitVec.ofBool d.request.lock ++ BitVec.ofBool d.request.urgent ++
        BitVec.ofBool d.cancelLate ++ BitVec.ofNat 3 (outcomeCode (d.outcome.map TxnOutcome.toItem)) ++ 0#1 ++
        BitVec.ofNat 3 d.state.code) ∧
      s.readWord 0x46#7 = some (0#3 ++ d.request.address ++ 0#5 ++ d.request.op.code) ∧
      s.readWord 0x47#7 = some (d.value.extractLsb' 16 16) ∧ s.readWord 0x48#7 = some (d.value.extractLsb' 0 16)) ∧
    exec (.stagingWrite .request v) s = .next { s with direct := { s.direct with staging := { s.direct.staging with
      address := v.extractLsb' 8 5, lock := v.getLsbD 5, urgent := v.getLsbD 4, opcode := v.extractLsb' 0 3 } } } ∧
    exec (.stagingWrite .index v) s = .next { s with direct := { s.direct with staging := { s.direct.staging with
      length := v.extractLsb' 8 3, index := v.extractLsb' 0 8 } } } ∧
    exec (.stagingWrite .dataHigh v) s = .next { s with direct := { s.direct with staging := { s.direct.staging with
      data := v ++ s.direct.staging.data.extractLsb' 0 16 } } } ∧
    exec (.stagingWrite .dataLow v) s = .next { s with direct := { s.direct with staging := { s.direct.staging with
      data := s.direct.staging.data.extractLsb' 16 16 ++ v } } } ∧
    (2 ≤ (v.extractLsb' 0 9).toNat → (v.extractLsb' 0 9).toNat ≤ 500 → (v.extractLsb' 12 4).toNat ≤ 7 →
      exec (.directDefaultsWrite v) s = .next { s with direct := { s.direct with
        defTimeout := v.extractLsb' 0 9, defRetry := v.extractLsb' 12 3 } }) ∧
    ((v.extractLsb' 0 9).toNat < 2 ∨ 500 < (v.extractLsb' 0 9).toNat ∨ 7 < (v.extractLsb' 12 4).toNat →
      exec (.directDefaultsWrite v) s = .next (refuseWrite 0x0B#7 .invalid s))

/-- The link configuration is written only with the Sequencer STOPPED and the engine IDLE, and names one of three rates,
which a read returns. -/
def Obligations.LinkConfigurationWritten : Prop :=
  ∀ (s : State) (v : Word), s.resetHeld = false →
    s.readWord 0x08#7 = some (0#14 ++ s.link.rate.code) ∧
    (∀ r : LinkRate, s.seq.top = .stopped → s.link.phase = .idle → v.extractLsb' 0 2 = r.code →
      exec (.linkConfigurationWrite v) s = .next { s with link := { s.link with rate := r } }) ∧
    (s.seq.top = .stopped → s.link.phase = .idle → v.extractLsb' 0 2 = 3#2 →
      exec (.linkConfigurationWrite v) s = .next (refuseWrite 0x08#7 .invalid s)) ∧
    (s.seq.top ≠ .stopped ∨ s.link.phase ≠ .idle →
      exec (.linkConfigurationWrite v) s = .next (refuseWrite 0x08#7 .wrongState s))

/-- Every locked word is refused WRONG_STATE while the Sequencer is not STOPPED, whatever the value, with the address of
the word in the window status. -/
def Obligations.LockedWritesRefused : Prop :=
  ∀ (s : State) (v : Word), s.resetHeld = false → s.seq.top ≠ .stopped →
    let refused := fun (c : Instr) (a : Address) => exec c s = .next (refuseWrite a .wrongState s)
    (refused (.stationFieldWrite .addressEnable v) 0x19#7 ∧ refused (.stationFieldWrite .responseTimeout v) 0x1A#7 ∧
      refused (.stationFieldWrite .limits v) 0x1B#7 ∧ refused (.stationFieldWrite .busyBackoff v) 0x1C#7 ∧
      refused (.stationFieldWrite .conversionTime v) 0x1D#7) ∧
    (refused (.itemFieldWrite .kind v) 0x21#7 ∧ refused (.itemFieldWrite .index v) 0x22#7 ∧
      refused (.itemFieldWrite .valueHigh v) 0x23#7 ∧ refused (.itemFieldWrite .valueLow v) 0x24#7 ∧
      refused (.itemFieldWrite .routing v) 0x25#7) ∧
    (refused (.chainFieldWrite .control v) 0x29#7 ∧ refused (.chainFieldWrite .first v) 0x2A#7 ∧
      refused (.chainFieldWrite .count v) 0x2B#7) ∧
    (refused (.timerFieldWrite .control v) 0x31#7 ∧ refused (.timerFieldWrite .periodHigh v) 0x32#7 ∧
      refused (.timerFieldWrite .periodLow v) 0x33#7) ∧
    exec (.lineEdgeWrite v) s = .next (refuseWrite 0x35#7 .wrongState s) ∧
    exec (.triggerEntryWrite v) s = .next (refuseWrite 0x39#7 .wrongState s) ∧
    exec (.arbiterConfigurationWrite v) s = .next (refuseWrite 0x09#7 .wrongState s) ∧
    exec (.resultConfigurationWrite v) s = .next (refuseWrite 0x0A#7 .wrongState s)

/-- A station field write in STOPPED: in range, every field the word carries takes its new value and the count becomes
0; out of range it is refused INVALID; an address another enabled entry holds is refused DUPLICATE_ADDRESS. And what the
words of the selected entry and the health summary read as, in every state: health is ONLINE with a count of 0, OFFLINE
where the count is the failure limit, and SUSPECT between. -/
def Obligations.StationFieldWritten : Prop :=
  ∀ (s : State) (v : Word), s.resetHeld = false →
    let k := s.stations.select
    let e := s.stations.entries[k]
    let count := fun f : Fin 16 => s.stations.failures[f]
    let offline := fun f : Fin 16 => count f ≠ 0#4 ∧ count f = (s.stations.entries[f]).failLimit
    let suspect := fun f : Fin 16 => count f ≠ 0#4 ∧ count f ≠ (s.stations.entries[f]).failLimit
    (∀ f : Fin 16, (count f = 0#4 → s.health f = .online) ∧ (offline f → s.health f = .offline) ∧
      (suspect f → s.health f = .suspect)) ∧
    (s.readWord 0x19#7 = some (BitVec.ofBool e.enabled ++ 0#10 ++ e.address) ∧
      s.readWord 0x1A#7 = some (0#7 ++ e.timeout) ∧ s.readWord 0x1B#7 = some (0#4 ++ e.failLimit ++ 0#5 ++ e.retry) ∧
      s.readWord 0x1C#7 = some (0#8 ++ e.backoff) ∧ s.readWord 0x1D#7 = some e.convTime ∧
      (count k = 0#4 → s.readWord 0x1E#7 = some (0#4 ++ count k ++ 0#6 ++ 0#2)) ∧
      (suspect k → s.readWord 0x1E#7 = some (0#4 ++ count k ++ 0#6 ++ 1#2)) ∧
      (offline k → s.readWord 0x1E#7 = some (0#4 ++ count k ++ 0#6 ++ 2#2)) ∧
      ∃ w : Word, s.readWord 0x1F#7 = some w ∧ ∀ f : Fin 16, w.getLsbD f.val = true ↔ offline f) ∧
    (s.seq.top = .stopped →
      let put := fun new : StationEntry => ({ s with stations := { s.stations with
        entries := s.stations.entries.set k new, failures := s.stations.failures.set k 0#4 } } : State)
      let taken := v.getLsbD 15 = true ∧ v.extractLsb' 0 5 ≠ 0#5 ∧
        ∃ f : Fin 16, f ≠ k ∧ (s.stations.entries[f]).enabled = true ∧
          (s.stations.entries[f]).address = v.extractLsb' 0 5
      (¬ taken → exec (.stationFieldWrite .addressEnable v) s =
        .next (put { e with enabled := v.getLsbD 15, address := v.extractLsb' 0 5 })) ∧
      (taken → exec (.stationFieldWrite .addressEnable v) s = .next (refuseWrite 0x19#7 .duplicateAddress s)) ∧
      (2 ≤ (v.extractLsb' 0 9).toNat → (v.extractLsb' 0 9).toNat ≤ 500 →
        exec (.stationFieldWrite .responseTimeout v) s = .next (put { e with timeout := v.extractLsb' 0 9 })) ∧
      ((v.extractLsb' 0 9).toNat < 2 ∨ 500 < (v.extractLsb' 0 9).toNat →
        exec (.stationFieldWrite .responseTimeout v) s = .next (refuseWrite 0x1A#7 .invalid s)) ∧
      (v.extractLsb' 8 4 ≠ 0#4 → exec (.stationFieldWrite .limits v) s =
        .next (put { e with failLimit := v.extractLsb' 8 4, retry := v.extractLsb' 0 3 })) ∧
      (v.extractLsb' 8 4 = 0#4 → exec (.stationFieldWrite .limits v) s = .next (refuseWrite 0x1B#7 .invalid s)) ∧
      (v.extractLsb' 0 8 ≠ 0#8 → exec (.stationFieldWrite .busyBackoff v) s =
        .next (put { e with backoff := v.extractLsb' 0 8 })) ∧
      (v.extractLsb' 0 8 = 0#8 → exec (.stationFieldWrite .busyBackoff v) s = .next (refuseWrite 0x1C#7 .invalid s)) ∧
      exec (.stationFieldWrite .conversionTime v) s = .next (put { e with convTime := v }))

/-- An item field write in STOPPED: in range, the fields of the word are written together; out of range it is refused
INVALID. And what the words of the selected item read as, in every state. -/
def Obligations.ItemFieldWritten : Prop :=
  ∀ (s : State) (v : Word), s.resetHeld = false →
    let n := s.tables.itemSelect
    let d := s.tables.items[n]
    (s.readWord 0x21#7 = some (0#4 ++ BitVec.ofNat 4 d.station.val ++ 0#6 ++ d.kind.code) ∧
      s.readWord 0x22#7 = some (0#5 ++ d.length ++ d.index) ∧ s.readWord 0x23#7 = some (d.value.extractLsb' 16 16) ∧
      s.readWord 0x24#7 = some (d.value.extractLsb' 0 16) ∧
      s.readWord 0x25#7 = some (0#6 ++ d.post.code ++ 0#1 ++ BitVec.ofNat 7 (slotCode d.slot))) ∧
    (s.seq.top = .stopped →
      let put := fun new : Item => ({ s with tables := { s.tables with items := s.tables.items.set n new } } : State)
      (∀ k : ItemKind, v.extractLsb' 0 2 = k.code → ∀ e : Fin 16, (v.extractLsb' 8 4).toNat = e.val →
        exec (.itemFieldWrite .kind v) s = .next (put { d with kind := k, station := e })) ∧
      (1 ≤ (v.extractLsb' 8 3).toNat → (v.extractLsb' 8 3).toNat ≤ 4 → exec (.itemFieldWrite .index v) s =
        .next (put { d with length := v.extractLsb' 8 3, index := v.extractLsb' 0 8 })) ∧
      ((v.extractLsb' 8 3).toNat = 0 ∨ 4 < (v.extractLsb' 8 3).toNat →
        exec (.itemFieldWrite .index v) s = .next (refuseWrite 0x22#7 .invalid s)) ∧
      exec (.itemFieldWrite .valueHigh v) s = .next (put { d with value := v ++ d.value.extractLsb' 0 16 }) ∧
      exec (.itemFieldWrite .valueLow v) s = .next (put { d with value := d.value.extractLsb' 16 16 ++ v }) ∧
      (∀ (k : Option (Fin 64)) (p : Post), (v.extractLsb' 0 7).toNat = slotCode k → v.extractLsb' 8 2 = p.code →
        exec (.itemFieldWrite .routing v) s = .next (put { d with slot := k, post := p })) ∧
      ((64 ≤ (v.extractLsb' 0 7).toNat ∧ (v.extractLsb' 0 7).toNat ≤ 126) ∨ v.extractLsb' 8 2 = 3#2 →
        exec (.itemFieldWrite .routing v) s = .next (refuseWrite 0x25#7 .invalid s)))

/-- A chain field write in STOPPED, for NORMAL and for an injected chain, with every value in and out of range. And what
the words of the selected chain read as, in every state. -/
def Obligations.ChainFieldWritten : Prop :=
  ∀ (s : State) (v : Word), s.resetHeld = false →
    let count := v.extractLsb' 0 7
    let reads := fun (c : ChainDef) (continuous : Bool) =>
      s.readWord 0x29#7 = some (BitVec.ofBool c.enabled ++ 0#14 ++ BitVec.ofBool continuous) ∧
      s.readWord 0x2A#7 = some (0#10 ++ c.first) ∧ s.readWord 0x2B#7 = some (0#9 ++ c.count)
    (s.tables.chainSelect = .normal → reads s.tables.normal (s.tables.normalMode == .continuous)) ∧
    (∀ k, s.tables.chainSelect = .inj k → reads s.tables.inj[k] false) ∧
    (s.seq.top = .stopped →
      (s.tables.chainSelect = .normal →
        let d := s.tables.normal
        exec (.chainFieldWrite .control v) s = .next { s with tables := { s.tables with
          normal := { d with enabled := v.getLsbD 15 },
          normalMode := if v.getLsbD 0 then .continuous else .oneShot } } ∧
        exec (.chainFieldWrite .first v) s = .next { s with tables := { s.tables with
          normal := { d with first := v.extractLsb' 0 6 } } } ∧
        (1 ≤ count.toNat → count.toNat ≤ 64 → exec (.chainFieldWrite .count v) s = .next { s with
          tables := { s.tables with normal := { d with count := count } } }) ∧
        (count.toNat = 0 ∨ 64 < count.toNat →
          exec (.chainFieldWrite .count v) s = .next (refuseWrite 0x2B#7 .invalid s))) ∧
      ∀ k : Fin 8, s.tables.chainSelect = .inj k →
        let d := s.tables.inj[k]
        (v.getLsbD 0 = false → exec (.chainFieldWrite .control v) s = .next { s with tables := { s.tables with
          inj := s.tables.inj.set k { d with enabled := v.getLsbD 15 } } }) ∧
        (v.getLsbD 0 = true → exec (.chainFieldWrite .control v) s = .next (refuseWrite 0x29#7 .invalid s)) ∧
        exec (.chainFieldWrite .first v) s = .next { s with tables := { s.tables with
          inj := s.tables.inj.set k { d with first := v.extractLsb' 0 6 } } } ∧
        (1 ≤ count.toNat → count.toNat ≤ 16 → exec (.chainFieldWrite .count v) s = .next { s with
          tables := { s.tables with inj := s.tables.inj.set k { d with count := count } } }) ∧
        (count.toNat = 0 ∨ 16 < count.toNat →
          exec (.chainFieldWrite .count v) s = .next (refuseWrite 0x2B#7 .invalid s)))

/-- The Trigger Unit's words in STOPPED: a timer's control word and the two parts of its period, the four edge
selections, and the selected trigger table entry. And what they, the timer status and the line levels read as, in every
state. -/
def Obligations.TriggerWordsWritten : Prop :=
  ∀ (s : State) (v : Word), s.resetHeld = false →
    let k := s.trigger.timerSelect
    let d := s.trigger.timers[k]
    let r := s.trigger.runs
    let g := s.trigger.edges
    let f := s.trigger.filtered
    let t := s.trigger.entries[s.trigger.triggerSelect]
    (s.readWord 0x31#7 = some (BitVec.ofBool d.enabled ++ 0#14 ++ BitVec.ofBool (d.mode == .single)) ∧
      s.readWord 0x32#7 = some (0#8 ++ d.period.extractLsb' 16 8) ∧
      s.readWord 0x33#7 = some (d.period.extractLsb' 0 16) ∧
      s.readWord 0x34#7 = some (0#8 ++ r[3].code ++ r[2].code ++ r[1].code ++ r[0].code) ∧
      s.readWord 0x35#7 = some (0#8 ++ g[3].code ++ g[2].code ++ g[1].code ++ g[0].code) ∧
      s.readWord 0x36#7 = some (0#12 ++ BitVec.ofBool f[3] ++ BitVec.ofBool f[2] ++ BitVec.ofBool f[1] ++
        BitVec.ofBool f[0]) ∧
      s.readWord 0x39#7 = some (BitVec.ofBool t.enabled ++ 0#3 ++ BitVec.ofNat 4 t.target.selectCode ++ 0#5 ++
        BitVec.ofNat 3 t.source.code)) ∧
    (s.seq.top = .stopped →
      let put := fun new : TimerConfig =>
        ({ s with trigger := { s.trigger with timers := s.trigger.timers.set k new } } : State)
      let high : BitVec 24 := v.extractLsb' 0 8 ++ d.period.extractLsb' 0 16
      let low : BitVec 24 := d.period.extractLsb' 16 8 ++ v
      exec (.timerFieldWrite .control v) s =
        .next (put { d with enabled := v.getLsbD 15, mode := if v.getLsbD 0 then .single else .periodic }) ∧
      (high ≠ 0#24 → exec (.timerFieldWrite .periodHigh v) s = .next (put { d with period := high })) ∧
      (high = 0#24 → exec (.timerFieldWrite .periodHigh v) s = .next (refuseWrite 0x32#7 .invalid s)) ∧
      (low ≠ 0#24 → exec (.timerFieldWrite .periodLow v) s = .next (put { d with period := low })) ∧
      (low = 0#24 → exec (.timerFieldWrite .periodLow v) s = .next (refuseWrite 0x33#7 .invalid s)) ∧
      (∃ e : Vector EdgeSelect 4, exec (.lineEdgeWrite v) s = .next { s with trigger := { s.trigger with edges := e } } ∧
        ∀ l : Fin 4, (e[l]).code = v.extractLsb' (2 * l.val) 2) ∧
      (∀ (src : Source) (c : Chain), (v.extractLsb' 0 3).toNat = src.code → (v.extractLsb' 8 4).toNat = c.selectCode →
        exec (.triggerEntryWrite v) s = .next { s with trigger := { s.trigger with
          entries := s.trigger.entries.set s.trigger.triggerSelect
            { enabled := v.getLsbD 15, source := src, target := c } } }) ∧
      (8 < (v.extractLsb' 8 4).toNat →
        exec (.triggerEntryWrite v) s = .next (refuseWrite 0x39#7 .invalid s)))

/-- The arbiter configuration and the result configuration: written in STOPPED, and what they read as in every state. -/
def Obligations.PolicyWordsWritten : Prop :=
  ∀ (s : State) (v : Word), s.resetHeld = false →
    s.readWord 0x09#7 = some (0#6 ++ s.arb.mode.code ++ s.arb.windowLength) ∧
    s.readWord 0x0A#7 = some (0#15 ++ BitVec.ofBool (s.results.policy == .drop)) ∧
    (s.seq.top = .stopped →
      (∀ m : PriorityMode, v.extractLsb' 8 2 = m.code → v.extractLsb' 0 8 ≠ 0#8 →
        exec (.arbiterConfigurationWrite v) s = .next { s with arb := { s.arb with
          mode := m, windowLength := v.extractLsb' 0 8 } }) ∧
      (v.extractLsb' 8 2 = 3#2 ∨ v.extractLsb' 0 8 = 0#8 →
        exec (.arbiterConfigurationWrite v) s = .next (refuseWrite 0x09#7 .invalid s)) ∧
      exec (.resultConfigurationWrite v) s = .next { s with results := { s.results with
        policy := if v.getLsbD 0 then .drop else .stall } })

/-! ## Arming -/

/-- ARM: in STOPPED it runs the configuration check; a failure is answered CONFIG_ERROR and only the check detail word
changes; a pass arms the part; in any other state it is answered WRONG_STATE and changes nothing. The check detail word
reads as the kind and the index. -/
def Obligations.ArmResult : Prop :=
  ∀ s : State, s.resetHeld = false →
    s.readWord 0x16#7 = some (0#2 ++ s.tables.check.index ++ 0#5 ++ BitVec.ofNat 3 s.tables.check.kind.code) ∧
    (s.seq.top ≠ .stopped → exec .arm s = .next (answer 1#8 .wrongState 0#4 s)) ∧
    (∀ d, s.seq.top = .stopped → s.configCheck = some d →
      exec .arm s = .next (answer 1#8 .configError 0#4 { s with tables := { s.tables with check := d } })) ∧
    (s.seq.top = .stopped → s.configCheck = none → ∃ r : Vector TimerRun 4,
      exec .arm s = .next (answer 1#8 .accepted 0#4 { s with
        tables := { s.tables with check := ⟨.none, 0#6⟩ }
        seq := { State.reset.seq with top := .idle }
        trigger := { s.trigger with runs := r }
        results := { s.results with normalMask := 0#64, injMasks := Vector.replicate 8 0#16 } }) ∧
      ∀ k : Fin 4, r[k] =
        if (s.trigger.timers[k]).enabled then .running (s.now + 10 * (s.trigger.timers[k]).period.toNat)
        else .stopped)

/-- The six checks of ARM in their order, and within each the indices in ascending order: the first failure is what the
check reports, and without a failure it passes. -/
def Obligations.ConfigurationCheckReports : Prop :=
  ∀ s : State,
    let on := fun c : Chain => (s.chainDef c).enabled = true
    let first := fun c : Chain => (s.chainDef c).first.toNat
    let count := fun c : Chain => (s.chainDef c).count.toNat
    let inChain := fun n : Fin 64 => ∃ c, on c ∧ first c ≤ n.val ∧ n.val < first c + count c
    let range := fun c => on c ∧ 64 < first c + count c
    let station := fun n : Fin 64 => inChain n ∧ (s.tables.items[n]).kind ≠ .off ∧
      ((s.stations.entries[(s.tables.items[n]).station]).address = 0#5 ∨
        (s.stations.entries[(s.tables.items[n]).station]).enabled = false)
    let slot := fun n : Fin 64 => inChain n ∧ (s.tables.items[n]).kind = .write ∧ (s.tables.items[n]).slot ≠ none
    let target := fun e : Fin 8 => (s.trigger.entries[e]).enabled = true ∧
      (¬ on (s.trigger.entries[e]).target ∨
        ((s.trigger.entries[e]).target = .normal ∧ s.tables.normalMode = .continuous))
    let empty := fun c => on c ∧ ∀ p, p < count c → (s.itemAt (first c + p)).kind = .off
    (∀ c, range c → (∀ d, d.code < c.code → ¬ range d) →
      s.configCheck = some ⟨.chainRange, BitVec.ofNat 6 c.selectCode⟩) ∧
    ((∀ c, ¬ range c) →
      ((∀ c, ¬ on c) → s.configCheck = some ⟨.noChain, 0#6⟩) ∧
      (∀ n, station n → (∀ m, m < n → ¬ station m) → s.configCheck = some ⟨.station, BitVec.ofNat 6 n.val⟩) ∧
      ((∃ c, on c) → (∀ n, ¬ station n) →
        (∀ n, slot n → (∀ m, m < n → ¬ slot m) → s.configCheck = some ⟨.slot, BitVec.ofNat 6 n.val⟩) ∧
        ((∀ n, ¬ slot n) →
          (∀ e, target e → (∀ f, f < e → ¬ target f) →
            s.configCheck = some ⟨.triggerTarget, BitVec.ofNat 6 e.val⟩) ∧
          ((∀ e, ¬ target e) →
            (∀ c, empty c → (∀ d, d.code < c.code → ¬ empty d) →
              s.configCheck = some ⟨.emptyChain, BitVec.ofNat 6 c.selectCode⟩) ∧
            ((∀ c, ¬ empty c) → s.configCheck = none)))))

/-! ## Starts -/

/-- START by the top state, the mode and the pass context, and TRIGGER 8 where no pass is present; a start that begins a
pass sets its number, mask, counts and position, at a boundary in QUEUE_WAIT and set aside behind an injected chain. -/
def Obligations.StartResult : Prop :=
  ∀ s : State, s.resetHeld = false → s.Inv →
    let pass := { s.seq.pass with
      present := true, number := s.seq.pass.number + 1#16,
      run := { position := (s.nextExpected .normal 0).getD 0, mask := 0#64, done := 0, errors := 0, chainAbort := false } }
    (s.isArmed = false ∨ s.tables.normal.enabled = false →
      exec .start s = .next (answer 3#8 .wrongState 0#4 s)) ∧
    (s.isArmed = true → s.tables.normal.enabled = true →
      (s.seq.pass.present = true → s.tables.normalMode = .continuous →
        exec .start s = .next (answer 3#8 .wrongState 0#4 s)) ∧
      (s.seq.pass.present = true → s.tables.normalMode = .oneShot → s.seq.pass.startPending = false →
        exec .start s = .next (answer 3#8 .queued 0#4
          { s with seq := { s.seq with pass := { s.seq.pass with startPending := true } } })) ∧
      (s.seq.pass.present = true → s.tables.normalMode = .oneShot → s.seq.pass.startPending = true →
        exec .start s = .next (answer 3#8 .overrun 0#4 { s with
          window := { s.window with latch := s.window.latch ||| Event.mask .triggerOverrun }
          trigger := { s.trigger with overrun := s.trigger.overrun ||| 0x100#9 } })) ∧
      (s.seq.pass.present = false → s.seq.top = .idle →
        exec .start s = .next (answer 3#8 .accepted 0#4 (arbitrate { s with seq := { s.seq with
          top := .running, active := .normal, pass := pass
          item := some { item := s.tables.normal.first.toNat + pass.run.position, position := pass.run.position } } }))) ∧
      (s.seq.pass.present = false → s.seq.top = .queueWait → s.seq.active = .none →
        exec .start s = .next (answer 3#8 .accepted 0#4
          { s with seq := { s.seq with active := .normal, pass := pass } })) ∧
      (∀ k, s.seq.pass.present = false → s.seq.active = .inj k → s.seq.suspended = none →
        exec .start s = .next (answer 3#8 .accepted 0#4 { s with seq := { s.seq with pass := pass } }))) ∧
    -- TRIGGER 8 begins a pass in ONE_SHOT mode where none is present (R76, R121)
    (s.isArmed = true → s.tables.normal.enabled = true → s.tables.normalMode = .oneShot →
      s.seq.pass.present = false →
      (s.seq.top = .idle →
        exec (.trigger 8#8) s = .next (answer 5#8 .accepted 8#4 (arbitrate { s with seq := { s.seq with
          top := .running, active := .normal, pass := pass
          item := some { item := s.tables.normal.first.toNat + pass.run.position, position := pass.run.position } } }))) ∧
      (s.seq.top = .queueWait → s.seq.active = .none →
        exec (.trigger 8#8) s = .next (answer 5#8 .accepted 8#4
          { s with seq := { s.seq with active := .normal, pass := pass } })) ∧
      (∀ k, s.seq.active = .inj k →
        exec (.trigger 8#8) s = .next (answer 5#8 .accepted 8#4 { s with seq := { s.seq with pass := pass } })))

/-- STOP_AFTER_PASS sets its flag when NORMAL runs CONTINUOUS and a pass is present, and is NO_TARGET otherwise. -/
def Obligations.StopAfterPassResult : Prop :=
  ∀ s : State, s.resetHeld = false →
    (s.isArmed = true → s.tables.normalMode = .continuous → s.seq.pass.present = true →
      exec .stopAfterPass s = .next (answer 4#8 .accepted 0#4
        { s with seq := { s.seq with pass := { s.seq.pass with stopAfter := true } } })) ∧
    (s.isArmed = false ∨ s.tables.normalMode = .oneShot ∨ s.seq.pass.present = false →
      exec .stopAfterPass s = .next (answer 4#8 .noTarget 0#4 s))

/-- TRIGGER where no chain begins: INVALID, WRONG_STATE, OVERRUN with its flag and event, and QUEUED. -/
def Obligations.TriggerWaits : Prop :=
  ∀ (s : State) (arg : Byte), s.resetHeld = false → s.Inv →
    let d : BitVec 4 := arg.extractLsb' 0 4
    (8 < arg.toNat → exec (.trigger arg) s = .next (answer 5#8 .invalid d s)) ∧
    (∀ c : Chain, arg.toNat = c.selectCode →
      (s.isArmed = false ∨ (s.chainDef c).enabled = false ∨ (c = .normal ∧ s.tables.normalMode = .continuous) →
        exec (.trigger arg) s = .next (answer 5#8 .wrongState d s))) ∧
    (arg.toNat = 8 → s.isArmed = true → s.tables.normal.enabled = true → s.tables.normalMode = .oneShot →
      s.seq.pass.present = true →
      (s.seq.pass.startPending = false → exec (.trigger arg) s = .next (answer 5#8 .queued d
        { s with seq := { s.seq with pass := { s.seq.pass with startPending := true } } })) ∧
      (s.seq.pass.startPending = true → exec (.trigger arg) s = .next (answer 5#8 .overrun d { s with
        window := { s.window with latch := s.window.latch ||| Event.mask .triggerOverrun }
        trigger := { s.trigger with overrun := s.trigger.overrun ||| 0x100#9 } }))) ∧
    ∀ k : Fin 8, arg.toNat = k.val → s.isArmed = true → (s.tables.inj[k]).enabled = true →
      (s.isPending k = true → exec (.trigger arg) s = .next (answer 5#8 .overrun d { s with
        window := { s.window with latch := s.window.latch ||| Event.mask .triggerOverrun }
        trigger := { s.trigger with overrun := s.trigger.overrun ||| (1#9 <<< k.val) } })) ∧
      (s.isPending k = false →
        s.seq.top = .queueWait ∨ (∃ j, s.seq.active = .inj j) ∨
          (∃ it, s.seq.active = .normal ∧ s.seq.item = some it ∧
            (it.phase = .onLink ∨ it.phase = .onLinkFetch ∨ (it.phase = .grantWait ∧ it.restarts ≠ 0))) →
        exec (.trigger arg) s = .next (answer 5#8 .queued d
          { s with seq := { s.seq with pendingSet := s.seq.pendingSet ||| (1#8 <<< k.val) } }))

/-- TRIGGER of an injected chain where it may break in: the chain becomes the active context with its first expected
position in GRANT_WAIT. NORMAL's item that waits for its first grant is discarded uncharged; one that waits for its
conversion goes into the suspension record with its tenure ended. The grant that follows is made in the same happening or
as a happening of its own in the same moment (DirectGrantResult; DEDUCED, log entry 27). -/
def Obligations.InjectionBreaksIn : Prop :=
  ∀ (s : State) (arg : Byte) (k : Fin 8), s.resetHeld = false → s.Inv → arg.toNat = k.val → s.isArmed = true →
    (s.tables.inj[k]).enabled = true → s.seq.top ≠ .queueWait → s.seq.pendingSet = 0#8 →
    let p := (s.nextExpected (.inj k) 0).getD 0
    let taken := fun (susp : Option Suspension) (tenure : Bool) => answer 5#8 .accepted (arg.extractLsb' 0 4)
      (arbitrate { s with
        seq := { s.seq with
          top := .running, active := .inj k, suspended := susp
          injRun := some { position := p, mask := 0#64, done := 0, errors := 0, chainAbort := false }
          item := some { item := (s.tables.inj[k]).first.toNat + p, position := p } }
        arb := { s.arb with tenure := tenure } })
    (s.seq.top = .idle → exec (.trigger arg) s = .next (taken none false)) ∧
    (∀ it, s.seq.active = .normal → s.seq.item = some it → it.phase = .grantWait → it.restarts = 0 →
      exec (.trigger arg) s = .next (taken none false)) ∧
    (∀ it, s.seq.active = .normal → s.seq.item = some it → it.phase = .converting ∨ it.phase = .fetchWait →
      exec (.trigger arg) s = .next (taken (some
        { item := it.item, position := it.position, fetchDue := it.phase == .fetchWait, ackTime := it.ackTime,
          convDue := it.convDue, restarts := it.restarts, touched := it.touched }) false))

/-! ## Aborts and DISARM -/

/-- ABORT_ITEM by the current item: NO_TARGET, the mark of an item on the line, or an ABORTED completion at once, which
ends tenure, writes no slot and posts its record, and after which the run goes on at its next expected position or ends
with its aborted flag clear; with room in the queue, a further expected position and no injection waiting, the next
position's item begins. That a pass that ends so leaves the grant flag as it is outside SEQ_FIRST, set or clear, is the
model's choice (DESIGN CHOICE, log entry 25). -/
def Obligations.AbortItemResult : Prop :=
  ∀ s : State, s.resetHeld = false → s.Inv →
    (s.seq.item = none ∨ (∃ it, s.seq.item = some it ∧ it.phase = .grantWait) →
      exec .abortItem s = .next (answer 6#8 .noTarget 0#4 s)) ∧
    (∀ it, s.seq.item = some it → it.phase = .onLink ∨ it.phase = .onLinkFetch →
      exec .abortItem s = .next (answer 6#8 .accepted 0#4
        { s with seq := { s.seq with item := some { it with abortMark := true } } })) ∧
    (∀ it c, s.seq.item = some it → it.phase = .converting ∨ it.phase = .fetchWait →
      s.seq.active.chain = some c → ∃ u : State,
        exec .abortItem s = .next (answer 6#8 .accepted 0#4 (arbitrate u)) ∧
        -- with a full queue, a post option of NEVER, a chain pending or at the last expected position as well
        (∃ w : State, u = schedule w ∧ s.Completes w c it .aborted none false) ∧
        u.stations = s.stations ∧ u.link = s.link ∧ u.direct = s.direct ∧ u.arb.tenure = false ∧
        (c = .normal → u.results.slots = s.results.slots) ∧
        ∀ q, s.nextExpected c ((s.runOf c).position + 1) = some q → c ≠ .normal ∨ s.seq.pendingSet = 0#8 →
          s.results.queue.length < 32 → (s.itemAt it.item).post ≠ .never →
          u.results.slots = s.results.slots ∧ u.seq.suspended = s.seq.suspended ∧
          u.seq.item = some { item := s.itemNumber c q, position := q } ∧
          u.runOf c = { s.runOf c with mask := (s.runOf c).mask ||| (1#64 <<< it.position), position := q } ∧
          u.results.queue = s.results.queue ++ [.item
            { chain := c, position := it.position, item := it.item, outcome := .aborted,
              slot := (s.itemAt it.item).slot, restarts := it.restarts, value := none,
              passNumber := if c = .normal then s.seq.pass.number else 0#16 }])

/-- ABORT_CHAIN: NO_TARGET without a run in progress; both marks for a run whose item is on the line; otherwise the run
ends early at once: an item that has sent nothing is dropped, any other completes ABORTED, and the end record carries the
aborted flag. After a NORMAL pass the mode and its flag say whether a new pass follows; after an injected run the
hand-over follows, or waits for QUEUE_WAIT to end, with the active context of R98 (R155's "stays INJ k, by R98" is read
as R98's first case: DEDUCED, log entry 7). That the end of the pass leaves the grant flag as it is outside SEQ_FIRST, set
or clear, is the model's choice (DESIGN CHOICE, log entry 25). -/
def Obligations.AbortChainResult : Prop :=
  ∀ s : State, s.resetHeld = false → s.Inv →
    (s.isArmed = false ∨ s.seq.active = .none ∨ (∃ k, s.seq.active = .inj k ∧ s.seq.injRun = none) →
      exec .abortChain s = .next (answer 7#8 .noTarget 0#4 s)) ∧
    (∀ it, s.seq.item = some it → it.phase = .onLink ∨ it.phase = .onLinkFetch →
      (s.seq.active = .normal → exec .abortChain s = .next (answer 7#8 .accepted 0#4 { s with seq := { s.seq with
        item := some { it with abortMark := true }
        pass := { s.seq.pass with run := { s.seq.pass.run with chainAbort := true } } } })) ∧
      (∀ k r, s.seq.active = .inj k → s.seq.injRun = some r →
        exec .abortChain s = .next (answer 7#8 .accepted 0#4 { s with seq := { s.seq with
          item := some { it with abortMark := true }, injRun := some { r with chainAbort := true } } }))) ∧
    (s.isArmed = true → s.itemOnLink = false → ∀ c : Chain, s.seq.active.chain = some c →
      (c ≠ .normal → s.seq.injRun ≠ none) →
      let old := s.runOf c
      let records := s.abandonedRecords c ++ [match c with
        | .normal => .passEnd s.seq.pass.number old.done old.errors true
        | .inj k => .injEnd k old.done old.errors true]
      ∃ w, exec .abortChain s = .next (answer 7#8 .accepted 0#4 (arbitrate (schedule w))) ∧
        s.RunGoesOn w c { old with mask := old.mask ||| s.abandonedFlag } (s.abandonedRecords c) true ∧
        w.seq.item = none ∧ w.arb.tenure = false ∧ w.seq.pendingSet = s.seq.pendingSet ∧
        w.seq.suspended = s.seq.suspended ∧ w.seq.top = s.seq.top ∧ w.stations = s.stations ∧ w.link = s.link ∧
        w.direct = s.direct ∧ w.results.slots = s.results.slots ∧ w.results.hold = s.results.hold ∧
        -- records of an abort never wait: while records are held each is dropped and counted (R158)
        (s.results.hold = [] → s.results.queue.length + records.length ≤ 32 →
          w.results.queue = s.results.queue ++ records) ∧
        (s.results.hold ≠ [] → w.results.queue = s.results.queue ∧ w.latched .recordDropped = true ∧
          w.results.drops.toNat = min 65535 (s.results.drops.toNat + records.length)) ∧
        -- in QUEUE_WAIT no item begins and the hand-over waits; else the hand-over of an injected run follows
        (s.seq.top = .queueWait → schedule w = w) ∧
        (∀ k, c = .inj k → s.seq.top ≠ .queueWait → schedule w = handOver w))

/-- ABORT_ALL: NO_TARGET where there is nothing to abort; otherwise every run, the suspended item, the pending set and
the waiting start are gone. Every run in progress ends early, with its mask copied and its end latched, and its records
are offered in the order of R156: with no record held each enters while there is room, and every other one is dropped and
counted (that ABORT_ALL offers records at all, beside R192: DEDUCED, log entry 9). That the end of the pass leaves the
grant flag as it is outside SEQ_FIRST, set or clear, is the model's choice (DESIGN CHOICE, log entry 25). -/
def Obligations.AbortAllResult : Prop :=
  ∀ s : State, s.resetHeld = false → s.Inv →
    (s.isArmed = false ∨ (s.seq.active = .none ∧ s.seq.pass.present = false ∧ s.seq.pendingSet = 0#8) →
      exec .abortAll s = .next (answer 8#8 .noTarget 0#4 s)) ∧
    (s.isArmed = true → s.seq.active ≠ .none ∨ s.seq.pass.present = true ∨ s.seq.pendingSet ≠ 0#8 →
      ∃ t u, exec .abortAll s = .next (answer 8#8 .accepted 0#4 t) ∧ t = arbitrate u ∧
        t.seq.active = .none ∧ t.seq.item = none ∧ t.seq.injRun = none ∧ t.seq.suspended = none ∧
        t.seq.pendingSet = 0#8 ∧ t.seq.pass.present = false ∧ t.seq.pass.startPending = false ∧
        t.seq.pass.stopAfter = false ∧ t.seq.pass.number = s.seq.pass.number ∧ t.arb.tenure = false ∧
        t.seq.top = (if s.results.hold = [] then .idle else .queueWait) ∧
        t.results.hold = s.results.hold ∧ t.results.slots = s.results.slots ∧
        t.trigger = s.trigger ∧ t.stations = s.stations ∧
        (∃ l : List Record, t.results.queue = s.results.queue ++ l ∧ ∀ r ∈ l, r.isAbort = true) ∧
        -- what ended, and the records offered
        s.EndsEarly u ∧
        let room := if s.results.hold = [] then 32 - s.results.queue.length else 0
        u.results.queue = s.results.queue ++ s.abortRecords.take room ∧
        u.results.drops.toNat = min 65535 (s.results.drops.toNat + (s.abortRecords.length - room)) ∧
        (room < s.abortRecords.length → u.latched .recordDropped = true))

/-- DISARM: WRONG_STATE in STOPPED and STOPPING; otherwise it does the work of ABORT_ALL, so that no work is left, and
offers its records (that ABORT_ALL offers records at all, beside R192: DEDUCED, log entry 9); then
the hold list is posted, where each held record finds the queue full and is dropped and counted; every timer is STOPPED,
and the Sequencer is STOPPED with SEQ_STOPPED, or STOPPING while its transaction is with the engine. That the end of the
pass leaves the grant flag as it is outside SEQ_FIRST, set or clear, is the model's choice (DESIGN CHOICE, log entry 25). -/
def Obligations.DisarmResult : Prop :=
  ∀ s : State, s.resetHeld = false → s.Inv →
    (s.isArmed = false → exec .disarm s = .next (answer 2#8 .wrongState 0#4 s)) ∧
    (s.isArmed = true → ∃ t u, exec .disarm s = .next (answer 2#8 .accepted 0#4 t) ∧ t = arbitrate u ∧
      t.seq.active = .none ∧ t.seq.item = none ∧ t.seq.injRun = none ∧ t.seq.suspended = none ∧
      t.seq.pendingSet = 0#8 ∧ t.seq.pass.present = false ∧ t.arb.tenure = false ∧ t.results.hold = [] ∧
      t.results.slots = s.results.slots ∧ t.seq.pass.number = s.seq.pass.number ∧
      t.trigger = { s.trigger with runs := Vector.replicate 4 .stopped } ∧
      (∃ l : List Record, t.results.queue = s.results.queue ++ l) ∧
      (s.seqOnLink = true → t.seq.top = .stopping) ∧
      (s.seqOnLink = false → t.seq.top = .stopped ∧ t.latched .seqStopped = true) ∧
      -- what ended, the records offered, and the held records, which find no room (R171, R174)
      s.EndsEarly u ∧
      let room := if s.results.hold = [] then 32 - s.results.queue.length else 0
      let lost := s.abortRecords.length - room + s.results.hold.length
      u.results.queue = s.results.queue ++ s.abortRecords.take room ∧
      u.results.drops.toNat = min 65535 (s.results.drops.toNat + lost) ∧
      (0 < lost → u.latched .recordDropped = true))

/-- REVIVE sets the named entry's count to 0 and changes nothing else. -/
def Obligations.ReviveResult : Prop :=
  ∀ (s : State) (arg : Byte), s.resetHeld = false →
    (∀ e : Fin 16, arg.toNat = e.val →
      exec (.revive arg) s = .next (answer 9#8 .accepted (arg.extractLsb' 0 4)
        { s with stations := { s.stations with failures := s.stations.failures.set e 0#4 } })) ∧
    (16 ≤ arg.toNat → exec (.revive arg) s = .next (answer 9#8 .invalid (arg.extractLsb' 0 4) s))


/-! ## Direct requests -/

/-- CANCEL and RELEASE by the state of the named slot: a queued request is CANCELLED and leaves the list, a lock that
was kept for it is LAPSING, an active one is only marked, and a finished slot is freed with every field cleared. -/
def Obligations.SlotCommandsResult : Prop :=
  ∀ (s : State) (arg : Byte), s.resetHeld = false →
    let n : BitVec 4 := arg.extractLsb' 0 4
    (4 ≤ arg.toNat → exec (.cancel arg) s = .next (answer 11#8 .invalid n s) ∧
      exec (.release arg) s = .next (answer 12#8 .invalid n s)) ∧
    ∀ t : Fin 4, arg.toNat = t.val →
      let d := s.direct.slots[t]
      let put := fun (new : DirectSlot) (l : List (Fin 4)) =>
        ({ s with direct := { s.direct with slots := s.direct.slots.set t new, order := l } } : State)
      let gone := put { d with state := .cancelled } (s.direct.order.erase t)
      (d.state = .queued → s.arb.lock ≠ .held (some t) →
        exec (.cancel arg) s = .next (answer 11#8 .accepted n (arbitrate gone))) ∧
      (d.state = .queued → s.arb.lock = .held (some t) →
        exec (.cancel arg) s = .next (answer 11#8 .accepted n { gone with arb := { s.arb with lock := .lapsing } })) ∧
      (d.state = .active → exec (.cancel arg) s =
        .next (answer 11#8 .late n (put { d with cancelLate := true } s.direct.order))) ∧
      (d.state = .done → exec (.cancel arg) s = .next (answer 11#8 .late n s)) ∧
      (d.state = .free ∨ d.state = .cancelled → exec (.cancel arg) s = .next (answer 11#8 .noSuch n s)) ∧
      (d.state = .done ∨ d.state = .cancelled → exec (.release arg) s = .next (answer 12#8 .accepted n (put
        { state := .free, outcome := none, value := 0#32, cancelLate := false,
          request := { address := 0#5, op := .ping, index := 0#8, length := 0#3, data := 0#32, urgent := false,
                       lock := false } } s.direct.order))) ∧
      (d.state = .queued ∨ d.state = .active → exec (.release arg) s = .next (answer 12#8 .wrongState n s)) ∧
      (d.state = .free → exec (.release arg) s = .next (answer 12#8 .noSuch n s))

/-- SUBMIT: INVALID, FULL, or the staged request copied into the lowest-numbered FREE slot with its tag in the list;
then the lock state says whether the arbiter decides, takes a successor, grants at once, or waits. -/
def Obligations.SubmitResult : Prop :=
  ∀ s : State, s.resetHeld = false → s.Inv →
    let g := s.direct.staging
    let wrong := g.address = 0#5 ∨ 4 < g.opcode.toNat ∨ g.length.toNat = 0 ∨ 4 < g.length.toNat ∨
      (g.urgent = true ∧ g.lock = true)
    (wrong → exec .submit s = .next (answer 10#8 .invalid 0#4 s)) ∧
    (¬ wrong → (∀ t : Fin 4, (s.direct.slots[t]).state ≠ .free) → exec .submit s = .next (answer 10#8 .full 0#4 s)) ∧
    ∀ (t : Fin 4) (op : Op), ¬ wrong → g.opcode = op.code → (s.direct.slots[t]).state = .free →
      (∀ k, k < t → (s.direct.slots[k]).state ≠ .free) →
      let u : State := { s with direct := { s.direct with
        slots := s.direct.slots.set t
          { state := .queued, outcome := none, value := 0#32, cancelLate := false,
            request := { address := g.address, op := op, index := g.index, length := g.length, data := g.data,
                         urgent := g.urgent, lock := g.lock } }
        order := if g.urgent then s.direct.order.filter s.urgent ++ t :: s.direct.order.filter (fun k => !s.urgent k)
          else s.direct.order ++ [t] } }
      let done := fun v => exec .submit s = .next (answer 10#8 .accepted (BitVec.ofNat 4 t.val) v)
      (s.arb.lock = .none → done (arbitrate u)) ∧
      (∀ x k, s.arb.lock = .held none → g.urgent = false → s.link.txn = some x → x.requester = .direct k →
        s.carriesLock k = true → done { u with arb := { s.arb with lock := .held (some t) } }) ∧
      (∀ x k, s.arb.lock = .held none → s.link.txn = some x → x.requester = .direct k →
        g.urgent = true ∨ s.carriesLock k = false → done u) ∧
      ((∃ k, s.arb.lock = .held (some k)) ∨ s.arb.lock = .lapsing → done u) ∧
      (∀ k d, s.arb.lock = .window k d → g.urgent = false → done (grantDirect t u)) ∧
      (∀ k d, s.arb.lock = .window k d → g.urgent = true → done u)

/-- When a decision is made, that a grant to a direct slot is made in the happening that lets it be made while a grant to
the Sequencer may be a happening of its own in the same moment, with a decision made by every happening in between that
can be followed by one (a free value: DEDUCED, log entry 27), and what a grant to a
direct slot does: its tag leaves the list, its request goes to the engine with
the parameters of the matching entry or the direct defaults, the slot is ACTIVE, waiting items of its station are
touched, and the lock state, the last grantee and the pass-boundary grant flag follow. The request's data goes with a
WRITE only (R8). -/
def Obligations.DirectGrantResult : Prop :=
  ∀ (s : State) (t : Fin 4),
    let d := s.direct.slots[t]
    let r := d.request
    let rest := s.direct.order.erase t
    let params : Params := match s.matchEntry r.address with
      | some e => { timeout := (s.stations.entries[e]).timeout, retry := (s.stations.entries[e]).retry,
                    backoff := (s.stations.entries[e]).backoff }
      | none => { timeout := s.direct.defTimeout, retry := s.direct.defRetry, backoff := 10#8 }
    let x : Transaction :=
      { requester := .direct t, address := r.address, op := r.op, index := r.index, length := r.length,
        value := if r.op = .write then some r.data else none, params := params, rate := s.link.rate, attempt := 1, orphan := false }
    -- no grant is left to a happening of its own after a decision
    let c : State := { s with arb := { s.arb with apart := false } }
    -- the conditions of a decision (R130): an IDLE engine, no pause, no lock; without one of them, or with nothing to
    -- grant, nothing changes
    (s.link.phase = .idle → s.arb.pause = none → s.arb.lock = .none → s.decision = .direct t →
      arbitrate s = grantDirect t c ∧ decideNow s = grantDirect t c) ∧
    (s.link.phase ≠ .idle ∨ s.arb.pause ≠ none ∨ s.arb.lock ≠ .none ∨ s.decision = .none →
      arbitrate s = c ∧ decideNow s = c) ∧
    (s.arb.apart = false → c = s) ∧
    -- a grant to the Sequencer: in this happening, or left to one of its own, which is due at once; a happening that
    -- finds it left so, and can be followed by a decision, makes it
    (s.link.phase = .idle → s.arb.pause = none → s.arb.lock = .none → s.decision = .sequencer →
      (s.arb.apart = true → arbitrate s = decideNow s) ∧
      (s.arb.apart = false → arbitrate s = decideNow s ∨
        (let w : State := { s with arb := { s.arb with apart := true } }
         arbitrate s = w ∧ Instr.grantPauseEnd ∈ w.due ∧
           (s.resetHeld = false → exec .grantPauseEnd w = .next (decideNow s))))) ∧
    grantDirect t s = { s with
      direct := { s.direct with slots := s.direct.slots.set t { d with state := .active }, order := rest }
      arb := { s.arb with
        lock := if r.lock then .held (rest.find? fun k => !s.urgent k)
          else if s.arb.lock = .none then .none else .held none
        lastGrantee := if r.urgent then s.arb.lastGrantee else .direct
        boundaryGrant := if r.urgent then s.arb.boundaryGrant else false }
      seq := { s.seq with
        item := s.seq.item.map fun it =>
          if (it.phase = .converting ∨ it.phase = .fetchWait) ∧ (s.stationOf it.item).address = r.address then
            { it with touched := true } else it
        suspended := s.seq.suspended.map fun q =>
          if (s.stationOf q.item).address = r.address then { q with touched := true } else q }
      link := { s.link with
        phase := .sending, txn := some x, rx := [], endWatch := false,
        timer := some (s.now + s.link.rate.byteTime * x.frame.length) } }

/-- A grant to the Sequencer: its current item's transaction goes to the engine and tenure holds; or, at a station that
is OFFLINE or for a touched item at its restart limit, the item completes without traffic and the pause begins. The
descriptor's write value goes with a WRITE only (R8, R39). -/
def Obligations.SequencerGrantResult : Prop :=
  ∀ (s : State) (c : Chain) (it : ItemRun), s.link.phase = .idle → s.arb.pause = none → s.arb.lock = .none →
    s.decision = .sequencer → s.seq.active.chain = some c → s.seq.item = some it →
    let d := s.itemAt it.item
    let e := s.stationOf it.item
    let sent := fun (next : ItemRun) (op : Op) =>
      let x : Transaction :=
        { requester := .sequencer, address := e.address, op := op, index := d.index, length := d.length,
          value := if op = .write then some d.value else none, params := { timeout := e.timeout, retry := e.retry, backoff := e.backoff },
          rate := s.link.rate, attempt := 1, orphan := false }
      ({ s with
        arb := { s.arb with
          tenure := true, lastGrantee := .sequencer, boundaryGrant := false, apart := false }
        seq := { s.seq with
          item := some next
          suspended := s.seq.suspended.map fun q =>
            if (s.stationOf q.item).address = e.address then { q with touched := true } else q }
        link := { s.link with
          phase := .sending, txn := some x, rx := [], endWatch := false,
          timer := some (s.now + s.link.rate.byteTime * x.frame.length) } } : State)
    let unused := fun (o : ItemOutcome) =>
      let u := decideNow s
      u.link = s.link ∧ u.direct = s.direct ∧ u.stations = s.stations ∧ u.arb.pause = some (s.now + 10) ∧
      u.arb.tenure = false ∧ u.arb.apart = false ∧ u.arb.lastGrantee = .sequencer ∧ u.latched .itemError = true ∧
      (c = .normal → u.results.slots = match d.slot with
        | some k => s.results.slots.set k
            { value := (s.results.slots[k]).value, outcome := some o, state := .fresh,
              overwritten := (s.results.slots[k]).state == .fresh, writer := .normal,
              passNumber := s.seq.pass.number }
        | none => s.results.slots) ∧
      -- the completion of an item of any chain: slot, record, mask flag, error count and what follows
      (s.seq.top = .running → (c ≠ .normal → s.seq.injRun ≠ none) → ∃ w : State, u = schedule w ∧
        ({ s with arb := { s.arb with
             lastGrantee := .sequencer, boundaryGrant := false, pause := some (s.now + 10), apart := false } }
          : State).Completes w c it o none false)
    (it.phase = .grantWait → s.health d.station ≠ .offline →
      (d.kind = .read → decideNow s = sent { it with phase := .onLink } .read) ∧
      (d.kind = .write → decideNow s = sent { it with phase := .onLink } .write) ∧
      (d.kind = .sampleFetch → decideNow s = sent { it with phase := .onLink } .sample)) ∧
    (it.phase = .fetchWait → s.health d.station ≠ .offline →
      (it.touched = false → decideNow s = sent { it with phase := .onLinkFetch } .fetch) ∧
      (it.touched = true → it.restarts < 3 → decideNow s = sent
        { it with phase := .onLink, restarts := it.restarts + 1, touched := false, convDue := none } .sample) ∧
      (it.touched = true → 3 ≤ it.restarts → unused .starved)) ∧
    (it.phase = .grantWait ∨ it.phase = .fetchWait → s.health d.station = .offline → unused .offline)

/-! ## The Link Engine -/

/-- The engine between attempts: frame sent, response begun, bytes counted in, the next attempt after SETTLE or BACKOFF
with the same frame, the end of the settle after a cut, and a stray byte. That RESPONSE_START_BIT in RECEIVING stops the
gap, and that a byte counts with no start bit named before it, is the model's inference (DEDUCED, log entry 13). -/
def Obligations.EngineMoves : Prop :=
  ∀ s : State, s.resetHeld = false →
    exec .strayByte s = .next s ∧
    (s.link.phase = .settle → s.link.txn = none → exec .resetSettleEnd s = .next (arbitrate { s with
      link := { s.link with phase := .idle, timer := none, rx := [], endWatch := false } })) ∧
    ∀ x, s.link.txn = some x →
      let again : State := { s with link := { s.link with
        phase := .sending, txn := some { x with attempt := x.attempt + 1 }, rx := [], endWatch := false,
        timer := some (s.now + x.rate.byteTime * x.frame.length) } }
      ({ x with attempt := x.attempt + 1 } : Transaction).frame = x.frame ∧
      (s.link.phase = .sending → exec .frameSent s = .next { s with link := { s.link with
        phase := .awaitResponse, timer := some (s.now + 10 * x.params.timeout.toNat) } }) ∧
      (s.link.phase = .awaitResponse → exec .responseStartBit s = .next { s with link := { s.link with
        phase := .receiving, timer := none, rx := [], endWatch := false } }) ∧
      (s.link.phase = .receiving → s.link.endWatch = false →
        exec .responseStartBit s = .next { s with link := { s.link with timer := none } } ∧
        ∀ (v : Byte) (f : Bool),
          let header := match s.link.rx with
            | [] => v
            | b :: _ => b.value
          let expected :=
            if header.extractLsb' 0 3 = 1#3 ∧ (x.op = .read ∨ x.op = .fetch) then x.length.toNat + 2 else 2
          (s.link.rx.length + 1 < expected → exec (.responseByteReceived v f) s = .next { s with
            link := { s.link with rx := s.link.rx ++ [⟨v, f⟩], timer := some (s.now + x.rate.byteTime * 2) } }) ∧
          (expected ≤ s.link.rx.length + 1 → exec (.responseByteReceived v f) s = .next { s with
            link := { s.link with rx := s.link.rx ++ [⟨v, f⟩], endWatch := true,
                                  timer := some (s.now + x.rate.byteTime * 1) } })) ∧
      (s.link.phase = .settle → exec .settleEnd s = .next again) ∧
      (s.link.phase = .backoff → exec .backoffEnd s = .next again)

/-- A happening whose moment the part is not at leaves the state as it is (the model's choice, log entry 3). -/
def Obligations.HappeningsOutOfPlace : Prop :=
  ∀ s : State, s.resetHeld = false →
    (s.link.phase ≠ .sending → exec .frameSent s = .next s) ∧
    (s.link.phase ≠ .awaitResponse → s.link.phase ≠ .receiving → exec .responseStartBit s = .next s) ∧
    (s.link.phase ≠ .awaitResponse → exec .responseTimeout s = .next s) ∧
    (s.link.phase ≠ .receiving → exec .byteGapExpiry s = .next s ∧ exec .endWatchStartBit s = .next s ∧
      exec .endWatchExpiry s = .next s ∧ ∀ v f, exec (.responseByteReceived v f) s = .next s) ∧
    (s.link.phase ≠ .settle → exec .settleEnd s = .next s ∧ exec .resetSettleEnd s = .next s) ∧
    (s.link.phase ≠ .backoff → exec .backoffEnd s = .next s) ∧
    (s.seq.item.all (fun it => it.phase != .converting) = true → exec .conversionTimerExpiry s = .next s) ∧
    (s.seq.suspended.all (fun r => r.fetchDue) = true → exec .suspendedTimerExpiry s = .next s) ∧
    (s.arb.pause = none → s.arb.apart = false → exec .grantPauseEnd s = .next s) ∧
    ((∀ t d, s.arb.lock ≠ .window t d) → exec .lockWindowExpiry s = .next s) ∧
    ∀ k : Fin 4,
      (s.trigger.filters[k] = none ∨ s.trigger.pins[k] = s.trigger.filtered[k] → exec (.lineEdge k) s = .next s) ∧
      ((s.trigger.runs[k]).due = none ∨ s.isArmed = false → exec (.paceTimerExpiry k) s = .next s) ∧
      exec (.triggerPinChange k s.trigger.pins[k]) s = .next s

/-- Frames and their check byte, their bits on the line as sent and as heard, the happenings that start bits and bytes
are in each state of the engine, the value a response carries, and the judgement of a complete response at the end of the
end watch. The model's own (DESIGN CHOICE, log entry 14): LTXD is a level for every microsecond and LRXD a waveform of half
microseconds, of which State.listen takes one; a start bit counts at its change to space and a byte at the end of its stop
bit; and no start bit is looked for from a byte's start bit to the middle of its stop bit. -/
def Obligations.ResponseJudged : Prop :=
  -- the check byte: start value, one byte in, one shift, and the worked frame of section 1.2
  crc [] = 0xFF#8 ∧
  (∀ (l : List Byte) (b : Byte), crc (l ++ [b]) = crcShift^[8] (crc l ^^^ b)) ∧
  (∀ r : Byte, crcShift r = if r.getLsbD 7 then (r <<< 1) ^^^ 0x2F#8 else r <<< 1) ∧
  (∀ x : Transaction, x.address = 5#5 → x.op = .ping → x.index = 0#8 → x.length = 1#3 →
    x.frame = [0x28#8, 0x00#8, 0x01#8, 0xD9#8]) ∧
  -- a frame is H, I, L, the data bytes of a WRITE, and C
  (∀ x : Transaction, ∃ data : List Byte,
    x.frame = [x.address ++ x.op.code, x.index, x.length.setWidth 8] ++ data ++
      [crc ([x.address ++ x.op.code, x.index, x.length.setWidth 8] ++ data)] ∧
    (x.op ≠ .write → data = []) ∧
    (x.op = .write → data.length = x.length.toNat ∧
      ∀ v, x.value = some v → ∀ i, i < data.length → data[i]? = some (v.extractLsb' (8 * (data.length - 1 - i)) 8))) ∧
  -- a byte on the line is ten bits: start at space, eight data bits, least significant first, stop at mark
  (∀ b : Byte, (byteBits b).length = 10 ∧ (byteBits b)[0]? = some false ∧ (byteBits b)[9]? = some true ∧
    ∀ i, i < 8 → (byteBits b)[i + 1]? = some (b.getLsbD i)) ∧
  -- in SENDING, LTXD carries the frame's bytes back to back from the moment the frame began; else it rests at mark
  (∀ s : State, s.link.phase ≠ .sending → s.ltxd = true) ∧
  (∀ (s : State) (x : Transaction) (began i j d : Nat) (b : Byte), s.link.phase = .sending → s.link.txn = some x →
    s.link.timer = some (began + x.rate.byteTime * x.frame.length) → x.rate.byteTime = 10 * x.rate.bitTime →
    x.frame[i]? = some b → j < 10 → d < x.rate.bitTime →
    s.now = began + x.rate.byteTime * i + x.rate.bitTime * j + d → (byteBits b)[j]? = some s.ltxd) ∧
  (LinkRate.k62.byteTime = 10 * LinkRate.k62.bitTime ∧ LinkRate.k250.byteTime = 10 * LinkRate.k250.bitTime ∧
    LinkRate.k1000.byteTime = 10 * LinkRate.k1000.bitTime) ∧
  -- a waveform that holds each of a byte's ten levels for a bit time is heard as that byte, and a stop bit at space as
  -- a framing error; a pulse shorter than half a bit is no start bit
  (∀ (r : LinkRate) (level : Nat → Bool) (h : Nat) (b : Byte) (stop : Bool), 0 < h → level (h - 1) = true →
    (∀ i d, i < 9 → d < 2 * r.bitTime → (byteBits b)[i]? = some (level (h + 2 * r.bitTime * i + d))) →
    (∀ d, d < 2 * r.bitTime → level (h + 2 * r.bitTime * 9 + d) = stop) →
    isStartBit r level h = true ∧ sampleByte r level h = ⟨b, !stop⟩) ∧
  (∀ (r : LinkRate) (level : Nat → Bool) (h : Nat), level (h + r.bitTime) = true → isStartBit r level h = false) ∧
  -- one half microsecond of a waveform: between bytes a start bit or nothing; a byte that comes in is received when its
  -- ten bit times are over, or when the next start bit comes early, after the middle of its stop bit
  (∀ (r : LinkRate) (level : Nat → Bool) (h : Nat),
    (isStartBit r level h = true → receiveAt r level h none = ([.startBit], some h)) ∧
    (isStartBit r level h = false → receiveAt r level h none = ([], none)) ∧
    ∀ b : Nat,
      let ended := b + 20 * r.bitTime ≤ h ∨ (b + 19 * r.bitTime < h ∧ isStartBit r level h = true)
      let byte := LineEvent.byte (sampleByte r level b)
      (¬ ended → receiveAt r level h (some b) = ([], some b)) ∧
      (ended → isStartBit r level h = true → receiveAt r level h (some b) = ([byte, .startBit], some h)) ∧
      (ended → isStartBit r level h = false → receiveAt r level h (some b) = ([byte], none))) ∧
  -- the happenings that a start bit and a byte are in each state of the engine
  (∀ s : State,
    (s.link.phase = .sending → s.hearsStart = none) ∧
    (s.link.phase = .awaitResponse ∨ (s.link.phase = .receiving ∧ s.link.endWatch = false) →
      s.hearsStart = some .responseStartBit) ∧
    (s.link.phase = .receiving → s.link.endWatch = true → s.hearsStart = some .endWatchStartBit) ∧
    (s.link.phase = .idle ∨ s.link.phase = .settle ∨ s.link.phase = .backoff → s.hearsStart = some .strayByte) ∧
    (∀ b : RxByte, s.link.phase = .receiving → s.link.endWatch = false →
      s.hearsByte b = some (.responseByteReceived b.value b.framingError)) ∧
    (∀ b : RxByte, s.link.phase ≠ .receiving ∨ s.link.endWatch = true → s.hearsByte b = none) ∧
    (s.hearsStart = none → s.hear .startBit = s) ∧
    (∀ c t, s.hearsStart = some c → exec c s = .next t → s.hear .startBit = t) ∧
    (∀ b, s.hearsByte b = none → s.hear (.byte b) = s) ∧
    ∀ b c t, s.hearsByte b = some c → exec c s = .next t → s.hear (.byte b) = t) ∧
  -- LRXD is heard at the link rate in use, but not while LDIR is high or RESET_N low; commands that wait come first
  (∀ (s : State) (level : Nat → Bool) (h : Nat),
    let rate := match s.link.txn with
      | some x => x.rate
      | none => s.link.rate
    let hearing := fun (t : State) (n : Option Nat) => ({ t with link := { t.link with incoming := n } } : State)
    s.listen level h = s.settled.listen level h ∧
    (s.pending = [] →
      (s.ldir = true ∨ s.resetHeld = true → s.listen level h = hearing s none) ∧
      (s.ldir = false → s.resetHeld = false → s.listen level h =
        hearing ((receiveAt rate level h s.link.incoming).1.foldl State.hear s)
          (receiveAt rate level h s.link.incoming).2))) ∧
  -- the value of a response, first byte most significant
  (assemble [] = 0#32 ∧ ∀ (l : List Byte) (b : Byte), assemble (l ++ [b]) = assemble l <<< 8 ||| b.setWidth 32) ∧
  -- the end of the end watch judges the response received
  (∀ (s : State) (x : Transaction), s.resetHeld = false → s.link.txn = some x → s.link.phase = .receiving →
    s.link.endWatch = true → exec .endWatchExpiry s = .next (attemptEnd (x.judge s.link.rx) s)) ∧
  -- the judgement
  ∀ (x : Transaction) (h : RxByte) (data : List RxByte) (c : RxByte),
    let rx := h :: (data ++ [c])
    let code := h.value.extractLsb' 0 3
    let wrong := (∃ b ∈ rx, b.framingError = true) ∨ crc (h.value :: data.map (·.value)) ≠ c.value ∨
      h.value.extractLsb' 3 5 ≠ x.address ∨ code = 0#3 ∨ 4 ≤ code.toNat
    (wrong → x.judge rx = .corrupt) ∧
    (¬ wrong → code = 1#3 → x.op = .read ∨ x.op = .fetch →
      x.judge rx = .ack (some (assemble (data.map (·.value))))) ∧
    (¬ wrong → code = 1#3 → x.op = .ping ∨ x.op = .write ∨ x.op = .sample → x.judge rx = .ack none) ∧
    (¬ wrong → code = 2#3 → x.judge rx = .busy) ∧
    (¬ wrong → code = 3#3 → x.judge rx = .reject)

/-- The end of an attempt: SETTLE or BACKOFF and then the next attempt while attempts remain, the end of the transaction
with its final outcome otherwise, and at once for an ACK and a REJECT. -/
def Obligations.AttemptResults : Prop :=
  ∀ (s : State) (x : Transaction), s.resetHeld = false → s.link.txn = some x →
    let remain := x.attempt < x.params.retry.toNat + 1
    let settle : State := { s with link := { s.link with
      phase := .settle, timer := some (s.now + x.rate.byteTime * 4), rx := [], endWatch := false } }
    let backoff : State := { s with link := { s.link with
      phase := .backoff, timer := some (s.now + 10 * x.params.backoff.toNat), rx := [], endWatch := false } }
    let next := fun u : State => ({ u with link := { u.link with
      phase := .sending, txn := some { x with attempt := x.attempt + 1 }, rx := [], endWatch := false,
      timer := some (u.now + x.rate.byteTime * x.frame.length) } } : State)
    (∀ u : State, u.resetHeld = false →
      (u.link = settle.link → exec .settleEnd u = .next (next u)) ∧
      (u.link = backoff.link → exec .backoffEnd u = .next (next u))) ∧
    (s.link.phase = .awaitResponse →
      (remain → exec .responseTimeout s = .next settle) ∧
      (¬ remain → exec .responseTimeout s = .next (endTransaction x .noResponse none s))) ∧
    (s.link.phase = .receiving → s.link.endWatch = false → s.link.timer ≠ none →
      (remain → exec .byteGapExpiry s = .next settle) ∧
      (¬ remain → exec .byteGapExpiry s = .next (endTransaction x .badFrame none s))) ∧
    (s.link.phase = .receiving → s.link.endWatch = true →
      (remain → exec .endWatchStartBit s = .next settle) ∧
      (¬ remain → exec .endWatchStartBit s = .next (endTransaction x .badFrame none s)) ∧
      (∀ v, x.judge s.link.rx = .ack v → exec .endWatchExpiry s = .next (endTransaction x .done v s)) ∧
      (x.judge s.link.rx = .reject → exec .endWatchExpiry s = .next (endTransaction x .rejected none s)) ∧
      (x.judge s.link.rx = .corrupt → remain → exec .endWatchExpiry s = .next settle) ∧
      (x.judge s.link.rx = .corrupt → ¬ remain →
        exec .endWatchExpiry s = .next (endTransaction x .badFrame none s)) ∧
      (x.judge s.link.rx = .busy → remain → exec .endWatchExpiry s = .next backoff) ∧
      (x.judge s.link.rx = .busy → ¬ remain →
        exec .endWatchExpiry s = .next (endTransaction x .busyLimit none s)))

/-- The end notice and the Station Table: the count of the matching entry moves by the outcome, with STATION_BACK and
STATION_OFFLINE at the changes of health that raise them; an address that matches no entry moves nothing. -/
def Obligations.HealthMoves : Prop :=
  ∀ (s : State) (a : BitVec 5) (o : TxnOutcome), s.TablesOk →
    let latch := fun (n : BitVec 4) (e : Fin 16) (l : BitVec 12) => ({ s with
      stations := { s.stations with failures := s.stations.failures.set e n }
      window := { s.window with latch := l } } : State)
    ((∀ e : Fin 16, (s.stations.entries[e]).enabled = false ∨ (s.stations.entries[e]).address = 0#5 ∨
      (s.stations.entries[e]).address ≠ a) → noticeHealth a o s = s) ∧
    ∀ e : Fin 16, (s.stations.entries[e]).enabled = true → (s.stations.entries[e]).address = a → a ≠ 0#5 →
      let n := s.stations.failures[e]
      let limit := (s.stations.entries[e]).failLimit
      (o = .done ∨ o = .rejected ∨ o = .busyLimit →
        noticeHealth a o s = latch 0#4 e
          (if n = limit then s.window.latch ||| Event.mask .stationBack else s.window.latch)) ∧
      (o = .noResponse ∨ o = .badFrame →
        (n ≠ limit → noticeHealth a o s = latch (n + 1#4) e
          (if n + 1#4 = limit then s.window.latch ||| Event.mask .stationOffline else s.window.latch)) ∧
        (n = limit → noticeHealth a o s = s))

/-- The end of a direct transaction: the slot is DONE with outcome and value, DIRECT_DONE is raised, the engine is IDLE,
and the lock state says what the arbiter does next. -/
def Obligations.DirectTransactionEnds : Prop :=
  ∀ (s : State) (x : Transaction) (t : Fin 4) (o : TxnOutcome) (v : Option Value), x.requester = .direct t →
    let h := noticeHealth x.address o s
    let u : State := { h with
      window := { h.window with latch := h.window.latch ||| Event.mask .directDone }
      direct := { s.direct with
        slots := s.direct.slots.set t
          { s.direct.slots[t] with state := .done, outcome := some o, value := v.getD 0#32 } }
      link := { s.link with phase := .idle, txn := none, timer := none, rx := [], endWatch := false } }
    (s.arb.lock = .none → endTransaction x o v s = arbitrate u) ∧
    (∀ k, s.arb.lock = .held k → s.carriesLock t = false →
      endTransaction x o v s = decideNow { u with arb := { s.arb with lock := .none } }) ∧
    (∀ k, s.arb.lock = .held (some k) → s.carriesLock t = true → endTransaction x o v s = grantDirect k u) ∧
    (s.arb.lock = .held none → s.carriesLock t = true → endTransaction x o v s =
      { u with arb := { s.arb with lock := .window t (s.now + 10 * s.arb.windowLength.toNat) } }) ∧
    (s.arb.lock = .lapsing → endTransaction x o v s = decideNow { u with
      arb := { s.arb with lock := .none }
      window := { u.window with latch := u.window.latch ||| Event.mask .lockLapsed } })

/-! ## The Sequencer -/

/-- The end of the Sequencer's transaction: an orphan's notice is used for no item and ends STOPPING; for an item
without an abort mark, where no injection waits, a SAMPLE that is DONE starts the conversion, and any other end, with
room in the queue and a further expected position, completes the item and begins the next one. In every case, an
injection that waits and a queue without room included, the Sequencer goes on as HandOverChoices says: an item with the
abort mark completes ABORTED whatever the outcome, with the chain's mark its run ends early, the last expected position
ends the run, and where a record is held the part is in QUEUE_WAIT and nothing begins.
That the pass-boundary notice leaves the grant flag as it is outside SEQ_FIRST, set or clear, is the model's choice
(DESIGN CHOICE, log entry 25). The grant that follows is made in the end's own happening or as a happening of its own in
the same moment (DirectGrantResult; DEDUCED, log entry 27). -/
def Obligations.SequencerTransactionEnds : Prop :=
  ∀ (s : State) (x : Transaction) (o : TxnOutcome) (v : Option Value), x.requester = .sequencer →
    let h := noticeHealth x.address o s
    let u : State := { h with
      link := { s.link with phase := .idle, txn := none, timer := none, rx := [], endWatch := false } }
    (x.orphan = true → s.seq.top ≠ .stopping → endTransaction x o v s = arbitrate u) ∧
    (x.orphan = true → s.seq.top = .stopping → endTransaction x o v s = arbitrate { u with
      seq := { s.seq with top := .stopped }
      window := { u.window with latch := u.window.latch ||| Event.mask .seqStopped } }) ∧
    (∀ (c : Chain) (it : ItemRun), x.orphan = false → s.seq.top = .running → s.seq.active.chain = some c →
      s.seq.item = some it → (c = .normal → s.seq.pendingSet = 0#8) → (c ≠ .normal → s.seq.injRun ≠ none) →
      it.abortMark = false →
      let d := s.itemAt it.item
      let time := (s.stationOf it.item).convTime.toNat
      (it.phase = .onLink → d.kind = .sampleFetch → o = .done →
        (time ≠ 0 → endTransaction x o v s = arbitrate { u with seq := { s.seq with
          item := some { it with
            phase := .converting, touched := false, ackTime := s.now, convDue := some (s.now + 10 * time) } } }) ∧
        (time = 0 → endTransaction x o v s = arbitrate { u with seq := { s.seq with
          item := some { it with
            phase := .fetchWait, touched := false, ackTime := s.now, convDue := none } } })) ∧
      (it.phase = .onLinkFetch ∨ (it.phase = .onLink ∧ ¬ (d.kind = .sampleFetch ∧ o = .done)) →
        ∀ q, s.nextExpected c ((s.runOf c).position + 1) = some q →
          s.results.hold = [] → s.results.queue.length < 32 →
          let failed := o ≠ .done
          let number := if c = .normal then s.seq.pass.number else 0#16
          let old := s.runOf c
          ∃ w : State, endTransaction x o v s = arbitrate w ∧
            w.seq.top = .running ∧ w.seq.active = s.seq.active ∧ w.arb.tenure = false ∧
            w.stations = h.stations ∧ w.link = u.link ∧
            w.seq.item = some { item := s.itemNumber c q, position := q } ∧
            w.runOf c = { old with
              mask := old.mask ||| (1#64 <<< it.position), position := q
              done := if failed then old.done else old.done + 1
              errors := if failed then old.errors + 1 else old.errors } ∧
            (failed → w.latched .itemError = true) ∧
            w.results.slots = (match d.slot with
              | some k => s.results.slots.set k
                  { value := if failed then (s.results.slots[k]).value else v.getD (s.results.slots[k]).value
                    outcome := some o.toItem, state := .fresh,
                    overwritten := (s.results.slots[k]).state == .fresh, writer := c, passNumber := number }
              | none => s.results.slots) ∧
            w.results.queue = if d.post = .always ∨ (d.post = .errors ∧ failed) then s.results.queue ++ [.item
              { chain := c, position := it.position, item := it.item, outcome := o.toItem, slot := d.slot,
                restarts := it.restarts, value := v, passNumber := number }] else s.results.queue)) ∧
    ∀ (c : Chain) (it : ItemRun), x.orphan = false → s.seq.top = .running → s.seq.active.chain = some c →
      s.seq.item = some it → (c ≠ .normal → s.seq.injRun ≠ none) →
      let d := s.itemAt it.item
      let time := (s.stationOf it.item).convTime.toNat
      let sampled := it.phase = .onLink ∧ d.kind = .sampleFetch ∧ o = .done
      let old := s.runOf c
      let number := if c = .normal then s.seq.pass.number else 0#16
      (it.abortMark = false → sampled → endTransaction x o v s = arbitrate (schedule { u with seq := { s.seq with
        item := some { it with
          phase := if time = 0 then .fetchWait else .converting, touched := false, ackTime := s.now
          convDue := if time = 0 then none else some (s.now + 10 * time) } } })) ∧
      ∀ (oc : ItemOutcome) (val : Option Value) (early : Bool),
        (it.abortMark = true ∧ oc = .aborted ∧ val = none ∧ early = old.chainAbort) ∨
          (it.abortMark = false ∧ (it.phase = .onLinkFetch ∨ (it.phase = .onLink ∧ ¬ sampled)) ∧
            oc = o.toItem ∧ val = v ∧ early = false) →
        ∃ w : State, endTransaction x o v s = arbitrate (schedule w) ∧ u.Completes w c it oc val early ∧
          -- no room, and the policy STALL: the ITEM record is held, and behind it the record of a run that ends
          (s.results.hold = [] → s.results.queue.length = 32 → s.results.policy = .stall → oc ≠ .aborted →
            d.post = .always ∨ (d.post = .errors ∧ oc ≠ .done) →
            let record := Record.item
              { chain := c, position := it.position, item := it.item, outcome := oc, slot := d.slot,
                restarts := it.restarts, value := val, passNumber := if c = .normal then s.seq.pass.number else 0#16 }
            let done := if oc = .done then old.done + 1 else old.done
            let errors := if oc = .done then old.errors else old.errors + 1
            schedule w = w ∧ w.seq.top = .queueWait ∧ w.latched .queueStall = true ∧
            w.results.queue = s.results.queue ∧ w.results.drops = s.results.drops ∧
            w.results.hold = if s.nextExpected c (old.position + 1) = none then
              [record, match c with
                | .normal => .passEnd s.seq.pass.number done errors false
                | .inj k => .injEnd k done errors false]
              else [record])

/-- A record offered to the Result Store enters the queue, is held, or is discarded; and a completion writes the slot it
names unless it is ABORTED. -/
def Obligations.RecordsAndSlots : Prop :=
  ∀ s : State,
    (∀ r : Record,
      let room := s.results.queue.length < 32 ∧ s.results.hold = []
      let lost := r.isAbort = true ∨ s.results.policy = .drop
      (room → offer r s = { s with
        results := { s.results with queue := s.results.queue ++ [r] }
        window := { s.window with latch :=
          if s.results.queue = [] then s.window.latch ||| Event.mask .queueData else s.window.latch } }) ∧
      (¬ room → lost → offer r s = { s with
        results := { s.results with
          drops := if s.results.drops = 65535#16 then 65535#16 else s.results.drops + 1#16 }
        window := { s.window with latch := s.window.latch ||| Event.mask .recordDropped } }) ∧
      (¬ room → ¬ lost → offer r s = { s with
        results := { s.results with hold := s.results.hold ++ [r] }
        seq := { s.seq with top := if s.results.hold = [] then .queueWait else s.seq.top }
        window := { s.window with latch :=
          if s.results.hold = [] then s.window.latch ||| Event.mask .queueStall else s.window.latch } })) ∧
    ∀ c : Completion,
      (c.slot = none ∨ c.outcome = .aborted → writeSlot c s = s) ∧
      ∀ k, c.slot = some k → c.outcome ≠ .aborted →
        let old := s.results.slots[k]
        writeSlot c s = { s with results := { s.results with
          slots := s.results.slots.set k {
            value := if c.outcome = .done then c.value.getD old.value else old.value
            outcome := some c.outcome, state := .fresh, overwritten := old.state == .fresh, writer := c.chain,
            passNumber := c.passNumber } } }

/-- The ends of runs: a NORMAL pass copies its mask, offers its record, raises PASS_END and gives the pass-boundary
notice, and the mode and its flag say whether a pass follows; an injected run copies its mask, offers its record and
raises INJ_END, and its end leaves the active context of R98. In every state, and written out with room in the queue and
with none under STALL, where the record is held. R98 is followed for every run end in QUEUE_WAIT, that by ABORT_CHAIN
included, where R155's "by R98" is read as R98's first case (DEDUCED, log entry 7). That the notice leaves the grant flag
as it is outside SEQ_FIRST, set or clear, is the model's choice (DESIGN CHOICE, log entry 25). -/
def Obligations.RunEnds : Prop :=
  (∀ (s : State) (k : Fin 8) (aborted : Bool),
    let t := endInjRun k aborted s
    t.seq.injRun = none ∧ t.seq.item = none ∧ t.seq.suspended = s.seq.suspended ∧ t.seq.pendingSet = s.seq.pendingSet ∧
    t.seq.pass = s.seq.pass ∧
    t.seq.active = if t.seq.top = .queueWait ∧ s.seq.suspended = none then
      (if s.seq.pass.present then .normal else .none) else s.seq.active) ∧
  -- in every state, with what the offer of the record leaves
  (∀ (s : State) (aborted : Bool),
    let p := s.seq.pass
    (let o := offer (.passEnd p.number p.run.done p.run.errors aborted) s
     endPass aborted s = { s with
       results := { s.results with
         normalMask := p.run.mask, queue := o.results.queue, hold := o.results.hold, drops := o.results.drops }
       window := { s.window with latch := o.window.latch ||| Event.mask .passEnd }
       arb := { s.arb with boundaryGrant := s.arb.mode == .seqFirst || s.arb.boundaryGrant }
       seq := { s.seq with
         top := o.seq.top, pass := { p with present := false, run := { p.run with chainAbort := false } } } }) ∧
    ∀ (k : Fin 8) (r : RunContext), s.seq.injRun = some r →
      let o := offer (.injEnd k r.done r.errors aborted) s
      endInjRun k aborted s = { s with
        results := { s.results with
          injMasks := s.results.injMasks.set k (r.mask.setWidth 16)
          queue := o.results.queue, hold := o.results.hold, drops := o.results.drops }
        window := { s.window with latch := o.window.latch ||| Event.mask .injEnd }
        seq := { s.seq with
          top := o.seq.top, item := none, injRun := none
          active := if o.seq.top = .queueWait ∧ s.seq.suspended = none then
            (if p.present then .normal else .none) else s.seq.active } }) ∧
  -- no room, and the policy STALL: the record is held, first or behind the ITEM record that is held already
  (∀ s : State, s.results.queue.length = 32 → s.results.policy = .stall →
    (s.results.hold ≠ [] → s.seq.top = .queueWait) →
    let p := s.seq.pass
    let latch := fun e : Event =>
      (if s.results.hold = [] then s.window.latch ||| Event.mask .queueStall else s.window.latch) ||| e.mask
    (endPass false s = { s with
      results := { s.results with
        normalMask := p.run.mask, hold := s.results.hold ++ [.passEnd p.number p.run.done p.run.errors false] }
      window := { s.window with latch := latch .passEnd }
      arb := { s.arb with boundaryGrant := s.arb.mode == .seqFirst || s.arb.boundaryGrant }
      seq := { s.seq with
        top := .queueWait, pass := { p with present := false, run := { p.run with chainAbort := false } } } }) ∧
    ∀ (k : Fin 8) (r : RunContext), s.seq.injRun = some r →
      endInjRun k false s = { s with
        results := { s.results with
          injMasks := s.results.injMasks.set k (r.mask.setWidth 16)
          hold := s.results.hold ++ [.injEnd k r.done r.errors false] }
        window := { s.window with latch := latch .injEnd }
        seq := { s.seq with
          top := .queueWait, item := none, injRun := none
          active := if s.seq.suspended = none then (if p.present then .normal else .none) else s.seq.active } }) ∧
  -- room in the queue
  ∀ (s : State) (aborted : Bool), s.results.hold = [] → s.results.queue.length < 32 →
    let latch := fun e : Event => s.window.latch |||
      (if s.results.queue = [] then Event.mask .queueData else 0#12) ||| e.mask
    let p := s.seq.pass
    (endPass aborted s = { s with
      results := { s.results with
        normalMask := p.run.mask
        queue := s.results.queue ++ [.passEnd p.number p.run.done p.run.errors aborted] }
      window := { s.window with latch := latch .passEnd }
      arb := { s.arb with boundaryGrant := s.arb.mode == .seqFirst || s.arb.boundaryGrant }
      seq := { s.seq with pass := { p with present := false, run := { p.run with chainAbort := false } } } }) ∧
    (∀ (k : Fin 8) (r : RunContext), s.seq.injRun = some r → s.seq.top ≠ .queueWait →
      endInjRun k aborted s = { s with
        results := { s.results with
          injMasks := s.results.injMasks.set k (r.mask.setWidth 16)
          queue := s.results.queue ++ [.injEnd k r.done r.errors aborted] }
        window := { s.window with latch := latch .injEnd }
        seq := { s.seq with item := none, injRun := none } }) ∧
    -- what follows the end of the active NORMAL pass
    (let first := (s.nextExpected .normal 0).getD 0
     let next := fun q : PassContext => ({ s with seq := { s.seq with
       active := .normal, item := none
       pass := { q with present := true, number := p.number + 1#16,
                        run := { position := first, mask := 0#64, done := 0, errors := 0, chainAbort := false } }
       top := if s.seq.top = .idle then .running else s.seq.top } } : State)
     let rest := fun q : PassContext => ({ s with seq := { s.seq with active := .none, item := none, pass := q } } : State)
     (s.tables.normalMode = .oneShot →
       (p.startPending = true → followPass s = next { p with startPending := false }) ∧
       (p.startPending = false → followPass s = rest p)) ∧
     (s.tables.normalMode = .continuous →
       (p.stopAfter = false → followPass s = next p) ∧
       (p.stopAfter = true → followPass s = rest { p with stopAfter := false })))

/-- The positions of a chain, in order and with OFF items passed over: the next expected position from p on is the lowest
position from p on, below the chain's count, whose item first + position is not OFF, and there is none where no position is
so. And how the Sequencer goes on in a happening that leaves it IDLE or RUNNING: the hand-over after an injected run, the
next item at a boundary, a pending chain that breaks in, or nothing. The hand-over takes the lowest pending chain, or
restores a suspended item by its health, touched flag and restart count, or takes NORMAL up at its boundary, or goes
IDLE. That a pass that ends at a restore leaves the grant flag as it is outside SEQ_FIRST, set or clear, is the model's
choice (DESIGN CHOICE, log entry 25). -/
def Obligations.HandOverChoices : Prop :=
  (∀ (s : State) (c : Chain) (p : Nat),
    let chain := match c with
      | .normal => s.tables.normal
      | .inj k => s.tables.inj[k]
    let expected := fun q : Nat =>
      q < chain.count.toNat ∧ ∃ n : Fin 64, n.val = chain.first.toNat + q ∧ (s.tables.items[n]).kind ≠ .off
    (∀ q, s.nextExpected c p = some q ↔ p ≤ q ∧ expected q ∧ ∀ r, p ≤ r → r < q → ¬ expected r) ∧
    (s.nextExpected c p = none ↔ ∀ q, p ≤ q → ¬ expected q) ∧
    (∀ q, s.itemNumber c q = chain.first.toNat + q) ∧
    ∀ n : Fin 64, s.itemAt n.val = s.tables.items[n]) ∧
  ∀ s : State,
    (s.seq.top ≠ .idle → s.seq.top ≠ .running → schedule s = s) ∧
    (s.seq.top = .idle ∨ s.seq.top = .running →
      let begins := fun (first : BitVec 6) (position : Nat) => ({ s with seq := { s.seq with
        item := some { item := first.toNat + position, position := position } } } : State)
      (∀ k, s.seq.active = .inj k →
        (s.seq.injRun = none → schedule s = handOver s) ∧
        (∀ r it, s.seq.injRun = some r → s.seq.item = some it → schedule s = s) ∧
        (∀ r, s.seq.injRun = some r → s.seq.item = none → schedule s = begins (s.tables.inj[k]).first r.position)) ∧
      (s.seq.active = .none →
        (s.seq.pendingSet = 0#8 → schedule s = { s with seq := { s.seq with top := .idle } }) ∧
        (s.seq.pendingSet ≠ 0#8 → schedule s = handOver s)) ∧
      (s.seq.active = .normal →
        (s.seq.item = none →
          (s.seq.pendingSet = 0#8 → schedule s = begins s.tables.normal.first s.seq.pass.run.position) ∧
          (s.seq.pendingSet ≠ 0#8 → schedule s = handOver s)) ∧
        ∀ it, s.seq.item = some it →
          (s.seq.pendingSet = 0#8 ∨ it.phase = .onLink ∨ it.phase = .onLinkFetch ∨
            (it.phase = .grantWait ∧ it.restarts ≠ 0) → schedule s = s) ∧
          (s.seq.pendingSet ≠ 0#8 → it.phase = .grantWait → it.restarts = 0 →
            schedule s = handOver { s with seq := { s.seq with item := none } }) ∧
          (s.seq.pendingSet ≠ 0#8 → it.phase = .converting ∨ it.phase = .fetchWait →
            schedule s = handOver { s with
              arb := { s.arb with tenure := false }
              seq := { s.seq with
                item := none
                suspended := some { item := it.item, position := it.position, fetchDue := it.phase == .fetchWait,
                                    ackTime := it.ackTime, convDue := it.convDue, restarts := it.restarts,
                                    touched := it.touched } } }))) ∧
    (∀ k : Fin 8, s.isPending k = true → (∀ j, j < k → s.isPending j = false) →
      let p := (s.nextExpected (.inj k) 0).getD 0
      ∃ left : BitVec 8, handOver s = { s with seq := { s.seq with
        top := .running, active := .inj k, pendingSet := left
        injRun := some { position := p, mask := 0#64, done := 0, errors := 0, chainAbort := false }
        item := some { item := (s.tables.inj[k]).first.toNat + p, position := p } } } ∧
        ∀ j : Fin 8, left.getLsbD j.val = (s.isPending j && j != k)) ∧
    (s.seq.pendingSet = 0#8 →
      (∀ r, s.seq.suspended = some r →
        let back := fun (n : Nat) (it : ItemRun) => handOver s = { s with seq := { s.seq with
          active := .normal, suspended := none
          item := some { it with item := r.item, position := r.position, restarts := n } } }
        let ends := fun (o : ItemOutcome) =>
          let t := handOver s
          t.seq.suspended = none ∧ t.latched .itemError = true ∧ t.link = s.link ∧ t.stations = s.stations ∧
          t.results.slots = (match (s.itemAt r.item).slot with
            | some k => s.results.slots.set k
                { value := (s.results.slots[k]).value, outcome := some o, state := .fresh,
                  overwritten := (s.results.slots[k]).state == .fresh, writer := .normal,
                  passNumber := s.seq.pass.number }
            | none => s.results.slots) ∧
          -- the completion of the item in NORMAL, and what follows it
          (s.seq.top = .running → ∃ (it : ItemRun) (w : State), t = schedule w ∧ it.item = r.item ∧
            it.position = r.position ∧ it.restarts = r.restarts ∧
            ({ s with seq := { s.seq with active := .normal, suspended := none } } : State).Completes w .normal it o
              none false)
        (s.health (s.itemAt r.item).station = .offline → ends .offline) ∧
        (s.health (s.itemAt r.item).station ≠ .offline →
          (r.touched = true → 3 ≤ r.restarts → ends .starved) ∧
          (r.touched = true → r.restarts < 3 → back (r.restarts + 1)
            { phase := .grantWait, touched := false, ackTime := r.ackTime, convDue := none }) ∧
          (r.touched = false → back r.restarts
            { phase := if r.fetchDue then .fetchWait else .converting, touched := false, ackTime := r.ackTime,
              convDue := r.convDue }))) ∧
      (s.seq.suspended = none →
        (s.seq.pass.present = true → handOver s = { s with seq := { s.seq with
          active := .normal
          item := some { item := s.tables.normal.first.toNat + s.seq.pass.run.position,
                         position := s.seq.pass.run.position } } }) ∧
        (s.seq.pass.present = false → handOver s = { s with seq := { s.seq with active := .none, top := .idle } })))

/-- The Sequencer's and the arbiter's timers: FETCH_WAIT at the conversion's end for the active and for the suspended
item, a decision at the pause's end, and a lapsed lock at the window's end. The grant after a conversion's end is made in
the same happening or as a happening of its own in the same moment (DEDUCED, log entry 27). -/
def Obligations.TimerHappenings : Prop :=
  ∀ s : State, s.resetHeld = false →
    (∀ it, s.seq.item = some it → it.phase = .converting → exec .conversionTimerExpiry s = .next (arbitrate
      { s with seq := { s.seq with item := some { it with phase := .fetchWait, convDue := none } } })) ∧
    (∀ r, s.seq.suspended = some r → r.fetchDue = false → exec .suspendedTimerExpiry s = .next
      { s with seq := { s.seq with suspended := some { r with fetchDue := true, convDue := none } } }) ∧
    (s.arb.pause ≠ none ∨ s.arb.apart = true → exec .grantPauseEnd s = .next (decideNow { s with arb := { s.arb with pause := none } })) ∧
    (∀ t d, s.arb.lock = .window t d → exec .lockWindowExpiry s = .next (decideNow { s with
      arb := { s.arb with lock := .none }
      window := { s.window with latch := s.window.latch ||| Event.mask .lockLapsed } }))

/-! ## Source events -/

/-- Pace timers, line filters and pins: an expiry moves the timer's run state and delivers its source event; the end of
a filter interval moves the filtered level and delivers the edge the selection names. In a part whose configuration
passes the check of ARM, a delivery begins a pass of NORMAL or sets its start-pending flag, lets every injected target
join the pending set, and the Sequencer and the arbiter go on once; it sets the overrun flag of exactly the targets
whose start is dropped, with TRIGGER_OVERRUN. The grant that follows a delivery is made in the same happening or as a
happening of its own in the same moment (DirectGrantResult; DEDUCED, log entry 27). -/
def Obligations.SourceEvents : Prop :=
  ∀ (s : State) (k : Fin 4), s.resetHeld = false →
    let timer := s.trigger.timers[k]
    let level := s.trigger.pins[k]
    let moved : State := { s with trigger := { s.trigger with
      filtered := s.trigger.filtered.set k level, filters := s.trigger.filters.set k none } }
    let named := match s.trigger.edges[k] with
      | .none => False
      | .rising => level = true
      | .falling => level = false
      | .both => True
    (∀ d, s.trigger.runs[k] = .running d → s.isArmed = true →
      exec (.paceTimerExpiry k) s = .next (deliver (.timer k) { s with trigger := { s.trigger with
        runs := s.trigger.runs.set k (match timer.mode with
          | .periodic => .running (s.now + 10 * timer.period.toNat)
          | .single => .expired) } })) ∧
    (s.trigger.filters[k] ≠ none → level ≠ s.trigger.filtered[k] →
      (s.isArmed = true → named → exec (.lineEdge k) s = .next (deliver (.line k) moved)) ∧
      (s.isArmed = false ∨ ¬ named → exec (.lineEdge k) s = .next moved)) ∧
    (level ≠ s.trigger.filtered[k] → exec (.triggerPinChange k !level) s = .next { s with trigger := { s.trigger with
      pins := s.trigger.pins.set k !level, filters := s.trigger.filters.set k none } }) ∧
    (level = s.trigger.filtered[k] → exec (.triggerPinChange k !level) s = .next { s with trigger := { s.trigger with
      pins := s.trigger.pins.set k !level, filters := s.trigger.filters.set k (some (s.now + 10)) } }) ∧
    ∀ src : Source,
      let target := fun c : Chain => ∃ e : Fin 8, (s.trigger.entries[e]).enabled = true ∧
        (s.trigger.entries[e]).source = src ∧ (s.trigger.entries[e]).target = c
      let t := deliver src s
      let drops := fun c : Chain => target c ∧ match c with
        | .normal => s.seq.pass.present = true ∧ s.seq.pass.startPending = true
        | .inj j => s.isPending j = true
      ((∀ c, ¬ target c) → t = s) ∧
      (s.configCheck = none → (∃ c, target c) → ∃ (q : Sequencer) (p : BitVec 8) (f : BitVec 9) (l : BitVec 12),
        t = arbitrate (schedule { s with
          seq := { q with pendingSet := p }
          trigger := { s.trigger with overrun := f }
          window := { s.window with latch := l } }) ∧
        (∀ j : Fin 8, p.getLsbD j.val = true ↔ s.isPending j = true ∨ target (.inj j)) ∧
        (∀ c : Chain, f.getLsbD c.overrunBit = true ↔ s.trigger.overrun.getLsbD c.overrunBit = true ∨ drops c) ∧
        ((∃ c, drops c) → l = s.window.latch ||| Event.mask .triggerOverrun) ∧
        ((∀ c, ¬ drops c) → l = s.window.latch) ∧
        (¬ target .normal → q = s.seq) ∧
        (target .normal → s.seq.pass.present = true →
          q = { s.seq with pass := { s.seq.pass with startPending := true } }) ∧
        (target .normal → s.seq.pass.present = false → q = { s.seq with
          pass := { s.seq.pass with
            present := true, number := s.seq.pass.number + 1#16
            run := { position := (s.nextExpected .normal 0).getD 0, mask := 0#64, done := 0, errors := 0,
                     chainAbort := false } }
          active := if s.seq.active = .none then .normal else s.seq.active
          top := if s.seq.top = .idle then .running else s.seq.top })) ∧
      (s.configCheck = none → ∀ c : Chain, t.trigger.overrun.getLsbD c.overrunBit = true ↔
        s.trigger.overrun.getLsbD c.overrunBit = true ∨ (target c ∧ match c with
          | .normal => s.seq.pass.present = true ∧ s.seq.pass.startPending = true
          | .inj j => s.isPending j = true))

/-! ## Reads with side effects -/

/-- POP and SNAPSHOT_CAPTURE: what each takes, what it leaves, and the word it returns. The pop that empties the hold
list ends QUEUE_WAIT. And what the words of the record view and of the snapshot view read as, for every record. -/
def Obligations.ReadsTakeSideEffects : Prop :=
  -- the five words of a record
  (∀ i, recordWord none i = 0#16) ∧
  (∀ r : ItemRecord,
    recordWord (some (.item r)) 0 =
      BitVec.ofNat 4 r.outcome.code ++ BitVec.ofNat 6 r.position ++ BitVec.ofNat 4 r.chain.code ++ 1#2 ∧
    recordWord (some (.item r)) 1 = BitVec.ofBool r.value.isSome ++ BitVec.ofNat 2 r.restarts ++
      BitVec.ofNat 7 (slotCode r.slot) ++ BitVec.ofNat 6 r.item ∧
    recordWord (some (.item r)) 2 = (r.value.getD 0#32).extractLsb' 16 16 ∧
    recordWord (some (.item r)) 3 = (r.value.getD 0#32).extractLsb' 0 16 ∧
    recordWord (some (.item r)) 4 = r.passNumber) ∧
  (∀ (n : BitVec 16) (k : Fin 8) (done errors : Nat) (aborted : Bool),
    let ends := BitVec.ofBool aborted ++ BitVec.ofNat 7 errors ++ 0#1 ++ BitVec.ofNat 7 done
    [0, 1, 2, 3, 4].map (recordWord (some (.passEnd n done errors aborted))) = [2#16, ends, 0#16, 0#16, n] ∧
    [0, 1, 2, 3, 4].map (recordWord (some (.injEnd k done errors aborted))) =
      [0#10 ++ BitVec.ofNat 4 (k.val + 1) ++ 3#2, ends, 0#16, 0#16, 0#16]) ∧
  (∀ s : State, s.resetHeld = false →
    (s.readWord 0x58#7 = some (recordWord s.results.view 0) ∧ s.readWord 0x59#7 = some (recordWord s.results.view 0) ∧
      s.readWord 0x5A#7 = some (recordWord s.results.view 1) ∧ s.readWord 0x5B#7 = some (recordWord s.results.view 2) ∧
      s.readWord 0x5C#7 = some (recordWord s.results.view 3) ∧ s.readWord 0x5D#7 = some (recordWord s.results.view 4)) ∧
    let c := s.results.snapshot.content
    (c.outcome ≠ some .aborted → s.readWord 0x51#7 = some (BitVec.ofNat 4 c.writer.code ++
      BitVec.ofNat 3 (outcomeCode c.outcome) ++ BitVec.ofBool c.overwritten ++ BitVec.ofNat 2 c.state.code ++
      BitVec.ofNat 6 s.results.snapshot.slot.val)) ∧
    s.readWord 0x52#7 = some (c.value.extractLsb' 16 16) ∧ s.readWord 0x53#7 = some (c.value.extractLsb' 0 16) ∧
    s.readWord 0x54#7 = some c.passNumber) ∧
  ∀ s : State, s.resetHeld = false → s.Inv →
    let k := s.results.resultSelect
    let d := s.results.slots[k]
    (s.results.queue = [] → exec .pop s = .next { s with
      results := { s.results with view := none }, window := { s.window with readValue := 0#16 } }) ∧
    (∀ r l, s.results.queue = r :: l →
      let word := recordWord (some r) 0
      (s.results.hold = [] → exec .pop s = .next { s with
        results := { s.results with view := some r, queue := l }, window := { s.window with readValue := word } }) ∧
      (∀ a b m, s.results.hold = a :: b :: m → exec .pop s = .next { s with
        results := { s.results with view := some r, queue := l ++ [a], hold := b :: m }
        window := { s.window with readValue := word } }) ∧
      (∀ a, s.results.hold = [a] → exec .pop s = .next
        (let u := arbitrate (schedule { s with
           results := { s.results with view := some r, queue := l ++ [a], hold := [] }
           seq := { s.seq with top := if s.seq.active = .none then .idle else .running } })
         { u with window := { u.window with readValue := word } }))) ∧
    ∃ w : Word, exec .snapshotCapture s = .next { s with
      results := { s.results with
        snapshot := { slot := k, content := d }
        slots := s.results.slots.set k
          (if d.state = .empty then d else { d with state := .seen, overwritten := false }) }
      window := { s.window with readValue := w } } ∧
      (d.outcome ≠ some .aborted → w = BitVec.ofNat 4 d.writer.code ++ BitVec.ofNat 3 (outcomeCode d.outcome) ++
        BitVec.ofBool d.overwritten ++ BitVec.ofNat 2 d.state.code ++ BitVec.ofNat 6 k.val)
end

