-- ==== Sys2Proof/Laws/State.lean ====
section
/-! SUPPORT. One lemma per block of the state for each small update: what the update leaves and what it puts in
place. Later proofs rewrite with these and never unfold a record update. -/

namespace Sys2Proof.Machine

variable (s : State)

/-! ## raise -/

@[simp] theorem raise_window (e : Event) :
    (raise e s).window = { s.window with latch := s.window.latch ||| e.mask } := rfl
@[simp] theorem raise_stations (e : Event) : (raise e s).stations = s.stations := rfl
@[simp] theorem raise_tables (e : Event) : (raise e s).tables = s.tables := rfl
@[simp] theorem raise_trigger (e : Event) : (raise e s).trigger = s.trigger := rfl
@[simp] theorem raise_seq (e : Event) : (raise e s).seq = s.seq := rfl
@[simp] theorem raise_arb (e : Event) : (raise e s).arb = s.arb := rfl
@[simp] theorem raise_direct (e : Event) : (raise e s).direct = s.direct := rfl
@[simp] theorem raise_link (e : Event) : (raise e s).link = s.link := rfl
@[simp] theorem raise_results (e : Event) : (raise e s).results = s.results := rfl
@[simp] theorem raise_resetHeld (e : Event) : (raise e s).resetHeld = s.resetHeld := rfl
@[simp] theorem raise_now (e : Event) : (raise e s).now = s.now := rfl
@[simp] theorem raise_pending (e : Event) : (raise e s).pending = s.pending := rfl
@[simp] theorem raise_port (e : Event) : (raise e s).port = s.port := rfl

/-! ## answer -/

@[simp] theorem answer_window (c : Byte) (a : Answer) (d : BitVec 4) :
    (answer c a d s).window = { s.window with commandCode := c, answer := a, detail := d } := rfl
@[simp] theorem answer_stations (c : Byte) (a : Answer) (d : BitVec 4) : (answer c a d s).stations = s.stations := rfl
@[simp] theorem answer_tables (c : Byte) (a : Answer) (d : BitVec 4) : (answer c a d s).tables = s.tables := rfl
@[simp] theorem answer_trigger (c : Byte) (a : Answer) (d : BitVec 4) : (answer c a d s).trigger = s.trigger := rfl
@[simp] theorem answer_seq (c : Byte) (a : Answer) (d : BitVec 4) : (answer c a d s).seq = s.seq := rfl
@[simp] theorem answer_arb (c : Byte) (a : Answer) (d : BitVec 4) : (answer c a d s).arb = s.arb := rfl
@[simp] theorem answer_direct (c : Byte) (a : Answer) (d : BitVec 4) : (answer c a d s).direct = s.direct := rfl
@[simp] theorem answer_link (c : Byte) (a : Answer) (d : BitVec 4) : (answer c a d s).link = s.link := rfl
@[simp] theorem answer_results (c : Byte) (a : Answer) (d : BitVec 4) : (answer c a d s).results = s.results := rfl
@[simp] theorem answer_resetHeld (c : Byte) (a : Answer) (d : BitVec 4) :
    (answer c a d s).resetHeld = s.resetHeld := rfl
@[simp] theorem answer_now (c : Byte) (a : Answer) (d : BitVec 4) : (answer c a d s).now = s.now := rfl
@[simp] theorem answer_pending (c : Byte) (a : Answer) (d : BitVec 4) : (answer c a d s).pending = s.pending := rfl
@[simp] theorem answer_port (c : Byte) (a : Answer) (d : BitVec 4) : (answer c a d s).port = s.port := rfl

/-! ## refuseWrite -/

@[simp] theorem refuseWrite_window (a : Address) (r : Answer) : (refuseWrite a r s).window = { s.window with
      refused := true, repeated := s.window.refused, reason := r, refusedAddress := a } := rfl
@[simp] theorem refuseWrite_stations (a : Address) (r : Answer) : (refuseWrite a r s).stations = s.stations := rfl
@[simp] theorem refuseWrite_tables (a : Address) (r : Answer) : (refuseWrite a r s).tables = s.tables := rfl
@[simp] theorem refuseWrite_trigger (a : Address) (r : Answer) : (refuseWrite a r s).trigger = s.trigger := rfl
@[simp] theorem refuseWrite_seq (a : Address) (r : Answer) : (refuseWrite a r s).seq = s.seq := rfl
@[simp] theorem refuseWrite_arb (a : Address) (r : Answer) : (refuseWrite a r s).arb = s.arb := rfl
@[simp] theorem refuseWrite_direct (a : Address) (r : Answer) : (refuseWrite a r s).direct = s.direct := rfl
@[simp] theorem refuseWrite_link (a : Address) (r : Answer) : (refuseWrite a r s).link = s.link := rfl
@[simp] theorem refuseWrite_results (a : Address) (r : Answer) : (refuseWrite a r s).results = s.results := rfl
@[simp] theorem refuseWrite_resetHeld (a : Address) (r : Answer) : (refuseWrite a r s).resetHeld = s.resetHeld := rfl
@[simp] theorem refuseWrite_now (a : Address) (r : Answer) : (refuseWrite a r s).now = s.now := rfl
@[simp] theorem refuseWrite_pending (a : Address) (r : Answer) : (refuseWrite a r s).pending = s.pending := rfl
@[simp] theorem refuseWrite_port (a : Address) (r : Answer) : (refuseWrite a r s).port = s.port := rfl

/-! ## returnWord -/

@[simp] theorem returnWord_window (a : Nat) :
    (returnWord a s).window = { s.window with readValue := s.wordAt a } := rfl
@[simp] theorem returnWord_stations (a : Nat) : (returnWord a s).stations = s.stations := rfl
@[simp] theorem returnWord_tables (a : Nat) : (returnWord a s).tables = s.tables := rfl
@[simp] theorem returnWord_trigger (a : Nat) : (returnWord a s).trigger = s.trigger := rfl
@[simp] theorem returnWord_seq (a : Nat) : (returnWord a s).seq = s.seq := rfl
@[simp] theorem returnWord_arb (a : Nat) : (returnWord a s).arb = s.arb := rfl
@[simp] theorem returnWord_direct (a : Nat) : (returnWord a s).direct = s.direct := rfl
@[simp] theorem returnWord_link (a : Nat) : (returnWord a s).link = s.link := rfl
@[simp] theorem returnWord_results (a : Nat) : (returnWord a s).results = s.results := rfl
@[simp] theorem returnWord_resetHeld (a : Nat) : (returnWord a s).resetHeld = s.resetHeld := rfl
@[simp] theorem returnWord_now (a : Nat) : (returnWord a s).now = s.now := rfl
@[simp] theorem returnWord_pending (a : Nat) : (returnWord a s).pending = s.pending := rfl
@[simp] theorem returnWord_port (a : Nat) : (returnWord a s).port = s.port := rfl

/-! ## setTop -/

@[simp] theorem setTop_window (t : Top) : (setTop t s).window = s.window := rfl
@[simp] theorem setTop_stations (t : Top) : (setTop t s).stations = s.stations := rfl
@[simp] theorem setTop_tables (t : Top) : (setTop t s).tables = s.tables := rfl
@[simp] theorem setTop_trigger (t : Top) : (setTop t s).trigger = s.trigger := rfl
@[simp] theorem setTop_seq (t : Top) : (setTop t s).seq = { s.seq with top := t } := rfl
@[simp] theorem setTop_arb (t : Top) : (setTop t s).arb = s.arb := rfl
@[simp] theorem setTop_direct (t : Top) : (setTop t s).direct = s.direct := rfl
@[simp] theorem setTop_link (t : Top) : (setTop t s).link = s.link := rfl
@[simp] theorem setTop_results (t : Top) : (setTop t s).results = s.results := rfl
@[simp] theorem setTop_resetHeld (t : Top) : (setTop t s).resetHeld = s.resetHeld := rfl
@[simp] theorem setTop_now (t : Top) : (setTop t s).now = s.now := rfl
@[simp] theorem setTop_pending (t : Top) : (setTop t s).pending = s.pending := rfl
@[simp] theorem setTop_port (t : Top) : (setTop t s).port = s.port := rfl

/-! ## setActive -/

@[simp] theorem setActive_window (c : Context) : (setActive c s).window = s.window := rfl
@[simp] theorem setActive_stations (c : Context) : (setActive c s).stations = s.stations := rfl
@[simp] theorem setActive_tables (c : Context) : (setActive c s).tables = s.tables := rfl
@[simp] theorem setActive_trigger (c : Context) : (setActive c s).trigger = s.trigger := rfl
@[simp] theorem setActive_seq (c : Context) : (setActive c s).seq = { s.seq with active := c } := rfl
@[simp] theorem setActive_arb (c : Context) : (setActive c s).arb = s.arb := rfl
@[simp] theorem setActive_direct (c : Context) : (setActive c s).direct = s.direct := rfl
@[simp] theorem setActive_link (c : Context) : (setActive c s).link = s.link := rfl
@[simp] theorem setActive_results (c : Context) : (setActive c s).results = s.results := rfl
@[simp] theorem setActive_resetHeld (c : Context) : (setActive c s).resetHeld = s.resetHeld := rfl
@[simp] theorem setActive_now (c : Context) : (setActive c s).now = s.now := rfl
@[simp] theorem setActive_pending (c : Context) : (setActive c s).pending = s.pending := rfl
@[simp] theorem setActive_port (c : Context) : (setActive c s).port = s.port := rfl

/-! ## setItem -/

@[simp] theorem setItem_window (i : Option ItemRun) : (setItem i s).window = s.window := rfl
@[simp] theorem setItem_stations (i : Option ItemRun) : (setItem i s).stations = s.stations := rfl
@[simp] theorem setItem_tables (i : Option ItemRun) : (setItem i s).tables = s.tables := rfl
@[simp] theorem setItem_trigger (i : Option ItemRun) : (setItem i s).trigger = s.trigger := rfl
@[simp] theorem setItem_seq (i : Option ItemRun) : (setItem i s).seq = { s.seq with item := i } := rfl
@[simp] theorem setItem_arb (i : Option ItemRun) : (setItem i s).arb = s.arb := rfl
@[simp] theorem setItem_direct (i : Option ItemRun) : (setItem i s).direct = s.direct := rfl
@[simp] theorem setItem_link (i : Option ItemRun) : (setItem i s).link = s.link := rfl
@[simp] theorem setItem_results (i : Option ItemRun) : (setItem i s).results = s.results := rfl
@[simp] theorem setItem_resetHeld (i : Option ItemRun) : (setItem i s).resetHeld = s.resetHeld := rfl
@[simp] theorem setItem_now (i : Option ItemRun) : (setItem i s).now = s.now := rfl
@[simp] theorem setItem_pending (i : Option ItemRun) : (setItem i s).pending = s.pending := rfl
@[simp] theorem setItem_port (i : Option ItemRun) : (setItem i s).port = s.port := rfl

/-! ## setSuspended -/

@[simp] theorem setSuspended_window (r : Option Suspension) : (setSuspended r s).window = s.window := rfl
@[simp] theorem setSuspended_stations (r : Option Suspension) : (setSuspended r s).stations = s.stations := rfl
@[simp] theorem setSuspended_tables (r : Option Suspension) : (setSuspended r s).tables = s.tables := rfl
@[simp] theorem setSuspended_trigger (r : Option Suspension) : (setSuspended r s).trigger = s.trigger := rfl
@[simp] theorem setSuspended_seq (r : Option Suspension) :
    (setSuspended r s).seq = { s.seq with suspended := r } := rfl
@[simp] theorem setSuspended_arb (r : Option Suspension) : (setSuspended r s).arb = s.arb := rfl
@[simp] theorem setSuspended_direct (r : Option Suspension) : (setSuspended r s).direct = s.direct := rfl
@[simp] theorem setSuspended_link (r : Option Suspension) : (setSuspended r s).link = s.link := rfl
@[simp] theorem setSuspended_results (r : Option Suspension) : (setSuspended r s).results = s.results := rfl
@[simp] theorem setSuspended_resetHeld (r : Option Suspension) : (setSuspended r s).resetHeld = s.resetHeld := rfl
@[simp] theorem setSuspended_now (r : Option Suspension) : (setSuspended r s).now = s.now := rfl
@[simp] theorem setSuspended_pending (r : Option Suspension) : (setSuspended r s).pending = s.pending := rfl
@[simp] theorem setSuspended_port (r : Option Suspension) : (setSuspended r s).port = s.port := rfl

/-! ## setPass -/

@[simp] theorem setPass_window (p : PassContext) : (setPass p s).window = s.window := rfl
@[simp] theorem setPass_stations (p : PassContext) : (setPass p s).stations = s.stations := rfl
@[simp] theorem setPass_tables (p : PassContext) : (setPass p s).tables = s.tables := rfl
@[simp] theorem setPass_trigger (p : PassContext) : (setPass p s).trigger = s.trigger := rfl
@[simp] theorem setPass_seq (p : PassContext) : (setPass p s).seq = { s.seq with pass := p } := rfl
@[simp] theorem setPass_arb (p : PassContext) : (setPass p s).arb = s.arb := rfl
@[simp] theorem setPass_direct (p : PassContext) : (setPass p s).direct = s.direct := rfl
@[simp] theorem setPass_link (p : PassContext) : (setPass p s).link = s.link := rfl
@[simp] theorem setPass_results (p : PassContext) : (setPass p s).results = s.results := rfl
@[simp] theorem setPass_resetHeld (p : PassContext) : (setPass p s).resetHeld = s.resetHeld := rfl
@[simp] theorem setPass_now (p : PassContext) : (setPass p s).now = s.now := rfl
@[simp] theorem setPass_pending (p : PassContext) : (setPass p s).pending = s.pending := rfl
@[simp] theorem setPass_port (p : PassContext) : (setPass p s).port = s.port := rfl

/-! ## setInjRun -/

@[simp] theorem setInjRun_window (r : Option RunContext) : (setInjRun r s).window = s.window := rfl
@[simp] theorem setInjRun_stations (r : Option RunContext) : (setInjRun r s).stations = s.stations := rfl
@[simp] theorem setInjRun_tables (r : Option RunContext) : (setInjRun r s).tables = s.tables := rfl
@[simp] theorem setInjRun_trigger (r : Option RunContext) : (setInjRun r s).trigger = s.trigger := rfl
@[simp] theorem setInjRun_seq (r : Option RunContext) : (setInjRun r s).seq = { s.seq with injRun := r } := rfl
@[simp] theorem setInjRun_arb (r : Option RunContext) : (setInjRun r s).arb = s.arb := rfl
@[simp] theorem setInjRun_direct (r : Option RunContext) : (setInjRun r s).direct = s.direct := rfl
@[simp] theorem setInjRun_link (r : Option RunContext) : (setInjRun r s).link = s.link := rfl
@[simp] theorem setInjRun_results (r : Option RunContext) : (setInjRun r s).results = s.results := rfl
@[simp] theorem setInjRun_resetHeld (r : Option RunContext) : (setInjRun r s).resetHeld = s.resetHeld := rfl
@[simp] theorem setInjRun_now (r : Option RunContext) : (setInjRun r s).now = s.now := rfl
@[simp] theorem setInjRun_pending (r : Option RunContext) : (setInjRun r s).pending = s.pending := rfl
@[simp] theorem setInjRun_port (r : Option RunContext) : (setInjRun r s).port = s.port := rfl

/-! ## joinPending -/

@[simp] theorem joinPending_window (k : Fin 8) : (joinPending k s).window = s.window := rfl
@[simp] theorem joinPending_stations (k : Fin 8) : (joinPending k s).stations = s.stations := rfl
@[simp] theorem joinPending_tables (k : Fin 8) : (joinPending k s).tables = s.tables := rfl
@[simp] theorem joinPending_trigger (k : Fin 8) : (joinPending k s).trigger = s.trigger := rfl
@[simp] theorem joinPending_seq (k : Fin 8) :
    (joinPending k s).seq = { s.seq with pendingSet := s.seq.pendingSet ||| (1#8 <<< k.val) } := rfl
@[simp] theorem joinPending_arb (k : Fin 8) : (joinPending k s).arb = s.arb := rfl
@[simp] theorem joinPending_direct (k : Fin 8) : (joinPending k s).direct = s.direct := rfl
@[simp] theorem joinPending_link (k : Fin 8) : (joinPending k s).link = s.link := rfl
@[simp] theorem joinPending_results (k : Fin 8) : (joinPending k s).results = s.results := rfl
@[simp] theorem joinPending_resetHeld (k : Fin 8) : (joinPending k s).resetHeld = s.resetHeld := rfl
@[simp] theorem joinPending_now (k : Fin 8) : (joinPending k s).now = s.now := rfl
@[simp] theorem joinPending_pending (k : Fin 8) : (joinPending k s).pending = s.pending := rfl
@[simp] theorem joinPending_port (k : Fin 8) : (joinPending k s).port = s.port := rfl

/-! ## setTenure -/

@[simp] theorem setTenure_window (b : Bool) : (setTenure b s).window = s.window := rfl
@[simp] theorem setTenure_stations (b : Bool) : (setTenure b s).stations = s.stations := rfl
@[simp] theorem setTenure_tables (b : Bool) : (setTenure b s).tables = s.tables := rfl
@[simp] theorem setTenure_trigger (b : Bool) : (setTenure b s).trigger = s.trigger := rfl
@[simp] theorem setTenure_seq (b : Bool) : (setTenure b s).seq = s.seq := rfl
@[simp] theorem setTenure_arb (b : Bool) : (setTenure b s).arb = { s.arb with tenure := b } := rfl
@[simp] theorem setTenure_direct (b : Bool) : (setTenure b s).direct = s.direct := rfl
@[simp] theorem setTenure_link (b : Bool) : (setTenure b s).link = s.link := rfl
@[simp] theorem setTenure_results (b : Bool) : (setTenure b s).results = s.results := rfl
@[simp] theorem setTenure_resetHeld (b : Bool) : (setTenure b s).resetHeld = s.resetHeld := rfl
@[simp] theorem setTenure_now (b : Bool) : (setTenure b s).now = s.now := rfl
@[simp] theorem setTenure_pending (b : Bool) : (setTenure b s).pending = s.pending := rfl
@[simp] theorem setTenure_port (b : Bool) : (setTenure b s).port = s.port := rfl

/-! ## setLock -/

@[simp] theorem setLock_window (k : Lock) : (setLock k s).window = s.window := rfl
@[simp] theorem setLock_stations (k : Lock) : (setLock k s).stations = s.stations := rfl
@[simp] theorem setLock_tables (k : Lock) : (setLock k s).tables = s.tables := rfl
@[simp] theorem setLock_trigger (k : Lock) : (setLock k s).trigger = s.trigger := rfl
@[simp] theorem setLock_seq (k : Lock) : (setLock k s).seq = s.seq := rfl
@[simp] theorem setLock_arb (k : Lock) : (setLock k s).arb = { s.arb with lock := k } := rfl
@[simp] theorem setLock_direct (k : Lock) : (setLock k s).direct = s.direct := rfl
@[simp] theorem setLock_link (k : Lock) : (setLock k s).link = s.link := rfl
@[simp] theorem setLock_results (k : Lock) : (setLock k s).results = s.results := rfl
@[simp] theorem setLock_resetHeld (k : Lock) : (setLock k s).resetHeld = s.resetHeld := rfl
@[simp] theorem setLock_now (k : Lock) : (setLock k s).now = s.now := rfl
@[simp] theorem setLock_pending (k : Lock) : (setLock k s).pending = s.pending := rfl
@[simp] theorem setLock_port (k : Lock) : (setLock k s).port = s.port := rfl

/-! ## setSlot -/

@[simp] theorem setSlot_window (t : Fin 4) (d : DirectSlot) : (setSlot t d s).window = s.window := rfl
@[simp] theorem setSlot_stations (t : Fin 4) (d : DirectSlot) : (setSlot t d s).stations = s.stations := rfl
@[simp] theorem setSlot_tables (t : Fin 4) (d : DirectSlot) : (setSlot t d s).tables = s.tables := rfl
@[simp] theorem setSlot_trigger (t : Fin 4) (d : DirectSlot) : (setSlot t d s).trigger = s.trigger := rfl
@[simp] theorem setSlot_seq (t : Fin 4) (d : DirectSlot) : (setSlot t d s).seq = s.seq := rfl
@[simp] theorem setSlot_arb (t : Fin 4) (d : DirectSlot) : (setSlot t d s).arb = s.arb := rfl
@[simp] theorem setSlot_direct (t : Fin 4) (d : DirectSlot) :
    (setSlot t d s).direct = { s.direct with slots := s.direct.slots.set t d } := rfl
@[simp] theorem setSlot_link (t : Fin 4) (d : DirectSlot) : (setSlot t d s).link = s.link := rfl
@[simp] theorem setSlot_results (t : Fin 4) (d : DirectSlot) : (setSlot t d s).results = s.results := rfl
@[simp] theorem setSlot_resetHeld (t : Fin 4) (d : DirectSlot) : (setSlot t d s).resetHeld = s.resetHeld := rfl
@[simp] theorem setSlot_now (t : Fin 4) (d : DirectSlot) : (setSlot t d s).now = s.now := rfl
@[simp] theorem setSlot_pending (t : Fin 4) (d : DirectSlot) : (setSlot t d s).pending = s.pending := rfl
@[simp] theorem setSlot_port (t : Fin 4) (d : DirectSlot) : (setSlot t d s).port = s.port := rfl

/-! ## setOrder -/

@[simp] theorem setOrder_window (l : List (Fin 4)) : (setOrder l s).window = s.window := rfl
@[simp] theorem setOrder_stations (l : List (Fin 4)) : (setOrder l s).stations = s.stations := rfl
@[simp] theorem setOrder_tables (l : List (Fin 4)) : (setOrder l s).tables = s.tables := rfl
@[simp] theorem setOrder_trigger (l : List (Fin 4)) : (setOrder l s).trigger = s.trigger := rfl
@[simp] theorem setOrder_seq (l : List (Fin 4)) : (setOrder l s).seq = s.seq := rfl
@[simp] theorem setOrder_arb (l : List (Fin 4)) : (setOrder l s).arb = s.arb := rfl
@[simp] theorem setOrder_direct (l : List (Fin 4)) : (setOrder l s).direct = { s.direct with order := l } := rfl
@[simp] theorem setOrder_link (l : List (Fin 4)) : (setOrder l s).link = s.link := rfl
@[simp] theorem setOrder_results (l : List (Fin 4)) : (setOrder l s).results = s.results := rfl
@[simp] theorem setOrder_resetHeld (l : List (Fin 4)) : (setOrder l s).resetHeld = s.resetHeld := rfl
@[simp] theorem setOrder_now (l : List (Fin 4)) : (setOrder l s).now = s.now := rfl
@[simp] theorem setOrder_pending (l : List (Fin 4)) : (setOrder l s).pending = s.pending := rfl
@[simp] theorem setOrder_port (l : List (Fin 4)) : (setOrder l s).port = s.port := rfl

/-! ## setFailures -/

@[simp] theorem setFailures_window (e : Fin 16) (n : BitVec 4) : (setFailures e n s).window = s.window := rfl
@[simp] theorem setFailures_stations (e : Fin 16) (n : BitVec 4) :
    (setFailures e n s).stations = { s.stations with failures := s.stations.failures.set e n } := rfl
@[simp] theorem setFailures_tables (e : Fin 16) (n : BitVec 4) : (setFailures e n s).tables = s.tables := rfl
@[simp] theorem setFailures_trigger (e : Fin 16) (n : BitVec 4) : (setFailures e n s).trigger = s.trigger := rfl
@[simp] theorem setFailures_seq (e : Fin 16) (n : BitVec 4) : (setFailures e n s).seq = s.seq := rfl
@[simp] theorem setFailures_arb (e : Fin 16) (n : BitVec 4) : (setFailures e n s).arb = s.arb := rfl
@[simp] theorem setFailures_direct (e : Fin 16) (n : BitVec 4) : (setFailures e n s).direct = s.direct := rfl
@[simp] theorem setFailures_link (e : Fin 16) (n : BitVec 4) : (setFailures e n s).link = s.link := rfl
@[simp] theorem setFailures_results (e : Fin 16) (n : BitVec 4) : (setFailures e n s).results = s.results := rfl
@[simp] theorem setFailures_resetHeld (e : Fin 16) (n : BitVec 4) : (setFailures e n s).resetHeld = s.resetHeld := rfl
@[simp] theorem setFailures_now (e : Fin 16) (n : BitVec 4) : (setFailures e n s).now = s.now := rfl
@[simp] theorem setFailures_pending (e : Fin 16) (n : BitVec 4) : (setFailures e n s).pending = s.pending := rfl
@[simp] theorem setFailures_port (e : Fin 16) (n : BitVec 4) : (setFailures e n s).port = s.port := rfl

/-! ## setCheck -/

@[simp] theorem setCheck_window (d : CheckDetail) : (setCheck d s).window = s.window := rfl
@[simp] theorem setCheck_stations (d : CheckDetail) : (setCheck d s).stations = s.stations := rfl
@[simp] theorem setCheck_tables (d : CheckDetail) : (setCheck d s).tables = { s.tables with check := d } := rfl
@[simp] theorem setCheck_trigger (d : CheckDetail) : (setCheck d s).trigger = s.trigger := rfl
@[simp] theorem setCheck_seq (d : CheckDetail) : (setCheck d s).seq = s.seq := rfl
@[simp] theorem setCheck_arb (d : CheckDetail) : (setCheck d s).arb = s.arb := rfl
@[simp] theorem setCheck_direct (d : CheckDetail) : (setCheck d s).direct = s.direct := rfl
@[simp] theorem setCheck_link (d : CheckDetail) : (setCheck d s).link = s.link := rfl
@[simp] theorem setCheck_results (d : CheckDetail) : (setCheck d s).results = s.results := rfl
@[simp] theorem setCheck_resetHeld (d : CheckDetail) : (setCheck d s).resetHeld = s.resetHeld := rfl
@[simp] theorem setCheck_now (d : CheckDetail) : (setCheck d s).now = s.now := rfl
@[simp] theorem setCheck_pending (d : CheckDetail) : (setCheck d s).pending = s.pending := rfl
@[simp] theorem setCheck_port (d : CheckDetail) : (setCheck d s).port = s.port := rfl

/-! ## setRun -/

@[simp] theorem setRun_window (k : Fin 4) (r : TimerRun) : (setRun k r s).window = s.window := rfl
@[simp] theorem setRun_stations (k : Fin 4) (r : TimerRun) : (setRun k r s).stations = s.stations := rfl
@[simp] theorem setRun_tables (k : Fin 4) (r : TimerRun) : (setRun k r s).tables = s.tables := rfl
@[simp] theorem setRun_trigger (k : Fin 4) (r : TimerRun) :
    (setRun k r s).trigger = { s.trigger with runs := s.trigger.runs.set k r } := rfl
@[simp] theorem setRun_seq (k : Fin 4) (r : TimerRun) : (setRun k r s).seq = s.seq := rfl
@[simp] theorem setRun_arb (k : Fin 4) (r : TimerRun) : (setRun k r s).arb = s.arb := rfl
@[simp] theorem setRun_direct (k : Fin 4) (r : TimerRun) : (setRun k r s).direct = s.direct := rfl
@[simp] theorem setRun_link (k : Fin 4) (r : TimerRun) : (setRun k r s).link = s.link := rfl
@[simp] theorem setRun_results (k : Fin 4) (r : TimerRun) : (setRun k r s).results = s.results := rfl
@[simp] theorem setRun_resetHeld (k : Fin 4) (r : TimerRun) : (setRun k r s).resetHeld = s.resetHeld := rfl
@[simp] theorem setRun_now (k : Fin 4) (r : TimerRun) : (setRun k r s).now = s.now := rfl
@[simp] theorem setRun_pending (k : Fin 4) (r : TimerRun) : (setRun k r s).pending = s.pending := rfl
@[simp] theorem setRun_port (k : Fin 4) (r : TimerRun) : (setRun k r s).port = s.port := rfl

/-! ## stopTimers -/

@[simp] theorem stopTimers_window : (stopTimers s).window = s.window := rfl
@[simp] theorem stopTimers_stations : (stopTimers s).stations = s.stations := rfl
@[simp] theorem stopTimers_tables : (stopTimers s).tables = s.tables := rfl
@[simp] theorem stopTimers_trigger :
    (stopTimers s).trigger = { s.trigger with runs := Vector.replicate 4 .stopped } := rfl
@[simp] theorem stopTimers_seq : (stopTimers s).seq = s.seq := rfl
@[simp] theorem stopTimers_arb : (stopTimers s).arb = s.arb := rfl
@[simp] theorem stopTimers_direct : (stopTimers s).direct = s.direct := rfl
@[simp] theorem stopTimers_link : (stopTimers s).link = s.link := rfl
@[simp] theorem stopTimers_results : (stopTimers s).results = s.results := rfl
@[simp] theorem stopTimers_resetHeld : (stopTimers s).resetHeld = s.resetHeld := rfl
@[simp] theorem stopTimers_now : (stopTimers s).now = s.now := rfl
@[simp] theorem stopTimers_pending : (stopTimers s).pending = s.pending := rfl
@[simp] theorem stopTimers_port : (stopTimers s).port = s.port := rfl

/-! ## setTriggerEntry -/

@[simp] theorem setTriggerEntry_window (e : TriggerEntry) : (setTriggerEntry e s).window = s.window := rfl
@[simp] theorem setTriggerEntry_stations (e : TriggerEntry) : (setTriggerEntry e s).stations = s.stations := rfl
@[simp] theorem setTriggerEntry_tables (e : TriggerEntry) : (setTriggerEntry e s).tables = s.tables := rfl
@[simp] theorem setTriggerEntry_trigger (e : TriggerEntry) :
    (setTriggerEntry e s).trigger = { s.trigger with entries := s.trigger.entries.set s.trigger.triggerSelect e } := rfl
@[simp] theorem setTriggerEntry_seq (e : TriggerEntry) : (setTriggerEntry e s).seq = s.seq := rfl
@[simp] theorem setTriggerEntry_arb (e : TriggerEntry) : (setTriggerEntry e s).arb = s.arb := rfl
@[simp] theorem setTriggerEntry_direct (e : TriggerEntry) : (setTriggerEntry e s).direct = s.direct := rfl
@[simp] theorem setTriggerEntry_link (e : TriggerEntry) : (setTriggerEntry e s).link = s.link := rfl
@[simp] theorem setTriggerEntry_results (e : TriggerEntry) : (setTriggerEntry e s).results = s.results := rfl
@[simp] theorem setTriggerEntry_resetHeld (e : TriggerEntry) : (setTriggerEntry e s).resetHeld = s.resetHeld := rfl
@[simp] theorem setTriggerEntry_now (e : TriggerEntry) : (setTriggerEntry e s).now = s.now := rfl
@[simp] theorem setTriggerEntry_pending (e : TriggerEntry) : (setTriggerEntry e s).pending = s.pending := rfl
@[simp] theorem setTriggerEntry_port (e : TriggerEntry) : (setTriggerEntry e s).port = s.port := rfl

/-! ## clearDrops -/

@[simp] theorem clearDrops_window (v : Word) : (clearDrops v s).window = s.window := rfl
@[simp] theorem clearDrops_stations (v : Word) : (clearDrops v s).stations = s.stations := rfl
@[simp] theorem clearDrops_tables (v : Word) : (clearDrops v s).tables = s.tables := rfl
@[simp] theorem clearDrops_trigger (v : Word) : (clearDrops v s).trigger = s.trigger := rfl
@[simp] theorem clearDrops_seq (v : Word) : (clearDrops v s).seq = s.seq := rfl
@[simp] theorem clearDrops_arb (v : Word) : (clearDrops v s).arb = s.arb := rfl
@[simp] theorem clearDrops_direct (v : Word) : (clearDrops v s).direct = s.direct := rfl
@[simp] theorem clearDrops_link (v : Word) : (clearDrops v s).link = s.link := rfl
@[simp] theorem clearDrops_results (v : Word) : (clearDrops v s).results = { s.results with drops := 0#16 } := rfl
@[simp] theorem clearDrops_resetHeld (v : Word) : (clearDrops v s).resetHeld = s.resetHeld := rfl
@[simp] theorem clearDrops_now (v : Word) : (clearDrops v s).now = s.now := rfl
@[simp] theorem clearDrops_pending (v : Word) : (clearDrops v s).pending = s.pending := rfl
@[simp] theorem clearDrops_port (v : Word) : (clearDrops v s).port = s.port := rfl

/-! ## engineIdle -/

@[simp] theorem engineIdle_window : (engineIdle s).window = s.window := rfl
@[simp] theorem engineIdle_stations : (engineIdle s).stations = s.stations := rfl
@[simp] theorem engineIdle_tables : (engineIdle s).tables = s.tables := rfl
@[simp] theorem engineIdle_trigger : (engineIdle s).trigger = s.trigger := rfl
@[simp] theorem engineIdle_seq : (engineIdle s).seq = s.seq := rfl
@[simp] theorem engineIdle_arb : (engineIdle s).arb = s.arb := rfl
@[simp] theorem engineIdle_direct : (engineIdle s).direct = s.direct := rfl
@[simp] theorem engineIdle_link :
    (engineIdle s).link = { s.link with phase := .idle, txn := none, timer := none, rx := [], endWatch := false } := rfl
@[simp] theorem engineIdle_results : (engineIdle s).results = s.results := rfl
@[simp] theorem engineIdle_resetHeld : (engineIdle s).resetHeld = s.resetHeld := rfl
@[simp] theorem engineIdle_now : (engineIdle s).now = s.now := rfl
@[simp] theorem engineIdle_pending : (engineIdle s).pending = s.pending := rfl
@[simp] theorem engineIdle_port : (engineIdle s).port = s.port := rfl

/-! ## startAttempt -/

@[simp] theorem startAttempt_window (t : Transaction) : (startAttempt t s).window = s.window := rfl
@[simp] theorem startAttempt_stations (t : Transaction) : (startAttempt t s).stations = s.stations := rfl
@[simp] theorem startAttempt_tables (t : Transaction) : (startAttempt t s).tables = s.tables := rfl
@[simp] theorem startAttempt_trigger (t : Transaction) : (startAttempt t s).trigger = s.trigger := rfl
@[simp] theorem startAttempt_seq (t : Transaction) : (startAttempt t s).seq = s.seq := rfl
@[simp] theorem startAttempt_arb (t : Transaction) : (startAttempt t s).arb = s.arb := rfl
@[simp] theorem startAttempt_direct (t : Transaction) : (startAttempt t s).direct = s.direct := rfl
@[simp] theorem startAttempt_link (t : Transaction) : (startAttempt t s).link = { s.link with
      phase := .sending, txn := some t, timer := some (s.afterBytes t.rate t.frame.length),
      rx := [], endWatch := false } := rfl
@[simp] theorem startAttempt_results (t : Transaction) : (startAttempt t s).results = s.results := rfl
@[simp] theorem startAttempt_resetHeld (t : Transaction) : (startAttempt t s).resetHeld = s.resetHeld := rfl
@[simp] theorem startAttempt_now (t : Transaction) : (startAttempt t s).now = s.now := rfl
@[simp] theorem startAttempt_pending (t : Transaction) : (startAttempt t s).pending = s.pending := rfl
@[simp] theorem startAttempt_port (t : Transaction) : (startAttempt t s).port = s.port := rfl

/-! ## enterSettle -/

@[simp] theorem enterSettle_window (t : Transaction) : (enterSettle t s).window = s.window := rfl
@[simp] theorem enterSettle_stations (t : Transaction) : (enterSettle t s).stations = s.stations := rfl
@[simp] theorem enterSettle_tables (t : Transaction) : (enterSettle t s).tables = s.tables := rfl
@[simp] theorem enterSettle_trigger (t : Transaction) : (enterSettle t s).trigger = s.trigger := rfl
@[simp] theorem enterSettle_seq (t : Transaction) : (enterSettle t s).seq = s.seq := rfl
@[simp] theorem enterSettle_arb (t : Transaction) : (enterSettle t s).arb = s.arb := rfl
@[simp] theorem enterSettle_direct (t : Transaction) : (enterSettle t s).direct = s.direct := rfl
@[simp] theorem enterSettle_link (t : Transaction) : (enterSettle t s).link = { s.link with
      phase := .settle, timer := some (s.afterBytes t.rate 4), rx := [], endWatch := false } := rfl
@[simp] theorem enterSettle_results (t : Transaction) : (enterSettle t s).results = s.results := rfl
@[simp] theorem enterSettle_resetHeld (t : Transaction) : (enterSettle t s).resetHeld = s.resetHeld := rfl
@[simp] theorem enterSettle_now (t : Transaction) : (enterSettle t s).now = s.now := rfl
@[simp] theorem enterSettle_pending (t : Transaction) : (enterSettle t s).pending = s.pending := rfl
@[simp] theorem enterSettle_port (t : Transaction) : (enterSettle t s).port = s.port := rfl

/-! ## enterBackoff -/

@[simp] theorem enterBackoff_window (t : Transaction) : (enterBackoff t s).window = s.window := rfl
@[simp] theorem enterBackoff_stations (t : Transaction) : (enterBackoff t s).stations = s.stations := rfl
@[simp] theorem enterBackoff_tables (t : Transaction) : (enterBackoff t s).tables = s.tables := rfl
@[simp] theorem enterBackoff_trigger (t : Transaction) : (enterBackoff t s).trigger = s.trigger := rfl
@[simp] theorem enterBackoff_seq (t : Transaction) : (enterBackoff t s).seq = s.seq := rfl
@[simp] theorem enterBackoff_arb (t : Transaction) : (enterBackoff t s).arb = s.arb := rfl
@[simp] theorem enterBackoff_direct (t : Transaction) : (enterBackoff t s).direct = s.direct := rfl
@[simp] theorem enterBackoff_link (t : Transaction) : (enterBackoff t s).link = { s.link with
      phase := .backoff, timer := some (s.after t.params.backoff.toNat), rx := [], endWatch := false } := rfl
@[simp] theorem enterBackoff_results (t : Transaction) : (enterBackoff t s).results = s.results := rfl
@[simp] theorem enterBackoff_resetHeld (t : Transaction) : (enterBackoff t s).resetHeld = s.resetHeld := rfl
@[simp] theorem enterBackoff_now (t : Transaction) : (enterBackoff t s).now = s.now := rfl
@[simp] theorem enterBackoff_pending (t : Transaction) : (enterBackoff t s).pending = s.pending := rfl
@[simp] theorem enterBackoff_port (t : Transaction) : (enterBackoff t s).port = s.port := rfl

/-! ## orphanTransaction -/

@[simp] theorem orphanTransaction_window : (orphanTransaction s).window = s.window := rfl
@[simp] theorem orphanTransaction_stations : (orphanTransaction s).stations = s.stations := rfl
@[simp] theorem orphanTransaction_tables : (orphanTransaction s).tables = s.tables := rfl
@[simp] theorem orphanTransaction_trigger : (orphanTransaction s).trigger = s.trigger := rfl
@[simp] theorem orphanTransaction_seq : (orphanTransaction s).seq = s.seq := rfl
@[simp] theorem orphanTransaction_arb : (orphanTransaction s).arb = s.arb := rfl
@[simp] theorem orphanTransaction_direct : (orphanTransaction s).direct = s.direct := rfl
@[simp] theorem orphanTransaction_link :
    (orphanTransaction s).link = { s.link with txn := s.link.txn.map fun t => { t with orphan := true } } := rfl
@[simp] theorem orphanTransaction_results : (orphanTransaction s).results = s.results := rfl
@[simp] theorem orphanTransaction_resetHeld : (orphanTransaction s).resetHeld = s.resetHeld := rfl
@[simp] theorem orphanTransaction_now : (orphanTransaction s).now = s.now := rfl
@[simp] theorem orphanTransaction_pending : (orphanTransaction s).pending = s.pending := rfl
@[simp] theorem orphanTransaction_port : (orphanTransaction s).port = s.port := rfl

/-! ## tick -/

@[simp] theorem tick_window : (tick s).window = s.window := rfl
@[simp] theorem tick_stations : (tick s).stations = s.stations := rfl
@[simp] theorem tick_tables : (tick s).tables = s.tables := rfl
@[simp] theorem tick_trigger : (tick s).trigger = s.trigger := rfl
@[simp] theorem tick_seq : (tick s).seq = s.seq := rfl
@[simp] theorem tick_arb : (tick s).arb = s.arb := rfl
@[simp] theorem tick_direct : (tick s).direct = s.direct := rfl
@[simp] theorem tick_link : (tick s).link = s.link := rfl
@[simp] theorem tick_results : (tick s).results = s.results := rfl
@[simp] theorem tick_resetHeld : (tick s).resetHeld = s.resetHeld := rfl
@[simp] theorem tick_now : (tick s).now = s.now + 1 := rfl
@[simp] theorem tick_pending : (tick s).pending = s.pending := rfl
@[simp] theorem tick_port : (tick s).port = s.port := rfl

end Sys2Proof.Machine
end

