-- ==== Sys2Proof/Laws/Frame.lean ====
section
/-! SUPPORT. What the shared operations leave alone. SeqFrame: the Sequencer's operations (chapters 4, 5 and 8)
reach the Sequencer, the Result Store's lists, slots and masks, the event latch, tenure and the pass-boundary grant
flag. Frame: the arbiter's and the engine's operations also reach the link and the direct slots. Station health moves
at the end of a transaction alone (noticeHealth). -/

namespace Sys2Proof.Machine

/-- What an operation of the Sequencer leaves as it was. -/
structure SeqFrame (s t : State) : Prop where
  window : t.window = { s.window with latch := t.window.latch }
  stations : t.stations = s.stations
  tables : t.tables = s.tables
  trigger : t.trigger = s.trigger
  arb : t.arb = { s.arb with tenure := t.arb.tenure, boundaryGrant := t.arb.boundaryGrant }
  direct : t.direct = s.direct
  link : t.link = s.link
  results : t.results = { s.results with
    slots := t.results.slots, queue := t.results.queue, hold := t.results.hold, drops := t.results.drops,
    normalMask := t.results.normalMask, injMasks := t.results.injMasks }
  resetHeld : t.resetHeld = s.resetHeld
  now : t.now = s.now
  pending : t.pending = s.pending
  port : t.port = s.port
  /-- Slots whose overwritten flag is set are FRESH, if they were (R162). -/
  slotsOk : s.SlotsOk → t.SlotsOk

/-- What an operation of the arbiter or the engine leaves as it was. -/
structure Frame (s t : State) : Prop where
  window : t.window = { s.window with latch := t.window.latch }
  stations : t.stations = s.stations
  tables : t.tables = s.tables
  trigger : t.trigger = { s.trigger with overrun := t.trigger.overrun }
  mode : t.arb.mode = s.arb.mode
  windowLength : t.arb.windowLength = s.arb.windowLength
  direct : t.direct = { s.direct with slots := t.direct.slots, order := t.direct.order }
  rate : t.link.rate = s.link.rate
  results : t.results = { s.results with
    slots := t.results.slots, queue := t.results.queue, hold := t.results.hold, drops := t.results.drops,
    normalMask := t.results.normalMask, injMasks := t.results.injMasks }
  resetHeld : t.resetHeld = s.resetHeld
  now : t.now = s.now
  pending : t.pending = s.pending
  port : t.port = s.port
  slotsOk : s.SlotsOk → t.SlotsOk

variable {s t u : State}

theorem SeqFrame.refl (s : State) : SeqFrame s s := by constructor <;> first | rfl | exact id

theorem SeqFrame.trans (h : SeqFrame s t) (g : SeqFrame t u) : SeqFrame s u where
  window := g.window.trans (by rw [h.window])
  stations := g.stations.trans h.stations
  tables := g.tables.trans h.tables
  trigger := g.trigger.trans h.trigger
  arb := g.arb.trans (by rw [h.arb])
  direct := g.direct.trans h.direct
  link := g.link.trans h.link
  results := g.results.trans (by rw [h.results])
  resetHeld := g.resetHeld.trans h.resetHeld
  now := g.now.trans h.now
  pending := g.pending.trans h.pending
  port := g.port.trans h.port
  slotsOk := g.slotsOk ∘ h.slotsOk

theorem Frame.refl (s : State) : Frame s s := by constructor <;> first | rfl | exact id

theorem Frame.trans (h : Frame s t) (g : Frame t u) : Frame s u where
  window := g.window.trans (by rw [h.window])
  stations := g.stations.trans h.stations
  tables := g.tables.trans h.tables
  trigger := g.trigger.trans (by rw [h.trigger])
  mode := g.mode.trans h.mode
  windowLength := g.windowLength.trans h.windowLength
  direct := g.direct.trans (by rw [h.direct])
  rate := g.rate.trans h.rate
  results := g.results.trans (by rw [h.results])
  resetHeld := g.resetHeld.trans h.resetHeld
  now := g.now.trans h.now
  pending := g.pending.trans h.pending
  port := g.port.trans h.port
  slotsOk := g.slotsOk ∘ h.slotsOk

theorem SeqFrame.frame (h : SeqFrame s t) : Frame s t where
  window := h.window
  stations := h.stations
  tables := h.tables
  trigger := by rw [h.trigger]
  mode := by rw [h.arb]
  windowLength := by rw [h.arb]
  direct := by rw [h.direct]
  rate := by rw [h.link]
  results := h.results
  resetHeld := h.resetHeld
  now := h.now
  pending := h.pending
  port := h.port
  slotsOk := h.slotsOk

/-! ## The small updates -/

theorem raise_seqFrame (e : Event) (s : State) : SeqFrame s (raise e s) := by constructor <;> first | rfl | exact id
theorem setTop_seqFrame (x : Top) (s : State) : SeqFrame s (setTop x s) := by constructor <;> first | rfl | exact id
theorem setActive_seqFrame (c : Context) (s : State) : SeqFrame s (setActive c s) := by constructor <;> first | rfl | exact id
theorem setItem_seqFrame (i : Option ItemRun) (s : State) : SeqFrame s (setItem i s) := by constructor <;> first | rfl | exact id
theorem setSuspended_seqFrame (r : Option Suspension) (s : State) : SeqFrame s (setSuspended r s) := by
  constructor <;> first | rfl | exact id
theorem setPass_seqFrame (p : PassContext) (s : State) : SeqFrame s (setPass p s) := by constructor <;> first | rfl | exact id
theorem setInjRun_seqFrame (r : Option RunContext) (s : State) : SeqFrame s (setInjRun r s) := by
  constructor <;> first | rfl | exact id
theorem setTenure_seqFrame (b : Bool) (s : State) : SeqFrame s (setTenure b s) := by constructor <;> first | rfl | exact id
theorem joinPending_seqFrame (k : Fin 8) (s : State) : SeqFrame s (joinPending k s) := by constructor <;> first | rfl | exact id

theorem dropStart_frame (c : Chain) (s : State) : Frame s (dropStart c s) := by constructor <;> first | rfl | exact id
theorem setLock_frame (k : Lock) (s : State) : Frame s (setLock k s) := by constructor <;> first | rfl | exact id
theorem setSlot_frame (t : Fin 4) (d : DirectSlot) (s : State) : Frame s (setSlot t d s) := by constructor <;> first | rfl | exact id
theorem setOrder_frame (l : List (Fin 4)) (s : State) : Frame s (setOrder l s) := by constructor <;> first | rfl | exact id
theorem engineIdle_frame (s : State) : Frame s (engineIdle s) := by constructor <;> first | rfl | exact id
theorem startAttempt_frame (t : Transaction) (s : State) : Frame s (startAttempt t s) := by constructor <;> first | rfl | exact id
theorem enterSettle_frame (t : Transaction) (s : State) : Frame s (enterSettle t s) := by constructor <;> first | rfl | exact id
theorem enterBackoff_frame (t : Transaction) (s : State) : Frame s (enterBackoff t s) := by constructor <;> first | rfl | exact id
theorem orphanTransaction_frame (s : State) : Frame s (orphanTransaction s) := by constructor <;> first | rfl | exact id

/-! ## The Result Store -/

theorem writeSlot_seqFrame (c : Completion) (s : State) : SeqFrame s (writeSlot c s) := by
  unfold writeSlot
  split
  · exact .refl s
  · split
    · exact .refl s
    · constructor <;> try rfl
      intro h j
      simp only [Fin.getElem_fin, Vector.getElem_set]
      split
      · intro _; rfl
      · exact h j

theorem enqueue_seqFrame (r : Record) (s : State) : SeqFrame s (enqueue r s) := by
  unfold enqueue
  dsimp only
  split <;> constructor <;> first | rfl | exact id

theorem discard_seqFrame (s : State) : SeqFrame s (discard s) := by constructor <;> first | rfl | exact id

theorem holdRecord_seqFrame (r : Record) (s : State) : SeqFrame s (holdRecord r s) := by
  unfold holdRecord
  dsimp only
  split <;> constructor <;> first | rfl | exact id

theorem offer_seqFrame (r : Record) (s : State) : SeqFrame s (offer r s) := by
  unfold offer
  split
  · exact enqueue_seqFrame r s
  · split
    · exact discard_seqFrame s
    · exact holdRecord_seqFrame r s

theorem postRecord_seqFrame (s : State) (r : Record) : SeqFrame s (postRecord s r) := by
  unfold postRecord
  split
  · exact enqueue_seqFrame r s
  · exact discard_seqFrame s

theorem postHoldList_seqFrame (s : State) : SeqFrame s (postHoldList s) := by
  have fold : ∀ (l : List Record) (x : State), SeqFrame s x → SeqFrame s (l.foldl postRecord x) := by
    intro l
    induction l with
    | nil => exact fun _ h => h
    | cons r l ih => exact fun x h => ih _ (h.trans (postRecord_seqFrame x r))
  exact fold _ _ (by constructor <;> first | rfl | exact id)

theorem takeCompletion_seqFrame (c : Completion) (s : State) : SeqFrame s (takeCompletion c s) := by
  unfold takeCompletion
  dsimp only
  have h1 := writeSlot_seqFrame c s
  have h2 : SeqFrame s (if c.outcome.isFailure then raise .itemError (writeSlot c s) else writeSlot c s) := by
    split
    · exact h1.trans (raise_seqFrame _ _)
    · exact h1
  generalize (if c.outcome.isFailure then raise .itemError (writeSlot c s) else writeSlot c s) = x at h2
  split
  · exact h2.trans (offer_seqFrame _ _)
  · exact h2

theorem copyMask_seqFrame (c : Chain) (m : BitVec 64) (s : State) : SeqFrame s (copyMask c m s) := by
  unfold copyMask
  split <;> constructor <;> first | rfl | exact id

/-! ## The Sequencer -/

theorem updateRun_seqFrame (c : Chain) (f : RunContext → RunContext) (s : State) : SeqFrame s (updateRun c f s) := by
  unfold updateRun
  split
  · exact setPass_seqFrame _ _
  · exact setInjRun_seqFrame _ _

theorem beginItem_seqFrame (c : Chain) (s : State) : SeqFrame s (beginItem c s) := setItem_seqFrame _ _

theorem completeItem_seqFrame (c : Chain) (it : ItemRun) (o : ItemOutcome) (v : Option Value) (s : State) :
    SeqFrame s (completeItem c it o v s) :=
  ((takeCompletion_seqFrame _ s).trans (updateRun_seqFrame _ _ _)).trans (by constructor <;> first | rfl | exact id)

theorem finishItem_seqFrame (c : Chain) (it : ItemRun) (o : ItemOutcome) (v : Option Value) (s : State) :
    SeqFrame s (finishItem c it o v s) :=
  ((completeItem_seqFrame c it o v s).trans (setItem_seqFrame _ _)).trans (setTenure_seqFrame _ _)

theorem beginPass_seqFrame (s : State) : SeqFrame s (beginPass s) := by
  unfold beginPass
  dsimp only
  split <;> split <;> constructor <;> first | rfl | exact id

theorem endPass_seqFrame (a : Bool) (s : State) : SeqFrame s (endPass a s) := by
  unfold endPass
  dsimp only
  have h : ∀ r, SeqFrame s (raise .passEnd (offer r (copyMask .normal s.seq.pass.run.mask s))) := fun r =>
    ((copyMask_seqFrame _ _ s).trans (offer_seqFrame _ _)).trans (raise_seqFrame _ _)
  split
  · exact ((h _).trans (by constructor <;> first | rfl | exact id)).trans (setPass_seqFrame _ _)
  · exact (h _).trans (setPass_seqFrame _ _)

theorem followPass_seqFrame (s : State) : SeqFrame s (followPass s) := by
  unfold followPass
  dsimp only
  split
  · exact (((setPass_seqFrame _ s).trans (setItem_seqFrame _ _)).trans (setActive_seqFrame _ _)).trans
      (beginPass_seqFrame _)
  · exact ((setPass_seqFrame _ s).trans (setItem_seqFrame _ _)).trans (setActive_seqFrame _ _)

theorem endInjRun_seqFrame (k : Fin 8) (a : Bool) (s : State) : SeqFrame s (endInjRun k a s) :=
  (((((copyMask_seqFrame _ _ s).trans (offer_seqFrame _ _)).trans (raise_seqFrame _ _)).trans
    (setItem_seqFrame _ _)).trans (setInjRun_seqFrame _ _)).trans (setActive_seqFrame _ _)

theorem endRun_seqFrame (c : Chain) (a : Bool) (s : State) : SeqFrame s (endRun c a s) := by
  unfold endRun
  split
  · exact (endPass_seqFrame a s).trans (followPass_seqFrame _)
  · exact endInjRun_seqFrame _ a s

theorem advance_seqFrame (c : Chain) (s : State) : SeqFrame s (advance c s) := by
  unfold advance
  split
  · exact updateRun_seqFrame _ _ s
  · exact endRun_seqFrame c _ s

theorem completeCurrent_seqFrame (c : Chain) (it : ItemRun) (o : ItemOutcome) (v : Option Value) (s : State) :
    SeqFrame s (completeCurrent c it o v s) :=
  (finishItem_seqFrame c it o v s).trans (advance_seqFrame c _)

theorem takeLowest_seqFrame (s : State) : SeqFrame s (takeLowest s) := by
  unfold takeLowest
  split
  · exact .refl s
  · dsimp only
    exact SeqFrame.trans (by constructor <;> first | rfl | exact id) (beginItem_seqFrame _ _)

theorem setAside_seqFrame (s : State) : SeqFrame s (setAside s) := by
  unfold setAside
  split
  · exact .refl s
  · split
    · exact ((setSuspended_seqFrame _ s).trans (setItem_seqFrame _ _)).trans (setTenure_seqFrame _ _)
    · exact setItem_seqFrame _ _

theorem proceed_seqFrame (s : State) : SeqFrame s (proceed s) := by
  have go : SeqFrame s (match s.seq.active with
      | .none => if s.seq.pendingSet = 0#8 then setTop .idle s else takeLowest s
      | .normal =>
        if s.seq.pendingSet ≠ 0#8 ∧ s.normalYields then takeLowest (setAside s)
        else if s.seq.item = none then beginItem .normal s else s
      | .inj _ => s) := by
    split
    · split
      · exact setTop_seqFrame _ _
      · exact takeLowest_seqFrame _
    · split
      · exact (setAside_seqFrame _).trans (takeLowest_seqFrame _)
      · split
        · exact beginItem_seqFrame _ _
        · exact .refl s
    · exact .refl s
  unfold proceed
  split
  · exact go
  · exact go
  · exact .refl s

theorem restore_seqFrame (r : Suspension) (s : State) : SeqFrame s (restore r s) := by
  have h1 : SeqFrame s (setActive .normal (setSuspended none s)) :=
    (setSuspended_seqFrame _ s).trans (setActive_seqFrame _ _)
  have h2 := fun o => (h1.trans (completeCurrent_seqFrame .normal r.toRun o none _)).trans (proceed_seqFrame _)
  unfold restore
  dsimp only
  split
  · exact h2 _
  · split
    · split
      · exact h1.trans (setItem_seqFrame _ _)
      · exact h2 _
    · exact h1.trans (setItem_seqFrame _ _)

theorem handOver_seqFrame (s : State) : SeqFrame s (handOver s) := by
  unfold handOver
  split
  · exact takeLowest_seqFrame s
  · split
    · exact restore_seqFrame _ s
    · split
      · exact (setActive_seqFrame _ s).trans (beginItem_seqFrame _ _)
      · exact (setActive_seqFrame _ s).trans (setTop_seqFrame _ _)

theorem schedule_seqFrame (s : State) : SeqFrame s (schedule s) := by
  have go : SeqFrame s (match s.seq.active, s.seq.injRun with
      | .inj _, none => handOver s
      | .inj k, some _ => if s.seq.item = none then beginItem (.inj k) s else s
      | _, _ => proceed s) := by
    split
    · exact handOver_seqFrame s
    · split
      · exact beginItem_seqFrame _ s
      · exact .refl s
    · exact proceed_seqFrame s
  unfold schedule
  split
  · exact go
  · exact go
  · exact .refl s

theorem itemTransactionEnd_seqFrame (c : Chain) (it : ItemRun) (o : TxnOutcome) (v : Option Value) (s : State) :
    SeqFrame s (itemTransactionEnd c it o v s) := by
  unfold itemTransactionEnd
  split
  · split
    · exact (finishItem_seqFrame c it _ _ s).trans (endRun_seqFrame c _ _)
    · exact completeCurrent_seqFrame c it _ _ s
  · split
    · split
      · exact setItem_seqFrame _ _
      · exact completeCurrent_seqFrame c it _ _ s
    · exact completeCurrent_seqFrame c it _ _ s
    · exact .refl s

theorem seqEndNotice_seqFrame (t : Transaction) (o : TxnOutcome) (v : Option Value) (s : State) :
    SeqFrame s (seqEndNotice t o v s) := by
  unfold seqEndNotice
  split
  · split
    · exact (setTop_seqFrame _ s).trans (raise_seqFrame _ _)
    · exact .refl s
  · split
    · exact (itemTransactionEnd_seqFrame _ _ o v s).trans (schedule_seqFrame _)
    · exact .refl s

theorem startNormal_frame (s : State) : Frame s (startNormal s).2 := by
  unfold startNormal
  split
  · split
    · exact dropStart_frame _ s
    · exact (setPass_seqFrame _ s).frame
  · exact (beginPass_seqFrame s).frame

theorem startInjected_frame (k : Fin 8) (s : State) : Frame s (startInjected k s).2 := by
  unfold startInjected
  split
  · exact dropStart_frame _ s
  · exact ((joinPending_seqFrame k s).trans (schedule_seqFrame _)).frame

theorem abandonItem_frame (c : Chain) (s : State) : Frame s (abandonItem c s) := by
  unfold abandonItem
  split
  · exact .refl s
  · split
    · split
      · exact (setItem_seqFrame _ s).frame
      · exact (finishItem_seqFrame c _ _ _ s).frame
    · exact (finishItem_seqFrame c _ _ _ s).frame
    · exact (finishItem_seqFrame c _ _ _ s).frame
    · exact (finishItem_seqFrame c _ _ _ s).frame.trans (orphanTransaction_frame _)
    · exact (finishItem_seqFrame c _ _ _ s).frame.trans (orphanTransaction_frame _)

theorem clearWork_seqFrame (s : State) : SeqFrame s (clearWork s) := by constructor <;> first | rfl | exact id

theorem abortEverything_frame (s : State) : Frame s (abortEverything s) := by
  have h1 : Frame s (abortInjected s) := by
    unfold abortInjected
    split
    · exact (abandonItem_frame _ s).trans (endInjRun_seqFrame _ _ _).frame
    · exact .refl s
  have h2 : ∀ x, Frame x (abortSuspended x) := by
    intro x
    unfold abortSuspended
    split
    · exact ((completeItem_seqFrame _ _ _ _ x).trans (setSuspended_seqFrame _ _)).frame
    · exact .refl x
  have h3 : ∀ b x, Frame x (abortPass b x) := by
    intro b x
    unfold abortPass
    split
    · split
      · exact (abandonItem_frame _ x).trans (endPass_seqFrame _ _).frame
      · exact (endPass_seqFrame _ _).frame
    · exact .refl x
  exact ((h1.trans (h2 _)).trans (h3 _ _)).trans (clearWork_seqFrame _).frame

theorem endQueueWait_seqFrame (s : State) : SeqFrame s (endQueueWait s) := by
  unfold endQueueWait
  split
  · exact (setTop_seqFrame _ s).trans (schedule_seqFrame _)
  · exact .refl s

/-! ## The engine and the arbiter -/

theorem startNotice_frame (t : Transaction) (s : State) : Frame s (startNotice t s) := by
  have h1 : ∀ a x, Frame x (touchSuspended a x) := by
    intro a x
    unfold touchSuspended
    split
    · split
      · constructor <;> first | rfl | exact id
      · exact .refl x
    · exact .refl x
  have h2 : ∀ a x, Frame x (touchActive a x) := by
    intro a x
    unfold touchActive
    split
    · split
      · constructor <;> first | rfl | exact id
      · exact .refl x
    · exact .refl x
  unfold startNotice
  split
  · exact h1 _ s
  · exact ((h1 _ s).trans (h2 _ _)).trans (by constructor <;> first | rfl | exact id)

theorem takeTransaction_frame (r : Requester) (a : BitVec 5) (o : Op) (i : Byte) (l : BitVec 3) (v : Option Value)
    (p : Params) (s : State) : Frame s (takeTransaction r a o i l v p s) :=
  (startNotice_frame _ s).trans (startAttempt_frame _ _)

theorem sendFor_frame (it : ItemRun) (o : Op) (s : State) : Frame s (sendFor it o s) := takeTransaction_frame ..

theorem giveBack_frame (c : Chain) (it : ItemRun) (o : ItemOutcome) (s : State) : Frame s (giveBack c it o s) :=
  Frame.trans (Frame.trans (by constructor <;> first | rfl | exact id) (completeCurrent_seqFrame c it o none _).frame)
    (schedule_seqFrame _).frame

theorem sendWithGrant_frame (it : ItemRun) (p : Phase) (o : Op) (s : State) : Frame s (sendWithGrant it p o s) :=
  ((setItem_seqFrame _ s).trans (setTenure_seqFrame _ _)).frame.trans (sendFor_frame _ _ _)

theorem grantSequencer_frame (s : State) : Frame s (grantSequencer s) := by
  have h0 : Frame s { s with arb := { s.arb with lastGrantee := .sequencer, boundaryGrant := false } } := by
    constructor <;> first | rfl | exact id
  have h1 : ∀ c it x, Frame x (grantFirst c it x) := by
    intro c it x
    unfold grantFirst
    split
    · exact giveBack_frame ..
    · exact sendWithGrant_frame ..
  have h2 : ∀ c it x, Frame x (grantFetch c it x) := by
    intro c it x
    unfold grantFetch
    split
    · exact giveBack_frame ..
    · split
      · split
        · exact sendWithGrant_frame ..
        · exact giveBack_frame ..
      · exact sendWithGrant_frame ..
  unfold grantSequencer
  dsimp only
  split
  · split
    · exact h0.trans (h1 _ _ _)
    · exact h0.trans (h2 _ _ _)
    · exact h0
  · exact h0

theorem grantDirect_frame (t : Fin 4) (s : State) : Frame s (grantDirect t s) := by
  unfold grantDirect
  dsimp only
  have h1 : ∀ l k, Frame s (setLock k (setOrder l s)) := fun l k =>
    (setOrder_frame l s).trans (setLock_frame k _)
  split
  · exact (h1 _ _).trans (takeTransaction_frame ..)
  · exact ((h1 _ _).trans (by constructor <;> first | rfl | exact id)).trans (takeTransaction_frame ..)

theorem settleApart_frame (s : State) : Frame s (settleApart s) := by
  constructor <;> first | rfl | exact id

theorem decideNow_frame (s : State) : Frame s (decideNow s) := by
  unfold decideNow
  split
  · split
    · exact settleApart_frame s
    · exact (settleApart_frame s).trans (grantSequencer_frame _)
    · exact (settleApart_frame s).trans (grantDirect_frame _ _)
  · exact settleApart_frame s

/-- All that arbitrate can do: decide, or leave a grant to the Sequencer to a happening of its own (R130). -/
theorem arbitrate_cases (s : State) : arbitrate s = decideNow s ∨
    (s.canDecide = true ∧ s.decision = .sequencer ∧ s.arb.apart = false ∧
      arbitrate s = { s with arb := { s.arb with apart := true } }) := by
  unfold arbitrate
  split
  case isTrue h => exact .inr ⟨h.1, h.2.1, h.2.2.1, rfl⟩
  case isFalse => exact .inl rfl

theorem arbitrate_frame (s : State) : Frame s (arbitrate s) := by
  obtain e | ⟨_, _, _, e⟩ := arbitrate_cases s <;> rw [e]
  · exact decideNow_frame s
  · constructor <;> first | rfl | exact id

theorem lapse_frame (s : State) : Frame s (lapse s) :=
  ((setLock_frame _ s).trans (raise_seqFrame _ _).frame).trans (decideNow_frame _)

theorem afterDirect_frame (t : Fin 4) (s : State) : Frame s (afterDirect t s) := by
  unfold afterDirect
  split
  · split
    · split
      · exact grantDirect_frame _ s
      · exact setLock_frame _ s
    · exact (setLock_frame _ s).trans (decideNow_frame _)
  · exact lapse_frame s
  · exact arbitrate_frame s

theorem endTransaction_frame (t : Transaction) (o : TxnOutcome) (v : Option Value) (s : State) :
    Frame (noticeHealth t.address o s) (endTransaction t o v s) := by
  have h := engineIdle_frame (noticeHealth t.address o s)
  unfold endTransaction
  dsimp only
  split
  · exact (h.trans (seqEndNotice_seqFrame _ _ _ _).frame).trans (arbitrate_frame _)
  · exact (h.trans ((setSlot_frame _ _ _).trans (raise_seqFrame _ _).frame)).trans (afterDirect_frame _ _)

/-- An attempt's result either leaves station health or is the end of the transaction. -/
theorem attemptEnd_frame (r : AttemptResult) (s : State) : Frame s (attemptEnd r s) ∨
    ∃ t o, s.link.txn = some t ∧ Frame (noticeHealth t.address o s) (attemptEnd r s) := by
  unfold attemptEnd
  split
  · exact .inl (.refl s)
  case h_2 t e =>
    have done := fun o v => (⟨t, o, e, endTransaction_frame t o v s⟩ :
      ∃ x p, s.link.txn = some x ∧ Frame (noticeHealth x.address p s) (endTransaction t o v s))
    split
    · exact .inr (done _ _)
    · exact .inr (done _ _)
    · split
      · exact .inl (enterSettle_frame t s)
      · exact .inr (done _ _)
    · split
      · exact .inl (enterSettle_frame t s)
      · exact .inr (done _ _)
    · split
      · exact .inl (enterBackoff_frame t s)
      · exact .inr (done _ _)

theorem deliver_frame (src : Source) (s : State) : Frame s (deliver src s) := by
  have fold : ∀ (b : BitVec 8) (l : List (Fin 8)) (x : State), Frame s x →
      Frame s (l.foldl (deliverInjected b) x) := by
    intro b l
    induction l with
    | nil => exact fun _ h => h
    | cons k l ih =>
      intro x h
      refine ih _ (h.trans ?_)
      unfold deliverInjected
      split
      · exact dropStart_frame _ x
      · exact (joinPending_seqFrame k x).frame
  unfold deliver
  split
  · exact .refl s
  · dsimp only
    refine ((fold _ _ _ ?_).trans (schedule_seqFrame _).frame).trans (arbitrate_frame _)
    split
    · exact startNormal_frame s
    · exact .refl s

end Sys2Proof.Machine
end

