-- ==== Sys2Proof/Laws/Sequencer.lean ====
section
/-! SUPPORT. The Sequencer between two happenings: what a completion, the end of a run and a begun item leave,
and that schedule, from any state a happening hands it, leaves the Sequencer as SequencerOk says (R57 to R62, R79,
R86 to R98, R100 to R102, R167 to R171). -/
namespace Sys2Proof.Machine

variable {s t u : State}

/-- What an offer to the queue leaves of the Sequencer's state and of the link. -/
structure Same (s t : State) : Prop where
  active : t.seq.active = s.seq.active
  item : t.seq.item = s.seq.item
  suspended : t.seq.suspended = s.seq.suspended
  pendingSet : t.seq.pendingSet = s.seq.pendingSet
  present : t.seq.pass.present = s.seq.pass.present
  injRun : t.seq.injRun.isSome = s.seq.injRun.isSome
  tenure : t.arb.tenure = s.arb.tenure
  txn : t.link.txn = s.link.txn
  inj : t.tables.inj = s.tables.inj

/-- The queue and the hold list, with at most n held records, and QUEUE_WAIT exactly while records are held. -/
structure Sized (n : Nat) (s : State) : Prop where
  waiting : s.seq.top = .queueWait ↔ s.results.hold ≠ []
  queue : s.results.queue.length ≤ 32
  hold : s.results.hold.length ≤ n
  full : s.results.hold ≠ [] → s.results.queue.length = 32

/-- An operation that holds no record. -/
structure Quiet (s t : State) : Prop extends Same s t where
  top : t.seq.top = s.seq.top
  sized : ∀ n, Sized n s → Sized n t

/-- An operation that holds at most one record. -/
structure Offering (s t : State) : Prop extends Same s t where
  top : t.seq.top = s.seq.top ∨ t.seq.top = .queueWait
  sized : ∀ n, Sized n s → Sized (n + 1) t

theorem Same.trans (h : Same s t) (g : Same t u) : Same s u := by
  constructor <;> first | rw [g.active, h.active] | rw [g.item, h.item] | rw [g.suspended, h.suspended] | rw [g.pendingSet, h.pendingSet] | rw [g.present, h.present] | rw [g.injRun, h.injRun] | rw [g.tenure, h.tenure] | rw [g.txn, h.txn] | rw [g.inj, h.inj]

theorem Sized.mono {n m : Nat} (h : Sized n s) (l : n ≤ m) : Sized m s := ⟨h.waiting, h.queue, by have := h.hold; omega, h.full⟩

theorem Quiet.trans (h : Quiet s t) (g : Quiet t u) : Quiet s u :=
  ⟨h.toSame.trans g.toSame, g.top.trans h.top, fun n k => g.sized n (h.sized n k)⟩
theorem Quiet.offering (h : Quiet s t) : Offering s t := ⟨h.toSame, .inl h.top, fun n k => (h.sized n k).mono (by omega)⟩
theorem Quiet.then_offering (h : Quiet s t) (g : Offering t u) : Offering s u :=
  ⟨h.toSame.trans g.toSame, by
    have a := g.top
    have b := h.top
    grind, fun n k => g.sized n (h.sized n k)⟩
theorem Offering.then_quiet (h : Offering s t) (g : Quiet t u) : Offering s u :=
  ⟨h.toSame.trans g.toSame, by
    have a := g.top
    have b := h.top
    grind, fun n k => g.sized _ (h.sized n k)⟩

theorem Quiet.refl (s : State) : Quiet s s := ⟨by constructor <;> rfl, rfl, fun _ h => h⟩
theorem raise_quiet (e : Event) (s : State) : Quiet s (raise e s) :=
  ⟨by constructor <;> rfl, rfl, fun _ h => ⟨h.1, h.2, h.3, h.4⟩⟩
theorem copyMask_quiet (c : Chain) (m : BitVec 64) (s : State) : Quiet s (copyMask c m s) := by
  unfold copyMask
  split <;> exact ⟨by constructor <;> rfl, rfl, fun _ h => ⟨h.1, h.2, h.3, h.4⟩⟩
theorem writeSlot_quiet (c : Completion) (s : State) : Quiet s (writeSlot c s) := by
  unfold writeSlot
  split
  · exact .refl s
  · split
    · exact .refl s
    · exact ⟨by constructor <;> rfl, rfl, fun _ h => ⟨h.1, h.2, h.3, h.4⟩⟩
theorem discard_quiet (s : State) : Quiet s (discard s) :=
  ⟨by constructor <;> rfl, rfl, fun _ h => ⟨h.1, h.2, h.3, h.4⟩⟩
theorem enqueue_quiet (r : Record) (s : State) (room : s.queueHasRoom = true) (empty : s.results.hold = []) :
    Quiet s (enqueue r s) := by
  have q : s.results.queue.length < 32 := by
    have := of_decide_eq_true room
    exact this
  unfold enqueue
  dsimp only
  split
  all_goals
    refine ⟨by constructor <;> rfl, rfl, fun n h => ⟨?_, ?_, ?_, ?_⟩⟩
    · exact h.1
    · simp; omega
    · exact h.3
    · intro x; exact absurd empty x
theorem offer_offering (r : Record) (s : State) : Offering s (offer r s) := by
  unfold offer
  split
  case isTrue h =>
    simp at h
    exact (enqueue_quiet r s h.1 h.2).offering
  split
  · exact (discard_quiet s).offering
  case isFalse.isFalse h g =>
    unfold holdRecord
    dsimp only
    split
    · refine ⟨by constructor <;> rfl, .inr rfl, fun n k => ⟨?_, ?_, ?_, ?_⟩⟩
      · simp
      · exact k.2
      · have := k.3; simp; omega
      · intro _
        have := k.2
        have e : s.results.hold = [] := by assumption
        have : ¬ s.results.queue.length < 32 := by
          intro l
          apply h
          simp [State.queueHasRoom, Config.queueCapacity, l, e]
        simp; omega
    · refine ⟨by constructor <;> rfl, .inl rfl, fun n k => ⟨?_, ?_, ?_, ?_⟩⟩
      · have := k.1; simp_all
      · exact k.2
      · have := k.3; simp; omega
      · intro _; exact k.4 (by assumption)
theorem offer_abort (r : Record) (s : State) (a : r.isAbort = true) : Quiet s (offer r s) := by
  unfold offer
  split
  case isTrue h =>
    simp at h
    exact enqueue_quiet r s h.1 h.2
  · simp [a]; exact discard_quiet s

theorem takeCompletion_offering (c : Completion) (s : State) : Offering s (takeCompletion c s) := by
  unfold takeCompletion
  dsimp only
  have h2 : Quiet s (if c.outcome.isFailure then raise .itemError (writeSlot c s) else writeSlot c s) := by
    split
    · exact (writeSlot_quiet c s).trans (raise_quiet _ _)
    · exact writeSlot_quiet c s
  split
  · exact h2.then_offering (offer_offering _ _)
  · exact h2.offering

theorem takeCompletion_abort (c : Completion) (s : State) (a : c.outcome = .aborted) : Quiet s (takeCompletion c s) := by
  unfold takeCompletion
  dsimp only
  have h2 : Quiet s (if c.outcome.isFailure then raise .itemError (writeSlot c s) else writeSlot c s) := by
    split
    · exact (writeSlot_quiet c s).trans (raise_quiet _ _)
    · exact writeSlot_quiet c s
  split
  · exact h2.trans (offer_abort _ _ (by simp [Completion.record, Record.isAbort, a]))
  · exact h2

theorem updateRun_quiet (c : Chain) (f : RunContext → RunContext) (s : State) : Quiet s (updateRun c f s) := by
  unfold updateRun
  split
  · exact ⟨by constructor <;> rfl, rfl, fun _ h => ⟨h.1, h.2, h.3, h.4⟩⟩
  · exact ⟨by constructor <;> simp, rfl, fun _ h => ⟨h.1, h.2, h.3, h.4⟩⟩

theorem last_quiet (i p : Nat) (s : State) : Quiet s { s with seq := { s.seq with lastItem := i, lastPosition := p } } :=
  ⟨by constructor <;> rfl, rfl, fun _ h => ⟨h.1, h.2, h.3, h.4⟩⟩

theorem completeItem_offering (c : Chain) (it : ItemRun) (o : ItemOutcome) (v : Option Value) (s : State) :
    Offering s (completeItem c it o v s) :=
  ((takeCompletion_offering _ s).then_quiet (updateRun_quiet _ _ _)).then_quiet (last_quiet _ _ _)

theorem completeItem_abort (c : Chain) (it : ItemRun) (v : Option Value) (s : State) :
    Quiet s (completeItem c it .aborted v s) :=
  ((takeCompletion_abort _ s rfl).trans (updateRun_quiet _ _ _)).trans (last_quiet _ _ _)

/-! ## Before the Sequencer goes on -/

/-- What holds of a state that is handed to schedule. -/
structure Ready (s : State) : Prop where
  stopped : s.seq.top = .stopped ∨ s.seq.top = .stopping → s.seq.active = .none ∧ s.seq.pendingSet = 0#8
  idle : s.seq.top = .idle → s.seq.active = .none
  running : s.seq.item.isSome = true → s.seq.top = .running
  waiting : s.seq.top = .queueWait ↔ s.results.hold ≠ []
  context : s.seq.active = .none → s.seq.item = none ∧ s.seq.pass.present = false
  injected : s.seq.injRun.isSome = true → ∃ k, s.seq.active = .inj k
  ended : ∀ k, s.seq.active = .inj k → s.seq.injRun = none →
    s.seq.item = none ∧ (s.seq.top = .running ∨ (s.seq.top = .queueWait ∧ s.seq.suspended.isSome = true))
  pass : s.seq.active = .normal ∨ s.seq.suspended.isSome = true → s.seq.pass.present = true
  suspended : s.seq.suspended.isSome = true → ∃ k, s.seq.active = .inj k
  restarts : ∀ i, s.seq.item = some i → i.restarts ≤ 3
  suspendedRestarts : ∀ r, s.seq.suspended = some r → r.restarts ≤ 3
  members : ∀ k : Fin 8, s.isPending k = true → (s.tables.inj[k]).enabled = true
  tenure : s.arb.tenure = true → ∃ i, s.seq.item = some i ∧ i.phase ≠ .grantWait
  held : s.itemOnLink = true → s.arb.tenure = true
  onLink : s.itemOnLink = true ↔ s.seqTransaction false
  stopping : s.seq.top = .stopping → s.seqTransaction true
  queue : s.results.queue.length ≤ 32
  hold : s.results.hold.length ≤ 2
  full : s.results.hold ≠ [] → s.results.queue.length = 32

theorem State.SequencerOk.ready (h : s.SequencerOk) : Ready s where
  stopped := h.stopped
  idle := fun x => (h.idle x).1
  running := h.running.2
  waiting := h.waiting
  context := h.context
  injected := h.injected
  ended := fun k a b => by
    have := h.ended k a b
    have g := h.running
    refine ⟨?_, .inr this⟩
    cases e : s.seq.item <;> simp_all
  pass := h.pass
  suspended := h.suspended
  restarts := h.restarts
  suspendedRestarts := h.suspendedRestarts
  members := h.members
  tenure := h.tenure
  held := h.held
  onLink := h.onLink
  stopping := h.stopping
  queue := h.queue
  hold := h.hold
  full := h.full

/-- The chain whose item completes is the active one, its run is in progress and nothing of it is on the line. -/
structure Runs (c : Chain) (s : State) : Prop where
  top : s.seq.top = .running
  active : s.seq.active.chain = some c
  injected : s.seq.injRun.isSome = true ↔ ∃ k, c = .inj k
  pass : c = .normal ∨ s.seq.suspended.isSome = true → s.seq.pass.present = true
  suspended : s.seq.suspended.isSome = true → ∃ k, c = .inj k
  suspendedRestarts : ∀ r, s.seq.suspended = some r → r.restarts ≤ 3
  members : ∀ k : Fin 8, s.isPending k = true → (s.tables.inj[k]).enabled = true
  offLink : ¬ s.seqTransaction false
  sized : Sized 0 s


/-- The item of chain c has completed or never begun, and nothing of it is on the line. -/
structure Closed (n : Nat) (c : Chain) (s : State) : Prop where
  top : s.seq.top = .running ∨ s.seq.top = .queueWait
  active : s.seq.active.chain = some c
  item : s.seq.item = none
  injected : s.seq.injRun.isSome = true ↔ ∃ k, c = .inj k
  pass : c = .normal ∨ s.seq.suspended.isSome = true → s.seq.pass.present = true
  suspended : s.seq.suspended.isSome = true → ∃ k, c = .inj k
  suspendedRestarts : ∀ r, s.seq.suspended = some r → r.restarts ≤ 3
  members : ∀ k : Fin 8, s.isPending k = true → (s.tables.inj[k]).enabled = true
  offLink : ¬ s.seqTransaction false
  tenure : s.arb.tenure = false
  sized : Sized n s

theorem Same.seqTransaction (h : Same s t) (b : Bool) : t.seqTransaction b ↔ s.seqTransaction b := by
  unfold State.seqTransaction; rw [h.txn]
theorem Same.isPending (h : Same s t) (k : Fin 8) : t.isPending k = s.isPending k := by
  unfold State.isPending; rw [h.pendingSet]

theorem Context.chain_normal {c : Context} : c.chain = some .normal ↔ c = .normal := by cases c <;> simp [Context.chain]
theorem Context.chain_inj {c : Context} {k : Fin 8} : c.chain = some (.inj k) ↔ c = .inj k := by cases c <;> simp [Context.chain]

theorem Runs.finish {c : Chain} (h : Runs c s) (it : ItemRun) (o : ItemOutcome) (v : Option Value) :
    Closed 1 c (finishItem c it o v s) := by
  have g := completeItem_offering c it o v s
  unfold finishItem
  generalize completeItem c it o v s = x at g
  have z := g.sized 0 h.sized
  constructor
  · have := g.top; simp [h.top] at this; simpa using this
  · simpa [g.active] using h.active
  · rfl
  · simpa [g.injRun] using h.injected
  · simpa [g.suspended, g.present] using h.pass
  · simpa [g.suspended] using h.suspended
  · simpa [g.suspended] using h.suspendedRestarts
  · intro k
    have e := g.isPending k
    have i := g.inj
    have m := h.members k
    simp only [setTenure_tables, setItem_tables, i]
    intro p
    exact m (by rw [← e]; exact p)
  · exact fun q => h.offLink ((g.seqTransaction false).1 q)
  · rfl
  · exact ⟨z.1, z.2, z.3, z.4⟩

theorem Closed.of_quiet {n : Nat} {c : Chain} (h : Closed n c s) (g : Quiet s t) : Closed n c t where
  top := by rw [g.top]; exact h.top
  active := by rw [g.active]; exact h.active
  item := by rw [g.item]; exact h.item
  injected := by rw [g.injRun]; exact h.injected
  pass := by rw [g.suspended, g.present]; exact h.pass
  suspended := by rw [g.suspended]; exact h.suspended
  suspendedRestarts := by rw [g.suspended]; exact h.suspendedRestarts
  members := fun k p => by
    have m := h.members k
    simp only [g.inj]
    exact m (by rw [← g.isPending k]; exact p)
  offLink := fun q => h.offLink ((g.seqTransaction false).1 q)
  tenure := by rw [g.tenure]; exact h.tenure
  sized := g.sized n h.sized

theorem Closed.of_offering {n : Nat} {c : Chain} (h : Closed n c s) (g : Offering s t) : Closed (n+1) c t where
  top := by
    have a := g.top
    have b := h.top
    rcases a with a | a
    · rw [a]; exact b
    · exact .inr a
  active := by rw [g.active]; exact h.active
  item := by rw [g.item]; exact h.item
  injected := by rw [g.injRun]; exact h.injected
  pass := by rw [g.suspended, g.present]; exact h.pass
  suspended := by rw [g.suspended]; exact h.suspended
  suspendedRestarts := by rw [g.suspended]; exact h.suspendedRestarts
  members := fun k p => by
    have m := h.members k
    simp only [g.inj]
    exact m (by rw [← g.isPending k]; exact p)
  offLink := fun q => h.offLink ((g.seqTransaction false).1 q)
  tenure := by rw [g.tenure]; exact h.tenure
  sized := g.sized n h.sized

/-- A closed run whose chain goes on is ready. -/
theorem Closed.ready {c : Chain} (h : Closed 2 c s) : Ready s := by
  have ht := h.top
  have ha := h.active
  have hi := h.item
  refine ⟨?_, ?_, ?_, h.sized.1, ?_, ?_, ?_, ?_, ?_, ?_, h.suspendedRestarts, h.members, ?_, ?_, ?_, ?_, h.sized.2, h.sized.3, h.sized.4⟩
  · grind
  · grind
  · simp [hi]
  · intro q; simp [q, Context.chain] at ha
  · intro q
    obtain ⟨k, rfl⟩ := h.injected.1 q
    exact ⟨k, Context.chain_inj.1 ha⟩
  · intro k q r
    have : c = .inj k := by simpa [q, Context.chain] using ha.symm
    have := h.injected.2 ⟨k, this⟩
    simp [r] at this
  · rintro (q | q)
    · exact h.pass (.inl (by simpa [q, Context.chain] using ha.symm))
    · exact h.pass (.inr q)
  · intro q
    obtain ⟨k, rfl⟩ := h.suspended q
    exact ⟨k, Context.chain_inj.1 ha⟩
  · simp [hi]
  · simp [h.tenure]
  · simp [State.itemOnLink, hi]
  · simp only [State.itemOnLink, hi]
    simpa using h.offLink
  · intro q; simp_all

theorem beginPass_active (a : s.seq.active ≠ .none) (b : s.seq.top ≠ .idle) :
    beginPass s = setPass { s.seq.pass with
      present := true, number := s.seq.pass.number + 1#16,
      run := { position := (s.nextExpected .normal 0).getD 0 } } s := by
  simp [beginPass, a, b]

/-- NORMAL's pass has ended, and either a new one has begun or no context is active. -/
theorem Closed.normal_ready (h : Closed 2 .normal s) (top : t.seq.top = s.seq.top) (item : t.seq.item = none)
    (injRun : t.seq.injRun = s.seq.injRun) (suspended : t.seq.suspended = s.seq.suspended)
    (pendingSet : t.seq.pendingSet = s.seq.pendingSet)
    (active : (t.seq.active = .normal ∧ t.seq.pass.present = true) ∨ (t.seq.active = .none ∧ t.seq.pass.present = false))
    (tenure : t.arb.tenure = s.arb.tenure) (txn : t.link.txn = s.link.txn) (tables : t.tables = s.tables)
    (queue : t.results.queue = s.results.queue) (hold : t.results.hold = s.results.hold) : Ready t := by
  have hs : s.seq.suspended = none := by
    have := h.suspended
    cases hh : s.seq.suspended <;> simp_all
  have hj : s.seq.injRun = none := by
    have := h.injected
    cases hh : s.seq.injRun <;> simp_all
  have ht := h.top
  have hw := h.sized.1
  constructor
  · grind
  · grind
  · simp [item]
  · rw [top, hold]; exact hw
  · grind
  · simp [injRun, hj]
  · grind
  · rw [suspended, hs]; grind
  · simp [suspended, hs]
  · simp [item]
  · simp [suspended, hs]
  · intro k p
    have := h.members k
    simp only [State.isPending, pendingSet] at p
    simp only [tables]
    exact this p
  · simp [tenure, h.tenure]
  · simp [State.itemOnLink, item]
  · have := h.offLink
    simp only [State.itemOnLink, item, State.seqTransaction, txn] at *
    simpa using this
  · grind
  · rw [queue]; exact h.sized.2
  · rw [hold]; exact h.sized.3
  · rw [hold, queue]; exact h.sized.4

/-- What endPass and the like leave: no run of NORMAL, item none. -/
theorem Closed.endPass_ready {n : Nat} {a : Bool} (h : Closed n .normal s) (hn : n = 1 ∨ (n = 2 ∧ a = true)) :
    Ready (followPass (endPass a s)) := by
  have key : ∃ x, Closed 2 .normal x ∧ endPass a s =
      setPass { x.seq.pass with present := false, run := { s.seq.pass.run with chainAbort := false } } x := by
    have hq : ∀ x, Closed 2 .normal x → Closed 2 .normal (if (raise .passEnd x).arb.mode = .seqFirst
        then { raise .passEnd x with arb := { (raise .passEnd x).arb with boundaryGrant := true } } else raise .passEnd x) := by
      intro x hx
      have hx := hx.of_quiet (raise_quiet .passEnd x)
      split
      · refine hx.of_quiet ⟨by constructor <;> rfl, rfl, fun _ h => ⟨h.1, h.2, h.3, h.4⟩⟩
      · exact hx
    refine ⟨_, ?_, rfl⟩
    apply hq
    have h1 := h.of_quiet (copyMask_quiet .normal s.seq.pass.run.mask s)
    rcases hn with rfl | ⟨rfl, rfl⟩
    · exact h1.of_offering (offer_offering _ _)
    · exact h1.of_quiet (offer_abort _ _ rfl)
  obtain ⟨x, hx, e⟩ := key
  rw [e]
  have ht := hx.top
  generalize ({ s.seq.pass.run with chainAbort := false } : RunContext) = r
  unfold followPass
  dsimp only
  split
  · generalize hy : (setActive Context.normal (setItem none _)) = y
    have e1 : y.seq.active = .normal := by rw [← hy]; rfl
    have e2 : y.seq.top = x.seq.top := by rw [← hy]; rfl
    have e3 : y.seq.item = none := by rw [← hy]; rfl
    have : beginPass y = setPass (beginPass y).seq.pass y ∧ (beginPass y).seq.pass.present = true := by
      rw [beginPass_active (by rw [e1]; exact Context.noConfusion) (by rw [e2]; grind)]
      exact ⟨rfl, rfl⟩
    rw [this.1]
    refine hx.normal_ready ?_ ?_ ?_ ?_ ?_ (.inl ⟨e1, this.2⟩) ?_ ?_ ?_ ?_ ?_ <;> rw [← hy] <;> rfl
  · exact hx.normal_ready rfl rfl rfl rfl rfl (.inr ⟨rfl, rfl⟩) rfl rfl rfl rfl rfl

/-- What the end of an injected run leaves active: the context as it stands, with an item suspended if in QUEUE_WAIT; or,
in QUEUE_WAIT with nothing suspended, NORMAL where its pass is present and no context where it is not (R98). -/
theorem contextAfterRun_cases (s : State) : (s.contextAfterRun = s.seq.active ∧ (s.seq.top = .queueWait → s.seq.suspended.isSome = true)) ∨
    (s.seq.top = .queueWait ∧ s.seq.suspended = none ∧
      (s.contextAfterRun = .normal ∧ s.seq.pass.present = true ∨
        s.contextAfterRun = .none ∧ s.seq.pass.present = false)) := by
  unfold State.contextAfterRun
  split
  · rename_i h
    cases e : s.seq.pass.present
    · exact .inr ⟨h.1, h.2, .inr ⟨rfl, rfl⟩⟩
    · exact .inr ⟨h.1, h.2, .inl ⟨rfl, rfl⟩⟩
  · rename_i h
    refine .inl ⟨rfl, fun q => ?_⟩
    cases e : s.seq.suspended
    · exact absurd ⟨q, e⟩ h
    · rfl

theorem endInjRun_ready {n : Nat} {a : Bool} {k : Fin 8} (h : Closed n (.inj k) s) (hn : n = 1 ∨ (n = 2 ∧ a = true)) :
    Ready (endInjRun k a s) := by
  have key : ∃ x, Closed 2 (.inj k) x ∧ endInjRun k a s =
      setActive ((setInjRun none (setItem none x)).contextAfterRun) (setInjRun none (setItem none x)) := by
    refine ⟨raise .injEnd (offer _ (copyMask (.inj k) (s.runOf (.inj k)).mask s)), ?_, rfl⟩
    have h1 := h.of_quiet (copyMask_quiet (.inj k) (s.runOf (.inj k)).mask s)
    refine Closed.of_quiet ?_ (raise_quiet _ _)
    rcases hn with rfl | ⟨rfl, rfl⟩
    · exact h1.of_offering (offer_offering _ _)
    · exact h1.of_quiet (offer_abort _ _ rfl)
  obtain ⟨x, hx, e⟩ := key
  rw [e]
  have ht := hx.top
  have ha := Context.chain_inj.1 hx.active
  have hz := hx.sized
  have hp := hx.pass
  have ho := hx.offLink
  have hn := hx.tenure
  have hr := hx.suspendedRestarts
  have hm := hx.members
  have hw := hz.1
  have base : ∀ t : State, t.seq.top = x.seq.top → t.seq.item = none → t.seq.injRun = none →
      t.seq.suspended = x.seq.suspended → t.seq.pendingSet = x.seq.pendingSet → t.arb.tenure = x.arb.tenure →
      t.link.txn = x.link.txn → t.tables = x.tables → t.results = x.results → t.seq.pass = x.seq.pass →
      ((t.seq.active = .inj k ∧ (x.seq.top = .queueWait → x.seq.suspended.isSome = true)) ∨
        (x.seq.top = .queueWait ∧ x.seq.suspended = none ∧
          (t.seq.active = .normal ∧ x.seq.pass.present = true ∨ t.seq.active = .none ∧ x.seq.pass.present = false))) →
      Ready t := by
    intro t e1 e2 e3 e4 e5 e6 e7 e8 e9 e10 e11
    constructor
    · grind
    · grind
    · simp [e2]
    · rw [e1, e9]; exact hw
    · grind
    · simp [e3]
    · grind
    · rw [e4, e10]; grind
    · rw [e4]; grind
    · simp [e2]
    · rw [e4]; exact hr
    · intro j p
      simp only [State.isPending, e5] at p
      simp only [e8]
      exact hm j p
    · simp [e6, hn]
    · simp [State.itemOnLink, e2]
    · simp only [State.itemOnLink, e2, State.seqTransaction, e7] at *
      simpa using ho
    · grind
    · rw [e9]; exact hz.2
    · rw [e9]; exact hz.3
    · rw [e9]; exact hz.4
  refine base _ rfl rfl rfl rfl rfl rfl rfl rfl rfl rfl ?_
  rcases contextAfterRun_cases (setInjRun none (setItem none x)) with ⟨e, q⟩ | ⟨t, u, e⟩
  · exact .inl ⟨e.trans ha, q⟩
  · exact .inr ⟨t, u, e⟩

theorem endRun_ready {n : Nat} {a : Bool} {c : Chain} (h : Closed n c s) (hn : n = 1 ∨ (n = 2 ∧ a = true)) :
    Ready (endRun c a s) := by
  cases c with
  | normal => exact h.endPass_ready hn
  | inj k => exact endInjRun_ready h hn

theorem Closed.mono {n m : Nat} {c : Chain} (h : Closed n c s) (l : n ≤ m) : Closed m c s :=
  { h with sized := h.sized.mono l }

theorem advance_ready {c : Chain} (h : Closed 1 c s) : Ready (advance c s) := by
  unfold advance
  split
  · exact ((h.mono (by omega)).of_quiet (updateRun_quiet _ _ _)).ready
  · exact endRun_ready h (.inl rfl)

theorem completeCurrent_ready {c : Chain} (h : Runs c s) (it : ItemRun) (o : ItemOutcome) (v : Option Value) :
    Ready (completeCurrent c it o v s) := advance_ready (h.finish it o v)

/-! ## Going on -/

theorem lowestPending_none (h : s.lowestPending = none) : s.seq.pendingSet = 0#8 := by
  apply BitVec.eq_of_getLsbD_eq
  intro i hi
  simp only [State.lowestPending, List.find?_eq_none, State.isPending] at h
  have := h ⟨i, hi⟩
  have m : (⟨i, hi⟩ : Fin 8) ∈ ([0, 1, 2, 3, 4, 5, 6, 7] : List (Fin 8)) := by
    have : ∀ k : Fin 8, k ∈ ([0, 1, 2, 3, 4, 5, 6, 7] : List (Fin 8)) := by decide
    exact this _
  simpa using this m

theorem lowestPending_mem {k : Fin 8} (h : s.lowestPending = some k) : s.isPending k = true :=
  List.find?_some h

theorem removed_pending (p : BitVec 8) (j k : Fin 8) (h : (p &&& ~~~(1#8 <<< k.val)).getLsbD j.val = true) :
    p.getLsbD j.val = true := by
  simp at h
  exact h.1

/-- What holds where a pending chain may be taken. -/
structure Takes (s : State) : Prop where
  pending : s.seq.pendingSet ≠ 0#8
  pass : s.seq.suspended.isSome = true → s.seq.pass.present = true
  suspendedRestarts : ∀ r, s.seq.suspended = some r → r.restarts ≤ 3
  members : ∀ k : Fin 8, s.isPending k = true → (s.tables.inj[k]).enabled = true
  offLink : ¬ s.seqTransaction false
  tenure : s.arb.tenure = false
  queue : s.results.queue.length ≤ 32
  hold : s.results.hold = []

theorem takeLowest_ok (h : Takes s) : (takeLowest s).SequencerOk := by
  unfold takeLowest
  split
  case h_1 e => exact absurd (lowestPending_none e) h.pending
  case h_2 k e =>
    have ho := h.offLink
    have hh := h.hold
    dsimp only
    unfold beginItem
    constructor
    · simp
    · simp
    · simp
    · simp [hh]
    · simp
    · intro _; exact ⟨k, rfl⟩
    · simp
    · intro q
      simp only [setItem_seq] at q ⊢
      rcases q with q | q
      · simp at q
      · exact h.pass q
    · intro _; exact ⟨k, rfl⟩
    · simp only [setItem_seq]; rintro i ⟨⟩; simp
    · exact h.suspendedRestarts
    · intro j p
      exact h.members j (removed_pending _ _ _ p)
    · simp [h.tenure]
    · simp [State.itemOnLink]
    · simp [State.itemOnLink, State.seqTransaction] at ho ⊢
      exact ho
    · simp
    · exact h.queue
    · simp [hh]
    · simp [hh]

theorem beginItem_ok {c : Chain} (h : Ready s) (top : s.seq.top = .running) (item : s.seq.item = none)
    (active : s.seq.active.chain = some c) (run : ∀ k, s.seq.active = .inj k → s.seq.injRun.isSome = true) :
    (beginItem c s).SequencerOk := by
  have ho := h.onLink
  unfold beginItem
  constructor
  · simp [top]
  · simp [top]
  · simp [top]
  · exact h.waiting
  · intro q
    simp only [setItem_seq] at q
    rw [q] at active
    simp [Context.chain] at active
  · exact h.injected
  · intro k q r
    have := run k q
    simp only [setItem_seq] at r
    simp [r] at this
  · exact h.pass
  · exact h.suspended
  · simp only [setItem_seq]; rintro i ⟨⟩; simp
  · exact h.suspendedRestarts
  · exact h.members
  · have := h.tenure
    intro q
    obtain ⟨i, e, _⟩ := this q
    simp [item] at e
  · simp [State.itemOnLink]
  · simp [State.itemOnLink, State.seqTransaction, item] at ho ⊢
    exact ho
  · simp [top]
  · exact h.queue
  · exact h.hold
  · exact h.full

theorem Ready.ok (h : Ready s) (idle : s.seq.top = .idle → s.seq.pendingSet = 0#8)
    (running : s.seq.top = .running → s.seq.item.isSome = true)
    (ended : ∀ k, s.seq.active = .inj k → s.seq.injRun = none → s.seq.top ≠ .running) : s.SequencerOk :=
  { h with
    idle := fun x => ⟨h.idle x, idle x⟩
    running := ⟨running, h.running⟩
    ended := fun k a b => by
      rcases (h.ended k a b).2 with g | g
      · exact absurd g (ended k a b)
      · exact g }

theorem setAside_takes (h : Ready s) (top : s.seq.top = .running) (active : s.seq.active = .normal)
    (pending : s.seq.pendingSet ≠ 0#8) (yields : s.normalYields = true) : Takes (setAside s) := by
  have hh : s.results.hold = [] := by
    have := h.waiting
    cases e : s.results.hold <;> simp_all
  have hp := h.pass (.inl active)
  have hn : s.seq.suspended = none := by
    have := h.suspended
    cases e : s.seq.suspended <;> simp_all
  have off : s.itemOnLink = false := by
    unfold State.normalYields at yields
    unfold State.itemOnLink
    split at yields
    · simp [*]
    · simp only [*]
      split at yields <;> simp_all
  have ho : ¬ s.seqTransaction false := by
    intro q
    have := h.onLink.2 q
    simp [off] at this
  have hr := h.restarts
  have ht := h.tenure
  unfold setAside
  split
  · refine ⟨pending, by simp [hn], by simp [hn], h.members, ho, ?_, h.queue, hh⟩
    by_contra q
    obtain ⟨i, e, _⟩ := ht (by simpa using q)
    simp_all
  · rename_i it e
    split
    · refine ⟨pending, fun _ => hp, ?_, h.members, ho, rfl, h.queue, hh⟩
      intro r q
      simp only [setTenure_seq, setItem_seq, setSuspended_seq] at q
      obtain rfl := Option.some.inj q
      exact hr it e
    · refine ⟨pending, by simp [hn], by simp [hn], h.members, ho, ?_, h.queue, hh⟩
      simp only [setItem_arb]
      by_contra q
      obtain ⟨i, e', g⟩ := ht (by simpa using q)
      simp only [State.itemOnLink, e, State.normalYields, ItemRun.waits] at *
      obtain rfl := Option.some.inj e'
      cases hph : it.phase <;> simp_all

theorem Ready.holdNil (h : Ready s) (top : s.seq.top ≠ .queueWait) : s.results.hold = [] := by
  have := h.waiting
  cases e : s.results.hold <;> simp_all

theorem Ready.offLink (h : Ready s) (item : s.seq.item = none) : ¬ s.seqTransaction false := by
  intro q
  have := h.onLink.2 q
  simp [State.itemOnLink, item] at this

theorem Ready.noTenure (h : Ready s) (item : s.seq.item = none) : s.arb.tenure = false := by
  by_contra q
  obtain ⟨i, e, _⟩ := h.tenure (by simpa using q)
  simp [item] at e

theorem Ready.takes (h : Ready s) (top : s.seq.top ≠ .queueWait) (item : s.seq.item = none)
    (pending : s.seq.pendingSet ≠ 0#8) : Takes s :=
  ⟨pending, fun q => h.pass (.inr q), h.suspendedRestarts, h.members, h.offLink item, h.noTenure item, h.queue,
    h.holdNil top⟩

/-- The Sequencer is IDLE with nothing left. -/
theorem idle_ok (item : s.seq.item = none) (injRun : s.seq.injRun = none) (suspended : s.seq.suspended = none)
    (pass : s.seq.pass.present = false) (pending : s.seq.pendingSet = 0#8) (off : ¬ s.seqTransaction false)
    (tenure : s.arb.tenure = false) (queue : s.results.queue.length ≤ 32) (hold : s.results.hold = []) 
    (active : s.seq.active = .none) (top : s.seq.top = .idle) : s.SequencerOk := by
  constructor
  · simp [top]
  · simp [active, pending]
  · simp [top, item]
  · simp [top, hold]
  · simp [item, pass]
  · simp [injRun]
  · simp [active]
  · simp [active, suspended]
  · simp [suspended]
  · simp [item]
  · simp [suspended]
  · simp [State.isPending, pending]
  · simp [tenure]
  · simp [State.itemOnLink, item]
  · simp [State.itemOnLink, item, off]
  · simp [top]
  · exact queue
  · simp [hold]
  · simp [hold]

theorem proceed_ok (h : Ready s) (active : ∀ k, s.seq.active ≠ .inj k) : (proceed s).SequencerOk := by
  have hj : s.seq.injRun = none := by
    have := h.injected
    cases e : s.seq.injRun <;> simp_all
  have hs : s.seq.suspended = none := by
    have := h.suspended
    cases e : s.seq.suspended <;> simp_all
  have go : s.seq.top = .idle ∨ s.seq.top = .running → (match s.seq.active with
      | .none => if s.seq.pendingSet = 0#8 then setTop .idle s else takeLowest s
      | .normal =>
        if s.seq.pendingSet ≠ 0#8 ∧ s.normalYields then takeLowest (setAside s)
        else if s.seq.item = none then beginItem .normal s else s
      | .inj _ => s).SequencerOk := by
    intro top
    have ntop : s.seq.top ≠ .queueWait := by grind
    split
    case h_1 a =>
      have hc := h.context a
      split
      case isTrue p =>
        exact idle_ok hc.1 hj hs hc.2 p (h.offLink hc.1) (h.noTenure hc.1) h.queue (h.holdNil ntop) a rfl
      · exact takeLowest_ok (h.takes ntop hc.1 (by assumption))
    case h_2 a =>
      have rtop : s.seq.top = .running := by
        have := h.idle
        grind
      split
      case isTrue p => exact takeLowest_ok (setAside_takes h rtop a p.1 p.2)
      · split
        case isTrue i => exact beginItem_ok h rtop i (by simp [a, Context.chain]) (by simp [a])
        case isFalse i =>
          refine h.ok (by grind) ?_ (by grind)
          cases e : s.seq.item <;> simp_all
    case h_3 k a => exact absurd a (active k)
  unfold proceed
  split
  · exact go (.inl (by assumption))
  · exact go (.inr (by assumption))
  · have := h.running
    exact h.ok (by grind) (by grind) (by grind)

theorem endPass_active (a : Bool) (s : State) : (endPass a s).seq.active = s.seq.active := by
  have h : ∀ r, (raise .passEnd (offer r (copyMask .normal s.seq.pass.run.mask s))).seq.active = s.seq.active :=
    fun r => (offer_offering r _).active.trans (copyMask_quiet _ _ _).active
  unfold endPass
  dsimp only
  split <;> exact h _

theorem beginPass_normal (h : s.seq.active = .normal) : (beginPass s).seq.active = .normal := by
  have e : (setPass { s.seq.pass with
      present := true, number := s.seq.pass.number + 1#16,
      run := { position := (s.nextExpected .normal 0).getD 0 } } s).seq.active = .normal := h
  unfold beginPass
  dsimp only
  split <;> split <;> first | exact e | rfl

theorem followPass_active (s : State) (k : Fin 8) : (followPass s).seq.active ≠ .inj k := by
  unfold followPass
  dsimp only
  split
  · rw [beginPass_normal rfl]; exact Context.noConfusion
  · exact Context.noConfusion

theorem completeCurrent_normal {it : ItemRun} {o : ItemOutcome} {v : Option Value} (h : s.seq.active = .normal)
    (k : Fin 8) : (completeCurrent .normal it o v s).seq.active ≠ .inj k := by
  have e : (finishItem .normal it o v s).seq.active = .normal := (completeItem_offering ..).active.trans h
  unfold completeCurrent advance
  split
  · simp [updateRun, e]
  · exact followPass_active _ k

theorem restore_ok (h : Ready s) (r : Suspension) (suspended : s.seq.suspended = some r) (top : s.seq.top = .running)
    (item : s.seq.item = none) (run : s.seq.injRun = none) : (restore r s).SequencerOk := by
  have hh := h.holdNil (by simp [top])
  have hp := h.pass (.inr (by simp [suspended]))
  have ht := h.noTenure item
  have ho := h.offLink item
  have hr := h.suspendedRestarts r suspended
  have runs : Runs .normal (setActive .normal (setSuspended none s)) := by
    refine ⟨top, rfl, ?_, fun _ => hp, ?_, ?_, h.members, ho, ?_⟩
    · simp [run]
    · simp
    · simp
    · exact ⟨by simp [top, hh], h.queue, by simp [hh], by simp [hh]⟩
  have resumed : ∀ i : ItemRun, i.restarts ≤ 3 → i.phase ≠ .onLink → i.phase ≠ .onLinkFetch →
      (setItem (some i) (setActive .normal (setSuspended none s))).SequencerOk := by
    intro i ir i1 i2
    have off : (setItem (some i) (setActive .normal (setSuspended none s))).itemOnLink = false := by
      simp [State.itemOnLink, i1, i2]
    constructor
    · simp [top]
    · simp [top]
    · simp [top]
    · exact h.waiting
    · simp
    · simp [run]
    · simp
    · simp [hp]
    · simp
    · simp only [setItem_seq]; rintro j ⟨⟩; exact ir
    · simp
    · exact h.members
    · simp [ht]
    · simp [off]
    · rw [off]; exact ⟨by simp, fun q => absurd q ho⟩
    · simp [top]
    · exact h.queue
    · exact h.hold
    · exact h.full
  have done : ∀ o, (proceed (completeCurrent .normal r.toRun o none (setActive .normal (setSuspended none s)))).SequencerOk := by
    intro o
    exact proceed_ok (completeCurrent_ready runs _ _ _) (completeCurrent_normal rfl)
  unfold restore
  dsimp only
  split
  · exact done _
  · split
    · split
      · refine resumed _ ?_ (by simp [ItemRun.restarted]) (by simp [ItemRun.restarted])
        have : r.restarts < 3 := by assumption
        simp [ItemRun.restarted, Suspension.toRun]; omega
      · exact done _
    · refine resumed _ hr ?_ ?_
      · simp [Suspension.toRun]; split <;> simp
      · simp [Suspension.toRun]; split <;> simp

theorem handOver_ok (h : Ready s) {k : Fin 8} (active : s.seq.active = .inj k) (run : s.seq.injRun = none)
    (top : s.seq.top = .idle ∨ s.seq.top = .running) : (handOver s).SequencerOk := by
  have hi := (h.ended k active run).1
  have hr : s.seq.top = .running := by
    have := h.idle
    grind
  have ho := h.offLink hi
  unfold handOver
  split
  · exact takeLowest_ok (h.takes (by grind) hi (by assumption))
  · split
    case h_1 r e => exact restore_ok h r e hr hi run
    case h_2 e =>
      split
      case isTrue p =>
        have hn : Ready (setActive .normal s) := by
          constructor
          · simp [hr]
          · simp [hr]
          · exact h.running
          · exact h.waiting
          · simp
          · simp [run]
          · simp
          · simp [p]
          · simp [e]
          · exact h.restarts
          · exact h.suspendedRestarts
          · exact h.members
          · exact h.tenure
          · exact h.held
          · exact h.onLink
          · exact h.stopping
          · exact h.queue
          · exact h.hold
          · exact h.full
        exact beginItem_ok hn hr hi rfl (by simp)
      case isFalse p =>
        exact idle_ok hi run e (by simpa using p) (by simp at *; assumption) ho (h.noTenure hi) h.queue
          (h.holdNil (by grind)) rfl rfl

theorem schedule_ok (h : Ready s) : (schedule s).SequencerOk := by
  have go : s.seq.top = .idle ∨ s.seq.top = .running → (match s.seq.active, s.seq.injRun with
      | .inj _, none => handOver s
      | .inj k, some _ => if s.seq.item = none then beginItem (.inj k) s else s
      | _, _ => proceed s).SequencerOk := by
    intro top
    split
    case h_1 k a b => exact handOver_ok h a b top
    case h_2 k r a b =>
      have hr : s.seq.top = .running := by
        have := h.idle
        grind
      split
      case isTrue i => exact beginItem_ok h hr i (by simp [a, Context.chain]) (by simp [b])
      case isFalse i =>
        refine h.ok (by grind) ?_ (by simp [b])
        cases e : s.seq.item <;> simp_all
    case h_3 a b =>
      refine proceed_ok h ?_
      intro k e
      cases r : s.seq.injRun with
      | none => exact a k e r
      | some x => exact b k x e r
  unfold schedule
  split
  · exact go (.inl (by assumption))
  · exact go (.inr (by assumption))
  · have := h.running
    exact h.ok (by grind) (by grind) (by grind)

end Sys2Proof.Machine
end

