-- ==== Sys2Proof/Laws/Arbiter.lean ====
section
/-! SUPPORT. Decisions and the ends of transactions: from any settled state the arbiter's decision, and the end of
the transaction with the engine, leave a settled state with no grant left unmade (R9, R14, R17, R129 to R138). -/
namespace Sys2Proof.Machine

variable {s t u : State}

/-! ## Taking a transaction -/

theorem touchSuspended_eq (a : BitVec 5) (s : State) : ∃ g : Suspension → Bool,
    touchSuspended a s = { s with seq := { s.seq with
      suspended := s.seq.suspended.map fun r => { r with touched := g r } } } := by
  unfold touchSuspended
  split
  case h_1 r e =>
    split
    · refine ⟨fun _ => true, ?_⟩
      simp only [e, Option.map_some]
    · refine ⟨fun r => r.touched, ?_⟩
      dsimp only
      rw [Option.map_id']
  case h_2 e =>
    refine ⟨fun _ => true, ?_⟩
    rw [e, Option.map_none, ← e]

theorem touchActive_eq (a : BitVec 5) (s : State) : ∃ f : ItemRun → Bool,
    touchActive a s = { s with seq := { s.seq with
      item := s.seq.item.map fun i => { i with touched := f i } } } := by
  unfold touchActive
  split
  case h_1 r e =>
    split
    · refine ⟨fun _ => true, ?_⟩
      simp only [e, Option.map_some]
    · refine ⟨fun r => r.touched, ?_⟩
      dsimp only
      rw [Option.map_id']
  case h_2 e =>
    refine ⟨fun _ => true, ?_⟩
    rw [e, Option.map_none, ← e]

/-- The direct slots after a start notice (R9, R143). -/
def Requester.activate (r : Requester) (d : DirectUnit) : DirectUnit :=
  match r with
  | .sequencer => d
  | .direct tag => { d with slots := d.slots.set tag { d.slots[tag] with state := .active } }

/-- A start notice sets touched flags and makes the slot of a direct transaction ACTIVE, and nothing more (R9,
R99, R143). -/
theorem startNotice_eq (x : Transaction) (s : State) : ∃ (f : ItemRun → Bool) (g : Suspension → Bool),
    startNotice x s = { s with
      seq := { s.seq with
        item := s.seq.item.map fun i => { i with touched := f i },
        suspended := s.seq.suspended.map fun r => { r with touched := g r } },
      direct := x.requester.activate s.direct } := by
  obtain ⟨g, hg⟩ := touchSuspended_eq x.address s
  obtain ⟨f, hf⟩ := touchActive_eq x.address (touchSuspended x.address s)
  unfold startNotice
  cases hr : x.requester with
  | sequencer =>
    refine ⟨fun i => i.touched, g, ?_⟩
    simp [hg, Requester.activate]
  | direct tag =>
    refine ⟨f, g, ?_⟩
    dsimp only
    rw [hf, hg]
    rfl

/-- What the engine holds right after it has taken a transaction (R8). -/
structure Taken (r : Requester) (s t : State) : Prop where
  seq : ∃ (f : ItemRun → Bool) (g : Suspension → Bool), t.seq = { s.seq with
        item := s.seq.item.map fun i => { i with touched := f i },
        suspended := s.seq.suspended.map fun r => { r with touched := g r } }
  direct : t.direct = r.activate s.direct
  phase : t.link.phase = .sending
  timer : t.link.timer.isSome = true
  txn : ∃ x, t.link.txn = some x ∧ x.requester = r ∧ x.orphan = false ∧ x.attempt = 1 ∧
    (x.value.isSome = true ↔ x.op = .write)
  arb : t.arb = s.arb
  results : t.results = s.results
  tables : t.tables = s.tables

theorem Op.writeValue_isSome (o : Op) (v : Value) : (o.writeValue v).isSome = true ↔ o = .write := by
  unfold Op.writeValue
  split <;> simp_all

theorem takeTransaction_taken (r : Requester) (a : BitVec 5) (o : Op) (i : Byte) (l : BitVec 3) (v : Value)
    (p : Params) (s : State) : Taken r s (takeTransaction r a o i l (o.writeValue v) p s) := by
  unfold takeTransaction
  dsimp only
  have hv := o.writeValue_isSome v
  generalize hx : Transaction.mk r a o i l (o.writeValue v) p s.link.rate 1 false = x
  obtain ⟨f, g, e⟩ := startNotice_eq x s
  rw [e]
  subst hx
  exact ⟨⟨f, g, rfl⟩, rfl, rfl, rfl, ⟨_, rfl, rfl, rfl, rfl, hv⟩, rfl, rfl, rfl⟩

/-! ## The invariants under a transaction taken -/

theorem Taken.linkOk {r : Requester} (h : Taken r s t) : t.LinkOk := by
  obtain ⟨x, hx, _, _, ha, hv⟩ := h.txn
  have hp := h.phase
  constructor
  · simp [hp]
  · simp [hx]
  · intro _; exact h.timer
  · intro y hy
    obtain rfl : x = y := by simpa [hx] using hy
    omega
  · simp [hp]
  · intro y hy
    obtain rfl : x = y := by simpa [hx] using hy
    exact hv

/-- A transaction of the Sequencer is taken for the item in progress (R63, R66, R69). -/
theorem sendWithGrant_ok (h : s.SequencerOk) (i : ItemRun) (item : s.seq.item.isSome = true) (hi : i.restarts ≤ 3)
    {p : Phase} (hp : p = .onLink ∨ p = .onLinkFetch) (o : Op) : (sendWithGrant i p o s).SequencerOk := by
  have k := takeTransaction_taken .sequencer (s.stationOf i.item).address o (s.itemAt i.item).index (s.itemAt i.item).length
    (s.itemAt i.item).value ⟨(s.stationOf i.item).timeout, (s.stationOf i.item).retry, (s.stationOf i.item).backoff⟩
    (setTenure true (setItem (some { i with phase := p }) s))
  change Taken _ _ (sendWithGrant i p o s) at k
  have top := h.running.2 item
  have hh := h.ready.holdNil (by simp [top])
  generalize sendWithGrant i p o s = t at k
  obtain ⟨f, g, e⟩ := k.seq
  obtain ⟨x, hx, hr, ho, _⟩ := k.txn
  simp only [setTenure_seq, setItem_seq, Option.map_some] at e
  have on : t.itemOnLink = true := by
    simp only [State.itemOnLink, e]
    rcases hp with rfl | rfl <;> rfl
  have tr : t.seqTransaction false := ⟨x, hx, hr, ho⟩
  have hres : t.results = s.results := k.results
  constructor
  · simp [e, top]
  · simp [e, top]
  · simp [e, top]
  · rw [hres]; simpa [e] using h.waiting
  · intro q
    have := (h.context (by simpa [e] using q)).1
    simp [this] at item
  · rw [e]; exact h.injected
  · rw [e]
    intro k a b
    have := h.ended k a b
    simp [top] at this
  · have := h.pass; simpa [e] using this
  · have := h.suspended; simpa [e] using this
  · rw [e]; rintro j ⟨⟩; exact hi
  · rw [e]
    intro r q
    simp only [Option.map_eq_some_iff] at q
    obtain ⟨r', q1, q2⟩ := q
    have := h.suspendedRestarts r' q1
    rw [← q2]; exact this
  · intro j q
    have := h.members j (by simpa [State.isPending, e] using q)
    rw [k.tables]; exact this
  · intro _
    rw [e]
    refine ⟨_, rfl, ?_⟩
    rcases hp with rfl | rfl <;> simp
  · intro _; rw [k.arb]; rfl
  · simp [on, tr]
  · simp [e, top]
  · rw [hres]; exact h.queue
  · rw [hres]; exact h.hold
  · rw [hres]; exact h.full

/-- A direct transaction is taken by an idle engine. -/
theorem Taken.direct_sequencerOk {tag : Fin 4} (k : Taken (.direct tag) s t) (h : s.SequencerOk)
    (free : s.link.txn = none) : t.SequencerOk := by
  obtain ⟨f, g, e⟩ := k.seq
  obtain ⟨x, hx, hr, ho, _⟩ := k.txn
  have hres : t.results = s.results := k.results
  have off : s.itemOnLink = false := by
    have := h.onLink
    cases hi : s.itemOnLink
    · rfl
    · obtain ⟨y, hy, _⟩ := this.1 hi
      simp [free] at hy
  have off' : t.itemOnLink = false := by
    simp only [State.itemOnLink, e] at off ⊢
    cases hi : s.seq.item <;> simp_all
  have none' : ∀ b, ¬ t.seqTransaction b := by
    rintro b ⟨y, hy, hs, _⟩
    obtain rfl : x = y := by simpa [hx] using hy
    simp [hr] at hs
  constructor
  · simpa [e] using h.stopped
  · simpa [e] using h.idle
  · simpa [e] using h.running
  · rw [hres]; simpa [e] using h.waiting
  · have := h.context; simpa [e] using this
  · rw [e]; exact h.injected
  · have := h.ended; simpa [e] using this
  · have := h.pass; simpa [e] using this
  · have := h.suspended; simpa [e] using this
  · rw [e]
    intro r q
    simp only [Option.map_eq_some_iff] at q
    obtain ⟨r', q1, q2⟩ := q
    have := h.restarts r' q1
    rw [← q2]; exact this
  · rw [e]
    intro r q
    simp only [Option.map_eq_some_iff] at q
    obtain ⟨r', q1, q2⟩ := q
    have := h.suspendedRestarts r' q1
    rw [← q2]; exact this
  · intro j q
    have := h.members j (by simpa [State.isPending, e] using q)
    rw [k.tables]; exact this
  · rw [k.arb]
    intro q
    obtain ⟨i, hi, hp⟩ := h.tenure q
    exact ⟨{ i with touched := f i }, by simp [e, hi], hp⟩
  · simp [off']
  · simp [off', none']
  · have := h.stopping
    intro q
    obtain ⟨y, hy, _⟩ := this (by simpa [e] using q)
    simp [free] at hy
  · rw [hres]; exact h.queue
  · rw [hres]; exact h.hold
  · rw [hres]; exact h.full

/-! ## Decisions -/

/-- What holds before and after a decision. -/
structure Settled (s : State) : Prop where
  link : s.LinkOk
  direct : s.DirectOk
  sequencer : s.SequencerOk
  lock : s.LockOk

theorem undecidable_decided (a : s.arb.apart = false) (h : s.canDecide = false) : s.Decided :=
  ⟨by simp [a], by simp [h]⟩

theorem busy_decided (a : s.arb.apart = false) (h : s.link.phase ≠ .idle) : s.Decided :=
  undecidable_decided a (by simp [State.canDecide, h])

theorem paused_decided (a : s.arb.apart = false) (h : s.arb.pause.isSome = true) : s.Decided :=
  undecidable_decided a (by cases e : s.arb.pause <;> simp_all [State.canDecide])

/-- Where no decision can be made, no grant is left to a happening of its own. -/
theorem State.Decided.apart (h : s.Decided) (c : s.canDecide = false) : s.arb.apart = false := by
  cases a : s.arb.apart
  · rfl
  · simp [(h.1 a).1] at c

theorem State.Decided.apart_busy (h : s.Decided) (c : s.link.phase ≠ .idle) : s.arb.apart = false :=
  h.apart (by simp [State.canDecide, c])

theorem State.Decided.apart_locked (h : s.Decided) (c : s.arb.lock ≠ .none) : s.arb.apart = false :=
  h.apart (by simp [State.canDecide, c])

theorem grantDirect_taken (tag : Fin 4) (s : State) : ∃ x : State,
    Taken (.direct tag) x (grantDirect tag s) ∧ x.seq = s.seq ∧ x.results = s.results ∧ x.tables = s.tables ∧
    x.link = s.link ∧ x.arb.pause = s.arb.pause ∧ x.arb.apart = s.arb.apart ∧ x.arb.tenure = s.arb.tenure ∧
    x.direct = { s.direct with order := s.direct.order.erase tag } ∧
    x.arb.lock = (setOrder (s.direct.order.erase tag) s).lockAfterGrant tag := by
  unfold grantDirect
  dsimp only
  refine ⟨_, takeTransaction_taken .., ?_⟩
  split <;> exact ⟨rfl, rfl, rfl, rfl, rfl, rfl, rfl, rfl, rfl⟩

theorem SequencerOk_of_eq (h : s.SequencerOk) (seq : t.seq = s.seq) (results : t.results = s.results)
    (tables : t.tables = s.tables) (link : t.link = s.link) (tenure : t.arb.tenure = s.arb.tenure) : t.SequencerOk := by
  have e1 : t.itemOnLink = s.itemOnLink := by simp [State.itemOnLink, seq]
  have e2 : ∀ b, t.seqTransaction b = s.seqTransaction b := by intro b; simp [State.seqTransaction, link]
  have e3 : ∀ k, t.isPending k = s.isPending k := by intro k; simp [State.isPending, seq]
  cases h
  constructor <;> simp only [seq, results, tables, tenure, e1, e2, e3] <;> assumption

theorem grantDirect_settled (tag : Fin 4) (idle : s.link.phase = .idle) (l : s.LinkOk) (d : s.DirectOk)
    (q : s.SequencerOk) (pause : s.arb.pause = none) (apart : s.arb.apart = false) :
    Settled (grantDirect tag s) ∧ (grantDirect tag s).Decided := by
  obtain ⟨x, k, e1, e2, e3, e4, e5, ea, e6, e7, e8⟩ := grantDirect_taken tag s
  have free := (l.idle idle).1
  have noActive : ∀ u : Fin 4, (s.direct.slots[u]).state ≠ .active := by
    intro u a
    obtain ⟨y, hy, _⟩ := (d.active u).1 a
    simp [free] at hy
  generalize grantDirect tag s = t at k
  have qx := SequencerOk_of_eq q e1 e2 e3 e4 e6
  have hslots : t.direct.slots = s.direct.slots.set tag { s.direct.slots[tag] with state := .active } := by
    rw [k.direct, e7]; rfl
  have horder : t.direct.order = s.direct.order.erase tag := by
    rw [k.direct, e7]; rfl
  have hget : ∀ u : Fin 4, t.direct.slots[u] = if tag = u then { s.direct.slots[u] with state := .active } else s.direct.slots[u] := by
    intro u
    simp only [hslots, Fin.getElem_fin, Vector.getElem_set]
    by_cases c : tag = u
    · subst c; simp
    · have : tag.val ≠ u.val := fun z => c (Fin.ext z)
      simp [c, this]
  have hurg : ∀ u : Fin 4, t.urgent u = s.urgent u := by
    intro u
    simp only [State.urgent, hget]
    split <;> rfl
  obtain ⟨y, hy, hr, ho, ha⟩ := k.txn
  refine ⟨⟨k.linkOk, ?_, k.direct_sequencerOk qx (by rw [e4]; exact free), ?_⟩,
    busy_decided (by rw [k.arb, ea, apart]) (by simp [k.phase])⟩
  · constructor
    · rw [horder]; exact d.once.erase _
    · intro u
      rw [horder, d.once.mem_erase_iff, d.queued u, hget]
      by_cases c : tag = u
      · subst c; simp
      · simp [c, Ne.symm c]
    · rw [horder]
      refine List.Pairwise.imp ?_ (d.urgentFirst.sublist List.erase_sublist)
      intro a b; rw [hurg, hurg]; exact id
    · intro u
      rw [hget]
      by_cases c : tag = u
      · subst c; simp [hy, hr]
      · simpa [c, hy, hr] using noActive u
  · have hlock : t.arb.lock = (setOrder (s.direct.order.erase tag) s).lockAfterGrant tag := by rw [k.arb, e8]
    constructor
    · intro _ _; exact ⟨y, tag, hy, hr⟩
    · intro n e
      rw [hlock] at e
      unfold State.lockAfterGrant at e
      split at e
      · injection e with e
        have m := List.mem_of_find?_eq_some e
        have p := List.find?_some e
        rw [horder, hurg]
        refine ⟨m, ?_⟩
        cases z : s.urgent n
        · rfl
        · change (!s.urgent n) = true at p
          simp [z] at p
      · split at e <;> simp at e
    · intro _; exact ⟨y, tag, hy, hr⟩
    · intro u d' e
      rw [hlock] at e
      unfold State.lockAfterGrant at e
      split at e
      · simp at e
      · split at e <;> simp at e
    · rw [k.arb, e5, pause]; simp

theorem State.SequencerOk.runs (h : s.SequencerOk) {c : Chain} (item : s.seq.item.isSome = true)
    (active : s.seq.active.chain = some c) (off : s.itemOnLink = false) : Runs c s := by
  have top := h.running.2 item
  have hh := h.ready.holdNil (by simp [top])
  refine ⟨top, active, ?_, ?_, ?_, h.suspendedRestarts, h.members, ?_, ⟨h.waiting, h.queue, by simp [hh], h.full⟩⟩
  · constructor
    · intro q
      obtain ⟨k, e⟩ := h.injected q
      rw [e] at active
      exact ⟨k, by simpa [Context.chain] using active.symm⟩
    · rintro ⟨k, rfl⟩
      have e := Context.chain_inj.1 active
      cases r : s.seq.injRun with
      | none => have := h.ended k e r; simp [top] at this
      | some _ => rfl
  · rintro (rfl | q)
    · exact h.pass (.inl (Context.chain_normal.1 active))
    · exact h.pass (.inr q)
  · intro q
    obtain ⟨k, e⟩ := h.suspended q
    rw [e] at active
    exact ⟨k, by simpa [Context.chain] using active.symm⟩
  · intro q
    have := h.onLink.2 q
    simp [off] at this

theorem giveBack_settled (h : Settled s) (apart : s.arb.apart = false) {c : Chain} (idle : s.link.phase = .idle) (lock : s.arb.lock = .none)
    (item : s.seq.item.isSome = true) (active : s.seq.active.chain = some c) (off : s.itemOnLink = false)
    (i : ItemRun) (o : ItemOutcome) : Settled (giveBack c i o s) ∧ (giveBack c i o s).Decided := by
  unfold giveBack
  generalize hx : ({ s with arb := { s.arb with pause := some (s.after 1) } } : State) = x
  have qx : x.SequencerOk := by
    subst hx; exact SequencerOk_of_eq h.sequencer rfl rfl rfl rfl rfl
  have rx : Runs c x := by
    refine qx.runs ?_ ?_ ?_ <;> subst hx <;> assumption
  have f := (completeCurrent_seqFrame c i o none x).trans (schedule_seqFrame _)
  have q := schedule_ok (completeCurrent_ready rx i o none)
  generalize schedule (completeCurrent c i o none x) = t at f q
  have ep : t.arb.pause = some (s.after 1) := by rw [f.arb]; subst hx; rfl
  have el : t.arb.lock = .none := by rw [f.arb]; subst hx; exact lock
  have ea : t.arb.apart = false := by rw [f.arb]; subst hx; exact apart
  have eh : t.link = s.link := by rw [f.link]; subst hx; rfl
  have ed : t.direct = s.direct := by rw [f.direct]; subst hx; rfl
  refine ⟨⟨?_, ?_, q, ?_⟩, paused_decided ea (by simp [ep])⟩
  · have := h.link
    cases this
    constructor <;> simp only [eh] <;> assumption
  · have := h.direct
    cases this
    constructor <;> simp only [eh, ed, State.urgent] <;> assumption
  · constructor <;> simp [el, ep, eh, idle]

theorem sendWithGrant_settled (h : Settled s) (apart : s.arb.apart = false) (idle : s.link.phase = .idle) (lock : s.arb.lock = .none)
    (pause : s.arb.pause = none)
    (item : s.seq.item.isSome = true) (i : ItemRun) (hi : i.restarts ≤ 3) {p : Phase}
    (hp : p = .onLink ∨ p = .onLinkFetch) (o : Op) :
    Settled (sendWithGrant i p o s) ∧ (sendWithGrant i p o s).Decided := by
  have q := sendWithGrant_ok h.sequencer i item hi hp o
  have k := takeTransaction_taken .sequencer (s.stationOf i.item).address o (s.itemAt i.item).index (s.itemAt i.item).length
    (s.itemAt i.item).value ⟨(s.stationOf i.item).timeout, (s.stationOf i.item).retry, (s.stationOf i.item).backoff⟩
    (setTenure true (setItem (some { i with phase := p }) s))
  change Taken _ _ (sendWithGrant i p o s) at k
  generalize sendWithGrant i p o s = t at q k
  have ed : t.direct = s.direct := k.direct
  have ea : t.arb = { s.arb with tenure := true } := k.arb
  obtain ⟨y, hy, hr, ho, ha⟩ := k.txn
  have noActive : ∀ u : Fin 4, (s.direct.slots[u]).state ≠ .active := by
    intro u a
    obtain ⟨y, hy, _⟩ := (h.direct.active u).1 a
    simp [(h.link.idle idle).1] at hy
  refine ⟨⟨k.linkOk, ?_, q, ?_⟩, busy_decided (by simp [ea, apart]) (by simp [k.phase])⟩
  · have d := h.direct
    constructor
    · rw [ed]; exact d.once
    · rw [ed]; exact d.queued
    · simp only [ed, State.urgent]; exact d.urgentFirst
    · intro u
      rw [ed]
      simpa [hy, hr] using noActive u
  · constructor <;> simp [ea, lock, pause]

theorem grantSequencer_settled (h : Settled s) (apart : s.arb.apart = false) (idle : s.link.phase = .idle) (lock : s.arb.lock = .none)
    (pause : s.arb.pause = none) (req : s.seqRequest = true) :
    Settled (grantSequencer s) ∧ (grantSequencer s).Decided := by
  unfold grantSequencer
  dsimp only
  generalize hx : ({ s with arb := { s.arb with lastGrantee := .sequencer, boundaryGrant := false } } : State) = x
  have hs : Settled x := by
    subst hx
    refine ⟨?_, ?_, SequencerOk_of_eq h.sequencer rfl rfl rfl rfl rfl, ?_⟩
    · cases h.link; constructor <;> assumption
    · cases h.direct; constructor <;> assumption
    · cases h.lock; constructor <;> assumption
  have ix : x.link.phase = .idle := by subst hx; exact idle
  have lx : x.arb.lock = .none := by subst hx; exact lock
  have px : x.arb.pause = none := by subst hx; exact pause
  have ax : x.arb.apart = false := by subst hx; exact apart
  have qx : x.seqRequest = true := by subst hx; exact req
  have contextx := hs.sequencer.context
  have sx : x.seq = s.seq := by subst hx; rfl
  split
  case h_1 c i ec ei =>
    rw [← sx] at ec ei
    have item : x.seq.item.isSome = true := by simp [ei]
    have hi := hs.sequencer.restarts i ei
    split
    case h_1 ph =>
      have off : x.itemOnLink = false := by simp [State.itemOnLink, ei, ph]
      unfold grantFirst
      split
      · exact giveBack_settled hs ax ix lx item ec off _ _
      · exact sendWithGrant_settled hs ax ix lx px item _ hi (.inl rfl) _
    case h_2 ph =>
      have off : x.itemOnLink = false := by simp [State.itemOnLink, ei, ph]
      unfold grantFetch
      split
      · exact giveBack_settled hs ax ix lx item ec off _ _
      · split
        · split
          · refine sendWithGrant_settled hs ax ix lx px item _ ?_ (.inl rfl) _
            have : i.restarts < 3 := by assumption
            simp [ItemRun.restarted]; omega
          · exact giveBack_settled hs ax ix lx item ec off _ _
        · exact sendWithGrant_settled hs ax ix lx px item _ hi (.inr rfl) _
    case h_3 n1 n2 =>
      exfalso
      simp only [State.seqRequest, ei] at qx
      cases hp : i.phase <;> simp_all
  case h_2 no =>
    rw [← sx] at no
    exfalso
    unfold State.seqRequest at qx
    split at qx
    case h_1 i ei =>
      cases ec : x.seq.active with
      | none => have := (contextx ec).1; simp [ei] at this
      | normal => exact no .normal i (by simp [ec, Context.chain]) ei
      | inj k => exact no (.inj k) i (by simp [ec, Context.chain]) ei
    · simp at qx

theorem decision_sequencer (h : s.decision = .sequencer) : s.seqRequest = true := by
  unfold State.decision at h
  repeat' split at h
  all_goals simp_all

theorem settleApart_settled (h : Settled s) : Settled (settleApart s) := by
  obtain ⟨l, d, q, k⟩ := h
  refine ⟨?_, ?_, SequencerOk_of_eq q rfl rfl rfl rfl rfl, ?_⟩
  · cases l; constructor <;> assumption
  · cases d; constructor <;> assumption
  · cases k; constructor <;> assumption

/-- After a decision, everything holds again and no grant is left unmade (R129, R130, R133). -/
theorem decideNow_settled (h : Settled s) : Settled (decideNow s) ∧ (decideNow s).Decided := by
  have hs := settleApart_settled h
  unfold decideNow
  split
  case isTrue c =>
    simp only [State.canDecide, Bool.and_eq_true, beq_iff_eq] at c
    obtain ⟨⟨idle, pause⟩, lock⟩ := c
    split
    case h_1 e => exact ⟨hs, by simp [settleApart], fun _ _ => e⟩
    case h_2 e => exact grantSequencer_settled hs rfl idle lock pause (decision_sequencer e)
    case h_3 t e => exact grantDirect_settled t idle hs.link hs.direct hs.sequencer pause rfl
  case isFalse c => exact ⟨hs, undecidable_decided rfl (Bool.eq_false_of_not_eq_true c)⟩

/-- A grant left to a happening of its own is one that a decision would make. -/
theorem arbitrate_settled (h : Settled s) : Settled (arbitrate s) ∧ (arbitrate s).Decided := by
  obtain e | ⟨c, d, _, e⟩ := arbitrate_cases s <;> rw [e]
  · exact decideNow_settled h
  · obtain ⟨l, b, q, k⟩ := h
    refine ⟨⟨?_, ?_, SequencerOk_of_eq q rfl rfl rfl rfl rfl, ?_⟩, fun _ => ⟨c, d⟩, by simp⟩
    · cases l; constructor <;> assumption
    · cases b; constructor <;> assumption
    · cases k; constructor <;> assumption

end Sys2Proof.Machine
end

