-- ==== Sys2Proof/Laws/Transactions.lean ====
section
/-! SUPPORT. The end of a transaction keeps everything Safety.lean says of the moving parts: the end notices to the
Sequencer and to the Direct Request Unit, what the arbiter does after a direct transaction, and the end of an attempt. -/

namespace Sys2Proof.Machine

variable {s t u : State}

theorem Settled.congr (h : Settled s) (seq : t.seq = s.seq) (queue : t.results.queue = s.results.queue)
    (hold : t.results.hold = s.results.hold) (inj : t.tables.inj = s.tables.inj) (link : t.link = s.link)
    (tenure : t.arb.tenure = s.arb.tenure) (lock : t.arb.lock = s.arb.lock) (pause : t.arb.pause = s.arb.pause)
    (slots : t.direct.slots = s.direct.slots) (order : t.direct.order = s.direct.order) : Settled t := by
  have e1 : t.itemOnLink = s.itemOnLink := by simp [State.itemOnLink, seq]
  have e2 : ∀ b, t.seqTransaction b = s.seqTransaction b := by intro b; simp [State.seqTransaction, link]
  have e3 : ∀ k, t.isPending k = s.isPending k := by intro k; simp [State.isPending, seq]
  have e4 : ∀ k, t.urgent k = s.urgent k := by intro k; simp [State.urgent, slots]
  obtain ⟨a, b, c, d⟩ := h
  refine ⟨?_, ?_, ?_, ?_⟩
  · cases a; constructor <;> simp only [link] <;> assumption
  · cases b; constructor <;> simp only [link, slots, order, e4] <;> assumption
  · cases c; constructor <;> simp only [seq, queue, hold, inj, tenure, e1, e2, e3] <;> assumption
  · cases d; constructor <;> simp only [link, lock, pause, order, e4] <;> assumption

/-- Everything but the tables and the slots: what a happening leaves of the moving parts. -/
structure Coherent (s : State) : Prop extends Settled s where
  decided : s.Decided

theorem arbitrate_coherent (h : Settled s) : Coherent (arbitrate s) :=
  ⟨(arbitrate_settled h).1, (arbitrate_settled h).2⟩

theorem decideNow_coherent (h : Settled s) : Coherent (decideNow s) :=
  ⟨(decideNow_settled h).1, (decideNow_settled h).2⟩

theorem Coherent.congr (h : Coherent s) (seq : t.seq = s.seq) (queue : t.results.queue = s.results.queue)
    (hold : t.results.hold = s.results.hold) (inj : t.tables.inj = s.tables.inj) (link : t.link = s.link)
    (arb : t.arb = s.arb) (slots : t.direct.slots = s.direct.slots) (order : t.direct.order = s.direct.order) :
    Coherent t := by
  refine ⟨h.toSettled.congr seq queue hold inj link (by rw [arb]) (by rw [arb]) (by rw [arb]) slots order, ?_⟩
  have e1 : t.canDecide = s.canDecide := by simp [State.canDecide, link, arb]
  have e2 : t.decision = s.decision := by
    have e4 : ∀ k, t.urgent k = s.urgent k := by intro k; simp [State.urgent, slots]
    simp only [State.decision, order, State.seqRequest, seq, arb, e4, State.directWins]
    rfl
  have := h.decided
  unfold State.Decided at *
  rw [e1, e2, arb]
  exact this

theorem noticeHealth_eq (a : BitVec 5) (o : TxnOutcome) (s : State) :
    noticeHealth a o s = { s with window := (noticeHealth a o s).window, stations := (noticeHealth a o s).stations } := by
  unfold noticeHealth
  split
  · unfold moveHealth
    dsimp only
    repeat' split
    all_goals rfl
  · rfl

/-- The item's transaction has ended and the engine is free: the item moves on (R64, R65, R67, R152). -/
theorem itemTransactionEnd_ready {c : Chain} (h : Runs c s) (i : ItemRun) (hi : i.restarts ≤ 3) (on : i.phase = .onLink ∨ i.phase = .onLinkFetch)
    (o : TxnOutcome) (v : Option Value) : Ready (itemTransactionEnd c i o v s) := by
  unfold itemTransactionEnd
  split
  · split
    · exact endRun_ready (h.finish i _ _) (.inl rfl)
    · exact completeCurrent_ready h _ _ _
  · split
    · split
      · dsimp only
        have ht := h.top
        have ha := h.active
        generalize hj : ({ i with phase := _, touched := _, ackTime := _, convDue := _ } : ItemRun) = j
        have jr : j.restarts ≤ 3 := by subst hj; exact hi
        have jp : j.phase ≠ .grantWait ∧ j.phase ≠ .onLink ∧ j.phase ≠ .onLinkFetch := by
          subst hj; dsimp only; split <;> simp
        have off : (setItem (some j) s).itemOnLink = false := by simp [State.itemOnLink, jp]
        constructor
        · simp [ht]
        · simp [ht]
        · simp [ht]
        · exact h.sized.1
        · intro q
          simp only [setItem_seq] at q
          rw [q] at ha
          simp [Context.chain] at ha
        · intro q
          obtain ⟨k, rfl⟩ := h.injected.1 q
          exact ⟨k, Context.chain_inj.1 ha⟩
        · intro k q r
          simp only [setItem_seq] at q r
          have := h.injected.2 ⟨k, by simpa [q, Context.chain] using ha.symm⟩
          simp [r] at this
        · rintro (q | q)
          · simp only [setItem_seq] at q
            exact h.pass (.inl (by simpa [q, Context.chain] using ha.symm))
          · exact h.pass (.inr q)
        · intro q
          obtain ⟨k, rfl⟩ := h.suspended q
          exact ⟨k, Context.chain_inj.1 ha⟩
        · rintro _ ⟨⟩; exact jr
        · exact h.suspendedRestarts
        · exact h.members
        · intro _; exact ⟨j, rfl, jp.1⟩
        · simp [off]
        · rw [off]; exact ⟨by simp, fun q => absurd q h.offLink⟩
        · simp [ht]
        · exact h.sized.2
        · exact h.sized.3.trans (by omega)
        · exact h.sized.4
      · exact completeCurrent_ready h _ _ _
    · exact completeCurrent_ready h _ _ _
    case h_3 a b => rcases on with q | q <;> simp_all

theorem Settled.busy (h : Settled s) {x : Transaction} (txn : s.link.txn = some x) :
    s.link.phase ≠ .idle ∧ s.arb.pause = none ∧ ∀ t d, s.arb.lock ≠ .window t d := by
  have p : s.link.phase ≠ .idle := by
    intro q
    simp [(h.link.idle q).1] at txn
  refine ⟨p, ?_, ?_⟩
  · cases e : s.arb.pause with
    | none => rfl
    | some _ => exact absurd (h.lock.pause (by simp [e])).1 p
  · intro t d e
    exact p (h.lock.window t d e)

theorem idleLink : ∀ s : State, (engineIdle s).LinkOk := by
  intro s
  constructor <;> simp

theorem seqEndNotice_ok (h : Settled s) {x : Transaction} (txn : s.link.txn = some x)
    (req : x.requester = .sequencer) (o : TxnOutcome) (v : Option Value) :
    (seqEndNotice x o v (engineIdle s)).SequencerOk := by
  have q := h.sequencer
  have only : ∀ b, s.seqTransaction b ↔ x.orphan = b := by
    intro b
    constructor
    · rintro ⟨y, hy, _, hb⟩
      obtain rfl : x = y := by simpa [txn] using hy
      exact hb
    · exact fun e => ⟨x, txn, req, e⟩
  have none' : ∀ b, ¬ (engineIdle s).seqTransaction b := by
    rintro b ⟨y, hy, _⟩
    simp at hy
  unfold seqEndNotice
  split
  case isTrue orp =>
    have off : s.itemOnLink = false := by
      cases e : s.itemOnLink
      · rfl
      · have := (only false).1 (q.onLink.1 e)
        simp [orp] at this
    have base : ∀ top, (top = s.seq.top ∧ top ≠ .stopping ∨ s.seq.top = .stopping ∧ top = .stopped) →
        (setTop top (engineIdle s)).SequencerOk := by
      intro top ht
      have off' : (setTop top (engineIdle s)).itemOnLink = false := off
      cases q
      constructor
      case onLink => rw [off']; exact ⟨by simp, fun z => absurd z (none' false)⟩
      case held => simp [off']
      all_goals first | assumption | skip
      all_goals (simp at *; grind)
    split
    case isTrue top =>
      exact SequencerOk_of_eq (base .stopped (.inr ⟨top, rfl⟩)) rfl rfl rfl rfl rfl
    case isFalse top =>
      exact SequencerOk_of_eq (base s.seq.top (.inl ⟨rfl, top⟩)) rfl rfl rfl rfl rfl
  case isFalse orp =>
    have orp : x.orphan = false := by simpa using orp
    have on : s.itemOnLink = true := q.onLink.2 ((only false).2 orp)
    obtain ⟨i, hi⟩ : ∃ i, s.seq.item = some i := by
      cases e : s.seq.item with
      | none => simp [State.itemOnLink, e] at on
      | some i => exact ⟨i, rfl⟩
    have ph : i.phase = .onLink ∨ i.phase = .onLinkFetch := by simpa [State.itemOnLink, hi] using on
    have top := q.running.2 (by simp [hi])
    have hh := q.ready.holdNil (by simp [top])
    cases ha : s.seq.active.chain with
    | none =>
      have : s.seq.active = .none := by
        cases e : s.seq.active <;> simp_all [Context.chain]
      have := (q.context this).1
      simp [hi] at this
    | some c =>
      have e1 : (engineIdle s).seq.active.chain = some c := ha
      have e2 : (engineIdle s).seq.item = some i := hi
      rw [e1, e2]
      apply schedule_ok
      refine itemTransactionEnd_ready ?_ i (q.restarts i hi) ph o v
      refine ⟨top, ha, ?_, ?_, ?_, q.suspendedRestarts, q.members, none' false, ⟨q.waiting, q.queue, by simp [hh], q.full⟩⟩
      · constructor
        · intro z
          obtain ⟨k, e⟩ := q.injected z
          rw [e] at ha
          exact ⟨k, by simpa [Context.chain] using ha.symm⟩
        · rintro ⟨k, rfl⟩
          have e := Context.chain_inj.1 ha
          cases r : s.seq.injRun with
          | none => have := q.ended k e r; simp [top] at this
          | some _ => simp [r]
      · rintro (rfl | z)
        · exact q.pass (.inl (Context.chain_normal.1 ha))
        · exact q.pass (.inr z)
      · intro z
        obtain ⟨k, e⟩ := q.suspended z
        rw [e] at ha
        exact ⟨k, by simpa [Context.chain] using ha.symm⟩

/-- The engine is free and the Direct Request Unit has taken the end notice of slot tag. -/
theorem directEnd_base (h : Settled s) {x : Transaction} (txn : s.link.txn = some x) {tag : Fin 4}
    (req : x.requester = .direct tag) (o : TxnOutcome) (v : Option Value) :
    (directEndNotice tag o v (engineIdle s)).LinkOk ∧ (directEndNotice tag o v (engineIdle s)).DirectOk ∧
    (directEndNotice tag o v (engineIdle s)).SequencerOk := by
  have hact : (s.direct.slots[tag]).state = .active := (h.direct.active tag).2 ⟨x, txn, req⟩
  have hget : ∀ u : Fin 4, (directEndNotice tag o v (engineIdle s)).direct.slots[u] =
      if tag = u then { s.direct.slots[u] with state := .done, outcome := some o, value := v.getD 0#32 }
      else s.direct.slots[u] := by
    intro u
    simp only [directEndNotice, raise_direct, setSlot_direct, engineIdle_direct, Fin.getElem_fin, Vector.getElem_set]
    by_cases c : tag = u
    · subst c; simp
    · have : tag.val ≠ u.val := fun z => c (Fin.ext z)
      simp [c, this]
  have horder : (directEndNotice tag o v (engineIdle s)).direct.order = s.direct.order := by simp [directEndNotice]
  have hurg : ∀ u : Fin 4, (directEndNotice tag o v (engineIdle s)).urgent u = s.urgent u := by
    intro u
    simp only [State.urgent, hget]
    split <;> rfl
  have hlink : (directEndNotice tag o v (engineIdle s)).link = (engineIdle s).link := by simp [directEndNotice]
  have off : s.itemOnLink = false := by
    cases e : s.itemOnLink
    · rfl
    · obtain ⟨y, hy, hr, _⟩ := h.sequencer.onLink.1 e
      simp [txn] at hy
      subst hy
      simp [req] at hr
  refine ⟨?_, ?_, ?_⟩
  · constructor <;> simp [hlink]
  · constructor
    · rw [horder]; exact h.direct.once
    · intro u
      rw [horder, h.direct.queued u, hget]
      by_cases c : tag = u
      · subst c; have := hact; simp at this; simp [this]
      · simp [c]
    · rw [horder]
      refine List.Pairwise.imp ?_ h.direct.urgentFirst
      intro a b; rw [hurg, hurg]; exact id
    · intro u
      rw [hget, hlink]
      by_cases c : tag = u
      · subst c; simp
      · have := h.direct.active u
        simp [txn, req, c] at this
        simp [c, this]
  · have q := h.sequencer
    have e1 : (directEndNotice tag o v (engineIdle s)).itemOnLink = s.itemOnLink := rfl
    have e2 : ∀ b, (directEndNotice tag o v (engineIdle s)).seqTransaction b ↔ s.seqTransaction b := by
      intro b; simp [State.seqTransaction, hlink, txn, req]
    cases q
    constructor
    case onLink => rw [e1, e2]; assumption
    case held => rw [e1]; assumption
    case stopping => rw [e2]; assumption
    all_goals assumption

theorem Settled.lockNone (h : Settled s) {x : Transaction} (txn : s.link.txn = some x)
    (req : x.requester = .sequencer) : s.arb.lock = .none := by
  cases e : s.arb.lock with
  | none => rfl
  | held n =>
    obtain ⟨y, d, hy, hr⟩ := h.lock.held n e
    simp [txn] at hy; subst hy; simp [req] at hr
  | window d m => exact absurd e ((h.busy txn).2.2 d m)
  | lapsing =>
    obtain ⟨y, d, hy, hr⟩ := h.lock.lapsing e
    simp [txn] at hy; subst hy; simp [req] at hr

theorem afterDirect_coherent {tag : Fin 4} (l : s.LinkOk) (d : s.DirectOk) (q : s.SequencerOk)
    (idle : s.link.phase = .idle) (pause : s.arb.pause = none) (apart : s.arb.apart = false) :
    Coherent (afterDirect tag s) := by
  unfold afterDirect
  have none' : ∀ x : State, x.link = s.link → x.direct = s.direct → x.seq = s.seq → x.results = s.results →
      x.tables = s.tables → x.arb.tenure = s.arb.tenure → x.arb.pause = s.arb.pause →
      (x.arb.lock = .none ∨ ∃ a b, x.arb.lock = .window a b) → Settled x := by
    intro x h1 h2 h3 h4 h5 h6 h7 h8
    have e4 : ∀ k, x.urgent k = s.urgent k := by intro k; simp [State.urgent, h2]
    refine ⟨?_, ?_, SequencerOk_of_eq q h3 h4 h5 h1 h6, ?_⟩
    · cases l; constructor <;> simp only [h1] <;> assumption
    · cases d; constructor <;> simp only [h1, h2, e4] <;> assumption
    · constructor
      · intro n e; rcases h8 with h8 | ⟨a, b, h8⟩ <;> simp [h8] at e
      · intro n e; rcases h8 with h8 | ⟨a, b, h8⟩ <;> simp [h8] at e
      · intro e; rcases h8 with h8 | ⟨a, b, h8⟩ <;> simp [h8] at e
      · intro _ _ _; rw [h1]; exact idle
      · simp [h7, pause]
  split
  · split
    · split
      · have := grantDirect_settled ‹Fin 4› idle l d q pause apart
        exact ⟨this.1, this.2⟩
      · refine ⟨none' _ rfl rfl rfl rfl rfl rfl rfl (.inr ⟨_, _, rfl⟩), ?_⟩
        exact undecidable_decided apart (by simp [State.canDecide])
    · exact decideNow_coherent (none' _ rfl rfl rfl rfl rfl rfl rfl (.inl rfl))
  · exact decideNow_coherent (none' _ rfl rfl rfl rfl rfl rfl rfl (.inl rfl))
  · refine arbitrate_coherent (none' _ rfl rfl rfl rfl rfl rfl rfl ?_)
    cases e : s.arb.lock <;> simp_all

theorem noticeHealth_settled (h : Settled s) (a : BitVec 5) (o : TxnOutcome) : Settled (noticeHealth a o s) := by
  rw [noticeHealth_eq]
  exact h.congr rfl rfl rfl rfl rfl rfl rfl rfl rfl rfl

theorem endTransaction_coherent (h : Settled s) (dec : s.Decided) {x : Transaction} (txn : s.link.txn = some x) (o : TxnOutcome)
    (v : Option Value) : Coherent (endTransaction x o v s) := by
  have h' := noticeHealth_settled h x.address o
  have txn' : (noticeHealth x.address o s).link.txn = some x := by rw [noticeHealth_eq]; exact txn
  have apart : (noticeHealth x.address o s).arb.apart = false := by
    rw [noticeHealth_eq]; exact dec.apart_busy (h.busy txn).1
  unfold endTransaction
  dsimp only
  generalize noticeHealth x.address o s = s at h' txn' apart
  have busy := h'.busy txn'
  split
  case h_1 req =>
    have f := seqEndNotice_seqFrame x o v (engineIdle s)
    have q := seqEndNotice_ok h' txn' req o v
    have ln := h'.lockNone txn' req
    apply arbitrate_coherent
    generalize seqEndNotice x o v (engineIdle s) = t at f q
    have e1 := f.link
    have e2 : t.direct = s.direct := f.direct
    have e3 : t.arb.lock = .none := by rw [f.arb]; exact ln
    have e4 : t.arb.pause = none := by rw [f.arb]; exact busy.2.1
    have eu : ∀ k, t.urgent k = s.urgent k := by intro k; simp [State.urgent, e2]
    refine ⟨?_, ?_, q, ?_⟩
    · constructor <;> simp [e1]
    · have d := h'.direct
      constructor
      · rw [e2]; exact d.once
      · rw [e2]; exact d.queued
      · simp only [e2, eu]; exact d.urgentFirst
      · intro k
        have := d.active k
        simp [txn', req] at this
        simp [e1, e2, this]
    · constructor <;> simp [e3, e4]
  case h_2 tag req =>
    obtain ⟨l, d, q⟩ := directEnd_base h' txn' req o v
    exact afterDirect_coherent l d q (by simp [directEndNotice]) (by simp [directEndNotice, busy.2.1])
      (by simp [directEndNotice, apart])

theorem wait_coherent (h : Settled s) (dec : s.Decided) {x : Transaction} (txn : s.link.txn = some x) (remain : x.attemptsRemain = true)
    (link : t.link.txn = s.link.txn) (phase : t.link.phase = .settle ∨ t.link.phase = .backoff)
    (timer : t.link.timer.isSome = true)
    (seq : t.seq = s.seq) (results : t.results = s.results) (tables : t.tables = s.tables)
    (arb : t.arb = s.arb) (direct : t.direct = s.direct) : Coherent t := by
  have e4 : ∀ k, t.urgent k = s.urgent k := by intro k; simp [State.urgent, direct]
  have e1 : t.itemOnLink = s.itemOnLink := by simp [State.itemOnLink, seq]
  have e2 : ∀ b, t.seqTransaction b = s.seqTransaction b := by intro b; simp [State.seqTransaction, link]
  have e3 : ∀ k, t.isPending k = s.isPending k := by intro k; simp [State.isPending, seq]
  have busy := h.busy txn
  obtain ⟨a, b, c, d⟩ := h
  have ni : t.link.phase ≠ .idle := by rcases phase with e | e <;> simp [e]
  refine ⟨⟨?_, ?_, ?_, ?_⟩, busy_decided (by rw [arb]; exact dec.apart_busy busy.1) ni⟩
  · constructor
    · exact fun e => absurd e ni
    · simp [link, txn]
    · exact fun _ => timer
    · rw [link]; exact a.attempts
    · intro y hy _
      rw [link, txn] at hy
      injection hy with hy
      subst hy
      simp [Transaction.attemptsRemain] at remain
      omega
    · rw [link]; exact a.writeValue
  · cases b; constructor <;> simp only [link, direct, e4] <;> assumption
  · cases c; constructor <;> simp only [seq, results, tables, arb, e1, e2, e3] <;> assumption
  · cases d
    constructor
    · simp only [link, arb]; assumption
    · simp only [direct, arb, e4]; assumption
    · simp only [link, arb]; assumption
    · intro d m e; rw [arb] at e; exact absurd e (busy.2.2 d m)
    · rw [arb, busy.2.1]; simp

theorem attemptEnd_coherent (h : Settled s) (dec : s.Decided) (r : AttemptResult) : Coherent (attemptEnd r s) := by
  unfold attemptEnd
  split
  · exact ⟨h, dec⟩
  · rename_i x txn
    split
    · exact endTransaction_coherent h dec txn _ _
    · exact endTransaction_coherent h dec txn _ _
    all_goals
      split
      · exact wait_coherent h dec txn ‹_› (by simp) (by simp [enterSettle, enterBackoff]) (by simp [enterSettle, enterBackoff]) rfl rfl rfl rfl rfl
      · exact endTransaction_coherent h dec txn _ _

end Sys2Proof.Machine
end

