-- ==== Sys2Proof/Laws/Link.lean ====
section
/-! SUPPORT. The happenings of the Link Engine keep everything Safety.lean says of the moving parts. -/

namespace Sys2Proof.Machine

variable {s t u : State}

theorem Settled.seqOnly (h : Settled s) (q : t.SequencerOk) (link : t.link = s.link)
    (slots : t.direct.slots = s.direct.slots) (order : t.direct.order = s.direct.order)
    (lock : t.arb.lock = s.arb.lock) (pause : t.arb.pause = s.arb.pause) : Settled t := by
  have e4 : ∀ k, t.urgent k = s.urgent k := by intro k; simp [State.urgent, slots]
  obtain ⟨a, b, c, d⟩ := h
  refine ⟨?_, ?_, q, ?_⟩
  · cases a; constructor <;> simp only [link] <;> assumption
  · cases b; constructor <;> simp only [link, slots, order, e4] <;> assumption
  · cases d; constructor <;> simp only [link, lock, pause, order, e4] <;> assumption

theorem Settled.seqFrame (h : Settled s) (q : t.SequencerOk) (f : SeqFrame s t) : Settled t :=
  h.seqOnly q f.link (by rw [f.direct]) (by rw [f.direct]) (by rw [f.arb]) (by rw [f.arb])

/-- The engine moves on with its transaction, outside IDLE. -/
theorem Coherent.linkMove (h : Coherent s) {x y : Transaction} (txn : s.link.txn = some x) (txn' : t.link.txn = some y)
    (req : y.requester = x.requester) (orphan : y.orphan = x.orphan) (l : t.LinkOk)
    (seq : t.seq = s.seq) (results : t.results = s.results) (tables : t.tables = s.tables)
    (arb : t.arb = s.arb) (direct : t.direct = s.direct) : Coherent t := by
  have e4 : ∀ k, t.urgent k = s.urgent k := by intro k; simp [State.urgent, direct]
  have e1 : t.itemOnLink = s.itemOnLink := by simp [State.itemOnLink, seq]
  have e2 : ∀ b, t.seqTransaction b ↔ s.seqTransaction b := by intro b; simp [State.seqTransaction, txn, txn', req, orphan]
  have e3 : ∀ k, t.isPending k = s.isPending k := by intro k; simp [State.isPending, seq]
  have busy := h.toSettled.busy txn
  have dec := h.decided
  have ni : t.link.phase ≠ .idle := by
    intro e
    have := (l.idle e).1
    simp [txn'] at this
  obtain ⟨⟨a, b, c, d⟩, _⟩ := h
  refine ⟨⟨l, ?_, ?_, ?_⟩, busy_decided (by rw [arb]; exact dec.apart_busy busy.1) ni⟩
  · obtain ⟨b1, b2, b3, b4⟩ := b
    constructor
    case active => intro k; simpa [direct, txn', txn, req] using b4 k
    all_goals (simp only [direct, e4]; assumption)
  · cases c; constructor <;> simp only [seq, results, tables, arb, e1, e2, e3] <;> assumption
  · constructor
    · intro n e; rw [arb] at e
      obtain ⟨z, q, hz, hq⟩ := d.held n e
      simp [txn] at hz; subst hz
      exact ⟨y, q, txn', by rw [req, hq]⟩
    · intro n e; rw [arb] at e; rw [direct, e4]; exact d.successor n e
    · intro e; rw [arb] at e
      obtain ⟨z, q, hz, hq⟩ := d.lapsing e
      simp [txn] at hz; subst hz
      exact ⟨y, q, txn', by rw [req, hq]⟩
    · intro z m e; rw [arb] at e; exact absurd e (busy.2.2 z m)
    · rw [arb, busy.2.1]; simp

theorem frameSent_coherent (h : Coherent s) : Coherent (frameSent s) := by
  unfold frameSent
  split
  · rename_i x p e
    refine Coherent.linkMove h e (y := x) (by simpa using e) rfl rfl ?_ rfl rfl rfl rfl rfl
    have l := h.link
    constructor
    · simp
    · simp [e]
    · simp
    · exact l.attempts
    · simp
    · exact l.writeValue
  · exact h

theorem responseStartBit_coherent (h : Coherent s) : Coherent (responseStartBit s) := by
  have l := h.link
  unfold responseStartBit
  split
  case h_1 p =>
    cases e : s.link.txn with
    | none => have := l.free e; simp [p] at this
    | some x =>
      refine Coherent.linkMove h e (y := x) (by simpa using e) rfl rfl ?_ rfl rfl rfl rfl rfl
      constructor
      · simp
      · simp [e]
      · simp
      · exact l.attempts
      · simp
      · exact l.writeValue
  case h_2 p =>
    split
    · exact h
    · cases e : s.link.txn with
      | none => have := l.free e; simp [p] at this
      | some x =>
        refine Coherent.linkMove h e (y := x) (by simpa using e) rfl rfl ?_ rfl rfl rfl rfl rfl
        constructor
        · simp [p]
        · simp [e]
        · simp_all
        · exact l.attempts
        · simp [p]
        · exact l.writeValue
  · exact h

theorem receiveByte_coherent (h : Coherent s) (b : RxByte) : Coherent (receiveByte b s) := by
  have l := h.link
  unfold receiveByte
  split
  · split
    · exact h
    · rename_i x p e _
      dsimp only
      refine Coherent.linkMove h e (y := x) (by simpa using e) rfl rfl ?_ rfl rfl rfl rfl rfl
      constructor
      · simp [p]
      · simp [e]
      · simp
      · exact l.attempts
      · simp [p]
      · exact l.writeValue
  · exact h

theorem nextAttempt_coherent (h : Coherent s) (p : s.link.phase = .settle ∨ s.link.phase = .backoff) :
    Coherent (nextAttempt s) := by
  have l := h.link
  unfold nextAttempt
  split
  · rename_i x e
    refine Coherent.linkMove h e (y := { x with attempt := x.attempt + 1 }) (by simp) rfl rfl ?_ rfl rfl rfl rfl rfl
    have := l.remaining x e p
    constructor
    · simp
    · simp
    · simp
    · rintro y hy
      simp at hy
      subst hy
      simp; omega
    · simp
    · rintro y hy
      simp at hy
      subst hy
      exact l.writeValue x e
  · exact h

theorem resetSettle_coherent (h : Coherent s) (p : s.link.phase = .settle) (e : s.link.txn = none) :
    Coherent (arbitrate (engineIdle s)) := by
  apply arbitrate_coherent
  obtain ⟨a, b, c, d⟩ := h.toSettled
  have hl : s.arb.lock = .none := by
    cases q : s.arb.lock with
    | none => rfl
    | held n => obtain ⟨y, _, hy, _⟩ := d.held n q; simp [e] at hy
    | window x m => have := d.window x m q; simp [p] at this
    | lapsing => obtain ⟨y, _, hy, _⟩ := d.lapsing q; simp [e] at hy
  have hp : s.arb.pause = none := by
    cases q : s.arb.pause with
    | none => rfl
    | some _ => have := (d.pause (by simp [q])).1; simp [p] at this
  refine ⟨idleLink s, ?_, ?_, ?_⟩
  · obtain ⟨b1, b2, b3, b4⟩ := b
    refine ⟨b1, b2, b3, ?_⟩
    intro k
    simpa [e] using b4 k
  · have e1 : (engineIdle s).itemOnLink = s.itemOnLink := rfl
    have e2 : ∀ b, (engineIdle s).seqTransaction b ↔ s.seqTransaction b := by
      intro b; simp [State.seqTransaction, e]
    cases c
    constructor
    case onLink => rw [e1, e2]; assumption
    case held => rw [e1]; assumption
    case stopping => rw [e2]; assumption
    all_goals assumption
  · constructor <;> simp [hl, hp]

end Sys2Proof.Machine
end

