-- ==== Sys2Proof/Laws/Starts.lean ====
section
/-! SUPPORT. Starts and deliveries keep everything Safety.lean says of the moving parts. -/

namespace Sys2Proof.Machine

variable {s t u : State}

/-- A NORMAL pass may begin: the state that follows is ready. -/
theorem beginPass_ready (h : Ready s) (absent : s.seq.pass.present = false)
    (top : s.seq.top = .idle ∨ s.seq.top = .running ∨ s.seq.top = .queueWait) : Ready (beginPass s) := by
  have ns : s.seq.suspended = none := by
    have := h.pass
    cases e : s.seq.suspended <;> simp_all
  have nn : s.seq.active ≠ .normal := by
    intro e; have := h.pass (.inl e); simp [absent] at this
  by_cases a : s.seq.active = .none
  · have hi := (h.context a).1
    have hj : s.seq.injRun = none := by
      have := h.injected
      cases e : s.seq.injRun <;> simp_all
    have off : s.itemOnLink = false := by simp [State.itemOnLink, hi]
    have on : s.seqTransaction false ↔ False := by rw [← h.onLink]; simp [off]
    have key : ∀ x : State, x.seq.top ≠ .stopped → x.seq.top ≠ .stopping → x.seq.top ≠ .idle → 
        (x.seq.top = .queueWait ↔ s.seq.top = .queueWait) → x.seq.active = .normal → x.seq.item = none →
        x.seq.injRun = none → x.seq.suspended = none → x.seq.pass.present = true → x.seq.pendingSet = s.seq.pendingSet →
        x.results = s.results → x.tables = s.tables → x.link = s.link → x.arb = s.arb → Ready x := by
      intro x h1 h2 h3 h4 h5 h6 h7 h8 h9 h10 h11 h12 h13 h14
      have e1 : x.itemOnLink = false := by simp [State.itemOnLink, h6]
      have e2 : ∀ b, x.seqTransaction b = s.seqTransaction b := by intro b; simp [State.seqTransaction, h13]
      have e3 : ∀ k, x.isPending k = s.isPending k := by intro k; simp [State.isPending, h10]
      have ht := h.noTenure hi
      constructor
      · simp [h1, h2]
      · simp [h3]
      · simp [h6]
      · rw [h4, h11]; exact h.waiting
      · simp [h5]
      · simp [h7]
      · simp [h5]
      · simp [h9]
      · simp [h8]
      · simp [h6]
      · simp [h8]
      · simp only [e3, h12]; exact h.members
      · simp [h14, ht]
      · simp [e1]
      · rw [e1, e2, on]; simp
      · simp [h2]
      · rw [h11]; exact h.queue
      · rw [h11]; exact h.hold
      · rw [h11]; exact h.full
    unfold beginPass
    dsimp only
    rcases top with e | e | e
    all_goals
      refine key _ ?_ ?_ ?_ ?_ ?_ ?_ ?_ ?_ ?_ ?_ ?_ ?_ ?_ ?_ <;> simp [setPass, setActive, setTop, a, e, hi, hj, ns]
  · have b : s.seq.top ≠ .idle := fun e => a (h.idle e)
    rw [beginPass_active a b]
    cases h
    constructor
    case pass => simp
    case context => intro e; exact absurd e a
    all_goals assumption

theorem Ready.congr (h : Ready s) (seq : t.seq = s.seq) (results : t.results = s.results)
    (tables : t.tables = s.tables) (link : t.link = s.link) (tenure : t.arb.tenure = s.arb.tenure) : Ready t := by
  have e1 : t.itemOnLink = s.itemOnLink := by simp [State.itemOnLink, seq]
  have e2 : ∀ b, t.seqTransaction b = s.seqTransaction b := by intro b; simp [State.seqTransaction, link]
  have e3 : ∀ k, t.isPending k = s.isPending k := by intro k; simp [State.isPending, seq]
  cases h
  constructor <;> simp only [seq, results, tables, tenure, e1, e2, e3] <;> assumption

theorem joinPending_ready (h : Ready s) (k : Fin 8) (en : (s.tables.inj[k]).enabled = true)
    (top : s.seq.top ≠ .stopped ∧ s.seq.top ≠ .stopping) : Ready (joinPending k s) := by
  have e3 : ∀ j, (joinPending k s).isPending j = true → s.isPending j = true ∨ j = k := by
    intro j q
    simp [State.isPending] at q
    rcases q with q | q
    · exact .inl q
    · right
      have := q.2
      ext
      have hj := j.isLt
      have hk := k.isLt
      by_contra c
      have : j.val - k.val ≠ 0 := by omega
      simp_all
  have hm := h.members
  cases h
  constructor
  case stopped => intro q; simp at q; exact absurd q (by simp [top])
  case members =>
    intro j q
    rcases e3 j q with q | rfl
    · exact hm j q
    · simpa using en
  all_goals assumption

theorem startPending_ready (h : Ready s) (b : Bool) : Ready (setPass { s.seq.pass with startPending := b } s) := by
  cases h
  constructor <;> assumption

theorem startNormal_ready (h : Ready s) (top : s.seq.top = .idle ∨ s.seq.top = .running ∨ s.seq.top = .queueWait) :
    Ready (startNormal s).2 := by
  unfold startNormal
  split
  · split
    · exact h.congr rfl rfl rfl rfl rfl
    · exact startPending_ready h true
  · rename_i absent
    exact beginPass_ready h (by simpa using absent) top

/-- The parts a start leaves alone. -/
structure Aside (s t : State) : Prop where
  link : t.link = s.link
  slots : t.direct.slots = s.direct.slots
  order : t.direct.order = s.direct.order
  lock : t.arb.lock = s.arb.lock
  pause : t.arb.pause = s.arb.pause
  tables : t.tables = s.tables

theorem Aside.refl (s : State) : Aside s s := ⟨rfl, rfl, rfl, rfl, rfl, rfl⟩
theorem Aside.trans (h : Aside s t) (g : Aside t u) : Aside s u :=
  ⟨g.link.trans h.link, g.slots.trans h.slots, g.order.trans h.order, g.lock.trans h.lock, g.pause.trans h.pause, g.tables.trans h.tables⟩
theorem SeqFrame.aside (f : SeqFrame s t) : Aside s t :=
  ⟨f.link, by rw [f.direct], by rw [f.direct], by rw [f.arb], by rw [f.arb], f.tables⟩
theorem Aside.settled (f : Aside s t) (h : Settled s) (q : t.SequencerOk) : Settled t :=
  h.seqOnly q f.link f.slots f.order f.lock f.pause

theorem startNormal_aside (s : State) : Aside s (startNormal s).2 := by
  unfold startNormal
  split
  · split
    · exact ⟨rfl, rfl, rfl, rfl, rfl, rfl⟩
    · exact (setPass_seqFrame _ _).aside
  · exact (beginPass_seqFrame _).aside

theorem isArmed_iff : s.isArmed = true ↔ (s.seq.top = .idle ∨ s.seq.top = .running ∨ s.seq.top = .queueWait) := by
  simp [State.isArmed, or_assoc]

theorem startNormal_top (top : s.seq.top = .idle ∨ s.seq.top = .running ∨ s.seq.top = .queueWait) :
    (startNormal s).2.seq.top ≠ .stopped ∧ (startNormal s).2.seq.top ≠ .stopping := by
  unfold startNormal beginPass
  dsimp only
  repeat' split
  all_goals rcases top with e | e | e <;> simp [e, dropStart]

theorem injectedFold_ready (b : BitVec 8) (l : List (Fin 8)) : ∀ x : State, Ready x →
    (x.seq.top ≠ .stopped ∧ x.seq.top ≠ .stopping) → (∀ k ∈ l, (x.tables.inj[k]).enabled = true) →
    Ready (l.foldl (deliverInjected b) x) ∧ Aside x (l.foldl (deliverInjected b) x) := by
  induction l with
  | nil => intro x h _ _; exact ⟨h, .refl x⟩
  | cons k l ih =>
    intro x h top en
    have step : Ready (deliverInjected b x k) ∧ Aside x (deliverInjected b x k) ∧
        (deliverInjected b x k).seq.top = x.seq.top := by
      unfold deliverInjected
      split
      · exact ⟨h.congr rfl rfl rfl rfl rfl, ⟨rfl, rfl, rfl, rfl, rfl, rfl⟩, rfl⟩
      · exact ⟨joinPending_ready h k (en k (by simp)) top, (joinPending_seqFrame _ _).aside, rfl⟩
    obtain ⟨r, f, e⟩ := step
    have := ih _ r (by rw [e]; exact top) (by rw [f.tables]; intro j hj; exact en j (by simp [hj]))
    exact ⟨this.1, f.trans this.2⟩

theorem schedule_coherent (h : Settled s) (f : Aside s t) (r : Ready t) : Coherent (arbitrate (schedule t)) :=
  arbitrate_coherent ((f.trans (schedule_seqFrame t).aside).settled h (schedule_ok r))

theorem deliver_coherent (h : Coherent s) (armed : s.isArmed = true) (src : Source) : Coherent (deliver src s) := by
  have top := isArmed_iff.1 armed
  unfold deliver
  split
  · exact h
  · dsimp only
    have hr := h.sequencer.ready
    have en : ∀ k ∈ s.injectedTargets src, (s.tables.inj[k]).enabled = true := by
      intro k hk
      have := (List.mem_filter.1 hk).2
      simp only [State.targets, Bool.and_eq_true] at this
      exact this.1.2
    have first : ∀ x : State, x = (if s.targets src .normal = true then (startNormal s).2 else s) → Ready x ∧ Aside s x ∧
        x.seq.top ≠ .stopped ∧ x.seq.top ≠ .stopping := by
      rintro x rfl
      split
      · exact ⟨startNormal_ready hr top, startNormal_aside s, startNormal_top top⟩
      · exact ⟨hr, .refl s, by rcases top with e | e | e <;> simp [e]⟩
    obtain ⟨r, f, t⟩ := first _ rfl
    have g := injectedFold_ready s.seq.pendingSet (s.injectedTargets src) _ r t (by rw [f.tables]; exact en)
    exact schedule_coherent h.toSettled (f.trans g.2) g.1

theorem startInjected_coherent (h : Settled s) (armed : s.isArmed = true) (k : Fin 8)
    (en : (s.tables.inj[k]).enabled = true) (ne : (startInjected k s).1 ≠ .overrun) :
    Coherent (arbitrate (startInjected k s).2) := by
  have top := isArmed_iff.1 armed
  unfold startInjected at ne ⊢
  split at ne
  · simp at ne
  · rename_i np
    simp only [np]
    exact schedule_coherent h (joinPending_seqFrame _ _).aside
      (joinPending_ready h.sequencer.ready k en (by rcases top with e | e | e <;> simp [e]))

theorem Coherent.dropStart (h : Coherent s) (c : Chain) : Coherent (dropStart c s) :=
  h.congr rfl rfl rfl rfl rfl rfl rfl rfl

theorem startChain_coherent (h : Coherent s) (armed : s.isArmed = true) (c : Chain)
    (en : (s.chainDef c).enabled = true) : Coherent (startChain c s).2 := by
  unfold startChain
  split
  · dsimp only
    split
    · exact schedule_coherent h.toSettled (startNormal_aside s) (startNormal_ready h.sequencer.ready (isArmed_iff.1 armed))
    · rename_i ne
      unfold startNormal at ne ⊢
      split
      · split
        · exact h.dropStart _
        · -- only startPending changes
          refine ⟨h.toSettled.seqFrame ?_ (setPass_seqFrame _ _), ?_⟩
          · have := h.sequencer
            cases this; constructor <;> assumption
          · exact h.decided
      · simp_all
  · dsimp only
    split
    · rename_i k e
      unfold startInjected at e ⊢
      split
      · exact h.dropStart _
      · rename_i np
        simp only [np] at e
        simp at e
        split at e <;> simp at e
    · exact startInjected_coherent h.toSettled armed _ en ‹_›

end Sys2Proof.Machine
end

