-- ==== Sys2Proof/Laws/Aborts.lean ====
section
/-! SUPPORT. The abort commands, DISARM, ARM and the timers of the Sequencer and the arbiter keep everything Safety.lean
says of the moving parts. -/

namespace Sys2Proof.Machine

variable {s t u : State}

/-- The engine's transaction may take the orphan mark, and the direct unit and the lock stay. -/
structure Marked (s t : State) : Prop where
  link : ∃ b : Transaction → Bool, t.link = { s.link with txn := s.link.txn.map fun x => { x with orphan := b x } }
  direct : t.direct = s.direct
  lock : t.arb.lock = s.arb.lock
  pause : t.arb.pause = s.arb.pause

/-- What an abort leaves alone. -/
structure Dropping (s t : State) : Prop extends Marked s t where
  tables : t.tables = s.tables
  sized : ∀ n, Sized n s → Sized n t
  marks : ¬ s.seqTransaction false → ¬ t.seqTransaction false

theorem keepLink (l : LinkEngine) : l = { l with txn := l.txn.map fun x => { x with orphan := x.orphan } } := by
  cases l with
  | mk r p x t rx e => cases x <;> rfl

theorem Dropping.of (f : SeqFrame s t) (z : ∀ n, Sized n s → Sized n t) : Dropping s t :=
  ⟨⟨⟨fun x => x.orphan, by rw [f.link]; exact keepLink _⟩, f.direct, by rw [f.arb], by rw [f.arb]⟩, f.tables, z,
    by unfold State.seqTransaction; rw [f.link]; exact id⟩

theorem Dropping.refl (s : State) : Dropping s s := .of (.refl s) fun _ h => h

theorem Dropping.trans (h : Dropping s t) (g : Dropping t u) : Dropping s u := by
  obtain ⟨b, hb⟩ := h.link
  obtain ⟨c, hc⟩ := g.link
  refine ⟨⟨⟨fun x => c { x with orphan := b x }, ?_⟩, g.direct.trans h.direct, g.lock.trans h.lock,
    g.pause.trans h.pause⟩, g.tables.trans h.tables, fun n k => g.sized n (h.sized n k), fun k => g.marks (h.marks k)⟩
  rw [hc, hb]
  cases s.link.txn <;> rfl

theorem Marked.settled (f : Marked s t) (h : Settled s) (q : t.SequencerOk) : Settled t := by
  obtain ⟨b, e⟩ := f.link
  have e4 : ∀ k, t.urgent k = s.urgent k := by intro k; simp [State.urgent, f.direct]
  have ep : t.link.phase = s.link.phase := by rw [e]
  have et : ∀ y, t.link.txn = some y → ∃ x, s.link.txn = some x ∧ y = { x with orphan := b x } := by
    intro y hy
    rw [e] at hy
    cases k : s.link.txn with
    | none => simp [k] at hy
    | some x => simp [k] at hy; exact ⟨x, rfl, hy.symm⟩
  have er : ∀ k, (∃ x, t.link.txn = some x ∧ x.requester = .direct k) ↔ ∃ x, s.link.txn = some x ∧ x.requester = .direct k := by
    intro k
    rw [e]
    cases s.link.txn <;> simp
  have er' : (∃ x k, t.link.txn = some x ∧ x.requester = .direct k) ↔ ∃ x k, s.link.txn = some x ∧ x.requester = .direct k := by
    rw [e]
    cases s.link.txn <;> simp
  obtain ⟨l, d, c, k⟩ := h
  refine ⟨?_, ?_, q, ?_⟩
  · constructor
    · rw [ep, e]; intro p; simp [l.idle p]
    · rw [ep]; intro p; rw [e] at p; simp at p; exact l.free p
    · rw [e]; exact l.timed
    · intro y hy; obtain ⟨x, hx, rfl⟩ := et y hy; exact l.attempts x hx
    · intro y hy p; rw [ep] at p; obtain ⟨x, hx, rfl⟩ := et y hy; exact l.remaining x hx p
    · intro y hy; obtain ⟨x, hx, rfl⟩ := et y hy; exact l.writeValue x hx
  · constructor
    · rw [f.direct]; exact d.once
    · rw [f.direct]; exact d.queued
    · simp only [f.direct, e4]; exact d.urgentFirst
    · intro j; rw [f.direct, er]; exact d.active j
  · constructor
    · intro n p; rw [f.lock] at p; exact er'.2 (k.held n p)
    · intro n p; rw [f.lock] at p; rw [f.direct, e4]; exact k.successor n p
    · intro p; rw [f.lock] at p; exact er'.2 (k.lapsing p)
    · intro a b p; rw [f.lock] at p; rw [ep]; exact k.window a b p
    · rw [f.lock, f.pause, ep]; exact k.pause

theorem setItem_sized (i : Option ItemRun) (s : State) : ∀ n, Sized n s → Sized n (setItem i s) :=
  fun _ h => ⟨h.1, h.2, h.3, h.4⟩

theorem orphan_dropping (s : State) : Dropping s (orphanTransaction s) :=
  ⟨⟨⟨fun _ => true, rfl⟩, rfl, rfl, rfl⟩, rfl, fun _ h => ⟨h.1, h.2, h.3, h.4⟩, fun _ => by
    rintro ⟨y, hy, _, ho⟩
    simp only [orphanTransaction] at hy
    cases k : s.link.txn with
    | none => simp [k] at hy
    | some x => simp [k] at hy; subst hy; simp at ho⟩

theorem finishAborted_sized (c : Chain) (i : ItemRun) (s : State) : ∀ n, Sized n s → Sized n (finishItem c i .aborted none s) := by
  intro n h
  have := (completeItem_abort c i none s).sized n h
  exact ⟨this.1, this.2, this.3, this.4⟩

theorem finishAborted_dropping (c : Chain) (i : ItemRun) (s : State) : Dropping s (finishItem c i .aborted none s) :=
  .of (finishItem_seqFrame ..) (finishAborted_sized c i s)

theorem abandonItem_dropping (c : Chain) (s : State) : Dropping s (abandonItem c s) := by
  unfold abandonItem
  split
  · exact .refl s
  · split
    · split
      · exact .of (setItem_seqFrame _ _) (setItem_sized _ _)
      · exact finishAborted_dropping ..
    · exact finishAborted_dropping ..
    · exact finishAborted_dropping ..
    · exact (finishAborted_dropping ..).trans (orphan_dropping _)
    · exact (finishAborted_dropping ..).trans (orphan_dropping _)

/-- After abandonItem no unmarked transaction of the Sequencer is with the engine, if the item was in progress there. -/
theorem abandonItem_free (c : Chain) (h : s.seqTransaction false → s.itemOnLink = true) :
    ¬ (abandonItem c s).seqTransaction false := by
  rintro ⟨y, hy, hr, ho⟩
  have fin : ∀ i, (finishItem c i .aborted none s).link = s.link := fun i => (finishItem_seqFrame ..).link
  have no : s.itemOnLink = false → s.link.txn ≠ some y := by
    intro off e
    have := h ⟨y, e, hr, ho⟩
    simp [off] at this
  unfold abandonItem at hy
  split at hy
  · rename_i e
    exact no (by simp [State.itemOnLink, e]) hy
  · rename_i i e
    have off : i.phase ≠ .onLink → i.phase ≠ .onLinkFetch → s.link.txn ≠ some y := fun a b =>
      no (by simp [State.itemOnLink, e, a, b])
    split at hy
    · rename_i p
      split at hy
      · exact off (by simp [p]) (by simp [p]) hy
      · rw [fin] at hy; exact off (by simp [p]) (by simp [p]) hy
    · rename_i p; rw [fin] at hy; exact off (by simp [p]) (by simp [p]) hy
    · rename_i p; rw [fin] at hy; exact off (by simp [p]) (by simp [p]) hy
    all_goals
      simp only [orphanTransaction, fin] at hy
      cases k : s.link.txn with
      | none => simp [k] at hy
      | some x => simp [k] at hy; subst hy; simp at ho

theorem abandonItem_item (c : Chain) (s : State) : (abandonItem c s).seq.item = none := by
  unfold abandonItem
  split
  · assumption
  · split
    · split <;> simp [finishItem]
    all_goals simp [finishItem, orphanTransaction]

theorem endPassAborted_sized (s : State) : ∀ n, Sized n s → Sized n (endPass true s) := by
  intro n h
  have h1 := (copyMask_quiet .normal s.seq.pass.run.mask s).sized n h
  have h2 := (offer_abort (.passEnd s.seq.pass.number s.seq.pass.run.done s.seq.pass.run.errors true) _ rfl).sized n h1
  have h3 := (raise_quiet .passEnd _).sized n h2
  unfold endPass
  dsimp only
  split <;> exact ⟨h3.1, h3.2, h3.3, h3.4⟩

theorem endInjAborted_sized (k : Fin 8) (s : State) : ∀ n, Sized n s → Sized n (endInjRun k true s) := by
  intro n h
  have h1 := (copyMask_quiet (.inj k) (s.runOf (.inj k)).mask s).sized n h
  have h2 := (offer_abort (.injEnd k (s.runOf (.inj k)).done (s.runOf (.inj k)).errors true) _ rfl).sized n h1
  have h3 := (raise_quiet .injEnd _).sized n h2
  exact ⟨h3.1, h3.2, h3.3, h3.4⟩

/-- No work is left, and a transaction of the Sequencer that is still with the engine is orphaned. -/
structure Cleared (s : State) : Prop where
  active : s.seq.active = .none
  item : s.seq.item = none
  injRun : s.seq.injRun = none
  suspended : s.seq.suspended = none
  pending : s.seq.pendingSet = 0#8
  present : s.seq.pass.present = false
  tenure : s.arb.tenure = false
  free : ¬ s.seqTransaction false
  queue : s.results.queue.length ≤ 32

theorem abortInjected_dropping (s : State) : Dropping s (abortInjected s) := by
  unfold abortInjected
  split
  · exact (abandonItem_dropping _ s).trans (.of (endInjRun_seqFrame ..) (endInjAborted_sized _ _))
  · exact .refl s

theorem abortSuspended_dropping (s : State) : Dropping s (abortSuspended s) := by
  unfold abortSuspended
  split
  · refine .of ((completeItem_seqFrame ..).trans (setSuspended_seqFrame _ _)) fun n h => ?_
    have := (completeItem_abort .normal (Suspension.toRun ‹_›) none s).sized n h
    exact ⟨this.1, this.2, this.3, this.4⟩
  · exact .refl s

theorem abortPass_dropping (b : Bool) (s : State) : Dropping s (abortPass b s) := by
  unfold abortPass
  split
  · split
    · exact (abandonItem_dropping _ s).trans (.of (endPass_seqFrame ..) (endPassAborted_sized _))
    · exact .of (endPass_seqFrame ..) (endPassAborted_sized _)
  · exact .refl s

theorem abortPass_present (b : Bool) (s : State) : (abortPass b s).seq.pass.present = false := by
  unfold abortPass
  split
  · simp [endPass]
  · rename_i p; simpa using p

theorem endPass_free (a : Bool) (h : ¬ s.seqTransaction false) : ¬ (endPass a s).seqTransaction false := by
  unfold State.seqTransaction at *
  rw [(endPass_seqFrame a s).link]; exact h

theorem endInj_free (k : Fin 8) (a : Bool) (h : ¬ s.seqTransaction false) : ¬ (endInjRun k a s).seqTransaction false := by
  unfold State.seqTransaction at *
  rw [(endInjRun_seqFrame k a s).link]; exact h

theorem abortWork_free (h : s.SequencerOk) :
    ¬ (abortPass (s.seq.active == .normal) (abortSuspended (abortInjected s))).seqTransaction false := by
  by_cases q : s.seqTransaction false
  · have on := h.onLink.2 q
    obtain ⟨i, e⟩ : ∃ i, s.seq.item = some i := by
      cases e : s.seq.item with
      | none => simp [State.itemOnLink, e] at on
      | some i => exact ⟨i, rfl⟩
    cases a : s.seq.active with
    | none => have := (h.context a).1; simp [e] at this
    | normal =>
      have hs : s.seq.suspended = none := by
        have := h.suspended
        cases k : s.seq.suspended <;> simp_all
      have hp := h.pass (.inl a)
      have e1 : abortInjected s = s := by simp [abortInjected, a]
      have e2 : abortSuspended s = s := by simp [abortSuspended, hs]
      rw [e1, e2]
      simp only [abortPass, hp]
      exact endPass_free _ (abandonItem_free _ h.onLink.2)
    | inj k =>
      cases r : s.seq.injRun with
      | none => have := (h.ready.ended k a r).1; simp [e] at this
      | some _ =>
        apply (abortPass_dropping _ _).marks
        apply (abortSuspended_dropping _).marks
        have : abortInjected s = endInjRun k true (abandonItem (.inj k) s) := by simp [abortInjected, a, r]
        rw [this]
        exact endInj_free _ _ (abandonItem_free _ h.onLink.2)
  · exact ((abortInjected_dropping s).trans ((abortSuspended_dropping _).trans (abortPass_dropping _ _))).marks q

theorem clearWork_cleared (q : ¬ s.seqTransaction false) (p : s.seq.pass.present = false)
    (l : s.results.queue.length ≤ 32) : Cleared (clearWork s) :=
  ⟨rfl, rfl, rfl, rfl, rfl, p, rfl, q, l⟩

theorem Cleared.ok (h : Cleared s) (top : s.seq.top ≠ .running) (waiting : s.seq.top = .queueWait ↔ s.results.hold ≠ [])
    (stopping : s.seq.top = .stopping → s.seqTransaction true) (hold : s.results.hold.length ≤ 2)
    (full : s.results.hold ≠ [] → s.results.queue.length = 32) : s.SequencerOk := by
  obtain ⟨a, b, c, d, e, f, g, i, j⟩ := h
  have off : s.itemOnLink = false := by simp [State.itemOnLink, b]
  constructor
  · simp [a, e]
  · simp [a, e]
  · simp [b, top]
  · exact waiting
  · simp [b, f]
  · simp [c]
  · simp [a]
  · simp [a, d]
  · simp [d]
  · simp [b]
  · simp [d]
  · simp [State.isPending, e]
  · simp [g]
  · simp [off]
  · simp [off, i]
  · exact stopping
  · exact j
  · exact hold
  · exact full

theorem abortEverything_spec (h : s.SequencerOk) :
    ∃ x, abortEverything s = clearWork x ∧ Dropping s x ∧ Cleared (clearWork x) := by
  refine ⟨_, rfl, (abortInjected_dropping s).trans ((abortSuspended_dropping _).trans (abortPass_dropping _ _)), ?_⟩
  refine clearWork_cleared (abortWork_free h) (abortPass_present _ _) ?_
  exact (((abortInjected_dropping s).trans ((abortSuspended_dropping _).trans (abortPass_dropping _ _))).sized 2
    ⟨h.waiting, h.queue, h.hold, h.full⟩).2

theorem postRecords_spec (l : List Record) : ∀ s : State, s.results.queue.length ≤ 32 →
    (l.foldl postRecord s).results.queue.length ≤ 32 ∧ (l.foldl postRecord s).results.hold = s.results.hold ∧
    (l.foldl postRecord s).seq = s.seq := by
  induction l with
  | nil => intro s h; exact ⟨h, rfl, rfl⟩
  | cons r l ih =>
    intro s h
    have step : (postRecord s r).results.queue.length ≤ 32 ∧ (postRecord s r).results.hold = s.results.hold ∧
        (postRecord s r).seq = s.seq := by
      unfold postRecord
      split
      · rename_i room
        have room : s.results.queue.length < 32 := of_decide_eq_true room
        unfold enqueue
        dsimp only
        split <;> simp [List.length_append] <;> omega
      · exact ⟨h, rfl, rfl⟩
    obtain ⟨a, b, c⟩ := step
    have := ih _ a
    exact ⟨this.1, this.2.1.trans b, this.2.2.trans c⟩

theorem abortAll_coherent (h : Settled s) : Coherent (arbitrate (abortEverything s)) := by
  obtain ⟨x, e, f, c⟩ := abortEverything_spec h.sequencer
  rw [e]
  apply arbitrate_coherent
  have z := f.sized 2 ⟨h.sequencer.waiting, h.sequencer.queue, h.sequencer.hold, h.sequencer.full⟩
  refine Marked.settled ⟨f.link, f.direct, f.lock, f.pause⟩ h (c.ok ?_ ?_ ?_ z.hold z.full)
  · simp only [clearWork]; split <;> simp
  · simp only [clearWork]; split <;> simp_all
  · simp only [clearWork]; split <;> simp

theorem disarm_coherent (h : Settled s) :
    Coherent (arbitrate (stopSequencer (stopTimers (postHoldList (abortEverything s))))) := by
  obtain ⟨x, e, f, c⟩ := abortEverything_spec h.sequencer
  rw [e]
  apply arbitrate_coherent
  obtain ⟨b1, b2, b3⟩ := postRecords_spec (clearWork x).results.hold
    { clearWork x with results := { (clearWork x).results with hold := [] } } c.queue
  have g : SeqFrame (clearWork x) (postHoldList (clearWork x)) := postHoldList_seqFrame _
  change (postHoldList (clearWork x)).results.queue.length ≤ 32 at b1
  change (postHoldList (clearWork x)).results.hold = [] at b2
  change (postHoldList (clearWork x)).seq = (clearWork x).seq at b3
  have k := (clearWork_seqFrame x).trans g
  have ht : (postHoldList (clearWork x)).arb.tenure = false := by
    have : ∀ (l : List Record) (y : State), (l.foldl postRecord y).arb = y.arb := by
      intro l
      induction l with
      | nil => intro y; rfl
      | cons r l ih =>
        intro y; rw [List.foldl_cons, ih]
        unfold postRecord enqueue
        split
        · dsimp only; split <;> rfl
        · rfl
    exact (congrArg Arbiter.tenure (this _ _)).trans rfl
  generalize postHoldList (clearWork x) = y at *
  have hd : ∀ z : State, z.link = y.link → z.direct = y.direct → z.arb = y.arb → z.results = y.results →
      z.tables = y.tables → (∃ p, z.seq = { y.seq with top := p } ∧ p ≠ .running ∧ p ≠ .queueWait ∧
      (p = .stopping → z.seqTransaction true)) → Settled z := by
    rintro z h1 h2 h3 h4 h5 ⟨p, h6, h7, h8, h9⟩
    refine Marked.settled ⟨by rw [h1, k.link]; exact f.link, by rw [h2, k.direct]; exact f.direct,
      by rw [h3, k.arb]; exact f.lock, by rw [h3, k.arb]; exact f.pause⟩ h ?_
    refine Cleared.ok ⟨?_, ?_, ?_, ?_, ?_, ?_, ?_, ?_, ?_⟩ ?_ ?_ ?_ ?_ ?_
    · rw [h6, b3]; exact c.active
    · rw [h6, b3]; exact c.item
    · rw [h6, b3]; exact c.injRun
    · rw [h6, b3]; exact c.suspended
    · rw [h6, b3]; exact c.pending
    · rw [h6, b3]; exact c.present
    · rw [h3, ht]
    · have := c.free
      unfold State.seqTransaction at *
      rw [h1, g.link]; exact this
    · rw [h4]; exact b1
    · rw [h6]; exact h7
    · rw [h6, h4, b2]; simp [h8]
    · rw [h6]; exact h9
    · rw [h4, b2]; simp
    · rw [h4, b2]; simp
  unfold stopSequencer
  split
  · rename_i q
    refine hd _ rfl rfl rfl rfl rfl ⟨.stopping, rfl, by simp, by simp, fun _ => ?_⟩
    have q : y.seqOnLink = true := q
    unfold State.seqOnLink at q
    split at q
    · rename_i w e'
      have hr : w.requester = .sequencer := by simpa using q
      have nf := c.free
      have lk : y.link = (clearWork x).link := g.link
      refine ⟨w, e', hr, ?_⟩
      by_contra no
      exact nf ⟨w, by rw [← lk]; exact e', hr, by simpa using no⟩
    · simp at q
  · exact hd _ rfl rfl rfl rfl rfl ⟨.stopped, rfl, by simp, by simp, by simp⟩

theorem schedule_marked (h : Settled s) (f : Marked s t) (r : Ready t) : Coherent (arbitrate (schedule t)) := by
  have k := schedule_seqFrame t
  exact arbitrate_coherent (Marked.settled ⟨by rw [k.link]; exact f.link, by rw [k.direct]; exact f.direct,
    by rw [k.arb]; exact f.lock, by rw [k.arb]; exact f.pause⟩ h (schedule_ok r))

theorem abortItem_coherent (h : Settled s) {c : Chain} {i : ItemRun}
    (active : s.seq.active.chain = some c) (item : s.seq.item = some i)
    (p : i.phase = .converting ∨ i.phase = .fetchWait) :
    Coherent (arbitrate (schedule (completeCurrent c i .aborted none s))) := by
  have off : s.itemOnLink = false := by rcases p with p | p <;> simp [State.itemOnLink, item, p]
  exact schedule_coherent h (completeCurrent_seqFrame ..).aside
    (completeCurrent_ready (h.sequencer.runs (by simp [item]) active off) _ _ _)

theorem Coherent.busyItem (h : Coherent s) (on : s.itemOnLink = true) : s.link.phase ≠ .idle := by
  obtain ⟨y, hy, _⟩ := h.sequencer.onLink.1 on
  exact (h.toSettled.busy hy).1

/-- The item on the line takes a mark. -/
theorem markItem_coherent (h : Coherent s) {i : ItemRun} (item : s.seq.item = some i)
    (p : i.phase = .onLink ∨ i.phase = .onLinkFetch) : Coherent (setItem (some { i with abortMark := true }) s) := by
  have on : s.itemOnLink = true := by rcases p with p | p <;> simp [State.itemOnLink, item, p]
  have on' : (setItem (some { i with abortMark := true }) s).itemOnLink = true := by
    rcases p with p | p <;> simp [State.itemOnLink, p]
  refine ⟨h.toSettled.seqFrame ?_ (setItem_seqFrame _ _),
    busy_decided (h.decided.apart_busy (h.busyItem on)) (h.busyItem on)⟩
  have q := h.sequencer
  have top := q.running.2 (by simp [item])
  have on'' := q.onLink
  have hr := q.restarts i item
  have ht := q.held on
  have hc := q.context
  cases q
  constructor
  case running => simp [top]
  case context => intro a; have := (hc a).1; simp [item] at this
  case restarts => rintro j hj; simp at hj; subst hj; exact hr
  case tenure => intro _; exact ⟨_, rfl, by rcases p with p | p <;> simp [p]⟩
  case held => intro _; exact ht
  case onLink => rw [on']; rw [on] at on''; exact on''
  all_goals assumption

theorem markChain_coherent (h : Coherent s) (c : Chain) (on : s.itemOnLink = true) : Coherent (markChain c s) := by
  obtain ⟨i, item⟩ : ∃ i, s.seq.item = some i := by
    cases e : s.seq.item with
    | none => simp [State.itemOnLink, e] at on
    | some i => exact ⟨i, rfl⟩
  have p : i.phase = .onLink ∨ i.phase = .onLinkFetch := by simpa [State.itemOnLink, item] using on
  have k := markItem_coherent h item p
  have e : setItem (s.seq.item.map fun it => { it with abortMark := true }) s = setItem (some { i with abortMark := true }) s := by
    rw [item]; rfl
  unfold markChain
  rw [e]
  have off := k.busyItem (by rcases p with p | p <;> simp [State.itemOnLink, p])
  generalize setItem (some { i with abortMark := true }) s = t at k off
  refine ⟨k.toSettled.seqFrame ?_ (updateRun_seqFrame _ _ _), busy_decided
    (by rw [(updateRun_seqFrame _ _ _).arb]; exact k.decided.apart_busy off)
    (by rw [(updateRun_seqFrame _ _ _).link]; exact off)⟩
  have g := updateRun_quiet c (fun r => { r with chainAbort := true }) t
  have gl : (updateRun c (fun r => { r with chainAbort := true }) t).link = t.link := (updateRun_seqFrame _ _ _).link
  have gr : (updateRun c (fun r => { r with chainAbort := true }) t).results = t.results := by
    unfold updateRun; split <;> rfl
  have gtab : (updateRun c (fun r => { r with chainAbort := true }) t).tables = t.tables := (updateRun_seqFrame _ _ _).tables
  have q := k.sequencer
  generalize updateRun c (fun r => { r with chainAbort := true }) t = v at g gl gr gtab
  have gi : v.seq.injRun.isSome = t.seq.injRun.isSome := g.injRun
  have e1 : v.itemOnLink = t.itemOnLink := by simp [State.itemOnLink, g.item]
  have e2 : ∀ b, v.seqTransaction b = t.seqTransaction b := by intro b; simp [State.seqTransaction, gl]
  have e3 : ∀ k, v.isPending k = t.isPending k := by intro k; simp [State.isPending, g.pendingSet]
  have he := q.ended
  have hn : v.seq.injRun = none → t.seq.injRun = none := by
    intro z; rw [z] at gi; cases w : t.seq.injRun <;> simp_all
  have ga := g.active
  have gt := g.top
  cases q
  constructor
  case ended => intro j a b; rw [gt, g.suspended]; exact he j (by rw [← ga]; exact a) (hn b)
  all_goals
    simp only [g.top, g.active, g.item, g.suspended, g.pendingSet, g.present, g.tenure, gtab, gi, gr, e1, e2, e3]
    assumption

theorem abortChain_coherent (h : Coherent s) {c : Chain} (ac : s.abortableChain = some c) (off : s.itemOnLink = false) :
    Coherent (arbitrate (schedule (endRun c true (abandonItem c s)))) := by
  have q := h.sequencer
  have r := q.ready
  have armed : s.isArmed = true := by
    unfold State.abortableChain at ac; split at ac
    · assumption
    · simp at ac
  have top := isArmed_iff.1 armed
  have active : s.seq.active.chain = some c := by
    simp only [State.abortableChain, armed] at ac
    simp only [if_true] at ac
    split at ac <;> simp_all [Context.chain]
  have inj : s.seq.injRun.isSome = true ↔ ∃ k, c = .inj k := by
    simp only [State.abortableChain, armed] at ac
    simp only [if_true] at ac
    constructor
    · intro z; obtain ⟨k, e⟩ := q.injected z; rw [e] at active; exact ⟨k, by simpa [Context.chain] using active.symm⟩
    · rintro ⟨k, rfl⟩; split at ac <;> simp_all
  have pass : c = .normal ∨ s.seq.suspended.isSome = true → s.seq.pass.present = true := by
    rintro (rfl | z)
    · exact q.pass (.inl (Context.chain_normal.1 active))
    · exact q.pass (.inr z)
  have susp : s.seq.suspended.isSome = true → ∃ k, c = .inj k := by
    intro z; obtain ⟨k, e⟩ := q.suspended z; rw [e] at active; exact ⟨k, by simpa [Context.chain] using active.symm⟩
  have free : ¬ s.seqTransaction false := by rw [← q.onLink]; simp [off]
  have m := abandonItem_dropping c s
  have f := endRun_seqFrame c true (abandonItem c s)
  refine schedule_marked h.toSettled ⟨by rw [f.link]; exact m.link, by rw [f.direct]; exact m.direct,
    by rw [f.arb]; exact m.lock, by rw [f.arb]; exact m.pause⟩ ?_
  refine endRun_ready (n := 2) ?_ (.inr ⟨rfl, rfl⟩)
  cases e : s.seq.item with
  | none =>
    have : abandonItem c s = s := by simp [abandonItem, e]
    rw [this]
    have top' : s.seq.top = .queueWait := by
      rcases top with z | z | z
      · have := (q.idle z).1; rw [this] at active; simp [Context.chain] at active
      · have := q.running.1 z; simp [e] at this
      · exact z
    have ten := r.noTenure e
    refine ⟨.inr top', active, e, inj, pass, susp, q.suspendedRestarts, q.members, free, ten, ⟨q.waiting, q.queue, q.hold, q.full⟩⟩
  | some i =>
    have runs := q.runs (by simp [e]) active off
    have fin : Closed 2 c (finishItem c i .aborted none s) := (runs.finish i .aborted none).mono (by omega)
    have offp : i.phase ≠ .onLink ∧ i.phase ≠ .onLinkFetch := by simpa [State.itemOnLink, e] using off
    unfold abandonItem
    rw [e]
    dsimp only
    split
    · split
      · rename_i gw _
        have ten : s.arb.tenure = false := by
          by_contra z
          obtain ⟨j, hj, hg⟩ := q.tenure (by simpa using z)
          rw [e] at hj; simp at hj; subst hj; exact hg gw
        exact ⟨.inl (q.running.2 (by simp [e])), active, rfl, inj, pass, susp, q.suspendedRestarts, q.members,
          free, ten, ⟨q.waiting, q.queue, q.hold, q.full⟩⟩
      · exact fin
    · exact fin
    · exact fin
    · simp_all
    · simp_all

/-- A field of the pass that no invariant reads. -/
theorem stopAfter_coherent (h : Coherent s) (b : Bool) : Coherent (setPass { s.seq.pass with stopAfter := b } s) := by
  refine ⟨h.toSettled.seqFrame ?_ (setPass_seqFrame _ _), h.decided⟩
  have := h.sequencer
  cases this; constructor <;> assumption

theorem armed_coherent (h : Coherent s) (top : s.seq.top = .stopped) : Coherent (armed s) := by
  have q := h.sequencer
  have r := q.ready
  have hi : s.seq.item = none := by
    cases e : s.seq.item with
    | none => rfl
    | some _ => have := q.running.2 (by simp [e]); simp [top] at this
  have off : s.itemOnLink = false := by simp [State.itemOnLink, hi]
  have free : ¬ s.seqTransaction false := by rw [← q.onLink]; simp [off]
  have ten := r.noTenure hi
  have hh := r.holdNil (by simp [top])
  refine ⟨h.toSettled.seqOnly ?_ rfl rfl rfl rfl rfl, ?_⟩
  · have free' : ¬ (armed s).seqTransaction false := free
    constructor
    · simp [armed]
    · simp [armed]
    · simp [armed]
    · simp [armed, hh]
    · simp [armed]
    · simp [armed]
    · simp [armed]
    · simp [armed]
    · simp [armed]
    · simp [armed]
    · simp [armed]
    · simp [armed, State.isPending]
    · simp [armed, ten]
    · simp [armed, State.itemOnLink]
    · rw [show (armed s).itemOnLink = false from rfl]; simp [free']
    · simp [armed]
    · exact q.queue
    · simp [armed, hh]
    · simp [armed, hh]
  · have e2 : (armed s).decision = s.decision := by
      simp only [State.decision, State.seqRequest, armed, hi, State.directWins]
      rfl
    have := h.decided
    unfold State.Decided at *
    rw [e2]
    exact this

theorem conversion_coherent (h : Coherent s) : Coherent (conversionTimerExpiry s) := by
  unfold conversionTimerExpiry
  split
  · split
    · rename_i i e p
      apply arbitrate_coherent
      refine h.toSettled.seqFrame ?_ (setItem_seqFrame _ _)
      have off : s.itemOnLink = false := by simp [State.itemOnLink, e, p]
      have q := h.sequencer
      have hr := q.restarts i e
      have hc := q.context
      have on := q.onLink
      have top := q.running.2 (by simp [e])
      cases q
      constructor
      case running => simp [top]
      case context => intro a; have := (hc a).1; simp [e] at this
      case restarts => rintro j hj; simp at hj; subst hj; exact hr
      case tenure => intro _; exact ⟨_, rfl, by simp⟩
      case held => simp [State.itemOnLink]
      case onLink => rw [off] at on; exact on
      all_goals assumption
    · exact h
  · exact h

theorem suspendedTimer_coherent (h : Coherent s) : Coherent (suspendedTimerExpiry s) := by
  unfold suspendedTimerExpiry
  split
  · split
    · exact h
    · rename_i r e _
      refine ⟨h.toSettled.seqFrame ?_ (setSuspended_seqFrame _ _), h.decided⟩
      have q := h.sequencer
      have hr := q.suspendedRestarts r e
      have hs := q.suspended (by simp [e])
      have hp := q.pass (.inr (by simp [e]))
      have he := q.ended
      cases q
      constructor
      case ended => intro j a b; exact ⟨(he j a b).1, rfl⟩
      case suspended => intro _; exact hs
      case suspendedRestarts => rintro j hj; simp at hj; subst hj; exact hr
      case pass => intro _; exact hp
      all_goals assumption
  · exact h

theorem pauseEnd_coherent (h : Coherent s) : Coherent (decideNow { s with arb := { s.arb with pause := none } }) := by
  apply decideNow_coherent
  obtain ⟨l, d, q, k⟩ := h.toSettled
  refine ⟨?_, ?_, SequencerOk_of_eq q rfl rfl rfl rfl rfl, ?_⟩
  · cases l; constructor <;> assumption
  · cases d; constructor <;> assumption
  · cases k; constructor
    case pause => simp
    all_goals assumption

theorem lockNone_settled (h : Settled s) : Settled (setLock .none s) := by
  obtain ⟨l, d, q, k⟩ := h
  refine ⟨?_, ?_, SequencerOk_of_eq q rfl rfl rfl rfl rfl, ?_⟩
  · cases l; constructor <;> assumption
  · cases d; constructor <;> assumption
  · constructor
    · simp
    · simp
    · simp
    · simp
    · intro p; exact ⟨(k.pause p).1, rfl⟩

theorem lockWindow_coherent (h : Coherent s) : Coherent (lockWindowExpiry s) := by
  unfold lockWindowExpiry
  split
  · refine decideNow_coherent ((lockNone_settled h.toSettled).congr rfl rfl rfl rfl rfl rfl rfl rfl rfl rfl)
  · exact h

end Sys2Proof.Machine
end

