-- ==== Sys2Proof/Laws/Check.lean ====
section
/-! SUPPORT. A Bool that Lean's kernel evaluates on a concrete state, true only of states that meet the invariants of
Safety.lean: how a witness shows its state is one. -/

namespace Sys2Proof.Machine

/-- The tables' part of the check. -/
def State.checkTables (s : State) : Bool :=
  (List.finRange 16).all (fun e =>
    let x := s.stations.entries[e]
    decide (2 ≤ x.timeout.toNat) && decide (x.timeout.toNat ≤ 500) && x.backoff != 0#8 && x.failLimit != 0#4 &&
      decide ((s.stations.failures[e]).toNat ≤ x.failLimit.toNat) &&
      (List.finRange 16).all fun f => !x.enabled || !(s.stations.entries[f]).enabled || x.address == 0#5 ||
        x.address != (s.stations.entries[f]).address || e == f) &&
  (List.finRange 64).all (fun n =>
    decide (1 ≤ (s.tables.items[n]).length.toNat) && decide ((s.tables.items[n]).length.toNat ≤ 4)) &&
  decide (1 ≤ s.tables.normal.count.toNat) && decide (s.tables.normal.count.toNat ≤ 64) &&
  (List.finRange 8).all (fun k =>
    decide (1 ≤ (s.tables.inj[k]).count.toNat) && decide ((s.tables.inj[k]).count.toNat ≤ 16)) &&
  (List.finRange 4).all (fun k => (s.trigger.timers[k]).period != 0#24) &&
  s.arb.windowLength != 0#8 && decide (2 ≤ s.direct.defTimeout.toNat) && decide (s.direct.defTimeout.toNat ≤ 500)

theorem State.checkTables_sound {s : State} (h : s.checkTables = true) : s.TablesOk := by
  simp only [State.checkTables, Bool.and_eq_true, List.all_eq_true, List.mem_finRange, true_implies, decide_eq_true_eq,
    bne_iff_ne, Bool.or_eq_true, Bool.not_eq_true', beq_iff_eq] at h
  obtain ⟨⟨⟨⟨⟨⟨⟨⟨a, b⟩, c⟩, d⟩, e⟩, f⟩, g⟩, i⟩, j⟩ := h
  refine ⟨fun k => ⟨(a k).1.1.1.1.1, (a k).1.1.1.1.2⟩, fun k => (a k).1.1.1.2, fun k => (a k).1.1.2,
    fun k => (a k).1.2, ?_, b, ⟨c, d⟩, e, f, g, i, j⟩
  intro k l p q r w
  rcases (a k).2 l with (((x | x) | x) | x) | x
  · rw [p] at x; exact absurd x (by simp)
  · rw [q] at x; exact absurd x (by simp)
  · exact absurd x r
  · exact absurd w x
  · exact x

/-- The result slots' part. -/
def State.checkSlots (s : State) : Bool :=
  (List.finRange 64).all fun k => !(s.results.slots[k]).overwritten || (s.results.slots[k]).state == .fresh

theorem State.checkSlots_sound {s : State} (h : s.checkSlots = true) : s.SlotsOk := by
  intro k o
  have := (List.all_eq_true.1 h) k (List.mem_finRange k)
  rw [o] at this
  simpa using this

/-- The Link Engine's part. -/
def State.checkLink (s : State) : Bool :=
  let l := s.link
  (l.phase != .idle || (l.txn.isNone && l.timer.isNone)) &&
  (l.txn.isSome || l.phase == .idle || l.phase == .settle) &&
  (l.timer.isSome || !(l.phase == .sending || l.phase == .awaitResponse || l.phase == .settle || l.phase == .backoff ||
    (l.phase == .receiving && l.endWatch))) &&
  l.txn.all (fun t => decide (1 ≤ t.attempt) && decide (t.attempt ≤ t.params.retry.toNat + 1)) &&
  l.txn.all (fun t => !(l.phase == .settle || l.phase == .backoff) || decide (t.attempt ≤ t.params.retry.toNat)) &&
  l.txn.all (fun t => t.value.isSome == (t.op == .write))

theorem State.checkLink_sound {s : State} (h : s.checkLink = true) : s.LinkOk := by
  simp only [State.checkLink, Bool.and_eq_true, Bool.or_eq_true, Option.all_eq_true, Bool.not_eq_true',
    Bool.or_eq_false_iff, Bool.and_eq_false_iff, decide_eq_true_eq, bne_iff_ne, beq_iff_eq, Option.isNone_iff_eq_none,
    beq_eq_false_iff_ne] at h
  obtain ⟨⟨⟨⟨⟨a, b⟩, c⟩, d⟩, e⟩, f⟩ := h
  refine ⟨fun p => ?_, fun p => ?_, fun p => ?_, d, fun t q p => ?_, fun t q => by rw [f t q, beq_iff_eq]⟩
  · rcases a with a | a
    · exact absurd p a
    · exact a
  · rcases b with (b | b) | b
    · rw [p] at b; simp at b
    · exact .inl b
    · exact .inr b
  · rcases c with c | c
    · exact c
    · obtain ⟨⟨⟨⟨c1, c2⟩, c3⟩, c4⟩, c5⟩ := c
      rcases p with p | p | p | p | ⟨p, w⟩
      · exact absurd p c1
      · exact absurd p c2
      · exact absurd p c3
      · exact absurd p c4
      · rcases c5 with c5 | c5
        · exact absurd p c5
        · rw [w] at c5; simp at c5
  · rcases e t q with ⟨x, y⟩ | x
    · rcases p with p | p
      · exact absurd p x
      · exact absurd p y
    · exact x

/-- The Direct Request Unit's part. -/
def State.checkDirect (s : State) : Bool :=
  decide s.direct.order.Nodup &&
  (List.finRange 4).all (fun t => s.direct.order.contains t == ((s.direct.slots[t]).state == .queued)) &&
  decide (s.direct.order.Pairwise fun a b => s.urgent b = true → s.urgent a = true) &&
  (List.finRange 4).all (fun t => ((s.direct.slots[t]).state == .active) ==
    s.link.txn.any fun x => x.requester == .direct t)

theorem State.checkDirect_sound {s : State} (h : s.checkDirect = true) : s.DirectOk := by
  simp only [State.checkDirect, Bool.and_eq_true, List.all_eq_true, List.mem_finRange, true_implies,
    decide_eq_true_eq, beq_iff_eq] at h
  obtain ⟨⟨⟨a, b⟩, c⟩, d⟩ := h
  refine ⟨a, fun t => ?_, c, fun t => ?_⟩
  · have := b t
    rw [← List.contains_iff_mem, this, beq_iff_eq]
  · have := d t
    rw [← beq_iff_eq, this, Option.any_eq_true]
    simp only [beq_iff_eq]

/-- A transaction of the Sequencer with the given mark is with the engine. -/
def State.checkTxn (s : State) (b : Bool) : Bool :=
  s.link.txn.any fun x => x.requester == .sequencer && x.orphan == b

theorem State.checkTxn_iff {s : State} {b : Bool} : s.checkTxn b = true ↔ s.seqTransaction b := by
  simp only [State.checkTxn, State.seqTransaction, Option.any_eq_true, Bool.and_eq_true, beq_iff_eq]

/-- The active context is an injected chain. -/
def State.injectedActive (s : State) : Bool :=
  match s.seq.active with
  | .inj _ => true
  | _ => false

theorem State.injectedActive_sound {s : State} (h : s.injectedActive = true) : ∃ k, s.seq.active = .inj k := by
  unfold State.injectedActive at h
  split at h
  · rename_i k e; exact ⟨k, e⟩
  · simp at h

/-- The Sequencer's part. -/
def State.checkSequencer (s : State) : Bool :=
  let q := s.seq
  (!(q.top == .stopped || q.top == .stopping || q.top == .idle) || (q.active == .none && q.pendingSet == 0#8)) &&
  ((q.top == .running) == q.item.isSome) && ((q.top == .queueWait) == (s.results.hold != [])) &&
  (q.active != .none || (q.item == none && !q.pass.present)) && (q.injRun.isNone || s.injectedActive) &&
  (!s.injectedActive || q.injRun.isSome || (q.top == .queueWait && q.suspended.isSome)) &&
  (!(q.active == .normal || q.suspended.isSome) || q.pass.present) && (q.suspended.isNone || s.injectedActive) &&
  q.item.all (fun i => decide (i.restarts ≤ 3)) && q.suspended.all (fun r => decide (r.restarts ≤ 3)) &&
  (List.finRange 8).all (fun k => !s.isPending k || (s.tables.inj[k]).enabled) &&
  (!s.arb.tenure || q.item.any fun i => i.phase != .grantWait) && (!s.itemOnLink || s.arb.tenure) &&
  (s.itemOnLink == s.checkTxn false) && (q.top != .stopping || s.checkTxn true) &&
  decide (s.results.queue.length ≤ 32) && decide (s.results.hold.length ≤ 2) &&
  (s.results.hold == [] || s.results.queue.length == 32)

theorem State.checkSequencer_sound {s : State} (h : s.checkSequencer = true) : s.SequencerOk := by
  simp only [State.checkSequencer, Bool.and_eq_true] at h
  obtain ⟨⟨⟨⟨⟨⟨⟨⟨⟨⟨⟨⟨⟨⟨⟨⟨⟨a, b⟩, c⟩, d⟩, e⟩, f⟩, g⟩, i⟩, j⟩, k⟩, l⟩, m⟩, n⟩, o⟩, p⟩, q⟩, r⟩, w⟩ := h
  simp only [Bool.or_eq_true, Bool.and_eq_true, Bool.not_eq_true', Bool.or_eq_false_iff, beq_iff_eq,
    beq_eq_false_iff_ne, bne_iff_ne, decide_eq_true_eq, Option.all_eq_true, Option.any_eq_true, List.all_eq_true,
    List.mem_finRange, true_implies] at *
  refine ⟨fun x => ?_, fun x => ?_, ?_, ?_, fun x => ?_, fun x => ?_, fun x y z => ?_, fun x => ?_, fun x => ?_, j, k,
    fun x y => ?_, fun x => ?_, fun x => ?_, ?_, fun x => ?_, q, r, fun x => ?_⟩
  · rcases a with a | a
    · rcases x with x | x
      · exact absurd x a.1.1
      · exact absurd x a.1.2
    · exact a
  · rcases a with a | a
    · exact absurd x a.2
    · exact a
  · rw [← b, beq_iff_eq]
  · rw [← bne_iff_ne, ← c, beq_iff_eq]
  · rcases d with d | d
    · exact absurd x d
    · exact ⟨d.1, d.2⟩
  · rcases e with e | e
    · cases z : s.seq.injRun <;> simp_all
    · exact State.injectedActive_sound e
  · have u : s.injectedActive = true := by unfold State.injectedActive; rw [y]
    rcases f with (f | f) | f
    · rw [u] at f; simp at f
    · rw [z] at f; simp at f
    · exact f
  · rcases g with g | g
    · rcases x with x | x
      · exact absurd x g.1
      · rw [x] at g; simp at g
    · exact g
  · rcases i with i | i
    · cases z : s.seq.suspended <;> simp_all
    · exact State.injectedActive_sound i
  · rcases l x with l | l
    · rw [y] at l; simp at l
    · exact l
  · rcases m with m | ⟨y, m, z⟩
    · rw [x] at m; simp at m
    · exact ⟨y, m, z⟩
  · rcases n with n | n
    · rw [x] at n; simp at n
    · exact n
  · rw [o, State.checkTxn_iff]
  · rcases p with p | p
    · exact absurd x p
    · exact State.checkTxn_iff.1 p
  · rcases w with w | w
    · exact absurd w x
    · exact w

/-- A direct transaction is with the engine. -/
def State.checkDirectTxn (s : State) : Bool :=
  s.link.txn.any fun x => x.requester != .sequencer

theorem State.checkDirectTxn_sound {s : State} (h : s.checkDirectTxn = true) :
    ∃ x t, s.link.txn = some x ∧ x.requester = .direct t := by
  obtain ⟨x, e, n⟩ := (Option.any_eq_true _ _).1 h
  cases r : x.requester with
  | sequencer => rw [r] at n; simp at n
  | direct t => exact ⟨x, t, e, r⟩

/-- The Link Arbiter's part. -/
def State.checkLock (s : State) : Bool :=
  (match s.arb.lock with
   | .none => true
   | .held n => s.checkDirectTxn && n.all fun t => s.direct.order.contains t && !s.urgent t
   | .window _ _ => s.link.phase == .idle
   | .lapsing => s.checkDirectTxn) &&
  (s.arb.pause.isNone || (s.link.phase == .idle && s.arb.lock == .none))

theorem State.checkLock_sound {s : State} (h : s.checkLock = true) : s.LockOk := by
  simp only [State.checkLock, Bool.and_eq_true, Bool.or_eq_true, beq_iff_eq] at h
  obtain ⟨a, b⟩ := h
  refine ⟨fun n e => ?_, fun n e => ?_, fun e => ?_, fun t d e => ?_, fun e => ?_⟩
  · rw [e] at a; simp only [Bool.and_eq_true] at a; exact State.checkDirectTxn_sound a.1
  · rw [e] at a
    simp only [Bool.and_eq_true, Option.all_eq_true, Bool.not_eq_true', List.contains_iff_mem] at a
    exact a.2 n rfl
  · rw [e] at a; exact State.checkDirectTxn_sound a
  · rw [e] at a; simpa using a
  · rcases b with b | b
    · cases z : s.arb.pause <;> simp_all
    · exact b

/-- The whole check. -/
def State.checkInv (s : State) : Bool :=
  s.checkTables && s.checkSlots && s.checkLink && s.checkDirect && s.checkSequencer && s.checkLock &&
    (if s.arb.apart then s.canDecide && s.decision == .sequencer else !s.canDecide || s.decision == .none)

/-- A state that passes the check meets every invariant. -/
theorem State.checkInv_sound {s : State} (h : s.checkInv = true) : s.Inv := by
  simp only [State.checkInv, Bool.and_eq_true] at h
  obtain ⟨⟨⟨⟨⟨⟨a, b⟩, c⟩, d⟩, e⟩, f⟩, g⟩ := h
  refine ⟨State.checkTables_sound a, State.checkSlots_sound b, State.checkLink_sound c, State.checkDirect_sound d,
    State.checkSequencer_sound e, State.checkLock_sound f, fun x => ?_, fun x y => ?_⟩
  · simpa [x] using g
  · simpa [x, y] using g

end Sys2Proof.Machine
end

