-- ==== Sys2Proof/Laws/Completions.lean ====
section
/-! SUPPORT. What completions and ends of runs leave, in the terms of Safety.lean: the records offered, the run context,
the masks and the context that is active next (R68, R73 to R75, R95, R96, R98, R150 to R156). -/

namespace Sys2Proof.Machine

variable {s t u : State}

/-- The expected positions of a chain follow from the tables alone (R45). -/
theorem nextExpected_tables (h : t.tables = s.tables) (c : Chain) (p : Nat) : t.nextExpected c p = s.nextExpected c p := by
  have i : ∀ n, t.itemAt n = s.itemAt n := by intro n; unfold State.itemAt; rw [h]
  have d : t.chainDef c = s.chainDef c := by unfold State.chainDef; rw [h]
  simp only [State.nextExpected, State.isExpected, State.itemNumber, i, d]

/-- Two states alike in all that an offer reads and in what it leaves: the queue, the hold list, the drop counter, the
policy and the top state; and t has every event of s latched. -/
structure Alike (s t : State) : Prop where
  queue : t.results.queue = s.results.queue
  hold : t.results.hold = s.results.hold
  drops : t.results.drops = s.results.drops
  policy : t.results.policy = s.results.policy
  top : t.seq.top = s.seq.top
  latched : ∀ e : Event, s.latched e = true → t.latched e = true

theorem Alike.refl (s : State) : Alike s s := ⟨rfl, rfl, rfl, rfl, rfl, fun _ h => h⟩

theorem Alike.trans (h : Alike s t) (g : Alike t u) : Alike s u :=
  ⟨g.queue.trans h.queue, g.hold.trans h.hold, g.drops.trans h.drops, g.policy.trans h.policy, g.top.trans h.top,
    fun e q => g.latched e (h.latched e q)⟩

theorem raise_latched (e f : Event) (s : State) : (raise e s).latched f = (s.latched f || e.mask.getLsbD f.bit) := by
  simp [State.latched]

theorem raise_alike (e : Event) (s : State) : Alike s (raise e s) :=
  ⟨rfl, rfl, rfl, rfl, rfl, fun f h => by rw [raise_latched, h]; rfl⟩

/-- Raising one event in two alike states leaves them alike. -/
theorem Alike.raise (h : Alike s t) (e : Event) : Alike (raise e s) (raise e t) :=
  ⟨h.queue, h.hold, h.drops, h.policy, h.top, fun f q => by
    rw [raise_latched] at q ⊢
    cases x : s.latched f
    · rw [x] at q; simp at q; simp [q]
    · rw [h.latched f x]; rfl⟩

/-- Offering one record in two alike states leaves them alike. -/
theorem Alike.offer (h : Alike s t) (r : Record) : Alike (offer r s) (offer r t) := by
  have hq := h.queue
  have hh := h.hold
  have hd := h.drops
  have hp := h.policy
  have ht := h.top
  unfold Machine.offer
  have c1 : (t.queueHasRoom && t.results.hold == []) = (s.queueHasRoom && s.results.hold == []) := by
    simp only [State.queueHasRoom, hq, hh]
  rw [c1, hp]
  split
  · unfold enqueue
    dsimp only
    rw [hq]
    split
    · apply Alike.raise; exact ⟨rfl, hh, hd, hp, ht, h.latched⟩
    · exact ⟨rfl, hh, hd, hp, ht, h.latched⟩
  · split
    · unfold Machine.discard
      rw [hd]
      apply Alike.raise; exact ⟨hq, hh, rfl, hp, ht, h.latched⟩
    · unfold holdRecord
      dsimp only
      rw [hh]
      split
      · apply Alike.raise; exact ⟨hq, rfl, hd, hp, rfl, h.latched⟩
      · exact ⟨hq, rfl, hd, hp, ht, h.latched⟩

theorem Alike.offers (h : Alike s t) (l : List Record) :
    Alike (l.foldl (fun t r => Machine.offer r t) s) (l.foldl (fun t r => Machine.offer r t) t) := by
  induction l generalizing s t with
  | nil => exact h
  | cons r l ih => exact ih (h.offer r)

/-- A state alike to what the offers leave of s. -/
theorem Alike.to_offers {l : List Record} (h : Alike (l.foldl (fun t r => Machine.offer r t) s) u) : s.Offers u l :=
  ⟨h.queue, h.hold, h.drops, h.top, h.latched⟩

theorem writeSlot_alike (c : Completion) (s : State) : Alike s (writeSlot c s) := by
  unfold writeSlot; split
  · exact .refl s
  · split <;> exact ⟨rfl, rfl, rfl, rfl, rfl, fun _ h => h⟩

theorem copyMask_alike (c : Chain) (m : BitVec 64) (s : State) : Alike s (copyMask c m s) := by
  unfold copyMask; split <;> exact ⟨rfl, rfl, rfl, rfl, rfl, fun _ h => h⟩

theorem updateRun_alike (c : Chain) (f : RunContext → RunContext) (s : State) : Alike s (updateRun c f s) := by
  unfold updateRun; split <;> exact ⟨rfl, rfl, rfl, rfl, rfl, fun _ h => h⟩

/-- A completion leaves what its record's offer leaves. -/
theorem finishItem_alike (c : Chain) (it : ItemRun) (o : ItemOutcome) (v : Option Value) (s : State) :
    Alike ((s.itemRecords c it o v).foldl (fun t r => offer r t) s) (finishItem c it o v s) := by
  have key : ∀ k, Alike ((if k.post.calls k.outcome then [k.record] else []).foldl (fun t r => offer r t) s)
      (takeCompletion k s) := by
    intro k
    unfold takeCompletion
    dsimp only
    have a : Alike s (if k.outcome.isFailure = true then raise .itemError (writeSlot k s) else writeSlot k s) := by
      split
      · exact (writeSlot_alike k s).trans (raise_alike _ _)
      · exact writeSlot_alike k s
    split
    · exact a.offer _
    · exact a
  have e : s.itemRecords c it o v = if (s.completionOf c it o v).post.calls (s.completionOf c it o v).outcome then
      [(s.completionOf c it o v).record] else [] := by
    unfold State.itemRecords State.completionOf Completion.record
    dsimp only
    cases h : (s.itemAt it.item).post <;> simp [Post.calls]
  rw [e]
  refine (key _).trans ?_
  unfold finishItem completeItem
  exact (updateRun_alike ..).trans ⟨rfl, rfl, rfl, rfl, rfl, fun _ h => h⟩

/-- What a completion leaves of s: the records l offered, the run context of chain c as run, all else of the Sequencer's
contexts as it was. -/
structure Finished (s t : State) (c : Chain) (run : RunContext) (l : List Record) : Prop where
  alike : Alike (l.foldl (fun t r => offer r t) s) t
  tables : t.tables = s.tables
  active : t.seq.active = s.seq.active
  runs : t.runOf c = run
  injRun : ∀ k, c = .inj k → t.seq.injRun.isSome = true
  pass : t.seq.pass = if c = .normal then { s.seq.pass with run := run } else s.seq.pass
  suspended : t.seq.suspended = s.seq.suspended
  injMasks : t.results.injMasks = s.results.injMasks
  arb : t.arb = { s.arb with tenure := t.arb.tenure }

theorem offer_same (r : Record) (s : State) : (offer r s).tables = s.tables ∧ (offer r s).arb = s.arb ∧
    (offer r s).results.injMasks = s.results.injMasks ∧ (offer r s).results.normalMask = s.results.normalMask ∧
    (offer r s).seq = { s.seq with top := (offer r s).seq.top } := by
  unfold offer enqueue Machine.discard holdRecord
  (repeat' split) <;> exact ⟨rfl, rfl, rfl, rfl, rfl⟩

/-- Offering a record to what offers left. -/
theorem offers_snoc {l : List Record} (h : Alike (l.foldl (fun t r => offer r t) s) t) (r : Record) :
    Alike ((l ++ [r]).foldl (fun t r => offer r t) s) (offer r t) := by
  rw [List.foldl_append]; exact h.offer r

theorem endInjRun_goesOn {k : Fin 8} {run : RunContext} {l : List Record} {early : Bool}
    (h : Finished s t (.inj k) run l) (active : s.seq.active = .inj k)
    (ends : early = true ∨ s.nextExpected (.inj k) (run.position + 1) = none) :
    s.RunGoesOn (endInjRun k early t) (.inj k) run l early := by
  have hr := h.runs
  have e : endInjRun k early t = setActive ((setInjRun none (setItem none (raise .injEnd
      (offer (.injEnd k run.done run.errors early) (copyMask (.inj k) run.mask t))))).contextAfterRun)
      (setInjRun none (setItem none (raise .injEnd
      (offer (.injEnd k run.done run.errors early) (copyMask (.inj k) run.mask t))))) := by
    rw [← hr]; rfl
  obtain ⟨_, _, o3, _, o5⟩ := offer_same (.injEnd k run.done run.errors early) (copyMask (.inj k) run.mask t)
  have al := offers_snoc (h.alike.trans (copyMask_alike (.inj k) run.mask t)) (.injEnd k run.done run.errors early)
  have c3 : (copyMask (.inj k) run.mask t).results.injMasks = t.results.injMasks.set k (run.mask.setWidth 16) := rfl
  have c5 : (copyMask (.inj k) run.mask t).seq = t.seq := rfl
  rw [c3, h.injMasks] at o3
  rw [c5] at o5
  generalize offer (.injEnd k run.done run.errors early) (copyMask (.inj k) run.mask t) = w at *
  have b := al.trans (raise_alike .injEnd w)
  refine ⟨fun q x y => absurd ends (by simp [x, y]), fun _ => ⟨Chain.noConfusion, ?_⟩⟩
  rintro j ⟨⟩
  rw [e]
  refine ⟨⟨b.queue, b.hold, b.drops, b.top, b.latched⟩, o3, ?_, rfl, ?_, ?_⟩
  · show (raise .injEnd w).latched .injEnd = true
    rw [raise_latched]; simp [Event.mask]; right; decide
  · show w.seq.pass = s.seq.pass
    rw [o5]; exact h.pass
  · show State.contextAfterRun _ = _
    unfold State.contextAfterRun
    have p1 : w.seq.pass = s.seq.pass := by rw [o5]; exact h.pass
    have p2 : w.seq.suspended = s.seq.suspended := by rw [o5]; exact h.suspended
    have p3 : w.seq.active = .inj k := by rw [o5]; exact h.active.trans active
    simp [p1, p2, p3]

/-- The end of a NORMAL pass, said once (R74, R131). -/
theorem endPass_eq (a : Bool) (s : State) : endPass a s =
    let run := s.seq.pass.run
    let w := offer (.passEnd s.seq.pass.number run.done run.errors a) (copyMask .normal run.mask s)
    { raise .passEnd w with
      arb := { w.arb with boundaryGrant := w.arb.mode == .seqFirst || w.arb.boundaryGrant }
      seq := { w.seq with pass := { w.seq.pass with present := false, run := { run with chainAbort := false } } } } := by
  unfold endPass
  dsimp only
  generalize offer _ (copyMask .normal s.seq.pass.run.mask s) = w
  by_cases h : w.arb.mode = .seqFirst
  · have : (w.arb.mode == .seqFirst) = true := by simp [h]
    rw [if_pos (by exact h), this]; rfl
  · rw [if_neg (by exact h)]
    have : (w.arb.mode == .seqFirst) = false := by simp [h]
    rw [this]; rfl

/-- What follows the end of a NORMAL pass, said once, outside IDLE (R75, R154). -/
theorem followPass_eq (top : s.seq.top ≠ .idle) : followPass s =
    let p := s.seq.pass
    let oneShot := s.tables.normalMode = .oneShot
    let follows := if oneShot then p.startPending else !p.stopAfter
    let flags := { p with startPending := if oneShot then false else p.startPending
                          stopAfter := if oneShot then p.stopAfter else false }
    { s with seq := { s.seq with
      item := none, active := if follows then .normal else .none
      pass := if follows then
        { flags with
          present := true, number := p.number + 1#16
          run := { position := (s.nextExpected .normal 0).getD 0, mask := 0#64, done := 0, errors := 0,
                   chainAbort := false } }
        else flags } } := by
  have hf : s.passFollows = if s.tables.normalMode = .oneShot then s.seq.pass.startPending else !s.seq.pass.stopAfter := by
    unfold State.passFollows; cases s.tables.normalMode <;> rfl
  unfold followPass
  dsimp only
  rw [hf]
  cases f : (if s.tables.normalMode = .oneShot then s.seq.pass.startPending else !s.seq.pass.stopAfter)
  · cases m : s.tables.normalMode <;> simp <;> rfl
  · rw [if_pos rfl, beginPass_active (by exact Context.noConfusion) (by exact top)]
    cases m : s.tables.normalMode <;> simp <;> rfl

theorem endNormalRun_goesOn {run : RunContext} {l : List Record} {early : Bool} (h : Finished s t .normal run l)
    (top : t.seq.top ≠ .idle) (ends : early = true ∨ s.nextExpected .normal (run.position + 1) = none) :
    s.RunGoesOn (followPass (endPass early t)) .normal run l early := by
  have hr : t.seq.pass = { s.seq.pass with run := run } := by rw [h.pass, if_pos rfl]
  obtain ⟨o1, o2, _, o4, o5⟩ := offer_same (.passEnd s.seq.pass.number run.done run.errors early) (copyMask .normal run.mask t)
  have al := offers_snoc (h.alike.trans (copyMask_alike .normal run.mask t))
    (.passEnd s.seq.pass.number run.done run.errors early)
  have ntop : (offer (.passEnd s.seq.pass.number run.done run.errors early) (copyMask .normal run.mask t)).seq.top ≠ .idle := by
    rcases (offer_offering (.passEnd s.seq.pass.number run.done run.errors early) (copyMask .normal run.mask t)).top with q | q
    · rw [q]; exact top
    · rw [q]; exact Top.noConfusion
  have ha := h.arb
  have ht := h.tables
  rw [endPass_eq, hr]
  dsimp only
  have c1 : (copyMask .normal run.mask t).tables = t.tables := rfl
  have c2 : (copyMask .normal run.mask t).arb = t.arb := rfl
  have c4 : (copyMask .normal run.mask t).results.normalMask = run.mask := rfl
  have c5 : (copyMask .normal run.mask t).seq = t.seq := rfl
  rw [c1] at o1
  rw [c2] at o2
  rw [c4] at o4
  rw [c5] at o5
  generalize offer (.passEnd s.seq.pass.number run.done run.errors early) (copyMask .normal run.mask t) = w at *
  have b := al.trans (raise_alike .passEnd w)
  have wp : w.seq.pass = { s.seq.pass with run := run } := by rw [o5]; exact hr
  have lp : (raise .passEnd w).latched .passEnd = true := by
    rw [raise_latched]; simp [Event.mask]; right; decide
  have wm : w.arb.mode = s.arb.mode := by rw [o2, ha]
  have wb : w.arb.boundaryGrant = s.arb.boundaryGrant := by rw [o2, ha]
  rw [followPass_eq (by exact ntop)]
  refine ⟨fun q u v => absurd ends (by simp [u, v]), fun _ => ⟨fun _ => ?_, fun k q => Chain.noConfusion q⟩⟩
  dsimp only
  refine ⟨⟨b.queue, b.hold, b.drops, b.top, b.latched⟩, o4, lp, ?_, ?_, ?_⟩
  · rw [wm, wb]
  · simp only [raise_tables, o1, ht, wp]
  · rw [nextExpected_tables (s := s) (by simp [o1, ht])]
    simp only [raise_tables, o1, ht, wp]

/-! ## A completion, and what follows it -/

theorem takeCompletion_same (k : Completion) (s : State) :
    (∃ top, (takeCompletion k s).seq = { s.seq with top := top }) ∧ (takeCompletion k s).arb = s.arb ∧
    (takeCompletion k s).results.injMasks = s.results.injMasks ∧
    (takeCompletion k s).results.slots = (writeSlot k s).results.slots ∧
    (k.outcome.isFailure = true → (takeCompletion k s).latched .itemError = true) := by
  have w : (writeSlot k s).seq = s.seq ∧ (writeSlot k s).arb = s.arb ∧
      (writeSlot k s).results.injMasks = s.results.injMasks := by
    unfold writeSlot; (repeat' split) <;> exact ⟨rfl, rfl, rfl⟩
  have o : ∀ x : State, x.seq = s.seq → x.arb = s.arb → x.results.injMasks = s.results.injMasks → ∀ b : Bool,
      (∃ top, (if b = true then offer k.record x else x).seq = { s.seq with top := top }) ∧
      (if b = true then offer k.record x else x).arb = s.arb ∧
      (if b = true then offer k.record x else x).results.injMasks = s.results.injMasks := by
    intro x x1 x4 x2 b
    cases b
    · exact ⟨⟨s.seq.top, x1⟩, x4, x2⟩
    · obtain ⟨_, o2, o3, _, o5⟩ := offer_same k.record x
      simp only [if_true]
      exact ⟨⟨_, o5.trans (by rw [x1])⟩, o2.trans x4, o3.trans x2⟩
  have sl : ∀ x : State, (offer k.record x).results.slots = x.results.slots := by
    intro x; unfold offer enqueue Machine.discard holdRecord; (repeat' split) <;> rfl
  unfold takeCompletion
  dsimp only
  generalize hx : (if k.outcome.isFailure = true then raise Event.itemError (writeSlot k s) else writeSlot k s) = x
  have x1 : x.seq = s.seq := by rw [← hx]; split <;> exact w.1
  have x4 : x.arb = s.arb := by rw [← hx]; split <;> exact w.2.1
  have x2 : x.results.injMasks = s.results.injMasks := by rw [← hx]; split <;> exact w.2.2
  have x3 : x.results.slots = (writeSlot k s).results.slots := by rw [← hx]; split <;> rfl
  refine ⟨(o x x1 x4 x2 _).1, (o x x1 x4 x2 _).2.1, (o x x1 x4 x2 _).2.2, ?_, fun f => ?_⟩
  · split
    · rw [sl]; exact x3
    · exact x3
  · have l : x.latched .itemError = true := by
      rw [← hx, if_pos f, raise_latched]; simp [Event.mask]; right; decide
    split
    · unfold offer enqueue Machine.discard holdRecord
      (repeat' split) <;> first | exact l | (rw [raise_latched]; simp only [Bool.or_eq_true]; left; exact l)
    · exact l

theorem finishItem_finished {c : Chain} (it : ItemRun) (o : ItemOutcome) (v : Option Value)
    (run : c ≠ .normal → s.seq.injRun.isSome = true) :
    Finished s (finishItem c it o v s) c ((s.runOf c).completed it.position o) (s.itemRecords c it o v) := by
  obtain ⟨⟨tp, e1⟩, e3, e2, _, _⟩ := takeCompletion_same (s.completionOf c it o v) s
  have f := (takeCompletion_seqFrame (s.completionOf c it o v) s).tables
  have al := finishItem_alike c it o v s
  unfold finishItem completeItem at *
  dsimp only at *
  generalize takeCompletion (s.completionOf c it o v) s = w at *
  cases c with
  | normal =>
    refine ⟨al, f, ?_, ?_, fun k q => Chain.noConfusion q, ?_, ?_, e2, ?_⟩ <;> simp [updateRun, State.runOf, e1, e3]
  | inj k =>
    obtain ⟨r, q⟩ := Option.isSome_iff_exists.1 (run Chain.noConfusion)
    refine ⟨al, f, ?_, ?_, fun k _ => ?_, ?_, ?_, e2, ?_⟩ <;> simp [updateRun, State.runOf, e1, e3, q]

/-- The end of a run, early or at its last expected position (R74, R96, R154). -/
theorem endRun_goesOn {c : Chain} {run : RunContext} {l : List Record} {early : Bool} (h : Finished s t c run l)
    (active : s.seq.active.chain = some c) (top : t.seq.top ≠ .idle)
    (ends : early = true ∨ s.nextExpected c (run.position + 1) = none) :
    s.RunGoesOn (endRun c early t) c run l early := by
  cases c with
  | normal => exact endNormalRun_goesOn h top ends
  | inj k => exact endInjRun_goesOn h (Context.chain_inj.1 active) ends

/-- After a completion the run goes on, or ends (R73, R95). -/
theorem advance_goesOn {c : Chain} {run : RunContext} {l : List Record} (h : Finished s t c run l)
    (active : s.seq.active.chain = some c) (top : t.seq.top ≠ .idle) : s.RunGoesOn (advance c t) c run l false := by
  unfold advance
  rw [h.runs, nextExpected_tables h.tables]
  cases e : s.nextExpected c (run.position + 1) with
  | none => exact endRun_goesOn h active top (.inr e)
  | some q =>
    show s.RunGoesOn (updateRun c (fun r => { r with position := q }) t) c run l false
    refine ⟨fun p _ x => ?_, fun x => absurd x (by simp [e])⟩
    obtain rfl : q = p := by simpa [e] using x
    have a := h.alike.trans (updateRun_alike c (fun r => { r with position := q }) t)
    refine ⟨?_, ?_, a.to_offers⟩
    · exact (updateRun_quiet c _ t).active.trans h.active
    · have r := h.runs
      unfold updateRun State.runOf at *
      cases c with
      | normal => simp at r ⊢; simp [r]
      | inj k =>
        obtain ⟨y, z⟩ := Option.isSome_iff_exists.1 (h.injRun k rfl)
        simp [z] at r ⊢
        simp [r]

/-- The current item completes and its run goes on (R68, R73, R95). -/
theorem completeCurrent_goesOn {c : Chain} (it : ItemRun) (o : ItemOutcome) (v : Option Value)
    (active : s.seq.active.chain = some c) (top : s.seq.top ≠ .idle) (run : c ≠ .normal → s.seq.injRun.isSome = true) :
    s.RunGoesOn (completeCurrent c it o v s) c ((s.runOf c).completed it.position o) (s.itemRecords c it o v) false := by
  refine advance_goesOn (finishItem_finished it o v run) active ?_
  rcases (completeItem_offering c it o v s).top with q | q
  · show (completeItem c it o v s).seq.top ≠ .idle
    rw [q]; exact top
  · show (completeItem c it o v s).seq.top ≠ .idle
    rw [q]; exact Top.noConfusion

/-- What going on after a completion leaves as it was: the record of the item last completed, the pending set, the
suspension record, tenure, the slots and the events latched. -/
structure Kept (s t : State) : Prop where
  lastItem : t.seq.lastItem = s.seq.lastItem
  lastPosition : t.seq.lastPosition = s.seq.lastPosition
  pendingSet : t.seq.pendingSet = s.seq.pendingSet
  suspended : t.seq.suspended = s.seq.suspended
  arb : t.arb = { s.arb with boundaryGrant := t.arb.boundaryGrant }
  slots : t.results.slots = s.results.slots
  latched : ∀ e, s.latched e = true → t.latched e = true

theorem Kept.trans (h : Kept s t) (g : Kept t u) : Kept s u :=
  ⟨g.lastItem.trans h.lastItem, g.lastPosition.trans h.lastPosition, g.pendingSet.trans h.pendingSet,
    g.suspended.trans h.suspended, g.arb.trans (by rw [h.arb]), g.slots.trans h.slots,
    fun e q => g.latched e (h.latched e q)⟩

theorem offer_latched (r : Record) (e : Event) (h : s.latched e = true) : (offer r s).latched e = true := by
  unfold offer enqueue Machine.discard holdRecord
  (repeat' split) <;> first | exact h | (rw [raise_latched]; simp only [Bool.or_eq_true]; left; exact h)

theorem offer_slots (r : Record) (s : State) : (offer r s).results.slots = s.results.slots := by
  unfold offer enqueue Machine.discard holdRecord
  (repeat' split) <;> rfl

theorem offer_kept (r : Record) (s : State) : Kept s (offer r s) := by
  obtain ⟨_, a, _, _, q⟩ := offer_same r s
  refine ⟨?_, ?_, ?_, ?_, by rw [a], offer_slots r s, fun e h => offer_latched r e h⟩ <;> rw [q]

theorem raise_kept (e : Event) (s : State) : Kept s (raise e s) :=
  ⟨rfl, rfl, rfl, rfl, rfl, rfl, fun f h => by rw [raise_latched, h]; rfl⟩

theorem copyMask_kept (c : Chain) (m : BitVec 64) (s : State) : Kept s (copyMask c m s) := by
  unfold copyMask; split <;> exact ⟨rfl, rfl, rfl, rfl, rfl, rfl, fun _ h => h⟩

theorem updateRun_kept (c : Chain) (f : RunContext → RunContext) (s : State) : Kept s (updateRun c f s) := by
  unfold updateRun; split <;> exact ⟨rfl, rfl, rfl, rfl, rfl, rfl, fun _ h => h⟩

theorem endPass_kept (a : Bool) (s : State) : Kept s (endPass a s) := by
  have h := ((copyMask_kept .normal s.seq.pass.run.mask s).trans
    (offer_kept (.passEnd s.seq.pass.number s.seq.pass.run.done s.seq.pass.run.errors a) _)).trans (raise_kept .passEnd _)
  rw [endPass_eq]
  exact h.trans ⟨rfl, rfl, rfl, rfl, rfl, rfl, fun _ h => h⟩

theorem beginPass_kept (s : State) : Kept s (beginPass s) := by
  unfold beginPass; dsimp only
  (repeat' split) <;> exact ⟨rfl, rfl, rfl, rfl, rfl, rfl, fun _ h => h⟩

theorem followPass_kept (s : State) : Kept s (followPass s) := by
  unfold followPass; dsimp only
  split
  · refine Kept.trans ?_ (beginPass_kept _)
    exact ⟨rfl, rfl, rfl, rfl, rfl, rfl, fun _ h => h⟩
  · exact ⟨rfl, rfl, rfl, rfl, rfl, rfl, fun _ h => h⟩

theorem endInjRun_kept (k : Fin 8) (a : Bool) (s : State) : Kept s (endInjRun k a s) := by
  have h := ((copyMask_kept (.inj k) (s.runOf (.inj k)).mask s).trans
    (offer_kept (.injEnd k (s.runOf (.inj k)).done (s.runOf (.inj k)).errors a) _)).trans (raise_kept .injEnd _)
  exact h.trans ⟨rfl, rfl, rfl, rfl, rfl, rfl, fun _ h => h⟩

theorem endRun_kept (c : Chain) (a : Bool) (s : State) : Kept s (endRun c a s) := by
  cases c with
  | normal => exact (endPass_kept a s).trans (followPass_kept _)
  | inj k => exact endInjRun_kept k a s

theorem endRun_item (c : Chain) (a : Bool) (s : State) : (endRun c a s).seq.item = none := by
  cases c with
  | normal =>
    show (followPass _).seq.item = none
    unfold followPass beginPass; dsimp only
    (repeat' split) <;> rfl
  | inj k => rfl

/-- A completed item's run goes on or ends early: what State.Completes says (R68, R73, R95, R150). -/
theorem completes_of {c : Chain} (it : ItemRun) (o : ItemOutcome) (v : Option Value) {w : State} {early : Bool}
    (kept : Kept (finishItem c it o v s) w) (frame : SeqFrame (finishItem c it o v s) w) (item : w.seq.item = none)
    (goes : s.RunGoesOn w c ((s.runOf c).completed it.position o) (s.itemRecords c it o v) early) :
    s.Completes w c it o v early := by
  obtain ⟨⟨tp, e1⟩, e3, e2, e4, e5⟩ := takeCompletion_same (s.completionOf c it o v) s
  have f := (finishItem_seqFrame c it o v s).trans frame
  have ps : (finishItem c it o v s).seq.pendingSet = s.seq.pendingSet ∧
      (finishItem c it o v s).seq.suspended = s.seq.suspended := by
    have h := completeItem_offering c it o v s
    exact ⟨h.pendingSet, h.suspended⟩
  have fail : o.isFailure = true ↔ o ≠ .done ∧ o ≠ .aborted := by cases o <;> simp [ItemOutcome.isFailure]
  have ab : (finishItem c it o v s).arb = { s.arb with tenure := false } := by
    unfold finishItem completeItem; dsimp only
    generalize takeCompletion (s.completionOf c it o v) s = x at *
    cases c <;> simp [updateRun, e3]
  have sl : (finishItem c it o v s).results.slots = (writeSlot (s.completionOf c it o v) s).results.slots := by
    rw [← e4]; unfold finishItem completeItem; dsimp only
    cases c <;> rfl
  refine ⟨⟨item, ?_, ?_, ?_, ?_, ?_⟩, ⟨f.stations, f.tables, f.trigger, f.link, f.direct, ?_⟩, fun q => ?_, ?_, ?_⟩
  · rw [kept.arb, ab]
  · exact kept.lastItem
  · exact kept.lastPosition
  · exact kept.pendingSet.trans ps.1
  · exact kept.suspended.trans ps.2
  · rw [kept.arb, ab]
  · refine kept.latched _ ?_
    have l := e5 (fail.2 q)
    unfold finishItem completeItem; dsimp only
    cases c <;> exact l
  · rw [kept.slots, sl]
    unfold writeSlot State.completionOf
    dsimp only
    cases h : (s.itemAt it.item).slot with
    | none => rfl
    | some k =>
      dsimp only
      split
      · rfl
      · dsimp only
        congr 1
        unfold ResultSlot.written
        cases o <;> cases v <;> simp_all
  · have r : (s.runOf c).completed it.position o = _ := rfl
    unfold RunContext.completed at goes
    simpa only [fail] using goes

/-- The current item completes and its run goes on: what State.Completes says. -/
theorem completeCurrent_completes {c : Chain} (it : ItemRun) (o : ItemOutcome) (v : Option Value)
    (active : s.seq.active.chain = some c) (top : s.seq.top ≠ .idle) (run : c ≠ .normal → s.seq.injRun.isSome = true) :
    s.Completes (completeCurrent c it o v s) c it o v false := by
  refine completes_of it o v ?_ (advance_seqFrame c _) ?_ (completeCurrent_goesOn it o v active top run)
  · unfold completeCurrent advance
    split
    · exact updateRun_kept ..
    · exact endRun_kept ..
  · unfold completeCurrent advance
    split
    · unfold updateRun; split <;> rfl
    · exact endRun_item ..

/-- The current item completes and its run ends early (R152, R153). -/
theorem endRun_completes {c : Chain} (it : ItemRun) (o : ItemOutcome) (v : Option Value)
    (active : s.seq.active.chain = some c) (top : s.seq.top ≠ .idle) (run : c ≠ .normal → s.seq.injRun.isSome = true) :
    s.Completes (endRun c true (finishItem c it o v s)) c it o v true := by
  refine completes_of it o v (endRun_kept ..) (endRun_seqFrame c _ _) (endRun_item ..) ?_
  refine endRun_goesOn (finishItem_finished it o v run) active ?_ (.inl rfl)
  show (completeItem c it o v s).seq.top ≠ .idle
  rcases (completeItem_offering c it o v s).top with q | q <;> rw [q]
  · exact top
  · exact Top.noConfusion

end Sys2Proof.Machine
end

