-- ==== Sys2Proof/Laws/Direct.lean ====
section
/-! SUPPORT. SUBMIT, CANCEL, RELEASE and the pop keep everything Safety.lean says of the moving parts. -/

namespace Sys2Proof.Machine

variable {s t u : State}

theorem setSlot_get (d : DirectSlot) (k u : Fin 4) (s : State) :
    (setSlot k d s).direct.slots[u] = if k = u then d else s.direct.slots[u] := by
  simp only [setSlot_direct, Fin.getElem_fin, Vector.getElem_set]
  by_cases c : k = u
  · subst c; simp
  · have : k.val ≠ u.val := fun z => c (Fin.ext z)
    simp [c, this]

/-- A slot changes without entering or leaving the service-order list or the engine, and keeps its URGENT flag if listed. -/
theorem slotChange_coherent (h : Coherent s) (k : Fin 4) (d : DirectSlot)
    (q : d.state = .queued ↔ (s.direct.slots[k]).state = .queued)
    (a : d.state = .active ↔ (s.direct.slots[k]).state = .active)
    (u : d.request.urgent = s.urgent k ∨ d.state ≠ .queued) : Coherent (setSlot k d s) := by
  have e4 : ∀ j ∈ s.direct.order, (setSlot k d s).urgent j = s.urgent j := by
    intro j hj
    unfold State.urgent
    rw [setSlot_get]
    split
    · rename_i e; subst e
      rcases u with u | u
      · exact u
      · exact absurd (q.2 ((h.direct.queued k).1 hj)) u
    · rfl
  have dec : (setSlot k d s).decision = s.decision := by
    unfold State.decision
    rw [show (setSlot k d s).direct.order = s.direct.order from rfl]
    cases o : s.direct.order with
    | nil => rfl
    | cons j l =>
      dsimp only
      rw [e4 j (by simp [o])]
      rfl
  obtain ⟨⟨l, b, c, lk⟩, de⟩ := h
  refine ⟨⟨?_, ?_, SequencerOk_of_eq c rfl rfl rfl rfl rfl, ?_⟩, ?_⟩
  · cases l; constructor <;> assumption
  · constructor
    · exact b.once
    · intro j
      rw [setSlot_get]
      change j ∈ s.direct.order ↔ _
      rw [b.queued j]
      split
      · rename_i e; subst e; exact q.symm
      · rfl
    · change s.direct.order.Pairwise _
      refine List.Pairwise.imp_of_mem ?_ b.urgentFirst
      intro x y hx hy z
      rw [e4 x hx, e4 y hy]; exact z
    · intro j
      rw [setSlot_get]
      change _ ↔ ∃ x, s.link.txn = some x ∧ _
      rw [← b.active j]
      split
      · rename_i e; subst e; exact a
      · rfl
  · constructor
    · exact lk.held
    · intro n e
      have := lk.successor n e
      exact ⟨this.1, by rw [e4 n this.1]; exact this.2⟩
    · exact lk.lapsing
    · exact lk.window
    · exact lk.pause
  · unfold State.Decided at *
    rw [dec]; exact de

theorem urgentPrefix {l : List (Fin 4)} {p : Fin 4 → Bool} (h : l.Pairwise fun a b => p b = true → p a = true) :
    ∀ x ∈ l.dropWhile p, p x = false := by
  induction l with
  | nil => simp
  | cons a l ih =>
    rw [List.pairwise_cons] at h
    intro x hx
    rw [List.dropWhile_cons] at hx
    split at hx
    · exact ih h.2 x hx
    · rename_i na
      rcases List.mem_cons.1 hx with rfl | m
      · simpa using na
      · have := h.1 x m
        cases e : p x
        · rfl
        · exact absurd (this e) na

/-- The request enters the list at its place. -/
theorem queueRequest_settled (h : Settled s) (k : Fin 4) (r : Request) (free : (s.direct.slots[k]).state = .free) :
    Settled (queueRequest k r s) := by
  obtain ⟨l, b, c, lk⟩ := h
  have nk : k ∉ s.direct.order := by rw [b.queued, free]; simp
  have get : ∀ u : Fin 4, (queueRequest k r s).direct.slots[u] =
      if k = u then { state := .queued, request := r, outcome := none, value := 0#32, cancelLate := false }
      else s.direct.slots[u] := by
    intro u
    unfold queueRequest
    rw [setOrder_direct]
    exact setSlot_get _ k u s
  have hu : (queueRequest k r s).urgent k = r.urgent := by unfold State.urgent; rw [get]; simp
  have e4 : ∀ j ∈ s.direct.order, (queueRequest k r s).urgent j = s.urgent j := by
    intro j hj
    unfold State.urgent
    rw [get, if_neg]
    rintro rfl
    exact nk hj
  have ho : (queueRequest k r s).direct.order = s.insertTag k r.urgent := by simp [queueRequest]
  have perm : (s.insertTag k r.urgent).Perm (k :: s.direct.order) := by
    unfold State.insertTag
    split
    · refine (List.perm_middle).trans (List.Perm.cons _ ?_)
      rw [List.takeWhile_append_dropWhile]
    · exact List.perm_append_comm
  refine ⟨?_, ?_, SequencerOk_of_eq c rfl rfl rfl rfl rfl, ?_⟩
  · cases l; constructor <;> assumption
  · constructor
    · rw [ho, perm.nodup_iff]; exact List.nodup_cons.2 ⟨nk, b.once⟩
    · intro j
      rw [ho, perm.mem_iff, get, List.mem_cons]
      by_cases e : k = j
      · subst e; simp
      · simp only [if_neg e]
        rw [b.queued j]
        simp [Ne.symm e]
    · rw [ho]
      unfold State.insertTag
      have old : ∀ x ∈ s.direct.order, ∀ y ∈ s.direct.order, (s.urgent y = true → s.urgent x = true) →
          ((queueRequest k r s).urgent y = true → (queueRequest k r s).urgent x = true) := by
        intro x hx y hy z
        rw [e4 x hx, e4 y hy]; exact z
      have tw := List.takeWhile_sublist (l := s.direct.order) s.urgent
      have dw := List.dropWhile_sublist (l := s.direct.order) s.urgent
      have base : ∀ m : List (Fin 4), m.Sublist s.direct.order →
          m.Pairwise fun a b => (queueRequest k r s).urgent b = true → (queueRequest k r s).urgent a = true := by
        intro m hm
        refine List.Pairwise.imp_of_mem ?_ (b.urgentFirst.sublist hm)
        intro x y hx hy
        exact old x (hm.subset hx) y (hm.subset hy)
      split
      · rename_i ru
        rw [List.pairwise_append]
        refine ⟨base _ tw, ?_, ?_⟩
        · rw [List.pairwise_cons]
          refine ⟨?_, base _ dw⟩
          intro y _ _; rw [hu]; exact ru
        · intro x hx y _ _
          rw [e4 x (tw.subset hx)]
          exact List.mem_takeWhile_imp hx
      · rename_i ru
        rw [List.pairwise_append]
        refine ⟨base _ (List.Sublist.refl _), by simp, ?_⟩
        intro x hx y hy z
        simp at hy; subst hy
        rw [hu] at z; exact absurd z ru
    · intro j
      rw [get]
      change _ ↔ ∃ x, s.link.txn = some x ∧ _
      rw [← b.active j]
      split
      · rename_i e; subst e; rw [free]; simp
      · rfl
  · constructor
    · exact lk.held
    · intro n e
      have := lk.successor n e
      exact ⟨by rw [ho, perm.mem_iff]; simp [this.1], by rw [e4 n this.1]; exact this.2⟩
    · exact lk.lapsing
    · exact lk.window
    · exact lk.pause

theorem submit_coherent (h : Coherent s) (k : Fin 4) (r : Request) (free : (s.direct.slots[k]).state = .free) :
    Coherent (arbiterSubmit k r.urgent (queueRequest k r s)) := by
  have z := queueRequest_settled h.toSettled k r free
  have hu : (queueRequest k r s).urgent k = r.urgent := by
    unfold State.urgent queueRequest; rw [setOrder_direct]
    have := setSlot_get { state := .queued, request := r, outcome := none, value := 0#32, cancelLate := false } k k s
    simp only [if_true] at this
    rw [this]
  have hk : k ∈ (queueRequest k r s).direct.order := by
    simp [queueRequest, State.insertTag]
    split <;> simp
  have lock : (queueRequest k r s).arb.lock = s.arb.lock := rfl
  have ap : (queueRequest k r s).arb.apart = s.arb.apart := rfl
  generalize queueRequest k r s = x at z hu hk lock ap
  have dl : x.arb.lock ≠ .none → x.Decided := by
    intro e
    have a := h.decided.apart_locked (by rw [← lock]; exact e)
    exact undecidable_decided (by rw [ap]; exact a) (by simp [State.canDecide, e])
  unfold arbiterSubmit
  split
  · exact arbitrate_coherent z
  · rename_i e
    split
    · rename_i c
      simp only [Bool.and_eq_true, Bool.not_eq_true'] at c
      refine ⟨?_, ?_⟩
      · obtain ⟨l, b, q, lk⟩ := z
        refine ⟨?_, ?_, SequencerOk_of_eq q rfl rfl rfl rfl rfl, ?_⟩
        · cases l; constructor <;> assumption
        · cases b; constructor <;> assumption
        · constructor
          · intro n _; exact lk.held none e
          · intro n hn; simp at hn; subst hn; exact ⟨hk, by rw [← c.2]; exact hu⟩
          · simp
          · simp
          · intro p; have := (lk.pause p).2; simp [e] at this
      · exact undecidable_decided (by simpa [ap] using h.decided.apart_locked (by rw [← lock, e]; simp))
          (by simp [State.canDecide])
    · exact ⟨z, dl (by simp [e])⟩
  · rename_i e; exact ⟨z, dl (by simp [e])⟩
  · rename_i e
    split
    · exact ⟨z, dl (by simp [e])⟩
    · have pz : x.arb.pause = none := by
        cases p : x.arb.pause with
        | none => rfl
        | some _ => have := (z.lock.pause (by simp [p])).2; simp [e] at this
      have := grantDirect_settled k (z.lock.window _ _ e) z.link z.direct z.sequencer pz
        (by rw [ap]; exact h.decided.apart_locked (by rw [← lock, e]; simp))
      exact ⟨this.1, this.2⟩
  · rename_i e; exact ⟨z, dl (by simp [e])⟩

theorem cancel_coherent (h : Coherent s) (k : Fin 4) (qd : (s.direct.slots[k]).state = .queued) :
    Coherent (cancelQueued k s) := by
  unfold cancelQueued
  dsimp only
  obtain ⟨l, b, c, lk⟩ := h.toSettled
  generalize hd : ({ s.direct.slots[k] with state := .cancelled } : DirectSlot) = d
  have hds : d.state = .cancelled := by subst hd; rfl
  have hdu : d.request.urgent = s.urgent k := by subst hd; rfl
  generalize hx : setOrder (s.direct.order.erase k) (setSlot k d s) = x
  have get : ∀ u : Fin 4, x.direct.slots[u] = if k = u then d else s.direct.slots[u] := by
    intro u; subst hx; rw [setOrder_direct]; exact setSlot_get _ k u s
  have ho : x.direct.order = s.direct.order.erase k := by subst hx; rfl
  have hu : ∀ u, x.urgent u = s.urgent u := by
    intro u; unfold State.urgent; rw [get]; split
    · rename_i e; subst e; exact hdu
    · rfl
  have hl : x.link = s.link := by subst hx; rfl
  have ha : x.arb = s.arb := by subst hx; rfl
  have xl : x.LinkOk := by cases l; constructor <;> simp only [hl] <;> assumption
  have xd : x.DirectOk := by
    constructor
    · rw [ho]; exact b.once.erase _
    · intro j
      rw [ho, b.once.mem_erase_iff, b.queued j, get]
      by_cases e : k = j
      · subst e; simp [hds]
      · simp [e, Ne.symm e]
    · rw [ho]
      refine List.Pairwise.imp ?_ (b.urgentFirst.sublist List.erase_sublist)
      intro a b; rw [hu, hu]; exact id
    · intro j
      rw [get, hl, ← b.active j]
      split
      · rename_i e; subst e; simp [hds]; simpa using (by rw [qd]; simp : ¬ (s.direct.slots[k]).state = .active)
      · rfl
  have xq : x.SequencerOk := by
    subst hx; exact SequencerOk_of_eq c rfl rfl rfl rfl rfl
  split
  · rename_i e
    rw [ha] at e
    refine ⟨⟨?_, ?_, SequencerOk_of_eq xq rfl rfl rfl rfl rfl, ?_⟩, ?_⟩
    · cases xl; constructor <;> assumption
    · cases xd; constructor <;> assumption
    · constructor
      · simp
      · simp
      · intro _; simpa [hl] using lk.held _ e
      · simp
      · intro p
        have : s.arb.pause.isSome = true := by simpa [ha] using p
        have := (lk.pause this).2; simp [e] at this
    · exact undecidable_decided (by simpa [ha] using h.decided.apart_locked (by simp [e]))
        (by simp [State.canDecide])
  · rename_i e
    apply arbitrate_coherent
    refine ⟨xl, xd, xq, ?_⟩
    constructor
    · rw [ha, hl]; exact lk.held
    · intro n hn
      have nk : n ≠ k := by rintro rfl; exact e hn
      rw [ha] at hn
      have := lk.successor n hn
      exact ⟨by rw [ho, b.once.mem_erase_iff]; exact ⟨nk, this.1⟩, by rw [hu]; exact this.2⟩
    · rw [ha, hl]; exact lk.lapsing
    · rw [ha, hl]; exact lk.window
    · rw [ha, hl]; exact lk.pause

/-! ## The pop -/

theorem popMove_facts (s : State) : (moveHeld (popRecord s)).seq = s.seq ∧ (moveHeld (popRecord s)).link = s.link ∧
    (moveHeld (popRecord s)).direct = s.direct ∧ (moveHeld (popRecord s)).arb = s.arb ∧
    (moveHeld (popRecord s)).tables = s.tables ∧
    (moveHeld (popRecord s)).results.hold = s.results.hold.tail ∧
    (moveHeld (popRecord s)).results.queue = s.results.queue.tail ++ s.results.hold.head?.toList := by
  unfold moveHeld popRecord
  cases q : s.results.queue <;> cases h : s.results.hold <;> simp only [h, enqueue, List.tail_cons, List.tail_nil]
  all_goals first | (split <;> simp_all) | simp_all

theorem pop_coherent (h : Coherent s) : Coherent (popWord s) := by
  obtain ⟨e1, e2, e3, e4, e5, e6, e7⟩ := popMove_facts s
  unfold popWord
  dsimp only
  generalize moveHeld (popRecord s) = x at *
  have q := h.sequencer
  have qs : x.results.queue.length ≤ 32 ∧ x.results.hold.length ≤ 2 ∧ (x.results.hold ≠ [] → x.results.queue.length = 32) := by
    rw [e6, e7]
    have a := q.queue
    have b := q.hold
    have c := q.full
    cases hh : s.results.hold with
    | nil => simp; omega
    | cons r l =>
      have := c (by simp [hh])
      rw [hh] at b
      simp at b ⊢
      refine ⟨by omega, by omega, fun _ => by omega⟩
  split
  · rename_i w
    -- QUEUE_WAIT ends
    have r : Ready (setTop (if x.seq.active = .none then .idle else .running) x) := by
      have qr := q.ready
      have w1 : s.seq.top = .queueWait := by rw [← e1]; exact w.1
      have it : s.seq.item = none := by
        cases e : s.seq.item with
        | none => rfl
        | some _ => have := q.running.2 (by simp [e]); simp [w1] at this
      have off : s.itemOnLink = false := by simp [State.itemOnLink, it]
      have free : ¬ s.seqTransaction false := by rw [← q.onLink]; simp [off]
      have ten := qr.noTenure it
      have free' : ¬ (setTop (if x.seq.active = .none then .idle else .running) x).seqTransaction false := by
        unfold State.seqTransaction at *; simpa [e2] using free
      have off' : (setTop (if x.seq.active = .none then .idle else .running) x).itemOnLink = false := by
        simp [State.itemOnLink, e1, it]
      constructor
      · simp; split <;> simp
      · simp
      · simp [e1, it]
      · simp only [setTop_seq, setTop_results, w.2]; split <;> simp
      · simp only [setTop_seq, e1]; exact q.context
      · simp only [setTop_seq, e1]; exact q.injected
      · intro k a b
        simp only [setTop_seq, e1] at a b ⊢
        refine ⟨it, .inl ?_⟩
        simp [a]
      · simp only [setTop_seq, e1]; exact q.pass
      · simp only [setTop_seq, e1]; exact q.suspended
      · simp only [setTop_seq, e1]; exact q.restarts
      · simp only [setTop_seq, e1]; exact q.suspendedRestarts
      · simp only [State.isPending, setTop_seq, setTop_tables, e1, e5]; exact q.members
      · simp [e4, ten]
      · simp [off']
      · simp [off', free']
      · simp only [setTop_seq]; split <;> simp
      · exact qs.1
      · simp [w.2]
      · simp [w.2]
    have en : endQueueWait x = schedule (setTop (if x.seq.active = .none then .idle else .running) x) := by
      unfold endQueueWait; rw [if_pos w]
    rw [en]
    exact schedule_coherent h.toSettled ⟨e2, by rw [setTop_direct, e3], by rw [setTop_direct, e3], by rw [setTop_arb, e4], by rw [setTop_arb, e4], e5⟩ r
  · rename_i w
    have xq : x.SequencerOk := by
      have f1 : x.itemOnLink = s.itemOnLink := by simp [State.itemOnLink, e1]
      have f2 : ∀ b, x.seqTransaction b = s.seqTransaction b := by intro b; simp [State.seqTransaction, e2]
      have f3 : ∀ k, x.isPending k = s.isPending k := by intro k; simp [State.isPending, e1]
      have wait : x.seq.top = .queueWait ↔ x.results.hold ≠ [] := by
        have := q.waiting
        rw [← e1] at this
        constructor
        · intro a b; exact w ⟨a, b⟩
        · intro a; rw [this]; intro b; rw [e6, b] at a; simp at a
      cases q
      constructor
      case queue => exact qs.1
      case hold => exact qs.2.1
      case full => exact qs.2.2
      case waiting => exact wait
      all_goals
        simp only [e1, e4, e5, f1, f2, f3]
        assumption
    refine ⟨h.toSettled.seqOnly xq e2 (by rw [e3]) (by rw [e3]) (by rw [e4]) (by rw [e4]), ?_⟩
    have e1' : x.canDecide = s.canDecide := by simp [State.canDecide, e2, e4]
    have e2' : x.decision = s.decision := by
      have f4 : ∀ k, x.urgent k = s.urgent k := by intro k; simp [State.urgent, e3]
      simp only [State.decision, State.seqRequest, State.directWins, e1, e3, e4, f4]
      rfl
    have := h.decided
    unfold State.Decided at *
    rw [e1', e2', e4]
    exact this

end Sys2Proof.Machine
end

