-- ==== Sys2Proof/Laws/EarlyEnds.lean ====
section
/-! SUPPORT. What the early ends of ABORT_CHAIN, ABORT_ALL and DISARM leave, in the terms of Safety.lean: the items that
complete ABORTED, the records offered and dropped, the masks and the notices (R150 to R159, R172 to R174). -/

namespace Sys2Proof.Machine

variable {s t u : State}

/-! ## The item in progress -/

theorem Finished.orphan {c : Chain} {run : RunContext} {l : List Record} (h : Finished s t c run l) :
    Finished s (orphanTransaction t) c run l :=
  ⟨⟨h.alike.queue, h.alike.hold, h.alike.drops, h.alike.policy, h.alike.top, h.alike.latched⟩, h.tables, h.active,
    h.runs, h.injRun, h.pass, h.suspended, h.injMasks, h.arb⟩

/-- The current item treated for the early end of its run: the flag of its position and its ITEM record, where it
completes; a transaction on the line takes the orphan mark (R153, R157). -/
theorem abandonItem_finished {c : Chain} (run : c ≠ .normal → s.seq.injRun.isSome = true) :
    Finished s (abandonItem c s) c { s.runOf c with mask := (s.runOf c).mask ||| s.abandonedFlag }
      (s.abandonedRecords c) := by
  have same : Finished s (setItem none s) c { s.runOf c with mask := (s.runOf c).mask ||| 0#64 } [] := by
    refine ⟨⟨rfl, rfl, rfl, rfl, rfl, fun _ h => h⟩, rfl, rfl, ?_, fun k e => ?_, ?_, rfl, rfl, rfl⟩
    · simp [State.runOf]
    · subst e; exact run Chain.noConfusion
    · cases c <;> simp [State.runOf]
  have fin : ∀ it, Finished s (finishItem c it .aborted none s) c
      { s.runOf c with mask := (s.runOf c).mask ||| (1#64 <<< it.position) } (s.itemRecords c it .aborted none) := by
    intro it
    have := finishItem_finished (s := s) it .aborted none run
    simpa [RunContext.completed, ItemOutcome.isFailure] using this
  have here : s.seq.item = none → setItem none s = s := by
    intro e; unfold setItem; rw [← e]
  unfold abandonItem State.abandonedFlag State.abandonedRecords State.abandons
  cases e : s.seq.item with
  | none =>
    rw [here e] at same
    simpa using same
  | some it =>
    cases p : it.phase
    · by_cases r : it.restarts = 0
      · simpa [Option.filter, p, r] using same
      · simpa [Option.filter, p, r] using fin it
    · simpa [Option.filter, p] using (fin it).orphan
    · simpa [Option.filter, p] using fin it
    · simpa [Option.filter, p] using fin it
    · simpa [Option.filter, p] using (fin it).orphan

/-! ## Records of aborts -/

theorem offer_abort_held (r : Record) (s : State) (ha : r.isAbort = true) (h : s.results.hold ≠ []) :
    offer r s = Machine.discard s := by
  unfold offer
  have : (s.results.hold == []) = false := by simpa using h
  simp [this, ha]

theorem offer_room (r : Record) (s : State) (h : s.results.hold = []) (q : s.results.queue.length < 32) :
    offer r s = enqueue r s := by
  unfold offer State.queueHasRoom; simp [h, q, Config.queueCapacity]

theorem offer_full_abort (r : Record) (s : State) (ha : r.isAbort = true) (q : ¬ s.results.queue.length < 32) :
    offer r s = Machine.discard s := by
  unfold offer State.queueHasRoom
  simp only [Config.queueCapacity]; simp [q, ha]

theorem discard_drops (s : State) :
    (Machine.discard s).results.drops.toNat = min 65535 (s.results.drops.toNat + 1) := by
  show (if s.results.drops = 0xFFFF#16 then s.results.drops else s.results.drops + 1#16).toNat = _
  split
  · rename_i h; rw [h]; rfl
  · rename_i h
    have : s.results.drops.toNat ≠ 65535 := fun e => h (BitVec.eq_of_toNat_eq e)
    have := s.results.drops.isLt
    simp [BitVec.toNat_add]; omega

/-- Records of aborts are never held: each enters while there is room and no record is held, and every other one is
dropped and counted (R158, R172, R173). -/
theorem aborts_fold (l : List Record) : ∀ s : State, (∀ r ∈ l, r.isAbort = true) →
    s.results.queue.length ≤ 32 →
    let o := l.foldl (fun t r => offer r t) s
    let room := if s.results.hold = [] then 32 - s.results.queue.length else 0
    o.results.queue = s.results.queue ++ l.take room ∧ o.results.hold = s.results.hold ∧ o.seq.top = s.seq.top ∧
    o.results.drops.toNat = min 65535 (s.results.drops.toNat + (l.length - room)) ∧
    (room < l.length ∨ s.latched .recordDropped = true → o.latched .recordDropped = true) := by
  induction l with
  | nil => 
    intro s _ _
    have := s.results.drops.isLt
    simp; omega
  | cons r l ih =>
    intro s ha hl
    have ar := ha r (by simp)
    have al : ∀ x ∈ l, x.isAbort = true := fun x hx => ha x (by simp [hx])
    simp only [List.foldl_cons]
    by_cases c : s.results.hold = [] ∧ s.results.queue.length < 32
    · rw [offer_room r s c.1 c.2]
      have e : (enqueue r s).results.queue = s.results.queue ++ [r] ∧ (enqueue r s).results.hold = s.results.hold ∧
         (enqueue r s).seq.top = s.seq.top ∧ (enqueue r s).results.drops = s.results.drops ∧
         (s.latched .recordDropped = true → (enqueue r s).latched .recordDropped = true) := by
        unfold enqueue; dsimp only; split
        · refine ⟨rfl, rfl, rfl, rfl, fun h => ?_⟩
          rw [raise_latched]; simp only [Bool.or_eq_true]; left; exact h
        · exact ⟨rfl, rfl, rfl, rfl, id⟩
      obtain ⟨i1, i2, i3, i4, i5⟩ := ih (enqueue r s) al (by rw [e.1]; simp; omega)
      rw [e.2.1, if_pos c.1, e.1] at i1 i4 i5
      rw [if_pos c.1]
      simp only [List.length_append, List.length_cons, List.length_nil] at i1 i4 i5
      have m : 32 - s.results.queue.length = (32 - (s.results.queue.length + 1)) + 1 := by omega
      refine ⟨?_, i2.trans e.2.1, i3.trans e.2.2.1, ?_, fun z => i5 ?_⟩
      · rw [i1, m, List.take_succ_cons]; simp
      · rw [i4, e.2.2.2.1]; simp only [List.length_cons]; congr 2; omega
      · simp only [List.length_cons] at z
        rcases z with z | z
        · left; omega
        · right; exact e.2.2.2.2 z
    · have od : offer r s = Machine.discard s := by
        by_cases q : s.results.hold = []
        · exact offer_full_abort r s ar (fun z => c ⟨q, z⟩)
        · exact offer_abort_held r s ar q
      rw [od]
      obtain ⟨i1, i2, i3, i4, i5⟩ := ih (Machine.discard s) al hl
      have rm : (if s.results.hold = [] then 32 - s.results.queue.length else 0) = 0 := by
        split
        · rename_i q; have : ¬ s.results.queue.length < 32 := fun z => c ⟨q, z⟩; omega
        · rfl
      have rm' : (if (Machine.discard s).results.hold = [] then 32 - (Machine.discard s).results.queue.length else 0) = 0 :=
        rm
      rw [rm'] at i1 i4 i5
      rw [rm]
      refine ⟨i1, i2, i3, ?_, fun _ => i5 (.inr ?_)⟩
      · rw [i4, discard_drops]; simp only [List.length_cons]; omega
      · unfold Machine.discard; rw [raise_latched]; simp [Event.mask]; right; decide

theorem itemRecords_abort (s : State) (c : Chain) (it : ItemRun) :
    ∀ r ∈ s.itemRecords c it .aborted none, r.isAbort = true := by
  intro r h; unfold State.itemRecords at h; dsimp only at h; split at h <;> simp at h; subst h; rfl

theorem abandoned_abort (s : State) (c : Chain) : ∀ r ∈ s.abandonedRecords c, r.isAbort = true := by
  intro r h; unfold State.abandonedRecords at h
  cases e : s.abandons <;> simp [e] at h
  exact itemRecords_abort _ _ _ r h

/-! ## ABORT_ALL -/

/-- Offers one after the other. -/
theorem Alike.offers_append {l m : List Record} (h : Alike (l.foldl (fun t r => Machine.offer r t) s) t)
    (g : Alike (m.foldl (fun t r => Machine.offer r t) t) u) :
    Alike ((l ++ m).foldl (fun t r => Machine.offer r t) s) u := by
  rw [List.foldl_append]; exact (h.offers m).trans g

/-- What step 1 of ABORT_ALL leaves: an injected run in progress has ended early (R156). -/
structure InjectedEnded (s t : State) : Prop where
  alike : Alike (s.injectedAbortRecords.foldl (fun t r => offer r t) s) t
  tables : t.tables = s.tables
  pass : t.seq.pass = s.seq.pass
  suspended : t.seq.suspended = s.seq.suspended
  arb : t.arb = { s.arb with tenure := t.arb.tenure }
  normalMask : t.results.normalMask = s.results.normalMask
  same : s.seq.active = .normal → t = s
  masks : ∀ k r, s.seq.active = .inj k → s.seq.injRun = some r → t.latched .injEnd = true ∧
    t.results.injMasks = s.results.injMasks.set k ((r.mask ||| s.abandonedFlag).setWidth 16)
  keep : s.seq.injRun = none → t.results.injMasks = s.results.injMasks

theorem finishItem_normalMask (c : Chain) (it : ItemRun) (o : ItemOutcome) (v : Option Value) (s : State) :
    (finishItem c it o v s).results.normalMask = s.results.normalMask := by
  have w : (writeSlot (s.completionOf c it o v) s).results.normalMask = s.results.normalMask := by
    unfold writeSlot; (repeat' split) <;> rfl
  have k : (takeCompletion (s.completionOf c it o v) s).results.normalMask = s.results.normalMask := by
    unfold takeCompletion; dsimp only
    split
    · rw [(offer_same _ _).2.2.2.1]; split <;> exact w
    · split <;> exact w
  unfold finishItem completeItem; dsimp only; cases c <;> exact k

theorem abandonItem_normalMask (c : Chain) (s : State) :
    (abandonItem c s).results.normalMask = s.results.normalMask := by
  unfold abandonItem
  (repeat' split) <;> first | rfl | exact finishItem_normalMask ..

theorem abortInjected_ended : InjectedEnded s (abortInjected s) := by
  unfold abortInjected
  cases a : s.seq.active with
  | none => exact ⟨by simp [State.injectedAbortRecords, a]; exact .refl s, rfl, rfl, rfl, rfl, rfl,
      fun _ => rfl, fun k r x => by simp [a] at x, fun _ => rfl⟩
  | normal => exact ⟨by simp [State.injectedAbortRecords, a]; exact .refl s, rfl, rfl, rfl, rfl, rfl,
      fun _ => rfl, fun k r x => by simp [a] at x, fun _ => rfl⟩
  | inj k =>
    cases b : s.seq.injRun with
    | none => exact ⟨by simp [State.injectedAbortRecords, a, b]; exact .refl s, rfl, rfl, rfl, rfl, rfl,
        fun _ => rfl, fun k r _ x => by simp [b] at x, fun _ => rfl⟩
    | some r =>
      have f := abandonItem_finished (s := s) (c := .inj k) (fun _ => by rw [b]; rfl)
      have g := endInjRun_goesOn (early := true) f a (.inl rfl)
      have gg := (g.2 (.inl rfl)).2 k rfl
      have ro : s.runOf (.inj k) = r := by simp [State.runOf, b]
      have fa := f.arb
      obtain ⟨_, o2, _, o4, _⟩ := offer_same
        (.injEnd k ((abandonItem (.inj k) s).runOf (.inj k)).done ((abandonItem (.inj k) s).runOf (.inj k)).errors true)
        (copyMask (.inj k) ((abandonItem (.inj k) s).runOf (.inj k)).mask (abandonItem (.inj k) s))
      have kp := endInjRun_kept k true (abandonItem (.inj k) s)
      have fr := endInjRun_seqFrame k true (abandonItem (.inj k) s)
      have al : Alike
          ((s.abandonedRecords (.inj k) ++ [Record.injEnd k r.done r.errors true]).foldl (fun t r => offer r t) s)
          (endInjRun k true (abandonItem (.inj k) s)) := by
        have e1 : ((abandonItem (.inj k) s).runOf (.inj k)).done = r.done := by rw [f.runs, ro]
        have e2 : ((abandonItem (.inj k) s).runOf (.inj k)).errors = r.errors := by rw [f.runs, ro]
        have al' : Alike _ (endInjRun k true (abandonItem (.inj k) s)) :=
          let h2 := (offers_snoc
            (f.alike.trans (copyMask_alike (.inj k) ((abandonItem (.inj k) s).runOf (.inj k)).mask _))
            (.injEnd k ((abandonItem (.inj k) s).runOf (.inj k)).done ((abandonItem (.inj k) s).runOf (.inj k)).errors
              true)).trans (raise_alike .injEnd _)
          ⟨h2.queue, h2.hold, h2.drops, h2.policy, h2.top, h2.latched⟩
        rw [e1, e2] at al'
        exact al'
      refine ⟨?_, fr.tables.trans f.tables, gg.2.2.2.2.1, kp.suspended.trans f.suspended, ?_, ?_,
        fun x => by simp [a] at x, ?_, fun x => by simp [b] at x⟩
      · unfold State.injectedAbortRecords; rw [a, b]; exact al
      · show (endInjRun k true (abandonItem (.inj k) s)).arb = _
        have : (endInjRun k true (abandonItem (.inj k) s)).arb = (abandonItem (.inj k) s).arb := o2
        rw [this, fa]
      · have : (endInjRun k true (abandonItem (.inj k) s)).results.normalMask =
            (abandonItem (.inj k) s).results.normalMask := o4
        show (endInjRun k true (abandonItem (.inj k) s)).results.normalMask = _
        rw [this, abandonItem_normalMask]
      · intro k' r' x y
        rw [a] at x; cases x; rw [b] at y; cases y
        refine ⟨gg.2.2.1, ?_⟩
        show (endInjRun k true (abandonItem (.inj k) s)).results.injMasks = _
        rw [gg.2.1, ro]

/-- The steps of ABORT_ALL up to the clearing of the work: every run has ended, and the records of R156 were offered. -/
theorem abortWork_ended (q : s.SequencerOk) :
    let w := abortPass (s.seq.active == .normal) (abortSuspended (abortInjected s))
    Alike (s.abortRecords.foldl (fun t r => offer r t) s) w ∧ s.EndsEarly w := by
  have i := abortInjected_ended (s := s)
  generalize abortInjected s = s1 at *
  -- the suspended item
  have susp : ∃ m : RunContext, m = (match s.seq.suspended with
        | some r => { s.seq.pass.run with mask := s.seq.pass.run.mask ||| (1#64 <<< r.position) }
        | none => s.seq.pass.run) ∧
      Alike (s.suspendedAbortRecords.foldl (fun t r => offer r t) s1) (abortSuspended s1) ∧
      (abortSuspended s1).tables = s.tables ∧ (abortSuspended s1).arb = s1.arb ∧
      (abortSuspended s1).seq.pass = { s.seq.pass with run := m } ∧
      (abortSuspended s1).results.injMasks = s1.results.injMasks ∧
      (abortSuspended s1).results.normalMask = s1.results.normalMask ∧
      (s.seq.suspended = none → abortSuspended s1 = s1) ∧
      (∀ e, s1.latched e = true → (abortSuspended s1).latched e = true) := by
    unfold abortSuspended State.suspendedAbortRecords
    rw [i.suspended]
    cases e : s.seq.suspended with
    | none => exact ⟨_, rfl, .refl _, i.tables, rfl, by rw [i.pass], rfl, rfl, fun _ => rfl, fun _ h => h⟩
    | some r =>
      have f := finishItem_finished (s := s1) (c := .normal) r.toRun .aborted none (by simp)
      have fm := finishItem_normalMask .normal r.toRun .aborted none s1
      have rc : s1.itemRecords .normal r.toRun .aborted none = s.itemRecords .normal r.toRun .aborted none := by
        unfold State.itemRecords State.itemAt; rw [i.tables, i.pass]
      rw [rc] at f
      have fa := f.arb
      refine ⟨_, rfl, ?_, f.tables.trans i.tables, ?_, ?_, f.injMasks, fm, fun x => by simp at x, ?_⟩
      · exact ⟨f.alike.queue, f.alike.hold, f.alike.drops, f.alike.policy, f.alike.top, f.alike.latched⟩
      · obtain ⟨_, t3, _⟩ := takeCompletion_same (s1.completionOf .normal r.toRun .aborted none) s1
        exact t3
      · have := f.pass
        rw [if_pos rfl] at this
        refine (show _ = (finishItem .normal r.toRun .aborted none s1).seq.pass from rfl).trans (this.trans ?_)
        simp [RunContext.completed, State.runOf, i.pass, ItemOutcome.isFailure, Suspension.toRun]
      · intro ev h
        have := f.alike.latched ev
        refine this ?_
        unfold State.itemRecords; dsimp only
        split
        · exact offer_latched _ _ h
        · exact h
  obtain ⟨m, hm, al2, tb2, ab2, ps2, im2, nm2, same2, lt2⟩ := susp
  have al12 := i.alike.offers_append al2
  generalize abortSuspended s1 = s2 at *
  intro w
  have hw : w = abortPass (s.seq.active == .normal) s2 := rfl
  clear_value w
  unfold abortPass at hw
  have pp : s2.seq.pass.present = s.seq.pass.present := by rw [ps2]
  rw [pp] at hw
  cases hp : s.seq.pass.present with
  | false =>
    rw [hp] at hw
    simp only [Bool.false_eq_true, if_false] at hw
    subst hw
    refine ⟨?_, ?_, ?_, ?_, ?_⟩
    · unfold State.abortRecords State.passAbortRecords; rw [hp]; simpa using al12
    · intro k r x y; obtain ⟨a, b⟩ := i.masks k r x y; exact ⟨lt2 _ a, im2.trans b⟩
    · intro x; exact im2.trans (i.keep x)
    · intro x; simp [hp] at x
    · intro _; exact ⟨nm2.trans i.normalMask, by rw [ab2, i.arb]⟩
  | true =>
    rw [hp] at hw
    simp only [if_true] at hw
    have fin : ∃ y : State, w = endPass true y ∧
        Alike ((if s.seq.active = .normal then s.abandonedRecords .normal else [] : List Record).foldl
          (fun t r => offer r t) s2) y ∧
        y.seq.pass.number = s.seq.pass.number ∧ y.seq.pass.run.done = s.seq.pass.run.done ∧
        y.seq.pass.run.errors = s.seq.pass.run.errors ∧ y.arb.mode = s.arb.mode ∧
        y.arb.boundaryGrant = s.arb.boundaryGrant ∧
        y.results.injMasks = s2.results.injMasks ∧ (∀ e, s2.latched e = true → y.latched e = true) ∧
        y.seq.pass.run.mask = s.seq.pass.run.mask ||| (match s.seq.suspended with
          | some r => 1#64 <<< r.position
          | none => if s.seq.active = .normal then s.abandonedFlag else 0#64) := by
      by_cases ac : s.seq.active = .normal
      · have sn : s.seq.suspended = none := by
          cases x : s.seq.suspended with
          | none => rfl
          | some r => obtain ⟨k, y⟩ := q.suspended (by rw [x]; rfl); rw [ac] at y; cases y
        have e2 := same2 sn
        rw [i.same ac] at e2
        subst e2
        rw [ac] at hw
        have f := abandonItem_finished (s := s2) (c := .normal) (by simp)
        have fp := f.pass
        rw [if_pos rfl] at fp
        refine ⟨_, by simpa using hw, ?_, by rw [fp], by rw [fp]; rfl, by rw [fp]; rfl, ?_, ?_, f.injMasks, ?_, ?_⟩
        · rw [if_pos ac]; exact f.alike
        · rw [f.arb]
        · rw [f.arb]
        · intro e h; refine f.alike.latched e ?_
          have : ∀ l : List Record, ∀ z : State, z.latched e = true →
              (l.foldl (fun t r => offer r t) z).latched e = true := by
            intro l; induction l with
            | nil => intro z h; exact h
            | cons r l ih => intro z h; exact ih _ (offer_latched _ _ h)
          exact this _ _ h
        · rw [fp, sn]; simp [ac, State.runOf]
      · refine ⟨s2, by rw [hw]; simp [ac], by rw [if_neg ac]; exact .refl _, by rw [ps2], ?_, ?_,
          by rw [ab2, i.arb], by rw [ab2, i.arb], rfl, fun _ h => h, ?_⟩
        · rw [ps2, hm]; dsimp only; split <;> rfl
        · rw [ps2, hm]; dsimp only; split <;> rfl
        · rw [ps2, hm]; dsimp only; split
          · rfl
          · simp [ac]
    obtain ⟨y, wy, al3, y1, y2, y3, y4, y5, y6, y7, y8⟩ := fin
    have ep := endPass_eq true y
    obtain ⟨_, o2, o3, o4, _⟩ := offer_same
      (.passEnd y.seq.pass.number y.seq.pass.run.done y.seq.pass.run.errors true) (copyMask .normal y.seq.pass.run.mask y)
    have al4 := offers_snoc ((al12.offers_append al3).trans (copyMask_alike .normal y.seq.pass.run.mask y))
      (.passEnd y.seq.pass.number y.seq.pass.run.done y.seq.pass.run.errors true)
    have al5 := al4.trans (raise_alike .passEnd _)
    have kp := endPass_kept true y
    rw [← wy] at ep kp
    clear hw
    refine ⟨?_, ?_, ?_, ?_, ?_⟩
    · unfold State.abortRecords State.passAbortRecords
      rw [hp]
      simp only [if_true]
      rw [y1, y2, y3] at al5
      dsimp only at ep
      rw [ep, y1, y2, y3]
      simp only [List.append_assoc] at al5 ⊢
      exact ⟨al5.queue, al5.hold, al5.drops, al5.policy, al5.top, al5.latched⟩
    · intro k r x z; obtain ⟨a, b⟩ := i.masks k r x z
      refine ⟨kp.latched _ (y7 _ (lt2 _ a)), ?_⟩
      rw [ep]; exact o3.trans (y6.trans (im2.trans b))
    · intro x; rw [ep]; exact o3.trans (y6.trans (im2.trans (i.keep x)))
    · intro _
      refine ⟨?_, ?_, ?_⟩
      · rw [ep]; show (raise .passEnd _).latched .passEnd = true; rw [raise_latched]; simp [Event.mask]; right; decide
      · rw [ep]; exact o4.trans y8
      · rw [ep]; show (_ == _ || _) = _; rw [o2]
        show (y.arb.mode == .seqFirst || y.arb.boundaryGrant) = _; rw [y4, y5]
    · intro x; simp [hp] at x

/-- Every record ABORT_ALL offers was produced by an abort (R173). -/
theorem abortRecords_abort (s : State) : ∀ r ∈ s.abortRecords, r.isAbort = true := by
  intro r h
  unfold State.abortRecords State.injectedAbortRecords State.suspendedAbortRecords State.passAbortRecords at h
  simp only [List.mem_append] at h
  rcases h with (h | h) | h
  · split at h
    · simp only [List.mem_append, List.mem_singleton] at h
      rcases h with h | rfl
      · exact abandoned_abort _ _ r h
      · rfl
    · simp at h
  · split at h
    · exact itemRecords_abort _ _ _ r h
    · simp at h
  · split at h
    · simp only [List.mem_append, List.mem_singleton] at h
      rcases h with h | rfl
      · split at h
        · exact abandoned_abort _ _ r h
        · simp at h
      · rfl
    · simp at h

/-! ## The hold list of DISARM -/

/-- DISARM posts the hold list into a full queue: every held record is dropped and counted (R171, R174). -/
theorem postRecord_full (l : List Record) : ∀ s : State, ¬ s.results.queue.length < 32 →
    (l.foldl postRecord s).results.queue = s.results.queue ∧
    (l.foldl postRecord s).results.drops.toNat = min 65535 (s.results.drops.toNat + l.length) ∧
    (l.foldl postRecord s).results.injMasks = s.results.injMasks ∧
    (l.foldl postRecord s).results.normalMask = s.results.normalMask ∧ (l.foldl postRecord s).arb = s.arb ∧
    (0 < l.length → (l.foldl postRecord s).latched .recordDropped = true) ∧
    ∀ e, s.latched e = true → (l.foldl postRecord s).latched e = true := by
  induction l with
  | nil =>
    intro s _
    have := s.results.drops.isLt
    refine ⟨rfl, ?_, rfl, rfl, rfl, by simp, fun _ h => h⟩
    simp; omega
  | cons r l ih =>
    intro s h
    have e : postRecord s r = Machine.discard s := by
      unfold postRecord State.queueHasRoom; simp [h, Config.queueCapacity]
    have d : ∀ e, s.latched e = true → (Machine.discard s).latched e = true := fun e q => by
      unfold Machine.discard; rw [raise_latched]; simp only [Bool.or_eq_true]; left; exact q
    simp only [List.foldl_cons, e]
    obtain ⟨i1, i2, i3, i4, i5, _, i7⟩ := ih (Machine.discard s) h
    refine ⟨i1, ?_, i3, i4, i5, fun _ => i7 _ ?_, fun ev q => i7 ev (d ev q)⟩
    · rw [i2, discard_drops]; simp only [List.length_cons]; omega
    · unfold Machine.discard; rw [raise_latched]; simp [Event.mask]; right; decide

/-- What ended early stays so in a state with the same masks, flag and the events latched. -/
theorem State.EndsEarly.keep {w : State} (h : s.EndsEarly w) (i : u.results.injMasks = w.results.injMasks)
    (n : u.results.normalMask = w.results.normalMask) (b : u.arb.boundaryGrant = w.arb.boundaryGrant)
    (l : ∀ e, w.latched e = true → u.latched e = true) : s.EndsEarly u := by
  obtain ⟨h1, h2, h3, h4⟩ := h
  exact ⟨fun k r x y => ⟨l _ (h1 k r x y).1, i.trans (h1 k r x y).2⟩, fun x => i.trans (h2 x),
    fun x => ⟨l _ (h3 x).1, n.trans (h3 x).2.1, b.trans (h3 x).2.2⟩,
    fun x => ⟨n.trans (h4 x).1, b.trans (h4 x).2⟩⟩

end Sys2Proof.Machine
end

