-- ==== Sys2Proof/Laws/Port.lean ====
section
/-! SUPPORT. The local-bus port: the commands that wait, and what an edge of the strobes takes (R178, R182, R189). -/

namespace Sys2Proof.Machine

variable {s t : State} {new : BusPins}

/-- A command that answers a next state leaves that state. -/
theorem take_eq {c : Instr} (h : exec c s = .next t) : s.take c = t := by simp [State.take, h]

@[simp] theorem settled_of_empty (h : s.pending = []) : s.settled = s := by
  unfold State.settled
  rw [h]
  exact congrArg (fun l => { s with pending := l }) h.symm

/-- No command waits once all have been taken. -/
theorem settle_pending (l : List Instr) (s : State) : (settle l s).pending = [] := by
  induction l generalizing s with
  | nil => rfl
  | cons c rest ih => exact ih _

@[simp] theorem settled_pending : s.settled.pending = [] := settle_pending _ _

/-- An edge while no command waits: the write it ends is taken, then the read it begins. -/
theorem busEdge_eq (h : s.pending = []) : s.busEdge new =
    { ((s.writeAtEdge new).readAtEdge new).2 with
      port := { pins := new, spoilt := s.spoilsAccess new, driven := ((s.writeAtEdge new).readAtEdge new).1 } } := by
  unfold State.busEdge
  rw [settled_of_empty h]

/-- No edge spoils an access while RESET_N is high, the strobes are not low together and none was before. -/
theorem not_spoilt (r : s.resetHeld = false) (b : new.reading = false ∨ new.writing = false)
    (o : s.port.pins.inAccess = true → s.port.spoilt = false) : s.spoilsAccess new = false := by
  unfold State.spoilsAccess
  rcases b with b | b <;> cases a : s.port.pins.inAccess <;> simp_all

/-- An edge that ends no write takes none. -/
theorem writeAtEdge_eq (h : s.port.pins.writing = false ∨ new.writing = true ∨ s.port.spoilt = true ∨ s.resetHeld = true) :
    s.writeAtEdge new = s := by
  unfold State.writeAtEdge
  rcases h with h | h | h | h <;> simp [h]

/-- An edge into a spoilt access, or to lines that are not reading, takes no read and drives nothing. -/
theorem readAtEdge_none (h : new.reading = false ∨ s.spoilsAccess new = true) : s.readAtEdge new = (none, s) := by
  unfold State.readAtEdge
  rcases h with h | h <;> simp [h]

end Sys2Proof.Machine
end

