-- ==== Sys2Proof/Laws/Line.lean ====
section
/-! SUPPORT. The bits of bytes and frames on the line (R3), what a half microsecond of LRXD brings, and the step that
takes a host's access (R179, R182). -/

namespace Sys2Proof.Machine

variable {s : State}

@[simp] theorem byteBits_length (b : Byte) : (byteBits b).length = 10 := by simp [byteBits]

/-- Bits 1 to 8 of a byte on the line are its data bits, least significant first. -/
theorem byteBits_data (b : Byte) {i : Nat} (h : i < 8) : (byteBits b)[i + 1]? = some (b.getLsbD i) := by
  match i, h with
  | 0, _ | 1, _ | 2, _ | 3, _ | 4, _ | 5, _ | 6, _ | 7, _ => rfl

/-- Bytes stand back to back: bit 10 i + j of a frame is bit j of its byte i. -/
theorem flatMap_byteBits (l : List Byte) (i j : Nat) {b : Byte} (h : l[i]? = some b) (hj : j < 10) :
    (l.flatMap byteBits)[10 * i + j]? = (byteBits b)[j]? := by
  induction l generalizing i with
  | nil => simp at h
  | cons a l ih =>
    rw [List.flatMap_cons]
    cases i with
    | zero =>
      obtain rfl : a = b := by simpa using h
      rw [List.getElem?_append_left (by simp; omega)]; simp
    | succ i =>
      rw [List.getElem?_append_right (by simp; omega), byteBits_length,
        show 10 * (i + 1) + j - 10 = 10 * i + j by omega]
      exact ih i (by simpa using h)

@[simp] theorem lineBits_length : s.lineBits.length = 10 * s.lineFrame.length := by
  unfold State.lineBits
  induction s.lineFrame with
  | nil => rfl
  | cons a l ih => simp only [List.flatMap_cons, List.length_append, byteBits_length, ih, List.length_cons]; omega

/-! ## Hearing -/

/-- A start bit and a byte are heard as commands of the table. -/
theorem hearsStart_wellFormed {c : Instr} (h : s.hearsStart = some c) : c.wellFormed = true := by
  unfold State.hearsStart at h
  split at h <;> (try split at h) <;> cases h <;> rfl

theorem hearsByte_wellFormed {b : RxByte} {c : Instr} (h : s.hearsByte b = some c) : c.wellFormed = true := by
  unfold State.hearsByte at h
  split at h <;> cases h; rfl

/-- Listening takes the commands that wait first (R182). -/
theorem listen_settled (level : Nat → Bool) (h : Nat) : s.listen level h = s.settled.listen level h := by
  have e : s.settled.settled = s.settled := settled_of_empty settled_pending
  unfold State.listen
  rw [e]

/-- What half microsecond h brings while nothing waits and the line is heard. -/
theorem listen_hearing (p : s.pending = []) (l : s.ldir = false) (r : s.resetHeld = false) (level : Nat → Bool) (h : Nat) :
    s.listen level h =
      (let heard := receiveAt s.lineRate level h s.link.incoming
       let t := heard.1.foldl State.hear s
       { t with link := { t.link with incoming := heard.2 } }) := by
  unfold State.listen
  simp [settled_of_empty p, l, r]

/-- While the engine drives the link or RESET_N is low, no byte comes in (R1, R21). -/
theorem listen_deaf (p : s.pending = []) (d : s.ldir = true ∨ s.resetHeld = true) (level : Nat → Bool) (h : Nat) :
    s.listen level h = { s with link := { s.link with incoming := none } } := by
  unfold State.listen
  have e : (s.ldir || s.resetHeld) = true := by simpa using d
  simp [settled_of_empty p, e]

/-- With nothing waiting, a host's write is taken by the next step as the command it is. -/
theorem step_hostWrite (h : s.pending = []) (a : Address) (v : Word) :
    step (s.hostWrite a v) = exec (writeCommand a v) s := by
  simp only [step, State.hostWrite, h, List.nil_append]
  rw [← h]

/-- With nothing waiting, a host's read with a side effect is taken by the next step. -/
theorem step_hostRead (h : s.pending = []) {a : Address} {c : Instr} (r : readCommand a = some c) :
    step (s.hostRead a) = exec c s := by
  simp only [step, State.hostRead, h, r, Option.toList, List.nil_append]
  rw [← h]

/-- A host's read without a side effect changes nothing (R179). -/
theorem hostRead_none {a : Address} (r : readCommand a = none) : s.hostRead a = s := by
  simp [State.hostRead, r]

end Sys2Proof.Machine
end

