-- ==== Sys2Proof/Laws/Tables.lean ====
section
/-! SUPPORT. The configuration writes, the health updates and the resets keep what Safety.lean says of the tables. -/

namespace Sys2Proof.Machine

variable {s t u : State}

theorem Frame.tablesOk (f : Frame s t) (h : s.TablesOk) : t.TablesOk := by
  have e1 := f.stations
  have e2 := f.tables
  have e3 : t.trigger.timers = s.trigger.timers := by rw [f.trigger]
  have e4 := f.windowLength
  have e5 : t.direct.defTimeout = s.direct.defTimeout := by rw [f.direct]
  cases h
  constructor <;> simp only [e1, e2, e3, e4, e5] <;> assumption

theorem Coherent.inv (h : Coherent t) (k : s.Inv) (f : Frame s t) : t.Inv :=
  ⟨f.tablesOk k.tables, f.slotsOk k.slots, h.link, h.direct, h.sequencer, h.lock, h.decided⟩

theorem State.Inv.coherent (k : s.Inv) : Coherent s := ⟨⟨k.link, k.direct, k.sequencer, k.lock⟩, k.decided⟩

theorem vset {α : Type} {n : Nat} (v : Vector α n) (i : Fin n) (a : α) (j : Fin n) :
    (v.set i a)[j] = if i = j then a else v[j] := by
  simp only [Fin.getElem_fin, Vector.getElem_set, Fin.ext_iff]

theorem moveHealth_tables (h : s.TablesOk) (e : Fin 16) (o : TxnOutcome) : (moveHealth e o s).TablesOk := by
  have key : ∀ (x : State) (n : BitVec 4), x.stations.entries = s.stations.entries → x.tables = s.tables →
      x.trigger.timers = s.trigger.timers → x.arb.windowLength = s.arb.windowLength →
      x.direct.defTimeout = s.direct.defTimeout → x.stations.failures = s.stations.failures.set e n →
      n.toNat ≤ (s.stations.entries[e]).failLimit.toNat → x.TablesOk := by
    intro x n h1 h2 h3 h4 h5 h6 h7
    have hf := h.failures
    cases h
    constructor
    case failures =>
      intro f
      rw [h1, h6, vset]
      split
      · rename_i q; subst q; exact h7
      · exact hf f
    all_goals
      simp only [h1, h2, h3, h4, h5]
      assumption
  unfold moveHealth
  dsimp only
  split
  · split
    · exact key _ 0#4 rfl rfl rfl rfl rfl rfl (by simp)
    · exact key _ 0#4 rfl rfl rfl rfl rfl rfl (by simp)
  · split
    · rename_i q
      have hn : (s.stations.failures[e] + 1#4).toNat ≤ (s.stations.entries[e]).failLimit.toNat := by
        have := (s.stations.entries[e]).failLimit.isLt
        have one : (1#4).toNat = 1 := rfl
        rw [BitVec.toNat_add, one, Nat.mod_eq_of_lt] <;> omega
      split
      · exact key _ _ rfl rfl rfl rfl rfl rfl hn
      · exact key _ _ rfl rfl rfl rfl rfl rfl hn
    · exact h

theorem noticeHealth_tables (h : s.TablesOk) (a : BitVec 5) (o : TxnOutcome) : (noticeHealth a o s).TablesOk := by
  unfold noticeHealth
  split
  · exact moveHealth_tables h _ _
  · exact h

theorem attemptEnd_inv (h : s.Inv) (r : AttemptResult) : (attemptEnd r s).Inv := by
  have c := attemptEnd_coherent h.coherent.toSettled h.decided r
  rcases attemptEnd_frame r s with f | ⟨x, o, _, f⟩
  · exact c.inv h f
  · refine ⟨f.tablesOk (noticeHealth_tables h.tables _ _), f.slotsOk ?_, c.link, c.direct, c.sequencer, c.lock, c.decided⟩
    rw [noticeHealth_eq]; exact h.slots

theorem frame_of (window : t.window = { s.window with latch := t.window.latch }) (stations : t.stations = s.stations)
    (tables : t.tables = s.tables) (trigger : t.trigger = { s.trigger with overrun := t.trigger.overrun })
    (arb : t.arb.mode = s.arb.mode ∧ t.arb.windowLength = s.arb.windowLength)
    (direct : t.direct = { s.direct with slots := t.direct.slots, order := t.direct.order })
    (rate : t.link.rate = s.link.rate) (results : t.results = s.results)
    (out : t.resetHeld = s.resetHeld ∧ t.now = s.now ∧ t.pending = s.pending ∧ t.port = s.port) : Frame s t :=
  ⟨window, stations, tables, trigger, arb.1, arb.2, direct, rate, by rw [results], out.1, out.2.1, out.2.2.1, out.2.2.2,
    by unfold State.SlotsOk; rw [results]; exact id⟩

/-- What a happening may change outside the frame without touching any invariant. -/
theorem Inv.congr (h : s.Inv) (entries : t.stations.entries = s.stations.entries)
    (failures : t.stations.failures = s.stations.failures)
    (items : t.tables.items = s.tables.items) (normal : t.tables.normal = s.tables.normal) (inj : t.tables.inj = s.tables.inj)
    (timers : t.trigger.timers = s.trigger.timers) (seq : t.seq = s.seq) (arb : t.arb = s.arb)
    (slots : t.direct.slots = s.direct.slots) (order : t.direct.order = s.direct.order)
    (def' : t.direct.defTimeout = s.direct.defTimeout) (link : t.link = s.link)
    (rslots : t.results.slots = s.results.slots)
    (queue : t.results.queue = s.results.queue) (hold : t.results.hold = s.results.hold) : t.Inv := by
  have c := h.coherent.congr seq queue hold inj link arb slots order
  refine ⟨?_, ?_, c.link, c.direct, c.sequencer, c.lock, c.decided⟩
  · have := h.tables
    cases this
    constructor <;> simp only [entries, failures, items, normal, inj, timers, arb, def'] <;> assumption
  · unfold State.SlotsOk; rw [rslots]; exact h.slots

theorem answer_inv (h : s.Inv) (c : Byte) (a : Answer) (d : BitVec 4) : (answer c a d s).Inv :=
  Inv.congr h rfl rfl rfl rfl rfl rfl rfl rfl rfl rfl rfl rfl rfl rfl rfl
theorem refuse_inv (h : s.Inv) (a : Address) (r : Answer) : (refuseWrite a r s).Inv :=
  Inv.congr h rfl rfl rfl rfl rfl rfl rfl rfl rfl rfl rfl rfl rfl rfl rfl

theorem live_inv (h : s.Inv) (k : t.Inv) (e : live s t = .next u) : u.Inv := by
  unfold live at e
  split at e <;> cases e <;> assumption

theorem open_inv (h : s.Inv) {a : Address} {o : Option State} (k : ∀ t, o = some t → t.Inv) : (openWrite a o s).Inv := by
  unfold openWrite
  split
  · exact k _ rfl
  · exact refuse_inv h _ _

theorem locked_inv (h : s.Inv) {a : Address} {o : Option State} (k : s.seq.top = .stopped → ∀ t, o = some t → t.Inv) :
    (lockedWrite a o s).Inv := by
  unfold lockedWrite
  split
  · rename_i p
    split
    · exact k (by simpa [State.isStopped] using p) _ rfl
    · exact refuse_inv h _ _
  · exact refuse_inv h _ _

theorem tables_of (h : s.TablesOk) (entries : t.stations.entries = s.stations.entries)
    (failures : t.stations.failures = s.stations.failures)
    (items : t.tables.items = s.tables.items) (normal : t.tables.normal = s.tables.normal) (inj : t.tables.inj = s.tables.inj)
    (timers : t.trigger.timers = s.trigger.timers) (wl : t.arb.windowLength = s.arb.windowLength)
    (def' : t.direct.defTimeout = s.direct.defTimeout) : t.TablesOk := by
  cases h
  constructor <;> simp only [entries, failures, items, normal, inj, timers, wl, def'] <;> assumption

/-- Outside a stopped Sequencer's tables nothing that Coherent reads has changed. -/
theorem stopped_coherent (h : Coherent s) (top : s.seq.top = .stopped) (seq : t.seq = s.seq) (results : t.results = s.results)
    (link : t.link = s.link) (arb : t.arb = s.arb) (direct : t.direct = s.direct) : Coherent t := by
  have e4 : ∀ k, t.urgent k = s.urgent k := by intro k; simp [State.urgent, direct]
  have e2 : ∀ b, t.seqTransaction b = s.seqTransaction b := by intro b; simp [State.seqTransaction, link]
  have e1 : t.itemOnLink = s.itemOnLink := by simp [State.itemOnLink, seq]
  have dec : t.decision = s.decision := by
    simp only [State.decision, State.seqRequest, State.directWins, seq, arb, direct, e4]; rfl
  have can : t.canDecide = s.canDecide := by simp [State.canDecide, link, arb]
  obtain ⟨⟨l, d, q, k⟩, de⟩ := h
  refine ⟨⟨?_, ?_, ?_, ?_⟩, ?_⟩
  · cases l; constructor <;> simp only [link] <;> assumption
  · cases d; constructor <;> simp only [link, direct, e4] <;> assumption
  · have ps := (q.stopped (.inl top)).2
    cases q
    constructor
    case members => intro k hk; simp [State.isPending, seq, ps] at hk
    all_goals
      simp only [seq, results, arb, e1, e2]
      assumption
  · cases k; constructor <;> simp only [link, arb, direct, e4] <;> assumption
  · unfold State.Decided at *; rw [can, dec, arb]; exact de

theorem clearRunState_inv (h : s.Inv) : (clearRunState (cutTransaction s)).Inv := by
  have lk : (cutTransaction s).LinkOk ∧ (cutTransaction s).link.txn = none := by
    unfold cutTransaction
    split
    · rename_i p; exact ⟨h.link, (h.link.idle p).1⟩
    · rename_i e p; exact ⟨h.link, e⟩
    · refine ⟨?_, rfl⟩
      constructor <;> simp
  have l : (clearRunState (cutTransaction s)).link = (cutTransaction s).link := rfl
  have ct : ∀ s : State, (cutTransaction s).stations = s.stations ∧ (cutTransaction s).tables = s.tables ∧
      (cutTransaction s).trigger = s.trigger ∧ (cutTransaction s).arb = s.arb ∧ (cutTransaction s).direct = s.direct := by
    intro s; unfold cutTransaction; split <;> exact ⟨rfl, rfl, rfl, rfl, rfl⟩
  obtain ⟨c1, c2, c3, c4, c5⟩ := ct s
  generalize cutTransaction s = x at *
  have nt : ∀ b, ¬ (clearRunState x).seqTransaction b := by
    rintro b ⟨y, hy, _⟩; rw [l, lk.2] at hy; simp at hy
  refine ⟨?_, ?_, ?_, ?_, ?_, ?_, ?_⟩
  · have ht := h.tables
    obtain ⟨a1, a2, a3, a4, a5, a6, a7, a8, a9, a10, a11⟩ := ht
    constructor
    · simpa [clearRunState, c1] using a1
    · simpa [clearRunState, c1] using a2
    · simpa [clearRunState, c1] using a3
    · intro e; simp [clearRunState]
    · simpa [clearRunState, c1] using a5
    · simpa [clearRunState, c2] using a6
    · simpa [clearRunState, c2] using a7
    · simpa [clearRunState, c2] using a8
    · simpa [clearRunState, c3] using a9
    · simpa [clearRunState, c4] using a10
    · simpa [clearRunState, c5] using a11
  · intro k; simp [clearRunState]
  · have := lk.1; cases this; constructor <;> simp only [l] <;> assumption
  · constructor
    · simp [clearRunState]
    · simp [clearRunState]
    · simp [clearRunState]
    · intro k; rw [l, lk.2]; simp [clearRunState]
  · have off : (clearRunState x).itemOnLink = false := rfl
    constructor
    case onLink => rw [off]; simp [nt]
    case members => simp [clearRunState, State.isPending]
    case held => rw [off]; simp
    all_goals simp [clearRunState]
  · constructor <;> simp [clearRunState]
  · exact ⟨by simp [clearRunState], fun _ _ => by simp [State.decision, clearRunState, State.seqRequest]⟩

theorem resetBlocks_inv (s : State) (f : Vector (Option Nat) 4) (b : Bool) :
    State.Inv { trigger := { pins := s.trigger.pins, filters := f }, port := s.port.cut, now := s.now, pending := s.pending, resetHeld := b } := by
  refine ⟨?_, ?_, ?_, ?_, ?_, ?_, ?_⟩
  · constructor <;> simp
  · intro k; simp
  · constructor <;> simp
  · constructor <;> simp
  · constructor
    case onLink => simp [State.itemOnLink, State.seqTransaction]
    case members => simp [State.isPending]
    all_goals simp [State.itemOnLink]
  · constructor <;> simp
  · exact ⟨by simp, fun _ _ => by simp [State.decision, State.seqRequest]⟩

/-! ## Configuration -/

theorem addressTaken_false {a : BitVec 5} (h : s.addressTaken a = false) (e : Fin 16) (ne : e ≠ s.stations.select) :
    (s.stations.entries[e]).matchesAddress a = false := by
  unfold State.addressTaken at h
  rw [List.any_eq_false] at h
  have := h e (List.mem_finRange e)
  simp only [Bool.and_eq_true, bne_iff_ne] at this
  cases k : (s.stations.entries[e]).matchesAddress a
  · rfl
  · exact absurd ⟨ne, k⟩ this

theorem writeEntry_tables (h : s.TablesOk) (new : StationEntry) (t1 : 2 ≤ new.timeout.toNat ∧ new.timeout.toNat ≤ 500)
    (t2 : new.backoff ≠ 0#8) (t3 : new.failLimit ≠ 0#4)
    (t4 : ∀ f : Fin 16, f ≠ s.stations.select → new.enabled = true → (s.stations.entries[f]).enabled = true →
      new.address ≠ 0#5 → new.address ≠ (s.stations.entries[f]).address) : (writeEntry new s).TablesOk := by
  have ge : ∀ j : Fin 16, (writeEntry new s).stations.entries[j] = if s.stations.select = j then new else s.stations.entries[j] := fun j => vset _ _ _ _
  have gf : ∀ j : Fin 16, (writeEntry new s).stations.failures[j] = if s.stations.select = j then 0#4 else s.stations.failures[j] := fun j => vset _ _ _ _
  obtain ⟨a1, a2, a3, a4, a5, a6, a7, a8, a9, a10, a11⟩ := h
  constructor
  · intro e; rw [ge]; split
    · exact t1
    · exact a1 e
  · intro e; rw [ge]; split
    · exact t2
    · exact a2 e
  · intro e; rw [ge]; split
    · exact t3
    · exact a3 e
  · intro e; rw [ge, gf]; split
    · simp
    · exact a4 e
  · intro e f
    rw [ge, ge]
    by_cases p : s.stations.select = e <;> by_cases q : s.stations.select = f
    · intros; rw [← p, ← q]
    · rw [if_pos p, if_neg q]
      intro x y z w
      exact absurd w (t4 f (Ne.symm q) x y z)
    · rw [if_neg p, if_pos q]
      intro x y z w
      exact absurd w.symm (t4 e (Ne.symm p) y x (by rw [← w]; exact z))
    · rw [if_neg p, if_neg q]; exact a5 e f
  · exact a6
  · exact a7
  · exact a8
  · exact a9
  · exact a10
  · exact a11

theorem applyStation_tables (h : s.TablesOk) (f : StationField) (w : Word) {e : StationEntry}
    (a : applyStationField f w s.stations.entries[s.stations.select] = some e) (d : s.duplicates f e = false) :
    (writeEntry e s).TablesOk := by
  have o1 := h.timeout s.stations.select
  have o2 := h.backoff s.stations.select
  have o3 := h.failLimit s.stations.select
  have o5 := fun g => h.addresses s.stations.select g
  have same : e.address = (s.stations.entries[s.stations.select]).address → e.enabled = (s.stations.entries[s.stations.select]).enabled →
      ∀ f : Fin 16, f ≠ s.stations.select → e.enabled = true → (s.stations.entries[f]).enabled = true →
      e.address ≠ 0#5 → e.address ≠ (s.stations.entries[f]).address := by
    intro p q g ne x y z k
    rw [p] at z k; rw [q] at x
    exact ne (o5 g x y z k).symm
  cases f
  case addressEnable =>
    simp only [applyStationField, Option.some.injEq] at a
    subst a
    refine writeEntry_tables h _ o1 o2 o3 ?_
    intro f ne x y z k
    simp only [State.duplicates] at d
    dsimp only at x z k
    have z' : (cut w 0 5 != 0#5) = true := by simpa using z
    simp only [x, z'] at d
    simp at d
    have := addressTaken_false d f ne
    rw [StationEntry.matchesAddress, y, ← k] at this
    simp at this
    exact z this
  all_goals
    simp only [applyStationField] at a
    try split at a
    all_goals simp only [Option.some.injEq, reduceCtorEq] at a
    try subst a
    try exact writeEntry_tables h _ ‹_› o2 o3 (same rfl rfl)
    try exact writeEntry_tables h _ o1 ‹_› o3 (same rfl rfl)
    try exact writeEntry_tables h _ o1 o2 ‹_› (same rfl rfl)
    try exact writeEntry_tables h _ o1 o2 o3 (same rfl rfl)

theorem applyItem_length (f : ItemField) (w : Word) {d e : Item} (h : 1 ≤ d.length.toNat ∧ d.length.toNat ≤ 4)
    (a : applyItemField f w d = some e) : 1 ≤ e.length.toNat ∧ e.length.toNat ≤ 4 := by
  cases f <;> simp only [applyItemField] at a
  all_goals (try split at a) <;> simp only [Option.some.injEq, reduceCtorEq] at a
  all_goals subst a
  all_goals assumption

theorem applyChain_counts (h : s.TablesOk) (f : ChainField) (w : Word) {m : ItemMemory} (a : applyChainField f w s = some m) :
    m.items = s.tables.items ∧ (1 ≤ m.normal.count.toNat ∧ m.normal.count.toNat ≤ 64) ∧
    ∀ k : Fin 8, 1 ≤ (m.inj[k]).count.toNat ∧ (m.inj[k]).count.toNat ≤ 16 := by
  have n := h.normalCount
  have i := h.injCount
  have key : ∀ (c : Chain) (d : ChainDef) (t : ItemMemory), t.items = s.tables.items → t.normal = s.tables.normal →
      t.inj = s.tables.inj → 1 ≤ d.count.toNat ∧ d.count.toNat ≤ c.maxCount →
      (setChainDef c d t).items = s.tables.items ∧ (1 ≤ (setChainDef c d t).normal.count.toNat ∧ (setChainDef c d t).normal.count.toNat ≤ 64) ∧
      ∀ k : Fin 8, 1 ≤ ((setChainDef c d t).inj[k]).count.toNat ∧ ((setChainDef c d t).inj[k]).count.toNat ≤ 16 := by
    intro c d t h1 h2 h3 h4
    cases c
    · exact ⟨h1, h4, by simpa [setChainDef, h3] using i⟩
    · refine ⟨h1, by simpa [setChainDef, h2] using n, ?_⟩
      intro k
      simp only [setChainDef]
      rw [vset]
      split
      · exact h4
      · rw [h3]; exact i k
  have old : 1 ≤ (s.chainDef s.tables.chainSelect).count.toNat ∧ (s.chainDef s.tables.chainSelect).count.toNat ≤ s.tables.chainSelect.maxCount := by
    cases s.tables.chainSelect
    · exact n
    · exact i _
  cases f <;> simp only [applyChainField] at a
  · split at a
    · simp only [Option.some.injEq] at a; subst a; exact key _ _ _ rfl rfl rfl old
    · split at a <;> simp only [Option.some.injEq, reduceCtorEq] at a
      subst a; exact key _ _ _ rfl rfl rfl old
  · simp only [Option.some.injEq] at a; subst a; exact key _ _ _ rfl rfl rfl old
  · split at a <;> simp only [Option.some.injEq, reduceCtorEq] at a
    subst a; exact key _ _ _ rfl rfl rfl ‹_›

theorem applyTimer_period (f : TimerField) (w : Word) {d e : TimerConfig} (h : d.period ≠ 0#24)
    (a : applyTimerField f w d = some e) : e.period ≠ 0#24 := by
  cases f <;> simp only [applyTimerField] at a
  · simp only [Option.some.injEq] at a; subst a; exact h
  all_goals
    split at a <;> simp only [Option.some.injEq, reduceCtorEq] at a
    subst a; assumption

end Sys2Proof.Machine
end

