-- ==== Sys2Proof/Laws/Words.lean ====
section
/-! SUPPORT. The bits of a read word: what a placed field, flag or number contributes at each bit (section 10.7). A
word's layout follows bit by bit from these. -/

namespace Sys2Proof.Machine

/-- A field placed from bit lo on: bit i of the word is bit i - lo of the field. -/
theorem place_getLsbD {n : Nat} (v : BitVec n) (lo i : Nat) :
    (place v lo).getLsbD i = (decide (i < 16) && decide (lo ≤ i) && v.getLsbD (i - lo)) := by
  simp only [place, BitVec.getLsbD_shiftLeft, BitVec.getLsbD_setWidth]
  by_cases a : i < 16 <;> by_cases b : lo ≤ i <;> simp [a, b]
  have : i - lo < 16 := by omega
  have : ¬ i < lo := by omega
  simp [*]

/-- A flag placed at bit lo is that bit of the word alone. -/
theorem placeFlag_getLsbD (b : Bool) (lo i : Nat) :
    (placeFlag b lo).getLsbD i = (decide (i < 16) && decide (i = lo) && b) := by
  rw [placeFlag, place_getLsbD]
  by_cases a : i < 16 <;> by_cases c : lo ≤ i <;> simp [a, c, BitVec.getLsbD_ofBool] <;> grind

/-- While RESET_N is high, a read returns the content of its word (R179, R189). -/
theorem readWord_eq {s : State} (h : s.resetHeld = false) (a : Address) : s.readWord a = some (s.wordAt a.toNat) := by
  simp [State.readWord, h]

end Sys2Proof.Machine
end

