-- ==== Sys2Proof/Tests/Slice0.lean ====
section
/-! SUPPORT. Tests of single steps, with results taken from the manual's text and worked examples, and for every
statement with hypotheses a witness that meets them. -/

set_option maxRecDepth 20000

namespace Sys2Proof.Tests

open Sys2Proof.Machine

/-- The state a command leaves. -/
def after (c : Instr) (s : State) : State :=
  match exec c s with
  | .next t => t
  | _ => s

/-- Station entry 0 at link address 5; item 0 a READ and item 1 a SAMPLE_FETCH on it, into slots 0 and 1; NORMAL runs
both, INJ0 the first; TIMER0 starts INJ0. -/
def tbl : State :=
  { State.reset with
    stations := { State.reset.stations with
      entries := State.reset.stations.entries.set 0 { address := 5#5, enabled := true } }
    tables := { State.reset.tables with
      items := (State.reset.tables.items.set 0 { kind := .read, slot := some 0 }).set 1
        { kind := .sampleFetch, slot := some 1 }
      normal := { enabled := true, first := 0#6, count := 2#7 }
      inj := State.reset.tables.inj.set 0 { enabled := true, first := 0#6, count := 1#7 } }
    trigger := { State.reset.trigger with
      timers := State.reset.trigger.timers.set 0 { enabled := true }
      entries := State.reset.trigger.entries.set 0 { enabled := true } } }

/-- The armed part, idle. -/
def armedIdle : State := { tbl with seq := { top := .idle } }

/-- A pause keeps every request waiting. -/
def paused (s : State) : State := { s with arb := { s.arb with pause := some 10 } }

/-- A grant to the Sequencer is left to a happening of its own. -/
def left (s : State) : State := { s with arb := { s.arb with pause := none, apart := true } }

/-- A transaction of the Sequencer to address 5, in its first attempt. -/
def seqTxn (op : Op) (orphan : Bool) : Transaction :=
  { requester := .sequencer, address := 5#5, op := op, index := 0#8, length := 1#3, value := if op = .write then some 0#32 else none,
    params := { timeout := 50#9, retry := 2#3, backoff := 10#8 }, rate := .k250, attempt := 1, orphan := orphan }

/-- A direct transaction of tag 0 to address 9, in its last attempt. -/
def directTxn : Transaction :=
  { requester := .direct 0, address := 9#5, op := .read, index := 0#8, length := 3#3, value := none,
    params := { timeout := 50#9, retry := 2#3, backoff := 10#8 }, rate := .k250, attempt := 3, orphan := false }

/-- The engine with a transaction in a state. -/
def line (x : Transaction) (p : EngineState) : LinkEngine := { phase := p, txn := some x, timer := some 500 }

/-- NORMAL runs with item 1 in a phase; a pause keeps a request waiting on an idle link. -/
def running (p : Phase) (l : LinkEngine) : State :=
  { tbl with
    seq := { top := .running, active := .normal, item := some { item := 1, position := 1, phase := p }
             pass := { present := true, number := 1#16, run := { position := 1 } } }
    arb := { tenure := p != .grantWait, pause := if l.phase = .idle then some 10 else none }
    link := l }

/-- INJ0 runs with its item in a phase, while NORMAL's item 1 is suspended. -/
def injected (p : Phase) (l : LinkEngine) : State :=
  { running p l with
    seq := { top := .running, active := .inj 0, item := some { phase := p }, injRun := some {}
             suspended := some { item := 1, position := 1 }
             pass := { present := true, number := 1#16, run := { position := 1 } } } }

/-- The Sequencer is STOPPED and slot 0 is ACTIVE, with slot 1 QUEUED behind it. -/
def directBusy (lock : Lock) (carries : Bool) (p : EngineState) : State :=
  { tbl with
    arb := { lock := lock }
    link := line directTxn p
    direct := { tbl.direct with
      staging := { address := 9#5 }
      slots := #v[{ state := .active, request := { address := 9#5, op := .read, length := 3#3, lock := carries } },
                  { state := .queued, request := { address := 9#5, length := 1#3 } }, {}, { state := .done }]
      order := [1] } }

/-- A completion queue at its capacity. -/
def fullQueue : List Record := List.replicate 32 (.passEnd 1#16 1 0 false)

/-- QUEUE_WAIT at NORMAL's boundary with the given records held. -/
def waiting (held : List Record) : State :=
  { tbl with
    seq := { top := .queueWait, active := .normal, pass := { present := true, number := 1#16, run := { position := 1 } } }
    results := { tbl.results with queue := fullQueue, hold := held } }

/-- A record of an injected run. -/
def held : Record := .injEnd 0 1 0 false

/-- QUEUE_WAIT with INJ0 at a boundary and nothing suspended. -/
def injWaiting : State :=
  { waiting [held] with seq := { top := .queueWait, active := .inj 0, injRun := some {} } }

/-- QUEUE_WAIT with INJ0's run ended while NORMAL's item 1 is suspended: the context stays INJ0 (R98). -/
def injKept : State :=
  { waiting [held] with seq := { (waiting [held]).seq with
      active := .inj 0, suspended := some { item := 1, position := 1 } } }

/-! ## Well-formed commands -/

theorem test_known_code_is_ill_formed : (Instr.unknownCommand 5#8 0#8).wellFormed = false ∧
    (Instr.unknownCommand 0#8 0#8).wellFormed = true ∧ (Instr.unknownCommand 13#8 0#8).wellFormed = false ∧
    (Instr.unknownCommand 14#8 0#8).wellFormed = true := by decide
theorem test_writable_address_is_ill_formed : (Instr.readOnlyWrite 0x18#7 0#16).wellFormed = false ∧
    (Instr.readOnlyWrite 0x17#7 0#16).wellFormed = true ∧ (Instr.readOnlyWrite 0x00#7 0#16).wellFormed = true := by
  decide
theorem test_ill_formed_is_refused : exec (.unknownCommand 5#8 0#8) tbl = .refused .illFormed ∧
    exec (.readOnlyWrite 0x18#7 0#16) tbl = .refused .illFormed := ⟨rfl, rfl⟩

/-! ## The words of the command word and of the window (R182, R179) -/

theorem test_command_word : commandOfWord 0x0100#16 = .arm ∧ commandOfWord 0x0503#16 = .trigger 3#8 ∧
    commandOfWord 0x01FF#16 = .arm ∧ commandOfWord 0x0D00#16 = .softReset ∧
    commandOfWord 0x0E07#16 = .unknownCommand 14#8 7#8 ∧ commandOfWord 0x0005#16 = .unknownCommand 0#8 5#8 := by decide
theorem test_window_words : writeCommand 0x02#7 0x0A00#16 = .submit ∧
    writeCommand 0x19#7 0x8005#16 = .stationFieldWrite .addressEnable 0x8005#16 ∧
    writeCommand 0x03#7 1#16 = .readOnlyWrite 0x03#7 1#16 ∧ writeCommand 0x58#7 1#16 = .readOnlyWrite 0x58#7 1#16 ∧
    readCommand 0x58#7 = some .pop ∧ readCommand 0x51#7 = some .snapshotCapture ∧ readCommand 0x59#7 = none := by decide
/-- The host's write of 0x0100 at 0x02 arms the part in the next step. -/
theorem test_host_write_arms : (match step (tbl.hostWrite 0x02#7 0x0100#16) with
    | .next t => t.seq.top == .idle && t.pending == []
    | _ => false) = true := by decide
/-- A write taken at the rising edge of WR_N, with the address and data of that edge. -/
theorem test_bus_write : (let t := ((tbl.busEdge { csN := false, wrN := false }).busEdge
      { csN := false, address := 0x18#7, data := 7#16 })
    t.stations.select = 7 ∧ t.port.driven = none) := by decide
/-- A read's value is fixed when it is taken, driven while both lines stay low, and not driven once WR_N falls; the access
then takes no write. -/
theorem test_bus_clash : (let read := tbl.busEdge { csN := false, rdN := false, address := 0x00#7 }
    let clash := read.busEdge { csN := false, rdN := false, wrN := false, address := 0x18#7, data := 7#16 }
    read.port.driven = some 0x0416#16 ∧
      (read.busEdge { csN := false, rdN := false, address := 0x01#7 }).port.driven = some 0x0416#16 ∧
      clash.port.driven = none ∧
      (clash.busEdge { csN := false, rdN := false, address := 0x18#7, data := 7#16 }).port.driven = none ∧
      (clash.busEdge { address := 0x18#7, data := 7#16 }).stations.select = 0 ∧
      (clash.busEdge {}).port = {}) := by decide
/-- RESET_N low in the middle of a write: nothing of it is taken, not even after the release. -/
theorem test_bus_reset : (let cut := after .resetNRelease (after .resetNAssert (tbl.busEdge { csN := false, wrN := false }))
    cut.port.spoilt = true ∧ (cut.busEdge { address := 0x18#7, data := 7#16 }).stations.select = 0) := by decide
theorem test_host_read : ((tbl.hostRead 0x58#7).hostRead 0x59#7).pending = [.pop] := by decide

/-! ## Bits on the line (R1, R3) -/

theorem test_byte_bits : byteBits 0x28#8 =
    [false, false, false, false, true, false, true, false, false, true] := by decide
/-- A frame of four bytes at 250 kbit/s that began at 340: 4 µs a bit, the fourth bit of H = 0x49 at 356, mark after. -/
theorem test_ltxd : (let at' := fun n => ({ directBusy .none false .sending with now := n } : State).ltxd
    at' 340 = false ∧ at' 344 = true ∧ at' 348 = false ∧ at' 356 = true ∧ at' 379 = true ∧ at' 380 = false ∧
      at' 500 = true) ∧ tbl.ltxd = true := by decide
/-- 1000 kbit/s: a pulse of half a microsecond is ignored; 0x28 is received at the end of its stop bit, with no start bit
looked for inside it, and the byte right behind it, 0x29, with its stop bit at space. -/
theorem test_receive_bytes :
    (let bits := byteBits 0x28#8 ++ [false, true, false, false, true, false, true, false, false, false, true]
     let at' := receiveAt .k1000 fun h => if h < 4 then h != 2 else bits.getD ((h - 4) / 2) true
     at' 2 none = ([], none) ∧ at' 4 none = ([.startBit], some 4) ∧ at' 14 (some 4) = ([], some 4) ∧
     at' 23 (some 4) = ([], some 4) ∧ at' 24 (some 4) = ([.byte ⟨0x28#8, false⟩, .startBit], some 24) ∧
     at' 44 (some 24) = ([.byte ⟨0x29#8, true⟩], none)) := by decide
/-- 250 kbit/s: a start bit a microsecond early, behind the middle of the stop bit, ends the byte before it. -/
theorem test_receive_early :
    (let level := fun h : Nat => if h = 0 then true else if h < 79 then (byteBits 0x28#8).getD ((h - 1) / 8) true else false
     receiveAt .k250 level 79 (some 1) = ([.byte ⟨0x28#8, false⟩, .startBit], some 79)) := by decide
theorem test_hears : (directBusy .none false .sending).hearsStart = none ∧
    (directBusy .none false .awaitResponse).hearsStart = some .responseStartBit ∧
    (directBusy .none false .receiving).hearsByte ⟨1#8, false⟩ = some (.responseByteReceived 1#8 false) ∧
    tbl.hearsStart = some .strayByte ∧ tbl.hearsByte ⟨1#8, false⟩ = none := by decide
/-- A response begins at its start bit: the timeout stops, and nothing is counted before its first byte is over. -/
theorem test_listen : (let s := (directBusy .none false .awaitResponse).listen (fun h => h == 0) 1
    s.link.phase = .receiving ∧ s.link.timer = none ∧ s.link.incoming = some 1 ∧
      (s.listen (fun h => h == 0) 80).link.rx = [] ∧
      (s.listen (fun h => h == 0) 81).link.rx = [⟨0#8, true⟩] ∧ (s.listen (fun h => h == 0) 81).link.incoming = none) ∧
    ((directBusy .none false .sending).listen (fun h => h == 0) 1).link.incoming = none := by decide
theorem test_read_words : armedIdle.readWord 0x21#7 = some 0x0001#16 ∧
    (after (.itemSelectWrite 1#16) tbl).readWord 0x21#7 = some 0x0003#16 ∧
    (after (.itemSelectWrite 1#16) tbl).readWord 0x25#7 = some 0x0001#16 ∧ tbl.readWord 0x19#7 = some 0x8005#16 ∧
    tbl.readWord 0x1A#7 = some 50#16 ∧ tbl.readWord 0x1B#7 = some 0x0302#16 ∧ tbl.readWord 0x0B#7 = some 0x2032#16 ∧
    tbl.readWord 0x09#7 = some 0x0132#16 := by decide

/-! ## Frames (R4 to R6) -/

theorem test_check_byte : crc [0x28#8] = 0x66#8 ∧ crc [0x28#8, 0x00#8] = 0x77#8 ∧
    crc [0x28#8, 0x00#8, 0x01#8] = 0xD9#8 := by decide
theorem test_write_data_bytes : lowBytes 0x0012ABCD#32 2 = [0xAB#8, 0xCD#8] := by decide
theorem test_response_value : assemble [0x01#8, 0x02#8, 0x03#8] = 0x00010203#32 := by decide
theorem test_sample_response_is_two_bytes : (seqTxn .sample false).expectedLength 0x29#8 = 2 ∧
    (seqTxn .read false).expectedLength 0x29#8 = 3 ∧ (seqTxn .read false).expectedLength 0x2A#8 = 2 := by decide
/-- An ACK of address 5 with one data byte, its check byte by R6. -/
theorem test_judge_ack : (seqTxn .read false).judge [⟨0x29#8, false⟩, ⟨0x07#8, false⟩, ⟨crc [0x29#8, 0x07#8], false⟩] =
    .ack (some 0x07#32) := by decide
theorem test_judge_framing : (seqTxn .read false).judge [⟨0x29#8, true⟩, ⟨0x07#8, false⟩, ⟨crc [0x29#8, 0x07#8], false⟩] =
    .corrupt := by decide

/-! ## Commands -/

theorem test_arm_accepted : (after .arm tbl).window.answer = .accepted ∧ (after .arm tbl).seq.top = .idle ∧
    (after .arm tbl).trigger.runs[0] = .running 1000 := by decide
theorem test_arm_no_chain : (after .arm State.reset).window.answer = .configError ∧
    (after .arm State.reset).tables.check = ⟨.noChain, 0#6⟩ := by decide
theorem test_start_sends_first_item : let t := after .grantPauseEnd (after .start (paused armedIdle))
    t.seq.pass.number = 1#16 ∧ t.link.phase = .sending ∧ t.arb.tenure = true ∧
    t.lineFrame.take 3 = [0x29#8, 0x00#8, 0x01#8] := by decide
theorem test_start_stopped : (after .start tbl).window.answer = .wrongState := by decide
theorem test_trigger_breaks_in : (after (.trigger 0#8) (running .converting {})).seq.active = .inj 0 ∧
    (after (.trigger 0#8) (running .converting {})).seq.suspended.isSome = true ∧
    (after (.trigger 0#8) (running .converting {})).window.answer = .accepted := by decide
theorem test_trigger_argument : (after (.trigger 9#8) armedIdle).window.answer = .invalid ∧
    (after (.trigger 8#8) armedIdle).window.answer = .accepted := by decide
theorem test_abort_item_on_line : ((after .abortItem (running .onLink (line (seqTxn .sample false) .awaitResponse))).seq.item.map
    (·.abortMark)) = some true := by decide
theorem test_abort_item_converting : (after .abortItem (running .converting {})).results.queue.length = 2 ∧
    (after .abortItem (running .converting {})).seq.top = .idle ∧
    (after .abortItem (left (running .grantWait {}))).window.answer = .noTarget := by decide
theorem test_abort_chain_ends_pass : (after .abortChain (running .fetchWait {})).results.queue =
    [.item { chain := .normal, position := 1, item := 1, outcome := .aborted, slot := some 1, restarts := 0,
             value := none, passNumber := 1#16 }, .passEnd 1#16 0 0 true] := by decide
/-- R98: a run that ends in QUEUE_WAIT, of itself or early, leaves NONE with nothing suspended and no pass present, NORMAL
where a pass is set aside, and INJ0 where an item is suspended. -/
theorem test_context_after_run : (endInjRun 0 false injWaiting).seq.active = .none ∧
    (endInjRun 0 true injWaiting).seq.active = .none ∧ (after .abortChain injWaiting).seq.active = .none ∧
    (endInjRun 0 true { injWaiting with seq := { injWaiting.seq with pass := { present := true } } }).seq.active = .normal ∧
    injKept.contextAfterRun = .inj 0 := by decide
/-- The context kept: sequencer status 0 shows INJ0 with phase COMPLETE, ABORT_CHAIN finds no target, and the end of
QUEUE_WAIT restores the suspended item. -/
theorem test_kept_context : injKept.seqStatus0 = 0x2523#16 ∧
    (after .abortChain injKept).window.answer = .noTarget ∧ (after .pop injKept).seq.active = .normal ∧
    (after .pop injKept).seq.item = some { item := 1, position := 1, phase := .converting } := by decide
theorem test_abort_all_orphans : ((after .abortAll (running .onLink (line (seqTxn .sample false) .awaitResponse))).link.txn.map
    (·.orphan)) = some true := by decide
theorem test_disarm_stopping : (after .disarm (running .onLink (line (seqTxn .sample false) .awaitResponse))).seq.top = .stopping ∧
    (after .disarm armedIdle).seq.top = .stopped ∧
    (after .disarm (left (running .grantWait {}))).seq.top = .stopped ∧ (after .disarm armedIdle).latched .seqStopped = true := by decide
theorem test_stop_after_pass_one_shot : (after .stopAfterPass (running .converting {})).window.answer = .noTarget := by
  decide
theorem test_revive : (after (.revive 15#8) tbl).window.answer = .accepted ∧
    (after (.revive 16#8) tbl).window.answer = .invalid := by decide
theorem test_submit_grants_at_once : (after .submit { tbl with direct := { tbl.direct with staging := { address := 9#5 } } }).direct.slots[0].state = .active ∧
    (after .submit tbl).window.answer = .invalid ∧
    (let s := left (running .grantWait {})
     (after .submit { s with direct := { s.direct with staging := { address := 9#5, urgent := true } } }).direct.slots[0].state =
       .active) := by decide
theorem test_submit_names_successor : (after .submit { directBusy (.held none) true .sending with
    direct := { (directBusy (.held none) true .sending).direct with staging := { address := 9#5 } } }).arb.lock = .held (some 2) := by
  decide
theorem test_cancel_queued : (after (.cancel 1#8) (directBusy .none false .sending)).direct.order = [] ∧
    (after (.cancel 0#8) (directBusy .none false .sending)).window.answer = .late := by decide
theorem test_release : (after (.release 3#8) (directBusy .none false .sending)).direct.slots[3] = {} ∧
    (after (.release 2#8) (directBusy .none false .sending)).window.answer = .noSuch := by decide
theorem test_soft_reset_settles : (after .softReset (directBusy .none false .sending)).link =
    { phase := .settle, timer := some 160 } := by decide
theorem test_unknown_command : (after (.unknownCommand 14#8 7#8) tbl).commandStatus = 0x0E90#16 := by decide

/-! ## Reads and writes of the window -/

theorem test_pop_empty : (after .pop tbl).window.readValue = 0#16 := by decide
theorem test_pop_moves_held : (after .pop (waiting [held, held])).results.hold = [held] ∧
    (after .pop (waiting [held, held])).results.queue.length = 32 ∧
    (after .pop (waiting [held, held])).window.readValue = 0x0002#16 := by decide
theorem test_pop_ends_queue_wait : (after .pop (paused (waiting [held]))).seq.top = .running := by decide
theorem test_capture_marks_seen : (after .snapshotCapture { tbl with results := { tbl.results with
    slots := tbl.results.slots.set 0 { value := 5#32, outcome := some .done, state := .fresh, overwritten := true } } }).results.slots[0] =
    { value := 5#32, outcome := some .done, state := .seen } := by decide
theorem test_event_latch_clear : (after (.eventLatchClear 0x0001#16) (raise .passEnd (raise .injEnd tbl))).window.latch = 0x002#12 := by
  decide
theorem test_interrupt : (after (.eventEnableWrite 0x0001#16) (raise .passEnd { tbl with window := { master := true } })).intAsserted = true := by
  decide
theorem test_interrupt_control : (after (.interruptControlWrite 0x8001#16) tbl).window.master = true := by decide
theorem test_refusal_recorded : (after (.readOnlyWrite 0x03#7 0#16) tbl).windowStatus = 0x8C03#16 := by decide
theorem test_refusal_repeated : (after (.stationSelectWrite 16#16) (after (.readOnlyWrite 0x03#7 0#16) tbl)).windowStatus = 0xC918#16 := by
  decide
theorem test_window_status_clear : (after (.windowStatusClear 0x8000#16) (after (.readOnlyWrite 0x03#7 0#16) tbl)).windowStatus = 0#16 := by
  decide
theorem test_drop_counter_clear : (after (.dropCounterClear 1#16) { tbl with results := { tbl.results with drops := 9#16 } }).results.drops = 0#16 := by
  decide
theorem test_overrun_clear : (after (.overrunClear 0x0100#16) { tbl with trigger := { tbl.trigger with overrun := 0x101#9 } }).trigger.overrun = 0x001#9 := by
  decide
theorem test_link_rate : (after (.linkConfigurationWrite 2#16) tbl).link.rate = .k1000 ∧
    (after (.linkConfigurationWrite 2#16) armedIdle).link.rate = .k250 := by decide
theorem test_direct_defaults : (after (.directDefaultsWrite 0x71F4#16) tbl).direct.defTimeout = 500#9 ∧
    (after (.directDefaultsWrite 0x7001#16) tbl).direct.defTimeout = 50#9 := by decide
theorem test_arbiter_configuration : (after (.arbiterConfigurationWrite 0x02FF#16) tbl).arb.mode = .directFirst ∧
    (after (.arbiterConfigurationWrite 0x0200#16) tbl).arb.mode = .shared := by decide
theorem test_result_configuration : (after (.resultConfigurationWrite 1#16) tbl).results.policy = .drop := by decide
theorem test_station_duplicate : (after (.stationFieldWrite .addressEnable 0x8005#16) { tbl with stations := { tbl.stations with select := 1 } }).windowStatus = 0x8519#16 := by decide
theorem test_station_limits : (after (.stationFieldWrite .limits 0x0F07#16) tbl).stations.entries[0].failLimit = 15#4 ∧
    (after (.stationFieldWrite .limits 0x0007#16) tbl).stations.entries[0].failLimit = 3#4 := by decide
theorem test_item_routing : (after (.itemFieldWrite .routing 0x007F#16) tbl).tables.items[0].slot = none ∧
    (after (.itemFieldWrite .routing 0x0040#16) tbl).tables.items[0].slot = some 0 := by decide
theorem test_item_select : (after (.itemSelectWrite 63#16) tbl).tables.itemSelect = 63 ∧
    (after (.itemSelectWrite 64#16) tbl).tables.itemSelect = 0 := by decide
theorem test_chain_count : (after (.chainFieldWrite .count 16#16) tbl).tables.inj[0].count = 16#7 ∧
    (after (.chainFieldWrite .count 17#16) tbl).tables.inj[0].count = 1#7 := by decide
theorem test_chain_select : (after (.chainSelectWrite 8#16) tbl).tables.chainSelect = .normal := by decide
theorem test_timer_period : (after (.timerFieldWrite .periodHigh 0x0001#16) tbl).trigger.timers[0].period = 0x010064#24 ∧
    (after (.timerFieldWrite .periodLow 0#16) tbl).trigger.timers[0].period = 100#24 := by decide
theorem test_timer_select : (after (.timerSelectWrite 3#16) tbl).trigger.timerSelect = 3 := by decide
theorem test_line_edge_write : (after (.lineEdgeWrite 0x00E4#16) tbl).trigger.edges = #v[.none, .rising, .falling, .both] := by
  decide
theorem test_trigger_entry : (after (.triggerEntryWrite 0x8807#16) tbl).trigger.entries[0] =
    { enabled := true, source := .line 3, target := .normal } := by decide
theorem test_trigger_select : (after (.triggerSelectWrite 7#16) tbl).trigger.triggerSelect = 7 := by decide
theorem test_staging : (after (.stagingWrite .request 0x1F33#16) tbl).direct.staging.address = 31#5 ∧
    (after (.stagingWrite .request 0x1F33#16) tbl).direct.staging.lock = true := by decide
theorem test_direct_slot_select : (after (.directSlotSelectWrite 3#16) tbl).direct.slotSelect = 3 := by decide
theorem test_result_select : (after (.resultSelectWrite 63#16) tbl).results.resultSelect = 63 := by decide
theorem test_mask_select : (after (.maskSelectWrite 9#16) tbl).results.maskSelect = 9 := by decide

/-! ## Happenings -/

theorem test_reset_assert : (after .resetNAssert (running .converting {})).seq.top = .stopped ∧
    (after .resetNAssert tbl).resetHeld = true := by decide
theorem test_reset_release : (after .resetNRelease { tbl with trigger := { tbl.trigger with
    pins := #v[true, false, false, false] } }).trigger.filters = #v[some 10, none, none, none] := by decide
theorem test_pin_bounce : (after (.triggerPinChange 0 true) tbl).trigger.filters[0] = some 10 ∧
    (after (.triggerPinChange 0 false) (after (.triggerPinChange 0 true) tbl)).trigger.filters[0] = none := by decide
theorem test_line_edge_taken : (after (.lineEdge 0) (after (.triggerPinChange 0 true) tbl)).trigger.filtered[0] = true := by decide
theorem test_pace_timer_delivers : (after (.paceTimerExpiry 0) { paused armedIdle with trigger := { tbl.trigger with
    runs := #v[.running 1000, .stopped, .stopped, .stopped] } }).seq.active = .inj 0 := by decide
theorem test_frame_sent : (after .frameSent (directBusy .none false .sending)).link.timer = some 500 ∧
    (after .frameSent (directBusy .none false .sending)).ldir = false := by decide
theorem test_start_bit : (after .responseStartBit (directBusy .none false .awaitResponse)).link.timer = none := by decide
theorem test_byte_counted : (after (.responseByteReceived 0x4A#8 false) (directBusy .none false .receiving)).link.endWatch = false ∧
    (after (.responseByteReceived 0x4A#8 false) (directBusy .none false .receiving)).link.timer = some 80 := by decide
theorem test_timeout_ends_last_attempt : (after .responseTimeout (directBusy .none false .awaitResponse)).direct.slots[0].outcome =
    some .noResponse := by decide
theorem test_timeout_settles : (after .responseTimeout (running .onLink (line (seqTxn .sample false) .awaitResponse))).link.phase =
    .settle := by decide
theorem test_short_frame : (after .byteGapExpiry (directBusy .none false .receiving)).direct.slots[0].outcome =
    some .badFrame := by decide
theorem test_long_frame : (after .endWatchStartBit { directBusy .none false .receiving with link := { line directTxn .receiving with endWatch := true } }).direct.slots[0].outcome = some .badFrame := by decide
theorem test_sample_done_converts : ((after .endWatchExpiry (running .onLink { line (seqTxn .sample false) .receiving with
    endWatch := true, rx := [⟨0x29#8, false⟩, ⟨crc [0x29#8], false⟩] })).seq.item.map (·.convDue)) = some (some 1000) := by decide
theorem test_stray_byte : after .strayByte tbl = tbl := by decide
theorem test_settle_end : (after .settleEnd (running .onLink (line (seqTxn .sample false) .settle))).link.txn.map (·.attempt) =
    some 2 := by decide
theorem test_backoff_end : (after .backoffEnd (running .onLink (line (seqTxn .sample false) .backoff))).link.phase = .sending := by
  decide
theorem test_reset_settle_end : (after .resetSettleEnd { tbl with link := { phase := .settle, timer := some 160 } }).link.phase =
    .idle := by decide
theorem test_conversion_expiry : (after .conversionTimerExpiry (running .converting {})).seq.item.map (·.phase) =
    some .fetchWait := by decide
theorem test_suspended_expiry : (after .suspendedTimerExpiry (injected .grantWait {})).seq.suspended.map (·.fetchDue) =
    some true := by decide
theorem test_pause_end_grants : (after .grantPauseEnd (running .grantWait {})).link.phase = .sending ∧
    (after .grantPauseEnd (left (running .grantWait {}))).link.phase = .sending := by decide
theorem test_touched_fetch_restarts : (after .grantPauseEnd { running .fetchWait {} with seq := { (running .fetchWait {}).seq with
    item := some { item := 1, position := 1, phase := .fetchWait, touched := true, restarts := 2 } } }).seq.item =
    some { item := 1, position := 1, phase := .onLink, restarts := 3 } := by decide
theorem test_lock_lapses : (after .lockWindowExpiry { tbl with arb := { lock := .window 0 500 } }).latched .lockLapsed = true ∧
    (after .lockWindowExpiry { tbl with arb := { lock := .window 0 500 } }).arb.lock = .none := by decide

/-! ## Witnesses: states and operands that meet each statement's hypotheses, at the ends of their ranges -/

/-- The Sequencer is STOPPING behind an orphaned transaction. -/
def stopping : State := { tbl with seq := { top := .stopping }, link := line (seqTxn .sample true) .awaitResponse }

/-- NORMAL's item 1 is on the line. -/
def onLine : State := running .onLink (line (seqTxn .sample false) .awaitResponse)

/-- The engine receives a response, with the end watch running or not. -/
def receiving (watch : Bool) : State :=
  { directBusy .none false .receiving with link := { line directTxn .receiving with endWatch := watch } }

/-- CONTINUOUS NORMAL with its item in its conversion. -/
def continuous : State :=
  { running .converting {} with tables := { tbl.tables with normalMode := .continuous } }

/-- One DIRECT request in the list of a part whose Sequencer asks or not, holds tenure or not. -/
def contest (urgent asks tenure : Bool) : State :=
  { running (if asks then .fetchWait else .converting) {} with
    arb := { tenure := tenure }
    direct := { tbl.direct with
      slots := tbl.direct.slots.set 1 { state := .queued, request := { address := 9#5, urgent := urgent } }
      order := [1] } }

theorem witness_inv : tbl.Inv ∧ armedIdle.Inv ∧ (running .converting {}).Inv ∧ (running .grantWait {}).Inv ∧
    (running .fetchWait {}).Inv ∧ onLine.Inv ∧ (injected .converting {}).Inv ∧ (directBusy (.held none) true .sending).Inv ∧
    stopping.Inv :=
  ⟨State.checkInv_sound (by decide), State.checkInv_sound (by decide), State.checkInv_sound (by decide),
    State.checkInv_sound (by decide), State.checkInv_sound (by decide), State.checkInv_sound (by decide),
    State.checkInv_sound (by decide), State.checkInv_sound (by decide), State.checkInv_sound (by decide)⟩

theorem witness_inv_waiting : (waiting [held]).Inv ∧ (waiting [held, held]).Inv ∧ continuous.Inv ∧
    (contest true false true).checkSequencer = true :=
  ⟨State.checkInv_sound (by decide), State.checkInv_sound (by decide), State.checkInv_sound (by decide), by decide⟩

/-- Every statement about a command: RESET_N is high in these states. -/
theorem witness_running : tbl.resetHeld = false ∧ armedIdle.resetHeld = false ∧ onLine.resetHeld = false ∧
    (waiting [held]).resetHeld = false := by decide

theorem witness_StepTakesFrontCommand : ({ tbl with pending := [.arm] } : State).pending = .arm :: [] := rfl

theorem witness_IdleStepLetsTimePass : tbl.pending = [] ∧ tbl.resetHeld = false ∧ tbl.due = [] ∧
    ({ running .grantWait {} with now := 10 } : State).due = [.grantPauseEnd] ∧
    ({ tbl with resetHeld := true } : State).resetHeld = true := by decide

theorem witness_ResetHoldsEveryBlock : ({ tbl with resetHeld := true } : State).resetHeld = true ∧
    Instr.arm.wellFormed = true ∧ Instr.arm ≠ .resetNAssert ∧ Instr.arm ≠ .resetNRelease ∧
    ∀ k l, Instr.arm ≠ .triggerPinChange k l := by decide

theorem witness_SoftResetResult : tbl.link.phase = .idle ∧ onLine.link.phase ≠ .idle ∧
    onLine.link.txn = some (seqTxn .sample false) ∧
    ({ tbl with link := { phase := .settle, timer := some 160 } } : State).link.txn = none := by decide

/-- The six statements that a step keeps an invariant. -/
theorem witness_StepKeeps : (running .converting {}).Inv ∧ (running .converting {}).SlotsOk ∧
    ∃ t, step (running .converting {}) = .next t :=
  ⟨State.checkInv_sound (by decide), State.checkSlots_sound (by decide), _, rfl⟩

theorem witness_ConfigurationStandsWhileArmed : armedIdle.seq.top ≠ .stopped ∧ Instr.start ≠ .resetNAssert ∧
    Instr.start ≠ .resetNRelease ∧ ∃ t, exec .start armedIdle = .next t := ⟨by decide, by decide, by decide, _, rfl⟩

theorem witness_StoppedLeftByArmAlone : tbl.Inv ∧ tbl.seq.top = .stopped ∧ Instr.start ≠ .arm ∧
    (∃ t, exec .start tbl = .next t) ∧ stopping.Inv ∧ stopping.seq.top = .stopping ∧
    ∃ t, exec .responseTimeout stopping = .next t :=
  ⟨State.checkInv_sound (by decide), rfl, by decide, ⟨_, rfl⟩, State.checkInv_sound (by decide), rfl, _, rfl⟩

/-- ABORT_ALL and DISARM with an item on the line, ABORT_ITEM there, and CANCEL behind an orphan. -/
theorem witness_AbortsCutNoFrame : onLine.link.phase ≠ .idle ∧ (∃ t, exec .abortAll onLine = .next t) ∧
    onLine.resetHeld = false ∧ onLine.Inv ∧ onLine.link.txn = some (seqTxn .sample false) ∧
    onLine.seq.item = some { item := 1, position := 1, phase := .onLink } ∧ (∃ t, exec .disarm onLine = .next t) ∧
    (∃ t, exec .abortItem onLine = .next t) ∧ Instr.abortItem ≠ .disarm ∧ Instr.abortItem ≠ .abortAll ∧
    stopping.link.phase ≠ .idle ∧ stopping.link.txn = some (seqTxn .sample true) ∧
    ∃ t, exec (.cancel 3#8) stopping = .next t :=
  ⟨by decide, ⟨_, rfl⟩, rfl, State.checkInv_sound (by decide), rfl, rfl, ⟨_, rfl⟩, ⟨_, rfl⟩, by decide, by decide,
    by decide, rfl, _, rfl⟩

theorem witness_AbortsLeaveHealth : ∃ t, exec .abortAll onLine = .next t := ⟨_, rfl⟩

theorem witness_DecisionFollowsPriority :
    ((running .fetchWait {}).direct.order = [] ∧ (running .fetchWait {}).seqRequest = true) ∧ tbl.seqRequest = false ∧
    (∀ u a t, (contest u a t).direct.order = [1] ∧ (contest u a t).urgent 1 = u ∧ (contest u a t).arb.tenure = t ∧
      (contest u a t).seqRequest = a) := by decide

theorem witness_FlagWritesResult : (0x8000#16).getLsbD 15 = true ∧ (0x7FFF#16).getLsbD 15 = false := by decide

/-- The status words: each context, an item and a boundary, a suspended item, each owner, and each mask. -/
theorem witness_StatusWordsRead : tbl.seq.active = .none ∧ tbl.seq.top = .stopped ∧
    (running .converting {}).seq.active = .normal ∧
    (running .converting {}).seq.item = some { item := 1, position := 1, phase := .converting } ∧
    ((waiting [held]).seq.active = .normal ∧ (waiting [held]).seq.item = none) ∧
    (injWaiting.seq.active = .inj 0 ∧ injWaiting.seq.item = none ∧ injWaiting.seq.injRun = some {}) ∧
    (injKept.seq.active = .inj 0 ∧ injKept.seq.item = none ∧ injKept.seq.injRun = none) ∧
    (injected .converting {}).seq.suspended = some { item := 1, position := 1 } ∧
    (directBusy .none false .sending).link.txn = some directTxn ∧ directTxn.requester = .direct 0 ∧
    onLine.link.txn = some (seqTxn .sample false) ∧ (seqTxn .sample false).requester = .sequencer ∧
    ({ tbl with arb := { lock := .window 3 500 } } : State).arb.lock = .window 3 500 ∧ tbl.link.txn = none ∧
    tbl.results.maskSelect.val = (0 : Fin 8).val ∧
    ({ tbl with results := { tbl.results with maskSelect := 9 } } : State).results.maskSelect.val = 9 := by decide

/-- The reads of the selected entries: NORMAL and an injected chain, and a snapshot that is not ABORTED. -/
theorem witness_reads : tbl.resetHeld = false ∧ tbl.tables.chainSelect = .inj 0 ∧
    (after (.chainSelectWrite 8#16) tbl).tables.chainSelect = .normal ∧
    tbl.results.snapshot.content.outcome ≠ some .aborted ∧ tbl.health 0 ≠ .offline ∧
    (setFailures 15 3#4 tbl).health 15 = .offline ∧ tbl.seq.suspended = none := by decide

theorem witness_WindowAccesses : isReadOnlyAddress 0x00#7 = true ∧ isReadOnlyAddress 0x7F#7 = true ∧
    (0#8).toNat = 0 ∧ 14 ≤ (14#8).toNat ∧ 14 ≤ (255#8).toNat ∧ 0x65 ≤ (0x7F#7).toNat ∧ 0x65 ≤ (0x65#7).toNat ∧
    (0x57#7 : Address) ≠ 0x58#7 ∧ (0x57#7 : Address) ≠ 0x51#7 := by decide

/-- The port: the lines at rest, a strobe or both low, each begin and end of an access, and one that is spoilt. -/
theorem witness_WindowAccesses_port :
    (let read : BusPins := { csN := false, rdN := false, address := 0x58#7 }
     let write : BusPins := { csN := false, wrN := false, address := 0x18#7, data := 3#16 }
     let both : BusPins := { csN := false, rdN := false, wrN := false }
     let reads := tbl.busEdge read
     let writes := tbl.busEdge write
     (read.reading = true ∧ read.writing = false ∧ write.writing = true ∧ write.reading = false ∧
       ({} : BusPins).inAccess = false ∧ both.reading = true ∧ both.writing = true) ∧
     (tbl.pending = [] ∧ tbl.port.pins.reading = false ∧ tbl.port.pins.writing = false ∧
       tbl.port.pins.inAccess = false ∧ tbl.readWord 0x58#7 = some 0#16 ∧ readCommand read.address = some .pop ∧
       readCommand 0x18#7 = none ∧ ∃ t, exec .pop tbl = .next t ∧ t.resetHeld = false) ∧
     (reads.port = { pins := read, driven := some 0#16 } ∧ reads.pending = [] ∧ reads.resetHeld = false) ∧
     (writes.port = { pins := write } ∧ writes.pending = [] ∧
       ∃ t, exec (writeCommand write.address write.data) writes = .next t ∧ t.port = writes.port ∧ t.resetHeld = false) ∧
     (reads.busEdge both).port.spoilt = true ∧ (reads.busEdge both).port.pins.inAccess = true) := by
  refine ⟨by decide, ⟨by decide, by decide, by decide, by decide, by decide, by decide, by decide, _, rfl, by decide⟩,
    by decide, ⟨by decide, by decide, _, rfl, by decide, by decide⟩, by decide, by decide⟩

/-- A command waits, and its step leaves the queue's rest. -/
theorem witness_WindowAccesses_waiting : (let s := ({ tbl with pending := [.arm, .start] } : State)
    s.pending = .arm :: [.start] ∧ ∃ t, step s = .next t ∧ t.pending = [.start]) := ⟨rfl, _, rfl, by decide⟩

theorem witness_SelectWritesResult :
    ((0x000F#16).extractLsb' 0 8).toNat = (15 : Fin 16).val ∧ 16 ≤ ((0x0010#16).extractLsb' 0 8).toNat ∧
    ((0x003F#16).extractLsb' 0 8).toNat = (63 : Fin 64).val ∧ 64 ≤ ((0x0040#16).extractLsb' 0 8).toNat ∧
    ((0x0008#16).extractLsb' 0 4).toNat = Chain.normal.selectCode ∧
    ((0x0007#16).extractLsb' 0 4).toNat = (Chain.inj 7).selectCode ∧ 9 ≤ ((0x0009#16).extractLsb' 0 4).toNat ∧
    ((0x0003#16).extractLsb' 0 8).toNat = (3 : Fin 4).val ∧ 4 ≤ ((0x0004#16).extractLsb' 0 8).toNat ∧
    ((0x0007#16).extractLsb' 0 8).toNat = (7 : Fin 8).val ∧ 8 ≤ ((0x0008#16).extractLsb' 0 8).toNat ∧
    ((0x0009#16).extractLsb' 0 4).toNat = (9 : Fin 10).val ∧ 10 ≤ ((0x000A#16).extractLsb' 0 4).toNat := by decide

/-- The direct defaults and the response timeout of an entry: 2 to 500. -/
theorem witness_DirectWordsWritten : 2 ≤ ((0x0002#16).extractLsb' 0 9).toNat ∧
    ((0x71F4#16).extractLsb' 0 9).toNat ≤ 500 ∧ ((0x71F4#16).extractLsb' 12 4).toNat ≤ 7 ∧
    ((0x0001#16).extractLsb' 0 9).toNat < 2 ∧ 500 < ((0x01F5#16).extractLsb' 0 9).toNat ∧
    7 < ((0x8002#16).extractLsb' 12 4).toNat := by decide

theorem witness_LinkConfigurationWritten : tbl.seq.top = .stopped ∧ tbl.link.phase = .idle ∧
    (0x0002#16).extractLsb' 0 2 = LinkRate.k1000.code ∧ (0x0003#16).extractLsb' 0 2 = 3#2 ∧
    armedIdle.seq.top ≠ .stopped ∧ (directBusy .none false .sending).link.phase ≠ .idle := by decide

theorem witness_LockedWritesRefused : armedIdle.seq.top ≠ .stopped ∧ stopping.seq.top ≠ .stopped := by decide

theorem witness_StationFieldWritten :
    (let s := ({ tbl with stations := { tbl.stations with select := 1 } } : State)
     s.seq.top = .stopped ∧ (0x8005#16).getLsbD 15 = true ∧ (0x8005#16).extractLsb' 0 5 ≠ 0#5 ∧
     (0 : Fin 16) ≠ s.stations.select ∧ (s.stations.entries[0]).enabled = true ∧
     (s.stations.entries[0]).address = (0x8005#16).extractLsb' 0 5) ∧
    (0x8000#16).extractLsb' 0 5 = 0#5 ∧ (0x0100#16).extractLsb' 8 4 ≠ 0#4 ∧ (0x0007#16).extractLsb' 8 4 = 0#4 ∧
    (0x0001#16).extractLsb' 0 8 ≠ 0#8 ∧ (0x0100#16).extractLsb' 0 8 = 0#8 := by decide

/-- Health: counts 0, 1, 2 and 3 with a failure limit of 3, in the selected entry and in the last. -/
theorem witness_StationFieldWritten_health : tbl.stations.failures[0] = 0#4 ∧
    (let s := fun n => setFailures 0 n tbl
     ((s 1#4).stations.failures[0] ≠ 0#4 ∧ (s 2#4).stations.failures[0] ≠ ((s 2#4).stations.entries[0]).failLimit) ∧
     (s 3#4).stations.failures[0] = ((s 3#4).stations.entries[0]).failLimit ∧
     (s 1#4).readWord 0x1E#7 = some 0x0101#16 ∧ (s 2#4).readWord 0x1E#7 = some 0x0201#16 ∧
     (s 3#4).readWord 0x1E#7 = some 0x0302#16 ∧ (s 3#4).readWord 0x1F#7 = some 1#16) ∧
    (setFailures 15 3#4 tbl).readWord 0x1F#7 = some 0x8000#16 := by decide

theorem witness_ItemFieldWritten : tbl.seq.top = .stopped ∧ (0x0F03#16).extractLsb' 0 2 = ItemKind.sampleFetch.code ∧
    ((0x0F03#16).extractLsb' 8 4).toNat = (15 : Fin 16).val ∧ ((0x0100#16).extractLsb' 8 3).toNat = 1 ∧
    ((0x0400#16).extractLsb' 8 3).toNat = 4 ∧ ((0x0000#16).extractLsb' 8 3).toNat = 0 ∧
    4 < ((0x0500#16).extractLsb' 8 3).toNat ∧ ((0x023F#16).extractLsb' 0 7).toNat = slotCode (some 63) ∧
    (0x023F#16).extractLsb' 8 2 = Post.never.code ∧ ((0x007F#16).extractLsb' 0 7).toNat = slotCode none ∧
    ((0x0040#16).extractLsb' 0 7).toNat = 64 ∧ ((0x007E#16).extractLsb' 0 7).toNat = 126 ∧
    (0x0300#16).extractLsb' 8 2 = 3#2 := by decide

theorem witness_ChainFieldWritten : tbl.seq.top = .stopped ∧
    ({ tbl with tables := { tbl.tables with chainSelect := .normal } } : State).tables.chainSelect = .normal ∧
    tbl.tables.chainSelect = .inj 0 ∧ (0x8001#16).getLsbD 0 = true ∧ (0x8000#16).getLsbD 0 = false ∧
    ((0x0001#16).extractLsb' 0 7).toNat = 1 ∧ ((0x0040#16).extractLsb' 0 7).toNat = 64 ∧
    64 < ((0x0041#16).extractLsb' 0 7).toNat ∧ ((0x0010#16).extractLsb' 0 7).toNat = 16 ∧
    16 < ((0x0011#16).extractLsb' 0 7).toNat ∧ ((0x0000#16).extractLsb' 0 7).toNat = 0 := by decide

theorem witness_TriggerWordsWritten : tbl.seq.top = .stopped ∧
    (let p := (tbl.trigger.timers[0]).period
     (((0x0001#16).extractLsb' 0 8 ++ p.extractLsb' 0 16 : BitVec 24) ≠ 0#24 ∧
      (p.extractLsb' 16 8 ++ 0x0001#16 : BitVec 24) ≠ 0#24 ∧ (p.extractLsb' 16 8 ++ 0#16 : BitVec 24) = 0#24 ∧
      (((0#16).extractLsb' 0 8 ++ (0x010000#24).extractLsb' 0 16 : BitVec 24) = 0#24))) ∧
    ((0x8807#16).extractLsb' 0 3).toNat = (Source.line 3).code ∧
    ((0x8807#16).extractLsb' 8 4).toNat = Chain.normal.selectCode ∧ 8 < ((0x0900#16).extractLsb' 8 4).toNat := by
  decide

theorem witness_PolicyWordsWritten : tbl.seq.top = .stopped ∧
    (0x0201#16).extractLsb' 8 2 = PriorityMode.directFirst.code ∧ (0x0201#16).extractLsb' 0 8 ≠ 0#8 ∧
    (0x0301#16).extractLsb' 8 2 = 3#2 ∧ (0x0200#16).extractLsb' 0 8 = 0#8 := by decide

theorem witness_ArmResult : armedIdle.seq.top ≠ .stopped ∧ State.reset.seq.top = .stopped ∧
    State.reset.configCheck = some ⟨.noChain, 0#6⟩ ∧ tbl.seq.top = .stopped ∧ tbl.configCheck = none := by decide

/-- The check at the end of item memory: NORMAL from item 63 fits with a count of 1 and not with a count of 2. -/
theorem witness_ConfigurationCheckReports :
    (let fits := fun c : BitVec 7 => ({ tbl with tables := { tbl.tables with
       normal := { enabled := true, first := 63#6, count := c } } } : State).badRange .normal
     fits 1#7 = false ∧ fits 2#7 = true) ∧
    ({ tbl with stations := State.reset.stations } : State).badStation 0 = true ∧
    ({ tbl with tables := { tbl.tables with items := tbl.tables.items.set 1 { kind := .write, slot := some 63 } } } : State).badSlot 1 = true ∧
    ({ tbl with trigger := { tbl.trigger with entries := tbl.trigger.entries.set 7 { enabled := true, target := .inj 7 } } } : State).badTarget 7 = true ∧
    ({ tbl with tables := { tbl.tables with inj := tbl.tables.inj.set 7 { enabled := true, first := 63#6 } } } : State).emptyChain (.inj 7) = true ∧
    tbl.configCheck = none := by decide

/-- Each case of START, and of TRIGGER naming NORMAL. -/
theorem witness_StartResult :
    (tbl.isArmed = false ∧ armedIdle.isArmed = true ∧ armedIdle.tables.normal.enabled = true) ∧
    (armedIdle.seq.top = .idle ∧ armedIdle.seq.pass.present = false) ∧
    (continuous.seq.pass.present = true ∧ continuous.tables.normalMode = .continuous) ∧
    ((running .converting {}).seq.pass.present = true ∧ (running .converting {}).seq.pass.startPending = false) := by
  decide

/-- TRIGGER 8 with no pass present: in IDLE, in QUEUE_WAIT, and behind an injected chain. -/
theorem witness_StartResult_trigger : armedIdle.Inv ∧ armedIdle.tables.normalMode = .oneShot ∧
    injWaiting.Inv ∧ injWaiting.isArmed = true ∧ injWaiting.tables.normal.enabled = true ∧
    injWaiting.tables.normalMode = .oneShot ∧ injWaiting.seq.pass.present = false ∧ injWaiting.seq.active = .inj 0 :=
  ⟨State.checkInv_sound (by decide), by decide, State.checkInv_sound (by decide), by decide⟩

theorem witness_StartResult_waiting :
    (let s := ({ waiting [held] with seq := { top := .queueWait } } : State)
     s.Inv ∧ s.resetHeld = false ∧ s.isArmed = true ∧ s.seq.pass.present = false ∧ s.seq.active = .none) ∧
    (let s := ({ injected .converting {} with seq :=
       { top := .running, active := .inj 0, item := some { phase := .converting }, injRun := some {} } } : State)
     s.Inv ∧ s.seq.pass.present = false ∧ s.seq.active = .inj 0 ∧ s.seq.suspended = none) ∧
    (let s := ({ running .converting {} with seq := { (running .converting {}).seq with
       pass := { present := true, startPending := true } } } : State)
     s.Inv ∧ s.seq.pass.startPending = true) :=
  ⟨⟨State.checkInv_sound (by decide), by decide⟩, ⟨State.checkInv_sound (by decide), by decide⟩,
    State.checkInv_sound (by decide), by decide⟩

theorem witness_StopAfterPassResult : continuous.isArmed = true ∧ continuous.tables.normalMode = .continuous ∧
    continuous.seq.pass.present = true ∧ tbl.isArmed = false ∧ armedIdle.tables.normalMode = .oneShot ∧
    armedIdle.seq.pass.present = false := by decide

theorem witness_TriggerWaits : 8 < (9#8).toNat ∧ (8#8).toNat = Chain.normal.selectCode ∧
    (7#8).toNat = (Chain.inj 7).selectCode ∧ (tbl.chainDef (.inj 7)).enabled = false ∧ (0#8).toNat = (0 : Fin 8).val ∧
    (injected .converting {}).isPending 0 = false ∧ (injected .converting {}).seq.active = .inj 0 ∧
    ((injected .converting {}).tables.inj[0]).enabled = true := by decide

theorem witness_TriggerWaits_pending :
    (let s := ({ injected .converting {} with seq := { (injected .converting {}).seq with pendingSet := 1#8 } } : State)
     s.Inv ∧ s.isPending 0 = true) := ⟨State.checkInv_sound (by decide), by decide⟩

theorem witness_InjectionBreaksIn : (0#8).toNat = (0 : Fin 8).val ∧ armedIdle.isArmed = true ∧
    (armedIdle.tables.inj[0]).enabled = true ∧ armedIdle.seq.top = .idle ∧ armedIdle.seq.pendingSet = 0#8 ∧
    (running .grantWait {}).seq.active = .normal ∧ (running .grantWait {}).seq.pendingSet = 0#8 ∧
    (running .grantWait {}).seq.item = some { item := 1, position := 1, phase := .grantWait } ∧
    (running .fetchWait {}).seq.item = some { item := 1, position := 1, phase := .fetchWait } ∧
    (running .converting {}).seq.active = .normal ∧ (running .converting {}).seq.pendingSet = 0#8 ∧
    (running .converting {}).seq.item = some { item := 1, position := 1, phase := .converting } := by decide

theorem witness_AbortItemResult : armedIdle.seq.item = none ∧
    onLine.seq.item = some { item := 1, position := 1, phase := .onLink } ∧
    (let s := ({ injected .converting {} with tables := { tbl.tables with
       inj := tbl.tables.inj.set 0 { enabled := true, first := 0#6, count := 2#7 } } } : State)
     s.Inv ∧ s.seq.item = some { phase := .converting } ∧ s.seq.active.chain = some (.inj 0) ∧
     s.nextExpected (.inj 0) ((s.runOf (.inj 0)).position + 1) = some 1 ∧ s.results.queue.length < 32 ∧
     (s.itemAt 0).post ≠ .never) ∧
    -- at the last expected position, with no room in the queue
    (let s := ({ running .converting {} with results := { tbl.results with queue := fullQueue } } : State)
     s.Inv ∧ s.seq.active.chain = some .normal ∧ s.nextExpected .normal ((s.runOf .normal).position + 1) = none) :=
  ⟨by decide, by decide, ⟨State.checkInv_sound (by decide), by decide⟩, State.checkInv_sound (by decide), by decide⟩

theorem witness_AbortChainResult : armedIdle.seq.active = .none ∧
    (let s := ({ waiting [held] with seq := { (waiting [held]).seq with
       active := .inj 0, suspended := some { item := 1, position := 1 } } } : State)
     s.Inv ∧ s.seq.active = .inj 0 ∧ s.seq.injRun = none) ∧
    (onLine.seq.active = .normal ∧ onLine.seq.item = some { item := 1, position := 1, phase := .onLink }) ∧
    (let s := injected .onLink (line (seqTxn .read false) .awaitResponse)
     s.Inv ∧ s.seq.active = .inj 0 ∧ s.seq.injRun = some {} ∧ s.itemOnLink = true) ∧
    ((running .converting {}).isArmed = true ∧ (running .converting {}).itemOnLink = false) ∧
    (injected .converting {}).itemOnLink = false :=
  ⟨by decide, ⟨State.checkInv_sound (by decide), by decide⟩, by decide, ⟨State.checkInv_sound (by decide), by decide⟩,
    by decide, by decide⟩

/-- ABORT_CHAIN of an injected chain in QUEUE_WAIT, its run in progress and then ended. -/
theorem witness_AbortChainResult_waiting : injWaiting.Inv ∧ injWaiting.isArmed = true ∧ injWaiting.itemOnLink = false ∧
    injWaiting.seq.injRun = some {} ∧ injWaiting.seq.top = .queueWait ∧ injWaiting.results.hold ≠ [] ∧ injKept.Inv :=
  ⟨State.checkInv_sound (by decide), by decide, by decide, by decide, by decide, by decide,
    State.checkInv_sound (by decide)⟩

/-- Room for an aborted item's record and the end record of its run. -/
theorem witness_AbortChainResult_room : (running .converting {}).results.hold = [] ∧
    (running .converting {}).results.queue.length + ((running .converting {}).abandonedRecords .normal).length + 1 ≤ 32 ∧
    (running .converting {}).seq.active.chain = some .normal := by decide

theorem witness_AbortAllResult : armedIdle.isArmed = true ∧ armedIdle.seq.active = .none ∧
    armedIdle.seq.pass.present = false ∧ armedIdle.seq.pendingSet = 0#8 ∧ onLine.isArmed = true ∧
    onLine.seq.active ≠ .none := by decide

/-- ABORT_ALL and DISARM with room, and with a record held: INJ0's end, the suspended item's record and PASS_END. -/
theorem witness_AbortAllResult_records :
    (injected .converting {}).abortRecords.length = 4 ∧ (injected .converting {}).results.hold = [] ∧
    injKept.Inv ∧ injKept.isArmed = true ∧ injKept.seq.active ≠ .none ∧ injKept.results.hold ≠ [] ∧
    injKept.abortRecords.length = 2 ∧ (after .abortAll injKept).results.drops = 2#16 ∧
    (after .disarm injKept).results.drops = 3#16 :=
  ⟨by decide, by decide, State.checkInv_sound (by decide), by decide⟩

theorem witness_DisarmResult : tbl.isArmed = false ∧ stopping.isArmed = false ∧ onLine.seqOnLink = true ∧
    armedIdle.seqOnLink = false ∧ armedIdle.isArmed = true := by decide

theorem witness_ReviveResult : (15#8).toNat = (15 : Fin 16).val ∧ 16 ≤ (16#8).toNat := by decide

/-- CANCEL and RELEASE: slot 0 ACTIVE, 1 QUEUED, 2 FREE, 3 DONE, and a lock kept for slot 1. -/
theorem witness_SlotCommandsResult : 4 ≤ (4#8).toNat ∧ (3#8).toNat = (3 : Fin 4).val ∧
    (let d := (directBusy (.held (some 1)) true .sending).direct.slots
     (d[0]).state = .active ∧ (d[1]).state = .queued ∧ (d[2]).state = .free ∧ (d[3]).state = .done) ∧
    (directBusy (.held (some 1)) true .sending).arb.lock = .held (some 1) ∧
    (directBusy .none true .sending).arb.lock ≠ .held (some 1) ∧
    (setSlot 3 { state := .cancelled } tbl).direct.slots[3].state = .cancelled := by decide

/-- SUBMIT: a request out of range, no FREE slot, and each lock state. -/
theorem witness_SubmitResult :
    (tbl.direct.staging.address = 0#5 ∧ tbl.arb.lock = .none) ∧
    (let s := directBusy (.held none) true .sending
     s.Inv ∧ s.direct.staging.address ≠ 0#5 ∧ s.direct.staging.length.toNat = 1 ∧ s.direct.staging.urgent = false ∧
     s.direct.staging.opcode = Op.ping.code ∧ (s.direct.slots[2]).state = .free ∧ s.arb.lock = .held none ∧
     s.link.txn = some directTxn ∧ s.carriesLock 0 = true ∧ (directBusy (.held none) false .sending).carriesLock 0 = false) ∧
    ((directBusy .lapsing true .sending).Inv ∧ (directBusy (.held (some 1)) true .sending).Inv) ∧
    (let s := ({ directBusy .lapsing true .sending with direct := { (directBusy .lapsing true .sending).direct with
       slots := (directBusy .lapsing true .sending).direct.slots.set 2 { state := .cancelled } } } : State)
     s.Inv ∧ ∀ t : Fin 4, (s.direct.slots[t]).state ≠ .free) ∧
    (let s := ({ tbl with arb := { lock := .window 0 500 } } : State)
     s.Inv ∧ s.arb.lock = .window 0 500 ∧ (s.direct.slots[0]).state = .free) :=
  ⟨by decide, ⟨State.checkInv_sound (by decide), by decide⟩,
    ⟨State.checkInv_sound (by decide), State.checkInv_sound (by decide)⟩,
    ⟨State.checkInv_sound (by decide), by decide⟩, State.checkInv_sound (by decide), by decide⟩

/-- A decision that grants a slot, one that grants the Sequencer, and each condition of R130 that keeps the arbiter from
deciding. -/
theorem witness_DirectGrantResult :
    (let s := contest true false true
     s.link.phase = .idle ∧ s.arb.pause = none ∧ s.arb.lock = .none ∧ s.decision = .direct 1) ∧
    (let s := ({ running .grantWait {} with arb := {} } : State)
     s.link.phase = .idle ∧ s.arb.pause = none ∧ s.arb.lock = .none ∧ s.decision = .sequencer ∧ s.arb.apart = false) ∧
    (let s := left (running .grantWait {})
     s.checkInv = true ∧ s.link.phase = .idle ∧ s.arb.pause = none ∧ s.arb.lock = .none ∧ s.decision = .sequencer ∧
     s.arb.apart = true) ∧
    onLine.link.phase ≠ .idle ∧ (running .grantWait {}).arb.pause ≠ none ∧
    (directBusy .lapsing true .sending).arb.lock ≠ .none ∧ tbl.decision = .none := by decide

/-- A grant to the Sequencer in GRANT_WAIT and in FETCH_WAIT, and a station that is OFFLINE. -/
theorem witness_SequencerGrantResult :
    (let s := ({ running .grantWait {} with arb := {} } : State)
     s.link.phase = .idle ∧ s.arb.pause = none ∧ s.arb.lock = .none ∧ s.decision = .sequencer ∧ s.seq.active.chain = some .normal ∧
     s.seq.item = some { item := 1, position := 1, phase := .grantWait } ∧ (s.itemAt 1).kind = .sampleFetch ∧
     s.health (s.itemAt 1).station ≠ .offline ∧ (setFailures 0 3#4 s).health (s.itemAt 1).station = .offline ∧
     (setFailures 0 3#4 s).decision = .sequencer) ∧
    (let s := ({ running .fetchWait {} with arb := { tenure := true } } : State)
     s.link.phase = .idle ∧ s.arb.pause = none ∧ s.arb.lock = .none ∧ s.decision = .sequencer ∧ s.seq.item = some { item := 1, position := 1, phase := .fetchWait }) ∧
    (let s := ({ running .fetchWait {} with
       arb := { tenure := true }
       seq := { (running .fetchWait {}).seq with
         item := some { item := 1, position := 1, phase := .fetchWait, touched := true, restarts := 3 } } } : State)
     s.link.phase = .idle ∧ s.arb.pause = none ∧ s.arb.lock = .none ∧ s.decision = .sequencer ∧ s.seq.top = .running) :=
  by decide

/-- The engine in each of its states. -/
theorem witness_EngineMoves :
    (∀ p, (directBusy .none false p).link.phase = p ∧ (directBusy .none false p).link.txn = some directTxn) ∧
    (receiving false).link.endWatch = false ∧ (receiving false).link.rx.length + 1 < 5 ∧
    ({ tbl with link := { phase := .settle, timer := some 160 } } : State).link.txn = none := by
  refine ⟨fun p => ?_, by decide⟩
  cases p <;> decide

theorem witness_HappeningsOutOfPlace : tbl.link.phase ≠ .sending ∧ tbl.link.phase ≠ .receiving ∧
    tbl.seq.item.all (fun it => it.phase != .converting) = true ∧ tbl.seq.suspended.all (fun r => r.fetchDue) = true ∧
    tbl.arb.pause = none ∧ tbl.arb.apart = false ∧ tbl.trigger.filters[0] = none ∧ (tbl.trigger.runs[3]).due = none ∧
    ∀ t d, tbl.arb.lock ≠ .window t d := ⟨by decide, by decide, by decide, by decide, by decide, by decide, by decide, by decide,
      fun _ _ h => Lock.noConfusion h⟩

/-- The response codes: 0 and 4 are wrong, 1, 2 and 3 are ACK, BUSY and REJECT. -/
theorem witness_ResponseJudged :
    (let check := fun h : Byte => (seqTxn .sample false).judge [⟨h, false⟩, ⟨crc [h], false⟩]
     check 0x28#8 = .corrupt ∧ check 0x29#8 = .ack none ∧ check 0x2A#8 = .busy ∧ check 0x2B#8 = .reject ∧
     check 0x2C#8 = .corrupt ∧ check 0x31#8 = .corrupt) ∧
    (seqTxn .write false).value = some 0#32 ∧ (seqTxn .write false).op = .write ∧ 0 < (seqTxn .write false).length.toNat ∧
    (receiving true).resetHeld = false ∧ (receiving true).link.txn = some directTxn ∧
    (receiving true).link.phase = .receiving ∧ (receiving true).link.endWatch = true ∧
    (receiving false).link.endWatch = false ∧ isStartBit .k1000 (fun h => h == 0) 1 = true ∧
    isStartBit .k1000 (fun h => h == 0) 2 = false := by decide

/-- A line that is heard, and one that is not. -/
theorem witness_ResponseJudged_listen : tbl.pending = [] ∧ tbl.ldir = false ∧ tbl.resetHeld = false ∧
    (directBusy .none false .sending).ldir = true ∧ (directBusy .none false .sending).pending = [] ∧
    tbl.hearsStart = some .strayByte ∧ exec .strayByte tbl = .next tbl := ⟨rfl, by decide, rfl, by decide, rfl, rfl, rfl⟩

/-- On the line: the second bit of the second byte of a frame that began at 340, and a waveform of 0x28. -/
theorem witness_ResponseJudged_line :
    (let s := ({ directBusy .none false .sending with now := 385 } : State)
     s.link.phase = .sending ∧ s.link.txn = some directTxn ∧
     s.link.timer = some (340 + directTxn.rate.byteTime * directTxn.frame.length) ∧ directTxn.frame[1]? = some 0#8 ∧
     s.now = 340 + directTxn.rate.byteTime * 1 + directTxn.rate.bitTime * 1 + 1 ∧ 1 < directTxn.rate.bitTime) ∧
    tbl.link.phase ≠ .sending ∧
    (let level := fun h : Nat => if h = 0 then true else (byteBits 0x28#8).getD ((h - 1) / 2) true
     level (1 - 1) = true ∧ (∀ i, i < 9 → ∀ d, d < 2 * LinkRate.k1000.bitTime →
       (byteBits 0x28#8)[i]? = some (level (1 + 2 * LinkRate.k1000.bitTime * i + d))) ∧
     ∀ d, d < 2 * LinkRate.k1000.bitTime → level (1 + 2 * LinkRate.k1000.bitTime * 9 + d) = true) := by decide

theorem witness_AttemptResults : onLine.link.txn = some (seqTxn .sample false) ∧ onLine.link.phase = .awaitResponse ∧
    (seqTxn .sample false).attempt < (seqTxn .sample false).params.retry.toNat + 1 ∧
    ¬ directTxn.attempt < directTxn.params.retry.toNat + 1 ∧ (receiving false).link.timer ≠ none ∧
    (receiving true).link.endWatch = true ∧ (receiving true).link.txn = some directTxn := by decide

/-- A count one below the limit, and at it. -/
theorem witness_HealthMoves : tbl.TablesOk ∧ (tbl.stations.entries[0]).enabled = true ∧
    (tbl.stations.entries[0]).address = 5#5 ∧ (tbl.stations.entries[0]).failLimit = 3#4 ∧
    (noticeHealth 5#5 .noResponse (setFailures 0 2#4 tbl)).latched .stationOffline = true ∧
    (noticeHealth 5#5 .done (setFailures 0 3#4 tbl)).latched .stationBack = true ∧ (setFailures 0 3#4 tbl).TablesOk :=
  ⟨State.checkTables_sound (by decide), by decide, by decide, by decide, by decide, by decide,
    State.checkTables_sound (by decide)⟩

theorem witness_DirectTransactionEnds : directTxn.requester = .direct 0 ∧
    (∀ k b, (directBusy k b .receiving).arb.lock = k ∧ (directBusy k b .receiving).carriesLock 0 = b) := by
  refine ⟨rfl, fun k b => ⟨rfl, ?_⟩⟩
  cases b <;> rfl

/-- An orphan's end in STOPPING, a SAMPLE that is DONE, and an item with a further position to go to. -/
theorem witness_SequencerTransactionEnds :
    ((seqTxn .sample true).orphan = true ∧ stopping.seq.top = .stopping ∧ armedIdle.seq.top ≠ .stopping) ∧
    (onLine.seq.top = .running ∧ onLine.seq.active.chain = some .normal ∧ onLine.seq.pendingSet = 0#8 ∧
      (onLine.itemAt 1).kind = .sampleFetch ∧ (onLine.stationOf 1).convTime.toNat ≠ 0) ∧
    (let s := ({ onLine with seq := { onLine.seq with
       item := some { phase := .onLink }, pass := { present := true, number := 1#16 } } } : State)
     s.nextExpected .normal ((s.runOf .normal).position + 1) = some 1 ∧ s.results.hold = [] ∧
     s.results.queue.length < 32 ∧ (s.itemAt 0).kind = .read) := by decide

/-- A marked item, its chain's mark, a run at its last expected position, an injection that waits, and an injected chain. -/
theorem witness_SequencerTransactionEnds_marks :
    (let s := ({ onLine with seq := { onLine.seq with
       item := some { item := 1, position := 1, phase := .onLink, abortMark := true }
       pass := { present := true, number := 1#16, run := { position := 1, chainAbort := true } } } } : State)
     s.Inv ∧ (s.runOf .normal).chainAbort = true ∧ s.results.hold = [] ∧ s.results.queue.length + 2 ≤ 32) ∧
    onLine.nextExpected .normal ((onLine.runOf .normal).position + 1) = none ∧
    (let s := ({ onLine with seq := { onLine.seq with pendingSet := 1#8 } } : State)
     s.Inv ∧ s.seq.pendingSet ≠ 0#8) ∧
    (let s := injected .onLinkFetch (line (seqTxn .fetch false) .receiving)
     s.seq.top = .running ∧ s.seq.active.chain = some (.inj 0) ∧ s.seq.injRun ≠ none ∧
     s.nextExpected (.inj 0) ((s.runOf (.inj 0)).position + 1) = none) :=
  ⟨⟨State.checkInv_sound (by decide), by decide⟩, by decide, ⟨State.checkInv_sound (by decide), by decide⟩, by decide⟩

/-- An item that completes with no room in the queue, at the last expected position and before it, under STALL. -/
theorem witness_SequencerTransactionEnds_full :
    (let s := ({ running .onLinkFetch (line (seqTxn .fetch false) .receiving) with
       results := { tbl.results with queue := fullQueue } } : State)
     s.Inv ∧ s.results.hold = [] ∧ s.results.queue.length = 32 ∧ s.results.policy = .stall ∧ (s.itemAt 1).post = .always ∧
     s.nextExpected .normal ((s.runOf .normal).position + 1) = none ∧
     (endTransaction (seqTxn .fetch false) .done (some 7#32) s).results.hold.length = 2) ∧
    (let s := ({ onLine with
       seq := { onLine.seq with item := some { phase := .onLink }, pass := { present := true, number := 1#16 } }
       results := { tbl.results with queue := fullQueue } } : State)
     s.nextExpected .normal ((s.runOf .normal).position + 1) = some 1 ∧
     (endTransaction (seqTxn .read false) .done (some 7#32) s).results.hold.length = 1) :=
  ⟨⟨State.checkInv_sound (by decide), by decide⟩, by decide⟩

/-- A queue with room and at its capacity, an abort's record and an ordinary one, and a slot named. -/
theorem witness_RecordsAndSlots : tbl.results.queue.length < 32 ∧ tbl.results.hold = [] ∧
    ¬ (waiting []).results.queue.length < 32 ∧ held.isAbort = false ∧
    (Record.passEnd 1#16 0 0 true).isAbort = true ∧
    (let c : Completion := { chain := .normal, position := 0, item := 0, outcome := .done, slot := some 63, post := .never,
                             restarts := 0, value := some 7#32, passNumber := 1#16 }
     c.slot = some 63 ∧ c.outcome ≠ .aborted) := by decide

/-- An injected run that ends in QUEUE_WAIT with nothing suspended, of itself and early. -/
theorem witness_RunEnds_waiting : (endInjRun 0 false injWaiting).seq.top = .queueWait ∧
    (endInjRun 0 false injWaiting).seq.active = .none ∧ injWaiting.seq.suspended = none ∧
    (endInjRun 0 true injWaiting).seq.top = .queueWait ∧ injWaiting.seq.injRun = some {} ∧
    injWaiting.results.queue.length = 32 ∧ injWaiting.results.policy = .stall ∧ (waiting []).results.hold = [] := by decide

theorem witness_RunEnds : (running .converting {}).results.hold = [] ∧
    (running .converting {}).results.queue.length < 32 ∧ (injected .converting {}).seq.injRun = some {} ∧
    (injected .converting {}).seq.top ≠ .queueWait ∧ continuous.tables.normalMode = .continuous ∧
    continuous.seq.pass.stopAfter = false ∧ (running .converting {}).seq.pass.startPending = false := by decide

theorem witness_HandOverChoices :
    (let s := ({ injected .converting {} with seq := { (injected .converting {}).seq with pendingSet := 0x80#8 } } : State)
     s.isPending 7 = true ∧ ∀ j, j < (7 : Fin 8) → s.isPending j = false) ∧
    (injected .converting {}).seq.pendingSet = 0#8 ∧
    (injected .converting {}).seq.suspended = some { item := 1, position := 1 } ∧
    (injected .converting {}).health ((injected .converting {}).itemAt 1).station ≠ .offline ∧
    armedIdle.seq.suspended = none ∧ armedIdle.seq.pass.present = false := by decide

/-- Each restore: OFFLINE, STARVED at restart count 3, a restart at restart count 2, and a resumed item. -/
theorem witness_HandOverChoices_restore :
    (let s := fun r => ({ injected .converting {} with seq := { (injected .converting {}).seq with
       suspended := some { item := 1, position := 1, touched := true, restarts := r } } } : State)
     (∀ r, (s r).seq.pendingSet = 0#8 ∧ (s r).itemAt 1 = { kind := .sampleFetch, slot := some 1 } ∧
       (s r).health ((s r).itemAt 1).station ≠ .offline) ∧
     (setFailures 0 3#4 (s 0)).health ((setFailures 0 3#4 (s 0)).itemAt 1).station = .offline ∧
     (s 0).seq.top = .running ∧
     (handOver (setFailures 0 3#4 (s 0))).results.slots[1].outcome = some .offline ∧
     (handOver (s 3)).results.slots[1].outcome = some .starved ∧
     (handOver (s 2)).seq.item = some { item := 1, position := 1, restarts := 3 }) ∧
    (handOver (injected .converting {})).seq.item = some { item := 1, position := 1, phase := .converting } := by
  refine ⟨⟨fun r => ⟨rfl, rfl, Health.noConfusion⟩, ?_⟩, ?_⟩ <;> decide

/-- Going on: QUEUE_WAIT, each context, and NORMAL's item where an injection may and may not break in. -/
theorem witness_HandOverChoices_schedule : (waiting [held]).seq.top = .queueWait ∧ armedIdle.seq.active = .none ∧
    armedIdle.seq.top = .idle ∧ armedIdle.seq.pendingSet = 0#8 ∧
    (injected .converting {}).seq.active = .inj 0 ∧ (injected .converting {}).seq.injRun = some {} ∧
    (injected .converting {}).seq.item = some { phase := .converting } ∧
    (let s := setItem none (injected .converting {})
     s.seq.item = none ∧ s.seq.injRun = some {} ∧ (setInjRun none s).seq.injRun = none) ∧
    (let s := fun p => ({ running p {} with seq := { (running p {}).seq with pendingSet := 1#8 } } : State)
     ∀ p, (s p).seq.active = .normal ∧ (s p).seq.pendingSet ≠ 0#8 ∧ (s p).seq.top = .running ∧
       (s p).seq.item = some { item := 1, position := 1, phase := p }) := by
  refine ⟨by decide, by decide, by decide, by decide, by decide, by decide, by decide, by decide, ?_⟩
  intro s p
  cases p <;> decide

theorem witness_TimerHappenings :
    (running .converting {}).seq.item = some { item := 1, position := 1, phase := .converting } ∧
    (injected .converting {}).seq.suspended.map (·.fetchDue) = some false ∧ (running .grantWait {}).arb.pause ≠ none ∧
    (left (running .grantWait {})).arb.apart = true ∧ ({ tbl with arb := { lock := .window 0 500 } } : State).arb.lock = .window 0 500 := by decide

theorem witness_SourceEvents :
    (let s := ({ armedIdle with trigger := { tbl.trigger with
       runs := tbl.trigger.runs.set 0 (.running 0), pins := tbl.trigger.pins.set 3 true
       filters := tbl.trigger.filters.set 3 (some 10), edges := tbl.trigger.edges.set 3 .rising } } : State)
     s.trigger.runs[0] = .running 0 ∧ s.isArmed = true ∧ s.trigger.filters[3] ≠ none ∧
     s.trigger.pins[3] ≠ s.trigger.filtered[3] ∧ s.trigger.edges[3] = .rising ∧ s.trigger.pins[0] = s.trigger.filtered[0] ∧
     s.configCheck = none) := by decide

/-- A delivery: TIMER0 starts INJ0 and NORMAL, with INJ0 free or pending, and NORMAL's pass absent or its start waiting. -/
theorem witness_SourceEvents_delivery :
    (let s := ({ paused armedIdle with trigger := { tbl.trigger with
       entries := tbl.trigger.entries.set 1 { enabled := true, target := .normal } } } : State)
     s.configCheck = none ∧ (s.trigger.entries[0]).source = .timer 0 ∧ (s.trigger.entries[0]).target = .inj 0 ∧
     (s.trigger.entries[1]).target = .normal ∧ s.isPending 0 = false ∧ s.seq.pass.present = false ∧
     (deliver (.timer 0) s).seq.active = .inj 0 ∧ (deliver (.timer 0) s).seq.pass.number = 1#16 ∧
     (deliver (.timer 0) s).trigger.overrun = 0#9) ∧
    (let s := ({ waiting [held] with
       seq := { (waiting [held]).seq with pendingSet := 1#8, pass := { present := true, startPending := true } } } : State)
     s.Inv ∧ s.isPending 0 = true ∧ s.seq.pass.startPending = true ∧
     (deliver (.timer 0) s).trigger.overrun = 1#9 ∧ (deliver (.timer 0) s).latched .triggerOverrun = true) :=
  ⟨by decide, State.checkInv_sound (by decide), by decide⟩

theorem witness_ReadsTakeSideEffects : tbl.results.queue = [] ∧ (waiting [held]).results.hold = [held] ∧
    (waiting [held, held]).results.hold = held :: held :: [] ∧
    (waiting [held]).results.queue = .passEnd 1#16 1 0 false :: List.replicate 31 (.passEnd 1#16 1 0 false) ∧
    (tbl.results.slots[0]).outcome ≠ some .aborted := by decide

end Sys2Proof.Tests
end

section
/-! The field link: what the result of an attempt leads to (R14, R15). -/

namespace Sys2Proof.Machine

variable {s u : State} {x : Transaction}

theorem live_of_resetHigh (up : s.resetHeld = false) (t : State) : live s t = .next t := by
  simp [live, up]

theorem Transaction.attemptsRemain_iff : x.attemptsRemain = true ↔ x.attempt < x.params.retry.toNat + 1 := by
  simp [Transaction.attemptsRemain]

/-! ## The result of an attempt -/

theorem attemptEnd_ack (txn : s.link.txn = some x) (v : Option Value) :
    attemptEnd (.ack v) s = endTransaction x .done v s := by
  simp only [attemptEnd, txn]

theorem attemptEnd_reject (txn : s.link.txn = some x) :
    attemptEnd .reject s = endTransaction x .rejected none s := by
  simp only [attemptEnd, txn]

theorem attemptEnd_timeout (txn : s.link.txn = some x) :
    attemptEnd .timeout s = if x.attemptsRemain then enterSettle x s else endTransaction x .noResponse none s := by
  simp only [attemptEnd, txn]

theorem attemptEnd_corrupt (txn : s.link.txn = some x) :
    attemptEnd .corrupt s = if x.attemptsRemain then enterSettle x s else endTransaction x .badFrame none s := by
  simp only [attemptEnd, txn]

theorem attemptEnd_busy (txn : s.link.txn = some x) :
    attemptEnd .busy s = if x.attemptsRemain then enterBackoff x s else endTransaction x .busyLimit none s := by
  simp only [attemptEnd, txn]

/-- The two rows of R14's table that a result with a retry has. -/
theorem attemptsRemain_cases {o : Host.Outcome State Fault Refusal} {retry last : State}
    (h : o = .next (if x.attemptsRemain then retry else last)) :
    (x.attempt < x.params.retry.toNat + 1 → o = .next retry) ∧
    (¬ x.attempt < x.params.retry.toNat + 1 → o = .next last) := by
  rw [← Transaction.attemptsRemain_iff]
  exact ⟨fun remain => by rw [h, if_pos remain], fun spent => by rw [h, if_neg spent]⟩

/-! ## The happenings that end an attempt or a wait -/

theorem exec_responseTimeout_of_awaitResponse (up : s.resetHeld = false) (phase : s.link.phase = .awaitResponse) :
    exec .responseTimeout s = .next (attemptEnd .timeout s) :=
  (live_of_resetHigh up _).trans (by rw [if_pos phase])

theorem exec_byteGapExpiry_of_gap (up : s.resetHeld = false) (phase : s.link.phase = .receiving)
    (short : s.link.endWatch = false) (gap : s.link.timer ≠ none) :
    exec .byteGapExpiry s = .next (attemptEnd .corrupt s) :=
  (live_of_resetHigh up _).trans (by rw [if_pos ⟨phase, short, Option.isSome_iff_ne_none.2 gap⟩])

theorem exec_endWatchStartBit_of_endWatch (up : s.resetHeld = false) (phase : s.link.phase = .receiving)
    (watch : s.link.endWatch = true) : exec .endWatchStartBit s = .next (attemptEnd .corrupt s) :=
  (live_of_resetHigh up _).trans (by rw [if_pos ⟨phase, watch⟩])

theorem exec_endWatchExpiry_of_endWatch (up : s.resetHeld = false) (txn : s.link.txn = some x)
    (phase : s.link.phase = .receiving) (watch : s.link.endWatch = true) :
    exec .endWatchExpiry s = .next (attemptEnd (x.judge s.link.rx) s) :=
  (live_of_resetHigh up _).trans (by simp only [if_pos (And.intro phase watch), judgeResponse, txn])

theorem nextAttempt_of_txn (txn : u.link.txn = some x) :
    nextAttempt u = startAttempt { x with attempt := x.attempt + 1 } u := by
  simp only [nextAttempt, txn]

theorem exec_settleEnd_of_settle (up : u.resetHeld = false) (txn : u.link.txn = some x)
    (phase : u.link.phase = .settle) :
    exec .settleEnd u = .next (startAttempt { x with attempt := x.attempt + 1 } u) :=
  (live_of_resetHigh up _).trans (by rw [if_pos phase, nextAttempt_of_txn txn])

theorem exec_backoffEnd_of_backoff (up : u.resetHeld = false) (txn : u.link.txn = some x)
    (phase : u.link.phase = .backoff) :
    exec .backoffEnd u = .next (startAttempt { x with attempt := x.attempt + 1 } u) :=
  (live_of_resetHigh up _).trans (by rw [if_pos phase, nextAttempt_of_txn txn])

/-- Settles O51: each happening that ends an attempt runs `attemptEnd` with its result, whose rows are the equations
above; a wait ends in `startAttempt` with the attempt number one higher. -/
theorem attemptResults : Obligations.AttemptResults := by
  intro s x up txn remain settle backoff next
  refine ⟨fun u upU => ⟨fun link => ?_, fun link => ?_⟩, fun phase => ?_, fun phase short gap => ?_,
    fun phase watch => ?_⟩
  · exact exec_settleEnd_of_settle upU (by rw [link]; exact txn) (by rw [link])
  · exact exec_backoffEnd_of_backoff upU (by rw [link]; exact txn) (by rw [link])
  · exact attemptsRemain_cases ((exec_responseTimeout_of_awaitResponse up phase).trans
      (congrArg _ (attemptEnd_timeout txn)))
  · exact attemptsRemain_cases ((exec_byteGapExpiry_of_gap up phase short gap).trans
      (congrArg _ (attemptEnd_corrupt txn)))
  · have long := attemptsRemain_cases ((exec_endWatchStartBit_of_endWatch up phase watch).trans
      (congrArg _ (attemptEnd_corrupt txn)))
    have judged := exec_endWatchExpiry_of_endWatch up txn phase watch
    have corrupt (j : x.judge s.link.rx = .corrupt) :=
      attemptsRemain_cases (judged.trans (congrArg _ (j ▸ attemptEnd_corrupt txn)))
    have busy (j : x.judge s.link.rx = .busy) :=
      attemptsRemain_cases (judged.trans (congrArg _ (j ▸ attemptEnd_busy txn)))
    exact ⟨long.1, long.2, fun v j => by rw [judged, j, attemptEnd_ack txn],
      fun j => by rw [judged, j, attemptEnd_reject txn],
      fun j => (corrupt j).1, fun j => (corrupt j).2, fun j => (busy j).1, fun j => (busy j).2⟩

end Sys2Proof.Machine
end

section
/-! The station table: what REVIVE does with its argument (R35). -/

namespace Sys2Proof.Machine

variable {s : State}

theorem exec_revive_of_entry (up : s.resetHeld = false) {arg : Byte} {e : Fin 16} (named : arg.toNat = e.val) :
    exec (.revive arg) s = .next (answer 9#8 .accepted (argDetail arg) (setFailures e 0#4 s)) := by
  have inRange : arg.toNat < 16 := named ▸ e.isLt
  have entry : (⟨arg.toNat, inRange⟩ : Fin 16) = e := Fin.ext named
  exact (live_of_resetHigh up _).trans (by rw [dif_pos inRange, entry])

theorem exec_revive_of_outOfRange (up : s.resetHeld = false) {arg : Byte} (out : 16 ≤ arg.toNat) :
    exec (.revive arg) s = .next (answer 9#8 .invalid (argDetail arg) s) :=
  (live_of_resetHigh up _).trans (by rw [dif_neg (Nat.not_lt.2 out)])

/-- Settles O43: the two branches of REVIVE, by whether the argument names an entry. -/
theorem reviveResult : Obligations.ReviveResult := fun _ _ up =>
  ⟨fun _ named => exec_revive_of_entry up named, fun out => exec_revive_of_outOfRange up out⟩

end Sys2Proof.Machine
end

section
/-! The configuration check of ARM: each check finds its first failing index, and the checks run in order (R49 to R54). -/

namespace Sys2Proof.Machine

variable {s : State}

/-! ## The first index of an ordered list that fails -/

/-- In a list in the ascending order of `key`, the search for `p` finds the member with `p` below which none has it. -/
theorem find?_eq_some_of_first {α : Type} {key : α → Nat} {p : α → Bool} {a : α} (pa : p a = true)
    (first : ∀ b, key b < key a → ¬ p b = true) {l : List α} (sorted : l.Pairwise (key · < key ·)) (mem : a ∈ l) :
    l.find? p = some a := by
  induction l with
  | nil => cases mem
  | cons x l ih =>
    obtain ⟨below, sorted⟩ := List.pairwise_cons.1 sorted
    rcases List.mem_cons.1 mem with rfl | mem
    · exact List.find?_cons_of_pos pa
    · rw [List.find?_cons_of_neg (first x (below a mem)), ih sorted mem]

theorem find?_eq_none_of_pass {α : Type} {p : α → Bool} (pass : ∀ a, ¬ p a = true) (l : List α) :
    l.find? p = none :=
  List.find?_eq_none.2 fun a _ => pass a

/-- The chain checks take the chains in the order of their codes. -/
theorem chainOrder_sorted : chainOrder.Pairwise (·.code < ·.code) := by decide

theorem mem_chainOrder (c : Chain) : c ∈ chainOrder :=
  match c with
  | .normal => by decide
  | .inj k => (by decide : ∀ k, Chain.inj k ∈ chainOrder) k

theorem find?_chainOrder_of_first {p : Chain → Bool} {c : Chain} (pc : p c = true)
    (first : ∀ d, d.code < c.code → ¬ p d = true) : chainOrder.find? p = some c :=
  find?_eq_some_of_first pc first chainOrder_sorted (mem_chainOrder c)

theorem find?_range_of_first {p : Nat → Bool} {k : Nat} {n : Fin k} (pn : p n.val = true)
    (first : ∀ m : Fin k, m < n → ¬ p m.val = true) : (List.range k).find? p = some n.val :=
  find?_eq_some_of_first (key := id) pn (fun m lt => first ⟨m, lt.trans n.isLt⟩ lt) List.pairwise_lt_range
    (List.mem_range.2 n.isLt)

theorem find?_range_of_pass {p : Nat → Bool} {k : Nat} (pass : ∀ n : Fin k, ¬ p n.val = true) :
    (List.range k).find? p = none :=
  List.find?_eq_none.2 fun n mem => pass ⟨n, List.mem_range.1 mem⟩

theorem find?_finRange_of_first {k : Nat} {p : Fin k → Bool} {e : Fin k} (pe : p e = true)
    (first : ∀ f, f < e → ¬ p f = true) : (List.finRange k).find? p = some e :=
  find?_eq_some_of_first pe first (List.pairwise_lt_finRange k) (List.mem_finRange e)

/-! ## What each check asks of an index -/

theorem itemAt_val (n : Fin 64) : s.itemAt n.val = s.tables.items[n] := dif_pos n.isLt

theorem itemAt_kind_of_outOfRange {n : Nat} (out : 64 ≤ n) : (s.itemAt n).kind = .off := by
  rw [State.itemAt, dif_neg (Nat.not_lt.2 out)]

theorem inEnabledChain_iff {n : Nat} : s.inEnabledChain n = true ↔ ∃ c, (s.chainDef c).enabled = true ∧
    (s.chainDef c).first.toNat ≤ n ∧ n < (s.chainDef c).first.toNat + (s.chainDef c).count.toNat := by
  simp [State.inEnabledChain, mem_chainOrder, and_assoc]

theorem badRange_iff {c : Chain} : s.badRange c = true ↔
    (s.chainDef c).enabled = true ∧ 64 < (s.chainDef c).first.toNat + (s.chainDef c).count.toNat := by
  simp [State.badRange]

theorem badStation_iff {n : Fin 64} : s.badStation n.val = true ↔
    s.inEnabledChain n.val = true ∧ (s.tables.items[n]).kind ≠ .off ∧
      ((s.stations.entries[(s.tables.items[n]).station]).address = 0#5 ∨
        (s.stations.entries[(s.tables.items[n]).station]).enabled = false) := by
  simp [State.badStation, State.stationOf, itemAt_val, and_assoc]

theorem badSlot_iff {n : Fin 64} : s.badSlot n.val = true ↔
    s.inEnabledChain n.val = true ∧ (s.tables.items[n]).kind = .write ∧ (s.tables.items[n]).slot ≠ none := by
  simp [State.badSlot, itemAt_val, and_assoc, Option.isSome_iff_ne_none]

theorem badTarget_iff {e : Fin 8} : s.badTarget e = true ↔ (s.trigger.entries[e]).enabled = true ∧
    (¬ (s.chainDef (s.trigger.entries[e]).target).enabled = true ∨
      ((s.trigger.entries[e]).target = .normal ∧ s.tables.normalMode = .continuous)) := by
  simp [State.badTarget]

/-- No expected position: every position of the chain holds an OFF item; past item memory there is none but OFF. -/
theorem nextExpected_zero_eq_none_iff {c : Chain} : s.nextExpected c 0 = none ↔
    ∀ p, p < (s.chainDef c).count.toNat → (s.itemAt ((s.chainDef c).first.toNat + p)).kind = .off := by
  simp only [State.nextExpected, List.find?_eq_none, List.mem_range, State.isExpected, State.itemNumber]
  refine ⟨fun pass p inCount => ?_, fun off p _ => by simpa using off p⟩
  by_cases inMemory : p < 64
  · simpa [inCount] using pass p inMemory
  · exact itemAt_kind_of_outOfRange (by omega)

theorem emptyChain_iff {c : Chain} : s.emptyChain c = true ↔ (s.chainDef c).enabled = true ∧
    ∀ p, p < (s.chainDef c).count.toNat → (s.itemAt ((s.chainDef c).first.toNat + p)).kind = .off := by
  simp [State.emptyChain, nextExpected_zero_eq_none_iff]

/-! ## The first failing check is reported -/

theorem anyEnabled_iff : chainOrder.any (fun c => (s.chainDef c).enabled) = true ↔
    ∃ c, (s.chainDef c).enabled = true := by
  simp [mem_chainOrder]

theorem configCheck_of_badRange {c : Chain} (bad : s.badRange c = true)
    (first : ∀ d, d.code < c.code → ¬ s.badRange d = true) : s.configCheck = some (chainFailure .chainRange c) := by
  simp [State.configCheck, find?_chainOrder_of_first bad first]

section
variable (range : ∀ c, ¬ s.badRange c = true)
include range

theorem configCheck_of_noChain (off : ∀ c, ¬ (s.chainDef c).enabled = true) :
    s.configCheck = some ⟨.noChain, 0#6⟩ := by
  simp [State.configCheck, find?_eq_none_of_pass range, off]

/-- Past the chain checks the four checks of R51 to R54 remain. -/
theorem configCheck_of_chains (on : ∃ c, (s.chainDef c).enabled = true) : s.configCheck =
    (((List.range 64).find? s.badStation).map (itemFailure .station)
      <|> ((List.range 64).find? s.badSlot).map (itemFailure .slot)
      <|> ((List.finRange 8).find? s.badTarget).map (fun e => ⟨.triggerTarget, BitVec.ofNat 6 e.val⟩)
      <|> (chainOrder.find? s.emptyChain).map (chainFailure .emptyChain)) := by
  simp [State.configCheck, find?_eq_none_of_pass range, anyEnabled_iff.2 on]

theorem configCheck_of_badStation {n : Fin 64} (bad : s.badStation n.val = true)
    (first : ∀ m : Fin 64, m < n → ¬ s.badStation m.val = true) :
    s.configCheck = some (itemFailure .station n.val) := by
  obtain ⟨c, on, _⟩ := inEnabledChain_iff.1 (badStation_iff.1 bad).1
  simp [configCheck_of_chains range ⟨c, on⟩, find?_range_of_first bad first]

variable (on : ∃ c, (s.chainDef c).enabled = true) (stations : ∀ n : Fin 64, ¬ s.badStation n.val = true)
include on stations

theorem configCheck_of_badSlot {n : Fin 64} (bad : s.badSlot n.val = true)
    (first : ∀ m : Fin 64, m < n → ¬ s.badSlot m.val = true) : s.configCheck = some (itemFailure .slot n.val) := by
  simp [configCheck_of_chains range on, find?_range_of_pass stations, find?_range_of_first bad first]

variable (slots : ∀ n : Fin 64, ¬ s.badSlot n.val = true)
include slots

theorem configCheck_of_badTarget {e : Fin 8} (bad : s.badTarget e = true)
    (first : ∀ f, f < e → ¬ s.badTarget f = true) :
    s.configCheck = some ⟨.triggerTarget, BitVec.ofNat 6 e.val⟩ := by
  simp [configCheck_of_chains range on, find?_range_of_pass stations, find?_range_of_pass slots,
    find?_finRange_of_first bad first]

variable (targets : ∀ e, ¬ s.badTarget e = true)
include targets

theorem configCheck_of_emptyChain {c : Chain} (bad : s.emptyChain c = true)
    (first : ∀ d, d.code < c.code → ¬ s.emptyChain d = true) :
    s.configCheck = some (chainFailure .emptyChain c) := by
  simp [configCheck_of_chains range on, find?_range_of_pass stations, find?_range_of_pass slots,
    find?_eq_none_of_pass targets, find?_chainOrder_of_first bad first]

theorem configCheck_of_pass (empty : ∀ c, ¬ s.emptyChain c = true) : s.configCheck = none := by
  simp [configCheck_of_chains range on, find?_range_of_pass stations, find?_range_of_pass slots,
    find?_eq_none_of_pass targets, find?_eq_none_of_pass empty]

end

/-- Settles O34: each condition of the statement is what its check asks of an index (the `iff` lemmas), and the check
reports the first failure behind the checks that passed. -/
theorem configurationCheckReports : Obligations.ConfigurationCheckReports := by
  intro s on first count inChain range station slot target empty
  have isRange (c) : range c ↔ s.badRange c = true := badRange_iff.symm
  have isStation (n) : station n ↔ s.badStation n.val = true :=
    (and_congr_left' inEnabledChain_iff.symm).trans badStation_iff.symm
  have isSlot (n) : slot n ↔ s.badSlot n.val = true :=
    (and_congr_left' inEnabledChain_iff.symm).trans badSlot_iff.symm
  have isTarget (e) : target e ↔ s.badTarget e = true := badTarget_iff.symm
  have isEmpty (c) : empty c ↔ s.emptyChain c = true := emptyChain_iff.symm
  simp only [isRange, isStation, isSlot, isTarget, isEmpty]
  exact ⟨fun _ bad first => configCheck_of_badRange bad first, fun range =>
    ⟨configCheck_of_noChain range, fun _ bad first => configCheck_of_badStation range bad first, fun on stations =>
    ⟨fun _ bad first => configCheck_of_badSlot range on stations bad first, fun slots =>
    ⟨fun _ bad first => configCheck_of_badTarget range on stations slots bad first, fun targets =>
    ⟨fun _ bad first => configCheck_of_emptyChain range on stations slots targets bad first,
      configCheck_of_pass range on stations slots targets⟩⟩⟩⟩⟩

end Sys2Proof.Machine
end

section
/-! The arbiter's decision: one equation for each row of R133's table, and R132's choice in each mode. -/

namespace Sys2Proof.Machine

variable {s : State} {t : Fin 4} {l : List (Fin 4)}

/-! ## The contested choice (R132) -/

theorem directWins_of_seqFirst (mode : s.arb.mode = .seqFirst) : s.directWins = s.arb.boundaryGrant := by
  simp only [State.directWins, mode]

theorem directWins_of_shared (mode : s.arb.mode = .shared) :
    s.directWins = true ↔ s.arb.lastGrantee = .sequencer := by
  simp only [State.directWins, mode, beq_iff_eq]

theorem directWins_of_directFirst (mode : s.arb.mode = .directFirst) : s.directWins = true := by
  simp only [State.directWins, mode]

/-! ## The rows of R133 -/

theorem decision_of_emptyList (empty : s.direct.order = []) :
    s.decision = if s.seqRequest then .sequencer else .none := by
  simp only [State.decision, empty]

section
variable (head : s.direct.order = t :: l)
include head

theorem decision_of_urgentHead (urgent : s.urgent t = true) : s.decision = .direct t := by
  simp only [State.decision, head, if_pos urgent]

variable (plain : s.urgent t = false)
include plain

theorem decision_of_tenure (tenure : s.arb.tenure = true) :
    s.decision = if s.seqRequest then .sequencer else .none := by
  simp [State.decision, head, plain, tenure]

variable (free : s.arb.tenure = false)
include free

theorem decision_of_directAlone (quiet : s.seqRequest = false) : s.decision = .direct t := by
  simp [State.decision, head, plain, free, quiet]

theorem decision_of_contested (asks : s.seqRequest = true) :
    s.decision = if s.directWins then .direct t else .sequencer := by
  simp [State.decision, head, plain, free, asks]

end

/-- Settles O19: the rows of R133 are the equations above; in the contested one R132's modes say who wins. -/
theorem decisionFollowsPriority : Obligations.DecisionFollowsPriority := by
  intro s
  refine ⟨fun empty asks => ?_, fun empty quiet => ?_, fun t l head =>
    ⟨decision_of_urgentHead head, decision_of_tenure head, decision_of_directAlone head, fun plain free asks => ?_⟩⟩
  · rw [decision_of_emptyList empty, if_pos asks]
  · rw [decision_of_emptyList empty, quiet, if_neg Bool.false_ne_true]
  · rw [decision_of_contested head plain free asks]
    cases mode : s.arb.mode with
    | seqFirst => simp only [directWins_of_seqFirst mode]
    | shared => simp only [directWins_of_shared mode]
    | directFirst => simp only [directWins_of_directFirst mode, if_true]

end Sys2Proof.Machine
end

section
/-! The block and its queue: a step, the part's own time, what RESET_N holds, and the reset values. -/

namespace Sys2Proof.Machine

-- One proof at a time: the whole text is compiled in one process of bounded memory.
set_option Elab.async false

variable {s : State} {c : Instr}

/-! ## Taking a command -/

theorem live_of_resetLow (low : s.resetHeld = true) (t : State) : live s t = .next s := by
  simp [live, low]

theorem live_next (s t : State) : ∃ u, live s t = .next u := by
  unfold live
  split
  · exact ⟨s, rfl⟩
  · exact ⟨t, rfl⟩

/-- Settles O1. -/
theorem stepTakesFrontCommand : Obligations.StepTakesFrontCommand := by
  intro s c rest front
  simp only [step, front]

/-- Settles O3: every arm but the two with a range, the reset pin's and the TRIG pins' is a `live`. -/
theorem everyCommandIsTaken : Obligations.EveryCommandIsTaken := by
  intro c s
  cases c with
  | unknownCommand code arg =>
    refine ⟨fun ok => ?_, fun bad => ?_⟩ <;> simp only [exec, execUnknownCommand]
    · rw [if_pos ok]; exact live_next s _
    · rw [if_neg (ne_true_of_eq_false bad)]
  | readOnlyWrite a v =>
    refine ⟨fun ok => ?_, fun bad => ?_⟩ <;> simp only [exec, execReadOnlyWrite]
    · rw [if_pos ok]; exact live_next s _
    · rw [if_neg (ne_true_of_eq_false bad)]
  | resetNAssert | resetNRelease | triggerPinChange => exact ⟨fun _ => ⟨_, rfl⟩, nofun⟩
  | _ => exact ⟨fun _ => live_next s _, nofun⟩

/-- Settles O4: a `live` happening takes nothing while RESET_N is low. -/
theorem resetHoldsEveryBlock : Obligations.ResetHoldsEveryBlock := by
  intro s low
  refine ⟨by simp [State.intAsserted, low], fun a => by simp [State.readWord, low], fun c ok notA notR notPin => ?_⟩
  cases c with
  | unknownCommand code arg => simp only [exec, execUnknownCommand, if_pos ok, live_of_resetLow low]
  | readOnlyWrite a v => simp only [exec, execReadOnlyWrite, if_pos ok, live_of_resetLow low]
  | resetNAssert => exact absurd rfl notA
  | resetNRelease => exact absurd rfl notR
  | triggerPinChange k l => exact absurd rfl (notPin k l)
  | _ => exact live_of_resetLow low _

/-! ## What is due -/

theorem isDue_iff {t : Option Nat} : s.isDue t = true ↔ ∃ d, t = some d ∧ d ≤ s.now := by
  cases t <;> simp [State.isDue]

theorem mem_engineDue : c ∈ s.engineDue ↔ s.engineHappening = some c ∧ ∃ d, s.link.timer = some d ∧ d ≤ s.now := by
  unfold State.engineDue
  split
  next due => simp [Option.mem_toList, isDue_iff.1 due]
  next early => simp [fun d => not_exists.1 (mt isDue_iff.2 early) d]

theorem engineHappening_eq_some : s.engineHappening = some c ↔
    (c = .frameSent ∧ s.link.phase = .sending) ∨ (c = .responseTimeout ∧ s.link.phase = .awaitResponse) ∨
    (c = .endWatchExpiry ∧ s.link.phase = .receiving ∧ s.link.endWatch = true) ∨
    (c = .byteGapExpiry ∧ s.link.phase = .receiving ∧ s.link.endWatch = false) ∨
    (c = .settleEnd ∧ s.link.phase = .settle ∧ s.link.txn ≠ none) ∨
    (c = .resetSettleEnd ∧ s.link.phase = .settle ∧ s.link.txn = none) ∨
    (c = .backoffEnd ∧ s.link.phase = .backoff) := by
  unfold State.engineHappening
  cases phase : s.link.phase with
  | receiving => cases watch : s.link.endWatch <;> simp [@eq_comm _ c]
  | settle => by_cases txn : s.link.txn = none <;> simp [txn, @eq_comm _ c]
  | _ => simp [@eq_comm _ c]

theorem mem_timersDue : c ∈ s.timersDue ↔
    ∃ k : Fin 4, ∃ d, c = .paceTimerExpiry k ∧ s.trigger.runs[k] = .running d ∧ d ≤ s.now := by
  have due (k : Fin 4) : s.isDue (s.trigger.runs[k]).due = true ↔
      ∃ d, s.trigger.runs[k] = .running d ∧ d ≤ s.now := by
    cases s.trigger.runs[k] <;> simp [TimerRun.due, State.isDue]
  have all (k : Fin 4) : k ∈ [0, 1, 2, 3] := by revert k; decide
  simp only [State.timersDue, List.mem_map, List.mem_filter, all, true_and, due]
  constructor
  · rintro ⟨k, ⟨d, run, reached⟩, rfl⟩
    exact ⟨k, d, rfl, run, reached⟩
  · rintro ⟨k, d, rfl, run, reached⟩
    exact ⟨k, ⟨d, run, reached⟩, rfl⟩

theorem mem_filtersDue : c ∈ s.filtersDue ↔
    ∃ k : Fin 4, c = .lineEdge k ∧ ∃ d, s.trigger.filters[k] = some d ∧ d ≤ s.now := by
  have all (k : Fin 4) : k ∈ [0, 1, 2, 3] := by revert k; decide
  simp only [State.filtersDue, List.mem_map, List.mem_filter, all, true_and, isDue_iff]
  constructor
  · rintro ⟨k, reached, rfl⟩
    exact ⟨k, rfl, reached⟩
  · rintro ⟨k, rfl, reached⟩
    exact ⟨k, reached, rfl⟩

theorem mem_conversionsDue : c ∈ s.conversionsDue ↔
    (∃ it, c = .conversionTimerExpiry ∧ s.seq.item = some it ∧ ∃ d, it.convDue = some d ∧ d ≤ s.now) ∨
    (∃ r, c = .suspendedTimerExpiry ∧ s.seq.suspended = some r ∧ ∃ d, r.convDue = some d ∧ d ≤ s.now) := by
  rw [State.conversionsDue, List.mem_append]
  refine or_congr ?_ ?_
  · cases s.seq.item <;> simp [isDue_iff, and_comm]
  · cases s.seq.suspended <;> simp [isDue_iff, and_comm]

theorem mem_arbiterDue : c ∈ s.arbiterDue ↔
    (c = .grantPauseEnd ∧ ((∃ d, s.arb.pause = some d ∧ d ≤ s.now) ∨ s.arb.apart = true)) ∨
    (∃ t d, c = .lockWindowExpiry ∧ s.arb.lock = .window t d ∧ d ≤ s.now) := by
  rw [State.arbiterDue, List.mem_append]
  refine or_congr ?_ ?_
  · simp [isDue_iff, and_comm]
  · cases s.arb.lock <;> simp [Lock.due, State.isDue, and_comm]

theorem pick_mem (s : State) (c : Instr) (rest : List Instr) : s.pick c rest ∈ c :: rest := by
  cases rest with
  | nil => exact List.mem_singleton.2 rfl
  | cons d rest =>
    have inRange : Config.tieOrder s.now (c :: d :: rest) % ((d :: rest).length + 1) < (c :: d :: rest).length :=
      Nat.mod_lt _ (Nat.succ_pos _)
    simp only [State.pick, List.getD_eq_getElem _ _ inRange]
    exact List.getElem_mem inRange

/-- Settles O2: the step with an empty queue is `idle`, and what is due is read off block by block. -/
theorem idleStepLetsTimePass : Obligations.IdleStepLetsTimePass := by
  refine ⟨fun s empty => ?_, fun s c => ?_⟩
  · have own : step s = idle s := by simp only [step, empty]
    rw [own]
    refine ⟨fun waits => ?_, fun up some_due => ?_⟩
    · rcases waits with low | quiet
      · simp [idle, low, tick]
      · simp [idle, quiet, tick]
    · cases due : s.due with
      | nil => exact absurd due some_due
      | cons c rest => exact ⟨s.pick c rest, pick_mem s c rest, by simp [idle, up, due]⟩
  · simp only [State.due, List.mem_append, mem_engineDue, engineHappening_eq_some, mem_timersDue, mem_filtersDue,
      mem_conversionsDue, mem_arbiterDue, or_assoc, or_and_right, and_assoc]

/-! ## The reset pin and the reset values -/

/-- Settles O5: both edges of RESET_N leave `resetBlocks`; the release starts the filters of the lines that are high. -/
theorem pinResetResult : Obligations.PinResetResult := by
  intro s port
  refine ⟨rfl, #v[s.filterAtRelease 0, s.filterAtRelease 1, s.filterAtRelease 2, s.filterAtRelease 3], rfl, fun k => ?_⟩
  match k with
  | 0 | 1 | 2 | 3 => rfl

/-- Settles O6. -/
theorem resetValues : Obligations.ResetValues := by
  refine ⟨by decide, ?_, by decide, ?_, ?_, by decide, by decide, by decide, by decide, by decide, by decide, by decide,
    by decide, by decide, ?_, ⟨rfl, rfl, rfl, rfl, ?_, rfl, ?_, rfl, rfl, rfl, rfl⟩, ?_⟩
  · decide
  · intro n
    exact Vector.getElem_replicate ..
  · rintro (_ | k)
    · rfl
    · exact Vector.getElem_replicate ..
  · intro n
    exact Vector.getElem_replicate ..
  · intro k
    exact Vector.getElem_replicate ..
  · exact fun i => rfl
  · intro e
    cases e <;> rfl

/-- Settles O8: State.reset is what `resetBlocks` leaves of itself. -/
theorem resetMeetsInvariant : Obligations.ResetMeetsInvariant :=
  resetBlocks_inv State.reset (Vector.replicate 4 none) false

/-! ## SOFT_RESET -/

/-- A cut changes the Link Engine alone. -/
theorem cutTransaction_eq (s : State) : cutTransaction s = { s with link := (cutTransaction s).link } := by
  unfold cutTransaction
  split <;> rfl

theorem cutTransaction_of_free (free : s.link.phase = .idle ∨ s.link.txn = none) : cutTransaction s = s := by
  unfold cutTransaction
  split
  next => rfl
  next => rfl
  next busy txn => simp_all

theorem cutTransaction_of_busy {x : Transaction} (busy : s.link.phase ≠ .idle) (txn : s.link.txn = some x) :
    (cutTransaction s).link = { s.link with
      phase := .settle, txn := none, timer := some (s.afterBytes x.rate 4), rx := [], endWatch := false } := by
  unfold cutTransaction
  split
  next idle => exact absurd idle busy
  next gone _ => simp [txn] at gone
  next y other _ => rw [Option.some.inj (txn.symm.trans other)]

/-- Settles O7: `clearRunState` block by block, with the engine as the cut leaves it. -/
theorem softResetResult : Obligations.SoftResetResult := by
  intro s up
  refine ⟨(cutTransaction s).link, ?_, fun free => by rw [cutTransaction_of_free free],
    fun x busy txn => cutTransaction_of_busy busy txn⟩
  show live s _ = _
  rw [live_of_resetHigh up, cutTransaction_eq]
  simp only [clearRunState, answer, up]
  rfl

end Sys2Proof.Machine
end

section
/-! What a step keeps: the configuration, the ranges of the tables and the flags of the result slots, for every
happening but the reset pin and the taken writes of locked words. -/

namespace Sys2Proof.Machine

-- One proof at a time: the whole text is compiled in one process of bounded memory.
set_option Elab.async false

variable {s t u : State}

/-! ## Steady: configuration, table ranges and slot flags are kept -/

theorem State.SameConfiguration.refl (s : State) : s.SameConfiguration s := by constructor <;> rfl

theorem State.SameConfiguration.trans (h : s.SameConfiguration t) (g : t.SameConfiguration u) : s.SameConfiguration u where
  entries := g.entries.trans h.entries
  items := g.items.trans h.items
  normal := g.normal.trans h.normal
  normalMode := g.normalMode.trans h.normalMode
  inj := g.inj.trans h.inj
  timers := g.timers.trans h.timers
  edges := g.edges.trans h.edges
  triggers := g.triggers.trans h.triggers
  mode := g.mode.trans h.mode
  windowLength := g.windowLength.trans h.windowLength
  policy := g.policy.trans h.policy
  rate := g.rate.trans h.rate

/-- From s to t no locked word changes, tables in range stay in range, and slot flags in order stay in order. -/
structure Steady (s t : State) : Prop where
  same : s.SameConfiguration t
  tables : s.TablesOk → t.TablesOk
  slots : s.SlotsOk → t.SlotsOk

theorem Steady.refl (s : State) : Steady s s := ⟨.refl s, id, id⟩

theorem Steady.trans (h : Steady s t) (g : Steady t u) : Steady s u :=
  ⟨h.same.trans g.same, g.tables ∘ h.tables, g.slots ∘ h.slots⟩

theorem Steady.after (g : Steady t u) (h : Steady s t) : Steady s u := h.trans g

/-- With the configuration, the counts, the direct defaults and the result slots as they were, everything stands. -/
theorem Steady.of_same (same : s.SameConfiguration t) (failures : t.stations.failures = s.stations.failures)
    (defaults : t.direct.defTimeout = s.direct.defTimeout) (slots : t.results.slots = s.results.slots) :
    Steady s t where
  same := same
  tables := fun h => tables_of h same.entries failures same.items same.normal same.inj same.timers same.windowLength
    defaults
  slots := fun h k => by rw [slots]; exact h k

theorem Frame.steady (f : Frame s t) : Steady s t where
  same :=
    { entries := by rw [f.stations]
      items := by rw [f.tables]
      normal := by rw [f.tables]
      normalMode := by rw [f.tables]
      inj := by rw [f.tables]
      timers := by rw [f.trigger]
      edges := by rw [f.trigger]
      triggers := by rw [f.trigger]
      mode := f.mode
      windowLength := f.windowLength
      policy := by rw [f.results]
      rate := f.rate }
  tables := f.tablesOk
  slots := f.slotsOk

theorem SeqFrame.steady (f : SeqFrame s t) : Steady s t := f.frame.steady

theorem answer_steady (c : Byte) (a : Answer) (d : BitVec 4) (s : State) : Steady s (answer c a d s) :=
  .of_same (by constructor <;> rfl) rfl rfl rfl

theorem refuseWrite_steady (a : Address) (r : Answer) (s : State) : Steady s (refuseWrite a r s) :=
  .of_same (by constructor <;> rfl) rfl rfl rfl

theorem Steady.answered (h : Steady s t) (c : Byte) (a : Answer) (d : BitVec 4) : Steady s (answer c a d t) :=
  h.trans (answer_steady c a d t)

theorem live_steady (h : Steady s t) (e : live s t = .next u) : Steady s u := by
  unfold live at e
  split at e <;> cases e
  · exact .refl s
  · exact h

theorem openWrite_steady {a : Address} {o : Option State} (h : ∀ t, o = some t → Steady s t) :
    Steady s (openWrite a o s) := by
  cases o with
  | none => exact refuseWrite_steady a _ s
  | some t => exact h t rfl

/-! ## Station health -/

theorem noticeHealth_steady (a : BitVec 5) (o : TxnOutcome) (s : State) : Steady s (noticeHealth a o s) where
  same := by
    unfold noticeHealth
    split
    next e found =>
      unfold moveHealth
      dsimp only
      split_ifs <;> constructor <;> rfl
    next => exact .refl s
  tables := fun h => noticeHealth_tables h a o
  slots := fun h => by rw [noticeHealth_eq]; exact h

theorem setFailures_zero_steady (e : Fin 16) (s : State) : Steady s (setFailures e 0#4 s) where
  same := by constructor <;> rfl
  tables := fun h =>
    { h with
      failures := fun f => by
        simp only [setFailures_stations, vset]
        split
        · exact Nat.zero_le _
        · exact h.failures f }
  slots := id

theorem attemptEnd_steady (r : AttemptResult) (s : State) : Steady s (attemptEnd r s) := by
  rcases attemptEnd_frame r s with frame | ⟨x, o, txn, frame⟩
  · exact frame.steady
  · exact (noticeHealth_steady x.address o s).trans frame.steady

/-! ## Commands -/

theorem startChain_frame (c : Chain) (s : State) : Frame s (startChain c s).2 := by
  cases c with
  | normal =>
    simp only [startChain]
    split
    · exact ((startNormal_frame s).trans (schedule_seqFrame _).frame).trans (arbitrate_frame _)
    · exact startNormal_frame s
  | inj k =>
    simp only [startChain]
    split
    · exact startInjected_frame k s
    · exact (startInjected_frame k s).trans (arbitrate_frame _)

theorem armed_steady (s : State) : Steady s (armed s) := .of_same (by constructor <;> rfl) rfl rfl rfl

theorem setCheck_steady (d : CheckDetail) (s : State) : Steady s (setCheck d s) :=
  .of_same (by constructor <;> rfl) rfl rfl rfl

theorem stopTimers_steady (s : State) : Steady s (stopTimers s) := .of_same (by constructor <;> rfl) rfl rfl rfl

theorem stopSequencer_seqFrame (s : State) : SeqFrame s (stopSequencer s) := by
  unfold stopSequencer
  split
  · exact setTop_seqFrame _ s
  · exact (setTop_seqFrame _ s).trans (raise_seqFrame _ _)

theorem markChain_seqFrame (c : Chain) (s : State) : SeqFrame s (markChain c s) :=
  (setItem_seqFrame _ s).trans (updateRun_seqFrame c _ _)

theorem completeNow_frame (c : Chain) (it : ItemRun) (o : ItemOutcome) (v : Option Value) (s : State) :
    Frame s (arbitrate (schedule (completeCurrent c it o v s))) :=
  ((completeCurrent_seqFrame c it o v s).trans (schedule_seqFrame _)).frame.trans (arbitrate_frame _)

theorem queueRequest_frame (k : Fin 4) (r : Request) (s : State) : Frame s (queueRequest k r s) :=
  (setSlot_frame k _ s).trans (setOrder_frame _ _)

theorem arbiterSubmit_frame (k : Fin 4) (urgent : Bool) (s : State) : Frame s (arbiterSubmit k urgent s) := by
  unfold arbiterSubmit
  split
  · exact arbitrate_frame s
  · split
    · exact setLock_frame _ s
    · exact .refl s
  · exact .refl s
  · split
    · exact .refl s
    · exact grantDirect_frame k s
  · exact .refl s

theorem cancelQueued_frame (k : Fin 4) (s : State) : Frame s (cancelQueued k s) := by
  have gone : Frame s (setOrder (s.direct.order.erase k) (setSlot k { s.direct.slots[k] with state := .cancelled } s)) :=
    (setSlot_frame k _ s).trans (setOrder_frame _ _)
  unfold cancelQueued
  dsimp only
  split
  · exact gone.trans (setLock_frame _ _)
  · exact gone.trans (arbitrate_frame _)

theorem clearRunState_steady (s : State) : Steady s (clearRunState (cutTransaction s)) where
  same := by
    rw [cutTransaction_eq]
    constructor
    case rate =>
      show (cutTransaction s).link.rate = _
      unfold cutTransaction
      split <;> rfl
    all_goals rfl
  tables := fun h => by
    rw [cutTransaction_eq]
    exact { h with
      failures := fun f => by
        show (Vector.replicate 16 0#4)[f].toNat ≤ _
        rw [Fin.getElem_fin, Vector.getElem_replicate]
        exact Nat.zero_le _ }
  slots := fun _ k => by
    intro overwritten
    rw [show (clearRunState (cutTransaction s)).results.slots[k] = {} from Vector.getElem_replicate ..] at overwritten
    cases overwritten

/-! ## Reads with side effects -/

theorem popRecord_steady (s : State) : Steady s (popRecord s) := by
  unfold popRecord
  split <;> exact .of_same (by constructor <;> rfl) rfl rfl rfl

theorem moveHeld_steady (s : State) : Steady s (moveHeld s) := by
  unfold moveHeld
  split
  · exact .refl s
  · exact (enqueue_seqFrame ..).steady.after (.of_same (by constructor <;> rfl) rfl rfl rfl)

theorem popWord_steady (s : State) : Steady s (popWord s) := by
  have taken := (popRecord_steady s).trans (moveHeld_steady _)
  unfold popWord
  dsimp only
  split
  · exact taken.trans ((endQueueWait_seqFrame _).frame.trans (arbitrate_frame _)).steady
  · exact taken

theorem returnWord_steady (a : Nat) (s : State) : Steady s (returnWord a s) := .of_same (by constructor <;> rfl) rfl rfl rfl

theorem captureSlot_steady (s : State) : Steady s (captureSlot s) where
  same := by constructor <;> rfl
  tables := fun h => tables_of h rfl rfl rfl rfl rfl rfl rfl rfl
  slots := fun h k => by
    simp only [captureSlot, vset]
    split
    · split
      · exact h s.results.resultSelect
      · exact nofun
    · exact h k

/-! ## Happenings -/

theorem deliver_steady (src : Source) (s : State) : Steady s (deliver src s) := (deliver_frame src s).steady

theorem paceTimerExpiry_steady (k : Fin 4) (s : State) : Steady s (paceTimerExpiry k s) := by
  unfold paceTimerExpiry
  split
  · split
    · exact (deliver_steady ..).after (.of_same (by constructor <;> rfl) rfl rfl rfl)
    · exact .refl s
  · exact .refl s

theorem lineEdge_steady (k : Fin 4) (s : State) : Steady s (lineEdge k s) := by
  unfold lineEdge
  split
  · have moved : Steady s { s with trigger := { s.trigger with
        filtered := s.trigger.filtered.set k s.trigger.pins[k], filters := s.trigger.filters.set k none } } :=
      .of_same (by constructor <;> rfl) rfl rfl rfl
    dsimp only
    split
    · exact moved.trans (deliver_steady _ _)
    · exact moved
  · exact .refl s

theorem triggerPinChange_steady (k : Fin 4) (level : Bool) (s : State) : Steady s (triggerPinChange k level s) := by
  unfold triggerPinChange
  split
  · exact .refl s
  · exact .of_same (by constructor <;> rfl) rfl rfl rfl

/-- A happening that moves the engine's phase, timer, bytes or attempt alone. -/
theorem Steady.of_link {l : LinkEngine} (rate : l.rate = s.link.rate) : Steady s { s with link := l } :=
  .of_same
    (by
      constructor
      case rate => exact rate
      all_goals rfl)
    rfl rfl rfl

theorem frameSent_steady (s : State) : Steady s (frameSent s) := by
  unfold frameSent
  split
  · exact .of_link rfl
  · exact .refl s

theorem responseStartBit_steady (s : State) : Steady s (responseStartBit s) := by
  unfold responseStartBit
  split
  · exact .of_link rfl
  · split
    · exact .refl s
    · exact .of_link rfl
  · exact .refl s

theorem receiveByte_steady (b : RxByte) (s : State) : Steady s (receiveByte b s) := by
  unfold receiveByte
  split
  · split
    · exact .refl s
    · exact .of_link rfl
  · exact .refl s

theorem nextAttempt_steady (s : State) : Steady s (nextAttempt s) := by
  unfold nextAttempt
  split
  · exact (startAttempt_frame _ s).steady
  · exact .refl s

theorem judgeResponse_steady (s : State) : Steady s (judgeResponse s) := by
  unfold judgeResponse
  split
  · exact attemptEnd_steady _ s
  · exact .refl s

theorem conversionTimerExpiry_steady (s : State) : Steady s (conversionTimerExpiry s) := by
  unfold conversionTimerExpiry
  split
  · split
    · exact ((setItem_seqFrame _ s).frame.trans (arbitrate_frame _)).steady
    · exact .refl s
  · exact .refl s

theorem suspendedTimerExpiry_steady (s : State) : Steady s (suspendedTimerExpiry s) := by
  unfold suspendedTimerExpiry
  split
  · split
    · exact .refl s
    · exact (setSuspended_seqFrame _ s).steady
  · exact .refl s

theorem lockWindowExpiry_steady (s : State) : Steady s (lockWindowExpiry s) := by
  unfold lockWindowExpiry
  split
  · exact (lapse_frame s).steady
  · exact .refl s

/-! ## Every happening but the reset pin and the taken writes of locked words -/

/-- The writes of words that are locked while the Sequencer is not STOPPED (section 10.7, RW/S). -/
def locksOnArm : Instr → Bool
  | .linkConfigurationWrite _ | .arbiterConfigurationWrite _ | .resultConfigurationWrite _ | .stationFieldWrite _ _
  | .itemFieldWrite _ _ | .chainFieldWrite _ _ | .timerFieldWrite _ _ | .lineEdgeWrite _ | .triggerEntryWrite _ => true
  | _ => false

/-- The reset pin's two happenings. -/
def movesResetPin : Instr → Bool
  | .resetNAssert | .resetNRelease => true
  | _ => false

theorem ite_steady {p : Prop} [Decidable p] (h : p → Steady s t) (g : ¬ p → Steady s u) :
    Steady s (if p then t else u) := by
  split
  · exact h ‹_›
  · exact g ‹_›

theorem exec_steady {c : Instr} (open_ : locksOnArm c = false) (notPin : movesResetPin c = false)
    (e : exec c s = .next t) : Steady s t := by
  cases c with
  | resetNAssert | resetNRelease => cases notPin
  | linkConfigurationWrite | arbiterConfigurationWrite | resultConfigurationWrite | stationFieldWrite
  | itemFieldWrite | chainFieldWrite | timerFieldWrite | lineEdgeWrite | triggerEntryWrite => cases open_
  | arm =>
    refine live_steady ?_ e
    split
    · split
      · exact (setCheck_steady _ s).answered ..
      · exact ((setCheck_steady _ s).trans (armed_steady _)).answered ..
    · exact answer_steady ..
  | disarm =>
    refine live_steady (ite_steady (fun _ => Steady.answered ?_ ..) fun _ => answer_steady ..) e
    exact (((abortEverything_frame s).trans (postHoldList_seqFrame _).frame).steady.trans (stopTimers_steady _)).trans
      ((stopSequencer_seqFrame _).frame.trans (arbitrate_frame _)).steady
  | start =>
    refine live_steady (ite_steady (fun _ => answer_steady ..) fun _ => ?_) e
    split
    · exact (startChain_frame .normal s).steady.answered ..
    · split
      · exact answer_steady ..
      · exact (((beginPass_seqFrame s).trans (schedule_seqFrame _)).frame.trans (arbitrate_frame _)).steady.answered ..
  | stopAfterPass =>
    exact live_steady (ite_steady (fun _ => (setPass_seqFrame _ s).steady.answered ..) fun _ => answer_steady ..) e
  | trigger arg =>
    refine live_steady ?_ e
    split
    · exact answer_steady ..
    · split
      · exact answer_steady ..
      · exact (startChain_frame _ s).steady.answered ..
  | abortItem =>
    refine live_steady ?_ e
    split
    · split
      · exact answer_steady ..
      · exact (setItem_seqFrame _ s).steady.answered ..
      · exact (setItem_seqFrame _ s).steady.answered ..
      · exact (completeNow_frame ..).steady.answered ..
      · exact (completeNow_frame ..).steady.answered ..
    · exact answer_steady ..
  | abortChain =>
    refine live_steady ?_ e
    split
    · exact answer_steady ..
    · split
      · exact (markChain_seqFrame _ s).steady.answered ..
      · exact (((abandonItem_frame _ s).trans ((endRun_seqFrame ..).trans (schedule_seqFrame _)).frame).trans
          (arbitrate_frame _)).steady.answered ..
  | abortAll =>
    exact live_steady (ite_steady
      (fun _ => ((abortEverything_frame s).trans (arbitrate_frame _)).steady.answered ..) fun _ => answer_steady ..) e
  | revive arg =>
    refine live_steady ?_ e
    split
    · exact (setFailures_zero_steady _ s).answered ..
    · exact answer_steady ..
  | submit =>
    refine live_steady ?_ e
    split
    · exact answer_steady ..
    · exact answer_steady ..
    · exact ((queueRequest_frame ..).trans (arbiterSubmit_frame ..)).steady.answered ..
  | cancel arg =>
    refine live_steady ?_ e
    split
    · dsimp only
      split
      · exact (cancelQueued_frame _ s).steady.answered ..
      · exact (setSlot_frame _ _ s).steady.answered ..
      all_goals exact answer_steady ..
    · exact answer_steady ..
  | release arg =>
    refine live_steady ?_ e
    split
    · dsimp only
      split
      · exact (setSlot_frame _ _ s).steady.answered ..
      · exact (setSlot_frame _ _ s).steady.answered ..
      all_goals exact answer_steady ..
    · exact answer_steady ..
  | softReset => exact live_steady ((clearRunState_steady s).answered ..) e
  | unknownCommand code arg =>
    simp only [exec, execUnknownCommand] at e
    split at e
    · exact live_steady (answer_steady ..) e
    · cases e
  | pop => exact live_steady ((popWord_steady s).trans (returnWord_steady _ _)) e
  | snapshotCapture => exact live_steady ((captureSlot_steady s).trans (returnWord_steady _ _)) e
  | eventLatchClear | eventEnableWrite | interruptControlWrite | dropCounterClear | overrunClear | stagingWrite =>
    refine live_steady ?_ e
    exact .of_same (by constructor <;> rfl) rfl rfl rfl
  | windowStatusClear v =>
    refine live_steady (ite_steady (fun _ => ?_) fun _ => .refl s) e
    exact .of_same (by constructor <;> rfl) rfl rfl rfl
  | directDefaultsWrite v =>
    refine live_steady (openWrite_steady fun t taken => ?_) e
    split at taken
    next range =>
      cases taken
      exact ⟨by constructor <;> rfl, fun h => { h with defaults := ⟨range.1, range.2.1⟩ }, id⟩
    next => cases taken
  | stationSelectWrite v | itemSelectWrite v | chainSelectWrite v | timerSelectWrite v | triggerSelectWrite v
  | directSlotSelectWrite v | resultSelectWrite v | maskSelectWrite v =>
    refine live_steady (openWrite_steady fun t taken => ?_) e
    obtain ⟨k, -, rfl⟩ := Option.map_eq_some_iff.1 taken
    exact .of_same (by constructor <;> rfl) rfl rfl rfl
  | readOnlyWrite a v =>
    simp only [exec, execReadOnlyWrite] at e
    split at e
    · exact live_steady (refuseWrite_steady ..) e
    · cases e
  | lineEdge k => exact live_steady (lineEdge_steady k s) e
  | paceTimerExpiry k => exact live_steady (paceTimerExpiry_steady k s) e
  | frameSent => exact live_steady (frameSent_steady s) e
  | responseStartBit => exact live_steady (responseStartBit_steady s) e
  | responseTimeout | byteGapExpiry | endWatchStartBit =>
    exact live_steady (ite_steady (fun _ => attemptEnd_steady _ s) fun _ => .refl s) e
  | endWatchExpiry => exact live_steady (ite_steady (fun _ => judgeResponse_steady s) fun _ => .refl s) e
  | strayByte => exact live_steady (.refl s) e
  | settleEnd | backoffEnd => exact live_steady (ite_steady (fun _ => nextAttempt_steady s) fun _ => .refl s) e
  | resetSettleEnd =>
    exact live_steady (ite_steady (fun _ => ((engineIdle_frame s).trans (arbitrate_frame _)).steady) fun _ => .refl s) e
  | conversionTimerExpiry => exact live_steady (conversionTimerExpiry_steady s) e
  | suspendedTimerExpiry => exact live_steady (suspendedTimerExpiry_steady s) e
  | grantPauseEnd =>
    refine live_steady (ite_steady (fun _ => ?_) fun _ => .refl s) e
    exact (decideNow_frame _).steady.after (.of_same (by constructor <;> rfl) rfl rfl rfl)
  | lockWindowExpiry => exact live_steady (lockWindowExpiry_steady s) e
  | responseByteReceived v f => exact live_steady (receiveByte_steady _ s) e
  | triggerPinChange k l =>
    cases e
    exact triggerPinChange_steady k l s

/-! ## Writes of locked words -/

theorem lockedWrite_refused {a : Address} {o : Option State} (top : s.seq.top ≠ .stopped) :
    lockedWrite a o s = refuseWrite a .wrongState s := by
  simp [lockedWrite, State.isStopped, top]

/-- Every write of a locked word is refused while the Sequencer is not STOPPED (R28, R47, R184). -/
theorem lockedWrite_steady {c : Instr} (locks : locksOnArm c = true) (top : s.seq.top ≠ .stopped)
    (e : exec c s = .next t) : Steady s t := by
  have refused (a : Address) (o : Option State) (e : live s (lockedWrite a o s) = .next t) : Steady s t :=
    live_steady (lockedWrite_refused top ▸ refuseWrite_steady a _ s) e
  cases c with
  | linkConfigurationWrite v =>
    refine live_steady (ite_steady (fun free => ?_) fun _ => refuseWrite_steady ..) e
    simp [State.isStopped, top] at free
  | stationFieldWrite f v =>
    refine live_steady (ite_steady (fun free => ?_) fun _ => refuseWrite_steady ..) e
    simp [State.isStopped, top] at free
  | arbiterConfigurationWrite | resultConfigurationWrite | itemFieldWrite | chainFieldWrite | timerFieldWrite
  | lineEdgeWrite | triggerEntryWrite => exact refused _ _ e
  | _ => cases locks

/-- Settles O15: outside STOPPED a locked word's write is refused, and every other happening is steady. -/
theorem configurationStandsWhileArmed : Obligations.ConfigurationStandsWhileArmed := by
  intro c s t top notAssert notRelease e
  have notPin : movesResetPin c = false := by
    cases c with
    | resetNAssert => exact absurd rfl notAssert
    | resetNRelease => exact absurd rfl notRelease
    | _ => rfl
  cases locks : locksOnArm c with
  | true => exact (lockedWrite_steady locks top e).same
  | false => exact (exec_steady locks notPin e).same

end Sys2Proof.Machine
end

section
/-! Every step keeps State.Inv: for each happening the moving parts stay coherent, and the tables and the slot flags are
steady or written in range. -/

namespace Sys2Proof.Machine

-- One proof at a time: the whole text is compiled in one process of bounded memory.
set_option Elab.async false

variable {s t u : State}

theorem live_coherent (h : Coherent s) (k : Coherent t) (e : live s t = .next u) : Coherent u := by
  unfold live at e
  split at e <;> cases e
  · exact h
  · exact k

theorem answer_coherent (h : Coherent s) (c : Byte) (a : Answer) (d : BitVec 4) : Coherent (answer c a d s) :=
  h.congr rfl rfl rfl rfl rfl rfl rfl rfl

theorem ite_coherent {p : Prop} [Decidable p] (h : p → Coherent t) (g : ¬ p → Coherent u) :
    Coherent (if p then t else u) := by
  split
  · exact h ‹_›
  · exact g ‹_›

theorem openWrite_coherent (h : Coherent s) {a : Address} {o : Option State} (k : ∀ t, o = some t → Coherent t) :
    Coherent (openWrite a o s) := by
  cases o with
  | none => exact h.congr rfl rfl rfl rfl rfl rfl rfl rfl
  | some t => exact k t rfl

/-- Coherence speaks of the moving parts alone: counts, tables but the injected chains, triggers, slots and views do not
matter. -/
theorem Coherent.of_same (h : Coherent s) (seq : t.seq = s.seq) (arb : t.arb = s.arb) (link : t.link = s.link)
    (slots : t.direct.slots = s.direct.slots) (order : t.direct.order = s.direct.order)
    (queue : t.results.queue = s.results.queue) (hold : t.results.hold = s.results.hold)
    (inj : t.tables.inj = s.tables.inj) : Coherent t :=
  h.congr seq queue hold inj link arb slots order

/-! ## Starts -/

theorem passStart_coherent (h : Coherent s) (armed : s.isArmed = true) (absent : s.seq.pass.present = false) :
    Coherent (arbitrate (schedule (beginPass s))) :=
  schedule_coherent h.toSettled (beginPass_seqFrame s).aside
    (beginPass_ready h.sequencer.ready absent (isArmed_iff.1 armed))

theorem popWord_returned_coherent (h : Coherent s) : Coherent (returnWord 0x58 (popWord s)) :=
  (pop_coherent h).of_same rfl rfl rfl rfl rfl rfl rfl rfl

theorem paceTimerExpiry_coherent (h : Coherent s) (k : Fin 4) : Coherent (paceTimerExpiry k s) := by
  unfold paceTimerExpiry
  split
  · refine ite_coherent (fun armed => ?_) fun _ => h
    have moved : Coherent (setRun k (s.runAfterExpiry k) s) := h.of_same rfl rfl rfl rfl rfl rfl rfl rfl
    exact deliver_coherent moved armed _
  · exact h

theorem lineEdge_coherent (h : Coherent s) (k : Fin 4) : Coherent (lineEdge k s) := by
  unfold lineEdge
  refine ite_coherent (fun _ => ?_) fun _ => h
  have moved : Coherent { s with trigger := { s.trigger with
      filtered := s.trigger.filtered.set k s.trigger.pins[k], filters := s.trigger.filters.set k none } } :=
    h.of_same rfl rfl rfl rfl rfl rfl rfl rfl
  refine ite_coherent (fun named => ?_) fun _ => moved
  exact deliver_coherent moved (Bool.and_eq_true_iff.1 named).1 _

theorem triggerPinChange_coherent (h : Coherent s) (k : Fin 4) (level : Bool) :
    Coherent (triggerPinChange k level s) :=
  ite_coherent (fun _ => h) fun _ => h.of_same rfl rfl rfl rfl rfl rfl rfl rfl

theorem execArm_coherent (h : Coherent s) (e : exec .arm s = .next t) : Coherent t := by
  have checked (d : CheckDetail) : Coherent (setCheck d s) := h.of_same rfl rfl rfl rfl rfl rfl rfl rfl
  refine live_coherent h (ite_coherent (fun stopped => ?_) fun _ => answer_coherent h ..) e
  split
  · exact answer_coherent (checked _) ..
  · exact answer_coherent (armed_coherent (checked {}) (beq_iff_eq.1 stopped)) ..

theorem execStart_coherent (h : Coherent s) (e : exec .start s = .next t) : Coherent t := by
  refine live_coherent h (ite_coherent (fun _ => answer_coherent h ..) fun taken => ?_) e
  simp only [Bool.or_eq_true, Bool.not_eq_true', not_or, Bool.not_eq_false] at taken
  obtain ⟨armed, enabled⟩ := taken
  split
  · exact answer_coherent (startChain_coherent h armed .normal enabled) ..
  · refine ite_coherent (fun _ => answer_coherent h ..) fun absent => ?_
    exact answer_coherent (passStart_coherent h armed (eq_false_of_ne_true absent)) ..

theorem execTrigger_coherent {arg : Byte} (h : Coherent s) (e : exec (.trigger arg) s = .next t) : Coherent t := by
  refine live_coherent h ?_ e
  split
  · exact answer_coherent h ..
  · refine ite_coherent (fun _ => answer_coherent h ..) fun taken => ?_
    simp only [Bool.or_eq_true, Bool.not_eq_true', not_or, Bool.not_eq_false] at taken
    exact answer_coherent (startChain_coherent h taken.1.1 _ taken.1.2) ..

theorem execAbortItem_coherent (h : Coherent s) (e : exec .abortItem s = .next t) : Coherent t := by
  refine live_coherent h ?_ e
  split
  next c it _ active item =>
    split
    next => exact answer_coherent h ..
    next on => exact answer_coherent (markItem_coherent h item (.inl on)) ..
    next on => exact answer_coherent (markItem_coherent h item (.inr on)) ..
    next waits => exact answer_coherent (abortItem_coherent h.toSettled active item (.inl waits)) ..
    next waits => exact answer_coherent (abortItem_coherent h.toSettled active item (.inr waits)) ..
  next => exact answer_coherent h ..

theorem execAbortChain_coherent (h : Coherent s) (e : exec .abortChain s = .next t) : Coherent t := by
  refine live_coherent h ?_ e
  split
  next => exact answer_coherent h ..
  next c run =>
    refine ite_coherent (fun on => ?_) fun off => ?_
    · exact answer_coherent (markChain_coherent h c on) ..
    · exact answer_coherent (abortChain_coherent h run (eq_false_of_ne_true off)) ..

theorem freeSlot_free {k : Fin 4} (found : s.freeSlot = some k) : (s.direct.slots[k]).state = .free := by
  simpa using List.find?_some (p := fun t : Fin 4 => (s.direct.slots[t]).state == .free) found

theorem execSubmit_coherent (h : Coherent s) (e : exec .submit s = .next t) : Coherent t := by
  refine live_coherent h ?_ e
  split
  next => exact answer_coherent h ..
  next => exact answer_coherent h ..
  next r k _ found =>
    exact answer_coherent (submit_coherent h k r (freeSlot_free found)) ..

theorem execCancel_coherent {arg : Byte} (h : Coherent s) (e : exec (.cancel arg) s = .next t) : Coherent t := by
  refine live_coherent h ?_ e
  split
  · dsimp only
    split
    next queued => exact answer_coherent (cancel_coherent h _ queued) ..
    next active =>
      refine answer_coherent (slotChange_coherent h _ _ ?_ ?_ (.inl ?_)) ..
      · exact .rfl
      · exact .rfl
      · rfl
    all_goals exact answer_coherent h ..
  · exact answer_coherent h ..

theorem execRelease_coherent {arg : Byte} (h : Coherent s) (e : exec (.release arg) s = .next t) : Coherent t := by
  have freed (k : Fin 4) (notQueued : (s.direct.slots[k]).state ≠ .queued) (notActive : (s.direct.slots[k]).state ≠ .active) :
      Coherent (setSlot k {} s) :=
    slotChange_coherent h k {} ⟨nofun, fun q => absurd q notQueued⟩ ⟨nofun, fun a => absurd a notActive⟩ (.inr nofun)
  refine live_coherent h ?_ e
  split
  · dsimp only
    split
    next done => exact answer_coherent (freed _ (ne_of_eq_of_ne done nofun) (ne_of_eq_of_ne done nofun)) ..
    next done => exact answer_coherent (freed _ (ne_of_eq_of_ne done nofun) (ne_of_eq_of_ne done nofun)) ..
    all_goals exact answer_coherent h ..
  · exact answer_coherent h ..

/-! ## Every happening but the reset pin and the writes of locked words -/

theorem exec_coherent {c : Instr} (h : s.Inv) (open_ : locksOnArm c = false) (notPin : movesResetPin c = false)
    (e : exec c s = .next t) : Coherent t := by
  have h' := h.coherent
  have ended (r : AttemptResult) : Coherent (attemptEnd r s) := attemptEnd_coherent h'.toSettled h'.decided r
  cases c with
  | resetNAssert | resetNRelease => cases notPin
  | linkConfigurationWrite | arbiterConfigurationWrite | resultConfigurationWrite | stationFieldWrite
  | itemFieldWrite | chainFieldWrite | timerFieldWrite | lineEdgeWrite | triggerEntryWrite => cases open_
  | arm => exact execArm_coherent h' e
  | disarm =>
    exact live_coherent h' (ite_coherent (fun _ => answer_coherent (disarm_coherent h'.toSettled) ..)
      fun _ => answer_coherent h' ..) e
  | start => exact execStart_coherent h' e
  | stopAfterPass =>
    exact live_coherent h' (ite_coherent (fun _ => answer_coherent (stopAfter_coherent h' true) ..)
      fun _ => answer_coherent h' ..) e
  | trigger arg => exact execTrigger_coherent h' e
  | abortItem => exact execAbortItem_coherent h' e
  | abortChain => exact execAbortChain_coherent h' e
  | abortAll =>
    exact live_coherent h' (ite_coherent (fun _ => answer_coherent (abortAll_coherent h'.toSettled) ..)
      fun _ => answer_coherent h' ..) e
  | revive arg =>
    refine live_coherent h' ?_ e
    split
    · exact h'.of_same rfl rfl rfl rfl rfl rfl rfl rfl
    · exact answer_coherent h' ..
  | submit => exact execSubmit_coherent h' e
  | cancel arg => exact execCancel_coherent h' e
  | release arg => exact execRelease_coherent h' e
  | softReset => exact live_coherent h' (answer_coherent (clearRunState_inv h).coherent ..) e
  | unknownCommand code arg =>
    simp only [exec, execUnknownCommand] at e
    split at e
    · exact live_coherent h' (answer_coherent h' ..) e
    · cases e
  | pop => exact live_coherent h' (popWord_returned_coherent h') e
  | snapshotCapture | eventLatchClear | eventEnableWrite | interruptControlWrite | dropCounterClear | overrunClear
  | stagingWrite =>
    refine live_coherent h' ?_ e
    exact h'.of_same rfl rfl rfl rfl rfl rfl rfl rfl
  | windowStatusClear v =>
    refine live_coherent h' (ite_coherent (fun _ => ?_) fun _ => h') e
    exact h'.of_same rfl rfl rfl rfl rfl rfl rfl rfl
  | directDefaultsWrite v =>
    refine live_coherent h' (openWrite_coherent h' fun t taken => ?_) e
    split at taken <;> cases taken
    exact h'.of_same rfl rfl rfl rfl rfl rfl rfl rfl
  | stationSelectWrite v | itemSelectWrite v | chainSelectWrite v | timerSelectWrite v | triggerSelectWrite v
  | directSlotSelectWrite v | resultSelectWrite v | maskSelectWrite v =>
    refine live_coherent h' (openWrite_coherent h' fun t taken => ?_) e
    obtain ⟨k, -, rfl⟩ := Option.map_eq_some_iff.1 taken
    exact h'.of_same rfl rfl rfl rfl rfl rfl rfl rfl
  | readOnlyWrite a v =>
    simp only [exec, execReadOnlyWrite] at e
    split at e
    · refine live_coherent h' ?_ e
      exact h'.of_same rfl rfl rfl rfl rfl rfl rfl rfl
    · cases e
  | lineEdge k => exact live_coherent h' (lineEdge_coherent h' k) e
  | paceTimerExpiry k => exact live_coherent h' (paceTimerExpiry_coherent h' k) e
  | frameSent => exact live_coherent h' (frameSent_coherent h') e
  | responseStartBit => exact live_coherent h' (responseStartBit_coherent h') e
  | responseTimeout | byteGapExpiry | endWatchStartBit =>
    exact live_coherent h' (ite_coherent (fun _ => ended _) fun _ => h') e
  | endWatchExpiry =>
    refine live_coherent h' (ite_coherent (fun _ => ?_) fun _ => h') e
    unfold judgeResponse
    split
    · exact ended _
    · exact h'
  | strayByte => exact live_coherent h' h' e
  | settleEnd => exact live_coherent h' (ite_coherent (fun at_ => nextAttempt_coherent h' (.inl at_)) fun _ => h') e
  | backoffEnd => exact live_coherent h' (ite_coherent (fun at_ => nextAttempt_coherent h' (.inr at_)) fun _ => h') e
  | resetSettleEnd =>
    exact live_coherent h' (ite_coherent (fun at_ => resetSettle_coherent h' at_.1 at_.2) fun _ => h') e
  | conversionTimerExpiry => exact live_coherent h' (conversion_coherent h') e
  | suspendedTimerExpiry => exact live_coherent h' (suspendedTimer_coherent h') e
  | grantPauseEnd => exact live_coherent h' (ite_coherent (fun _ => pauseEnd_coherent h') fun _ => h') e
  | lockWindowExpiry => exact live_coherent h' (lockWindow_coherent h') e
  | responseByteReceived v f => exact live_coherent h' (receiveByte_coherent h' _) e
  | triggerPinChange k l =>
    cases e
    exact triggerPinChange_coherent h' k l

/-! ## Taken writes of locked words -/

/-- In STOPPED no item is in progress, so that the Sequencer asks for nothing. -/
theorem State.SequencerOk.stopped_item (h : s.SequencerOk) (top : s.seq.top = .stopped) : s.seq.item = none :=
  Option.not_isSome_iff_eq_none.1 fun item => by
    rw [h.running.2 item] at top
    cases top

/-- In STOPPED a decision does not depend on the priority mode, since the Sequencer asks for nothing. -/
theorem decision_of_noItem (item : s.seq.item = none) : s.decision = match s.direct.order with
    | [] => .none
    | t :: _ => if s.urgent t then .direct t else if s.arb.tenure then .none else .direct t := by
  have quiet : s.seqRequest = false := by simp [State.seqRequest, item]
  unfold State.decision
  cases s.direct.order <;> simp [quiet]

theorem arbiterConfiguration_inv (h : s.Inv) (top : s.seq.top = .stopped) (m : PriorityMode) {n : BitVec 8}
    (range : n ≠ 0#8) : ({ s with arb := { s.arb with mode := m, windowLength := n } } : State).Inv where
  tables := { h.tables with windowLength := range }
  slots := h.slots
  link := ⟨h.link.idle, h.link.free, h.link.timed, h.link.attempts, h.link.remaining, h.link.writeValue⟩
  direct := ⟨h.direct.once, h.direct.queued, h.direct.urgentFirst, h.direct.active⟩
  sequencer := SequencerOk_of_eq h.sequencer rfl rfl rfl rfl rfl
  lock := ⟨h.lock.held, h.lock.successor, h.lock.lapsing, h.lock.window, h.lock.pause⟩
  decided := by
    have item := h.sequencer.stopped_item top
    have same : State.decision { s with arb := { s.arb with mode := m, windowLength := n } } = s.decision :=
      Eq.trans (decision_of_noItem item) (decision_of_noItem (s := s) item).symm
    unfold State.Decided
    rw [same]
    exact h.decided

theorem linkConfiguration_inv (h : s.Inv) (r : LinkRate) :
    ({ s with link := { s.link with rate := r } } : State).Inv where
  tables := tables_of h.tables rfl rfl rfl rfl rfl rfl rfl rfl
  slots := h.slots
  link := ⟨h.link.idle, h.link.free, h.link.timed, h.link.attempts, h.link.remaining, h.link.writeValue⟩
  direct := ⟨h.direct.once, h.direct.queued, h.direct.urgentFirst, h.direct.active⟩
  sequencer := by
    have q := h.sequencer
    exact { q with }
  lock := ⟨h.lock.held, h.lock.successor, h.lock.lapsing, h.lock.window, h.lock.pause⟩
  decided := h.decided

/-- In STOPPED the tables and the trigger unit may take any values in range. -/
theorem Inv.of_written (h : s.Inv) (top : s.seq.top = .stopped) (tables : t.TablesOk) (seq : t.seq = s.seq)
    (results : t.results = s.results) (link : t.link = s.link) (arb : t.arb = s.arb) (direct : t.direct = s.direct) :
    t.Inv :=
  have k := stopped_coherent h.coherent top seq results link arb direct
  ⟨tables, fun n => by rw [results]; exact h.slots n, k.link, k.direct, k.sequencer, k.lock, k.decided⟩

theorem itemField_tables (h : s.TablesOk) {f : ItemField} {w : Word} {d : Item}
    (written : applyItemField f w s.tables.items[s.tables.itemSelect] = some d) :
    ({ s with tables := { s.tables with items := s.tables.items.set s.tables.itemSelect d } } : State).TablesOk :=
  { h with
    lengths := fun n => by
      simp only [vset]
      split
      · exact applyItem_length f w (h.lengths _) written
      · exact h.lengths n }

theorem chainField_tables (h : s.TablesOk) {f : ChainField} {w : Word} {m : ItemMemory}
    (written : applyChainField f w s = some m) : ({ s with tables := m } : State).TablesOk :=
  have ⟨items, normal, inj⟩ := applyChain_counts h f w written
  { h with
    lengths := fun n => by
      simp only [items]
      exact h.lengths n
    normalCount := normal
    injCount := inj }

theorem timerField_tables (h : s.TablesOk) {f : TimerField} {w : Word} {d : TimerConfig}
    (written : applyTimerField f w s.trigger.timers[s.trigger.timerSelect] = some d) :
    ({ s with trigger := { s.trigger with timers := s.trigger.timers.set s.trigger.timerSelect d } } : State).TablesOk :=
  { h with
    periods := fun k => by
      simp only [vset]
      split
      · exact applyTimer_period f w (h.periods _) written
      · exact h.periods k }

theorem isStopped_iff : s.isStopped = true ↔ s.seq.top = .stopped := by simp [State.isStopped]

theorem lockedWrite_inv {c : Instr} (h : s.Inv) (locks : locksOnArm c = true) (e : exec c s = .next t) : t.Inv := by
  cases c with
  | linkConfigurationWrite v =>
    refine live_inv h ?_ e
    split
    · refine open_inv h fun t taken => ?_
      obtain ⟨r, -, rfl⟩ := Option.map_eq_some_iff.1 taken
      exact linkConfiguration_inv h r
    · exact refuse_inv h ..
  | arbiterConfigurationWrite v =>
    refine live_inv h (locked_inv h fun top t taken => ?_) e
    split at taken
    next m _ =>
      split at taken
      · cases taken
      next range =>
        cases taken
        exact arbiterConfiguration_inv h top m range
    next => cases taken
  | resultConfigurationWrite v =>
    refine live_inv h (locked_inv h fun top t taken => ?_) e
    cases taken
    exact Inv.congr h rfl rfl rfl rfl rfl rfl rfl rfl rfl rfl rfl rfl rfl rfl rfl
  | stationFieldWrite f v =>
    refine live_inv h ?_ e
    split
    next stopped =>
      split
      next => exact refuse_inv h ..
      next written =>
        split
        next => exact refuse_inv h ..
        next single =>
          exact Inv.of_written h (isStopped_iff.1 stopped)
            (applyStation_tables h.tables f v written (eq_false_of_ne_true single)) rfl rfl rfl rfl rfl
    next => exact refuse_inv h ..
  | itemFieldWrite f v =>
    refine live_inv h (locked_inv h fun top t taken => ?_) e
    obtain ⟨d, written, rfl⟩ := Option.map_eq_some_iff.1 taken
    exact Inv.of_written h top (itemField_tables h.tables written) rfl rfl rfl rfl rfl
  | chainFieldWrite f v =>
    refine live_inv h (locked_inv h fun top t taken => ?_) e
    obtain ⟨m, written, rfl⟩ := Option.map_eq_some_iff.1 taken
    exact Inv.of_written h top (chainField_tables h.tables written) rfl rfl rfl rfl rfl
  | timerFieldWrite f v =>
    refine live_inv h (locked_inv h fun top t taken => ?_) e
    obtain ⟨d, written, rfl⟩ := Option.map_eq_some_iff.1 taken
    exact Inv.of_written h top (timerField_tables h.tables written) rfl rfl rfl rfl rfl
  | lineEdgeWrite v =>
    refine live_inv h (locked_inv h fun top t taken => ?_) e
    cases taken
    exact Inv.of_written h top (tables_of h.tables rfl rfl rfl rfl rfl rfl rfl rfl) rfl rfl rfl rfl rfl
  | triggerEntryWrite v =>
    refine live_inv h (locked_inv h fun top t taken => ?_) e
    obtain ⟨c, -, rfl⟩ := Option.map_eq_some_iff.1 taken
    exact Inv.of_written h top (tables_of h.tables rfl rfl rfl rfl rfl rfl rfl rfl) rfl rfl rfl rfl rfl
  | _ => cases locks

/-- A taken write of a locked word leaves the result slots as they are. -/
theorem lockedWrite_slots {c : Instr} (h : s.SlotsOk) (locks : locksOnArm c = true) (e : exec c s = .next t) :
    t.SlotsOk := by
  have taken {u : State} (slots : u.results.slots = s.results.slots) (e : live s u = .next t) : t.SlotsOk := by
    unfold live at e
    split at e <;> cases e
    · exact h
    · exact fun k => by rw [slots]; exact h k
  have written {a : Address} {o : Option State} (slots : ∀ u, o = some u → u.results.slots = s.results.slots)
      (e : live s (lockedWrite a o s) = .next t) : t.SlotsOk := by
    refine taken ?_ e
    unfold lockedWrite
    split
    · split
      · exact slots _ rfl
      · rfl
    · rfl
  cases c with
  | linkConfigurationWrite v =>
    refine taken ?_ e
    split
    · unfold openWrite
      split
      next u found =>
        obtain ⟨r, -, rfl⟩ := Option.map_eq_some_iff.1 found
        rfl
      next => rfl
    · rfl
  | stationFieldWrite f v =>
    refine taken ?_ e
    split
    · split
      · rfl
      · split <;> rfl
    · rfl
  | arbiterConfigurationWrite v =>
    refine written (fun u found => ?_) e
    split at found
    · split at found <;> cases found
      rfl
    · cases found
  | resultConfigurationWrite v | lineEdgeWrite v =>
    refine written (fun u found => ?_) e
    cases found
    rfl
  | itemFieldWrite f v | chainFieldWrite f v | timerFieldWrite f v | triggerEntryWrite v =>
    refine written (fun u found => ?_) e
    obtain ⟨_, -, rfl⟩ := Option.map_eq_some_iff.1 found
    rfl
  | _ => cases locks

/-! ## The reset pin, and every happening -/

theorem resetPin_inv {c : Instr} (pin : movesResetPin c = true) (e : exec c s = .next t) : t.Inv := by
  cases c with
  | resetNAssert =>
    cases e
    exact resetBlocks_inv s (Vector.replicate 4 none) true
  | resetNRelease =>
    cases e
    exact resetBlocks_inv s _ false
  | _ => cases pin

theorem exec_inv {c : Instr} (h : s.Inv) (e : exec c s = .next t) : t.Inv := by
  cases pin : movesResetPin c with
  | true => exact resetPin_inv pin e
  | false =>
    cases locks : locksOnArm c with
    | true => exact lockedWrite_inv h locks e
    | false =>
      have steady := exec_steady locks pin e
      have k := exec_coherent h locks pin e
      exact ⟨steady.tables h.tables, steady.slots h.slots, k.link, k.direct, k.sequencer, k.lock, k.decided⟩

theorem exec_slots {c : Instr} (h : s.SlotsOk) (e : exec c s = .next t) : t.SlotsOk := by
  cases pin : movesResetPin c with
  | true =>
    have fresh : t.results = {} := by
      cases c with
      | resetNAssert | resetNRelease =>
        cases e
        rfl
      | _ => cases pin
    intro k overwritten
    rw [fresh, show ({} : ResultStore).slots[k] = {} from Vector.getElem_replicate ..] at overwritten
    cases overwritten
  | false =>
    cases locks : locksOnArm c with
    | true => exact lockedWrite_slots h locks e
    | false => exact (exec_steady locks pin e).slots h

/-! ## A step -/

/-- A step runs a command on the state with some commands waiting, or lets a microsecond pass. -/
theorem step_cases (e : step s = .next t) : (∃ c rest, exec c { s with pending := rest } = .next t) ∨ t = tick s := by
  unfold step at e
  split at e
  · unfold idle at e
    split at e
    · cases e
      exact .inr rfl
    · split at e
      · cases e
        exact .inr rfl
      · exact .inl ⟨_, s.pending, e⟩
  · exact .inl ⟨_, _, e⟩

theorem step_inv (h : s.Inv) (e : step s = .next t) : t.Inv := by
  rcases step_cases e with ⟨c, rest, e⟩ | rfl
  · refine exec_inv ?_ e
    exact Inv.congr h rfl rfl rfl rfl rfl rfl rfl rfl rfl rfl rfl rfl rfl rfl rfl
  · exact Inv.congr h rfl rfl rfl rfl rfl rfl rfl rfl rfl rfl rfl rfl rfl rfl rfl

/-- Settles O12. -/
theorem stepKeepsServiceOrder : Obligations.StepKeepsServiceOrder := fun _ _ h e => (step_inv h e).direct

/-- Settles O13. -/
theorem stepKeepsSequencer : Obligations.StepKeepsSequencer := fun _ _ h e => (step_inv h e).sequencer

/-- Settles O14. -/
theorem stepKeepsArbiter : Obligations.StepKeepsArbiter := fun _ _ h e => ⟨(step_inv h e).lock, (step_inv h e).decided⟩

/-- Settles O9. -/
theorem stepKeepsTables : Obligations.StepKeepsTables := fun _ _ h e => (step_inv h e).tables

/-- Settles O11. -/
theorem stepKeepsEngine : Obligations.StepKeepsEngine := fun _ _ h e => (step_inv h e).link

/-- Settles O10: slot flags need no other invariant. -/
theorem stepKeepsOverwrittenFlags : Obligations.StepKeepsOverwrittenFlags := by
  intro s t h e
  rcases step_cases e with ⟨c, rest, e⟩ | rfl
  · exact exec_slots (s := { s with pending := rest }) h e
  · exact h

end Sys2Proof.Machine
end

section
/-! Rules of the whole machine: what the aborts leave of health and of the frame on the line (R191, R19, R157), and how
STOPPED and STOPPING are left (R58). -/

namespace Sys2Proof.Machine

-- One proof at a time: the whole text is compiled in one process of bounded memory.
set_option Elab.async false

variable {s t u : State}

/-! ## The aborts and station health -/

theorem live_stations (h : t.stations = s.stations) (e : live s t = .next u) : u.stations = s.stations := by
  unfold live at e
  split at e <;> cases e
  · rfl
  · exact h

theorem abort_stations {c : Instr} (abort : c ∈ [Instr.arm, .disarm, .abortItem, .abortChain, .abortAll])
    (e : exec c s = .next t) : t.stations = s.stations := by
  simp only [List.mem_cons, List.not_mem_nil, or_false] at abort
  rcases abort with rfl | rfl | rfl | rfl | rfl <;> refine live_stations ?_ e
  · split
    · split <;> rfl
    · rfl
  · split
    · have work := (abortEverything_frame s).trans (postHoldList_seqFrame _).frame
      exact ((stopSequencer_seqFrame _).frame.trans (arbitrate_frame _)).stations.trans work.stations
    · rfl
  · split
    · split
      · rfl
      · rfl
      · rfl
      · exact (completeNow_frame ..).stations
      · exact (completeNow_frame ..).stations
    · rfl
  · split
    · rfl
    · split
      · exact (markChain_seqFrame _ s).stations
      · exact ((abandonItem_frame _ s).trans (((endRun_seqFrame ..).trans (schedule_seqFrame _)).frame.trans
          (arbitrate_frame _))).stations
  · split
    · exact ((abortEverything_frame s).trans (arbitrate_frame _)).stations
    · rfl

/-- Settles O17: health follows from the entries and the counts, which stand. -/
theorem abortsLeaveHealth : Obligations.AbortsLeaveHealth := by
  intro c s t abort e
  have same := abort_stations abort e
  exact ⟨same, fun f => by simp only [State.health, same]⟩

/-! ## The aborts and the frame on the line -/

theorem canDecide_of_busy (busy : s.link.phase ≠ .idle) : s.canDecide = false := by
  simp [State.canDecide, busy]

theorem decideNow_of_undecidable (no : s.canDecide = false) : decideNow s = settleApart s := by
  simp [decideNow, no]

theorem arbitrate_of_undecidable (no : s.canDecide = false) : arbitrate s = settleApart s := by
  simp [arbitrate, no, decideNow_of_undecidable no]

theorem arbitrate_link_of_busy (busy : s.link.phase ≠ .idle) : (arbitrate s).link = s.link := by
  rw [arbitrate_of_undecidable (canDecide_of_busy busy)]
  rfl

/-- An abandoned item that is on the line leaves its transaction orphaned (R153, R157). -/
theorem abandonItem_link (c : Chain) (s : State) :
    (abandonItem c s).link = if s.itemOnLink then (orphanTransaction s).link else s.link := by
  have finish (it : ItemRun) := (finishItem_seqFrame c it .aborted none s).link
  cases item : s.seq.item with
  | none => simp [abandonItem, State.itemOnLink, item]
  | some it =>
    cases phase : it.phase with
    | grantWait => by_cases fresh : it.restarts = 0 <;> simp [abandonItem, State.itemOnLink, item, phase, fresh, finish it]
    | converting | fetchWait => simp [abandonItem, State.itemOnLink, item, phase, finish it]
    | onLink | onLinkFetch => simp [abandonItem, State.itemOnLink, item, phase, orphanTransaction, finish it]

/-- The current item is on the line for a run that ABORT_ALL ends (R156, R157). -/
def State.abortsOnLink (s : State) : Bool :=
  s.itemOnLink && match s.seq.active, s.seq.injRun with
    | .inj _, some _ => true
    | .normal, _ => s.seq.pass.present
    | _, _ => false

theorem endPass_link (a : Bool) (s : State) : (endPass a s).link = s.link := (endPass_seqFrame a s).link

theorem abortSuspended_seqFrame (s : State) : SeqFrame s (abortSuspended s) := by
  unfold abortSuspended
  split
  · exact (completeItem_seqFrame ..).trans (setSuspended_seqFrame ..)
  · exact .refl s

theorem abortSuspended_pass_present (s : State) : (abortSuspended s).seq.pass.present = s.seq.pass.present := by
  unfold abortSuspended
  split
  · exact (completeItem_offering ..).present
  · rfl

theorem abortSuspended_item (s : State) : (abortSuspended s).seq.item = s.seq.item := by
  unfold abortSuspended
  split
  · exact (completeItem_offering ..).item
  · rfl

theorem abortInjected_of_normal (normal : s.seq.active = .normal) : abortInjected s = s := by
  simp [abortInjected, normal]

theorem abortEverything_link (s : State) :
    (abortEverything s).link = if s.abortsOnLink then (orphanTransaction s).link else s.link := by
  show (abortPass (s.seq.active == .normal) (abortSuspended (abortInjected s))).link = _
  by_cases active : s.seq.active = .normal
  · have onLink : (abortSuspended s).itemOnLink = s.itemOnLink := by simp only [State.itemOnLink, abortSuspended_item]
    simp only [abortInjected_of_normal active, abortPass, abortSuspended_pass_present, State.abortsOnLink, active,
      beq_self_eq_true, if_true]
    cases s.seq.pass.present with
    | true =>
      simp only [if_true, endPass_link, abandonItem_link, onLink, Bool.and_true, orphanTransaction,
        (abortSuspended_seqFrame s).link]
    | false => simp [(abortSuspended_seqFrame s).link]
  · have pass (x : State) : (abortPass (s.seq.active == .normal) x).link = x.link := by
      unfold abortPass
      rw [beq_eq_false_iff_ne.2 active]
      split
      · exact endPass_link true x
      · rfl
    rw [pass, (abortSuspended_seqFrame _).link]
    unfold abortInjected State.abortsOnLink
    split
    next k r act run => simp [(endInjRun_seqFrame _ _ _).link, abandonItem_link, act, run]
    next none => cases kind : s.seq.active <;> cases run : s.seq.injRun <;> simp_all

/-- Under the invariants an item on the line belongs to a run in progress (R57, R59, R64). -/
theorem State.SequencerOk.abortsOnLink (h : s.SequencerOk) : s.abortsOnLink = s.itemOnLink := by
  unfold State.abortsOnLink
  cases on : s.itemOnLink with
  | false => rfl
  | true =>
    have item : s.seq.item.isSome = true := by
      unfold State.itemOnLink at on
      cases found : s.seq.item with
      | none => simp [found] at on
      | some it => rfl
    have top := h.running.2 item
    cases active : s.seq.active with
    | none => simp [(h.context active).1] at item
    | normal => simp [h.pass (.inl active)]
    | inj k =>
      cases run : s.seq.injRun with
      | none => simp [(h.ended k active run).1] at top
      | some r => rfl

theorem itemOnLink_iff : s.itemOnLink = true ↔
    ∃ it, s.seq.item = some it ∧ (it.phase = .onLink ∨ it.phase = .onLinkFetch) := by
  unfold State.itemOnLink
  cases s.seq.item <;> simp

theorem live_link (h : t.link = s.link) (e : live s t = .next u) : u.link = s.link := by
  unfold live at e
  split at e <;> cases e
  · rfl
  · exact h

theorem mark_link {c : Instr} (busy : s.link.phase ≠ .idle)
    (mark : c ∈ [Instr.stopAfterPass, .abortItem, .abortChain] ∨ ∃ arg, c = .cancel arg)
    (e : exec c s = .next t) : t.link = s.link := by
  have decided {x : State} (same : x.link = s.link) : (arbitrate x).link = s.link :=
    (arbitrate_link_of_busy (by rw [same]; exact busy)).trans same
  have completed (c : Chain) (it : ItemRun) :
      (arbitrate (schedule (completeCurrent c it .aborted none s))).link = s.link :=
    decided ((completeCurrent_seqFrame ..).trans (schedule_seqFrame _)).link
  simp only [List.mem_cons, List.not_mem_nil, or_false] at mark
  rcases mark with (rfl | rfl | rfl) | ⟨arg, rfl⟩ <;> refine live_link ?_ e
  · split <;> rfl
  · split
    · split
      · rfl
      · rfl
      · rfl
      · exact completed ..
      · exact completed ..
    · rfl
  · split
    · rfl
    · split
      · exact (markChain_seqFrame _ s).link
      next off =>
        refine decided (((endRun_seqFrame ..).trans (schedule_seqFrame _)).link.trans ?_)
        rw [abandonItem_link, if_neg off]
  · split
    · dsimp only
      split
      · show (cancelQueued _ s).link = s.link
        unfold cancelQueued
        dsimp only
        split
        · rfl
        · exact decided rfl
      all_goals rfl
    · rfl

/-- What DISARM and ABORT_ALL leave of the engine: the orphan mark where the item of a run they end is on the line. -/
theorem abortAll_link {c : Instr} (busy : s.link.phase ≠ .idle) (abort : c = .disarm ∨ c = .abortAll)
    (e : exec c s = .next t) : t.link = s.link ∧ (s.resetHeld = false → s.Inv → s.itemOnLink = false) ∨
      t.link = (orphanTransaction s).link ∧ (s.Inv → s.itemOnLink = true) := by
  have idleOff (h : s.Inv) (idle : s.isArmed = false ∨ s.hasWork = false) : s.itemOnLink = false := by
    refine eq_false_of_ne_true fun on => ?_
    obtain ⟨it, item, -⟩ := itemOnLink_iff.1 on
    have top := h.sequencer.running.2 (by simp [item])
    have active : s.seq.active ≠ .none := fun none => by simp [(h.sequencer.context none).1] at item
    rcases idle with idle | idle
    · simp [State.isArmed, top] at idle
    · simp [State.hasWork, active] at idle
  have work : (abortEverything s).link.phase ≠ .idle := by
    rw [abortEverything_link]
    split <;> exact busy
  have ended {x : State} (same : x.link = (abortEverything s).link) :
      (arbitrate x).link = s.link ∧ (s.resetHeld = false → s.Inv → s.itemOnLink = false) ∨
        (arbitrate x).link = (orphanTransaction s).link ∧ (s.Inv → s.itemOnLink = true) := by
    rw [arbitrate_link_of_busy (by rw [same]; exact work), same, abortEverything_link]
    split
    next on => exact .inr ⟨rfl, fun h => h.sequencer.abortsOnLink.symm.trans on⟩
    next off => exact .inl ⟨rfl, fun _ h => h.sequencer.abortsOnLink.symm.trans (eq_false_of_ne_true off)⟩
  rcases abort with rfl | rfl
  · simp only [exec, execDisarm, live] at e
    split at e
    next low =>
      cases e
      exact .inl ⟨rfl, fun up => absurd (low.symm.trans up) nofun⟩
    next up =>
      cases e
      split
      next armed =>
        exact ended ((stopSequencer_seqFrame _).link.trans (postHoldList_seqFrame _).link)
      next idle => exact .inl ⟨rfl, fun _ h => idleOff h (.inl (eq_false_of_ne_true idle))⟩
  · simp only [exec, execAbortAll, live] at e
    split at e
    next low =>
      cases e
      exact .inl ⟨rfl, fun up => absurd (low.symm.trans up) nofun⟩
    next up =>
      cases e
      split
      next armed => exact ended rfl
      next idle =>
        exact .inl ⟨rfl, fun _ h => idleOff h (Bool.and_eq_false_iff.1 (eq_false_of_ne_true idle))⟩

/-- Settles O18. -/
theorem abortsCutNoFrame : Obligations.AbortsCutNoFrame := by
  intro c s t busy abort e
  by_cases all : c = .disarm ∨ c = .abortAll
  · have others (P : Prop) : c ≠ .disarm → c ≠ .abortAll → P := fun d a => (all.elim d a).elim
    rcases abortAll_link busy all e with ⟨same, off⟩ | ⟨orphaned, on⟩
    · refine ⟨(·.orphan), same.trans (keepLink _), fun _ _ => id, others _, fun _ up h x txn => ?_⟩
      rw [← itemOnLink_iff, off up h]
      simp
    · exact ⟨fun _ => true, orphaned, fun _ _ _ => rfl, others _, fun _ _ h x _ =>
        ⟨fun _ => .inr (itemOnLink_iff.1 (on h)), fun _ => rfl⟩⟩
  · have marks : c ∈ [Instr.stopAfterPass, .abortItem, .abortChain] ∨ ∃ arg, c = .cancel arg := by
      rcases abort with abort | cancel
      · simp only [List.mem_cons, List.not_mem_nil, or_false] at abort ⊢
        tauto
      · exact .inr cancel
    exact ⟨(·.orphan), (mark_link busy marks e).trans (keepLink _), fun _ _ => id, fun _ _ _ _ => rfl,
      fun is => absurd is all⟩

/-! ## STOPPED and STOPPING -/

/-- The top state stays, or STOPPING has ended in STOPPED. -/
def StaysHalted (s t : State) : Prop :=
  t.seq.top = s.seq.top ∨ (s.seq.top = .stopping ∧ t.seq.top = .stopped)

theorem StaysHalted.of_seq (h : t.seq = s.seq) : StaysHalted s t := .inl (by rw [h])

theorem StaysHalted.then_top (h : StaysHalted s t) (g : u.seq.top = t.seq.top) : StaysHalted s u := by
  unfold StaysHalted
  rw [g]
  exact h

theorem grantDirect_top (k : Fin 4) (s : State) :
    (grantDirect k s).seq.top = s.seq.top ∧ (s.seq.item = none → (grantDirect k s).seq.item = none) := by
  obtain ⟨x, taken, seq, -⟩ := grantDirect_taken k s
  obtain ⟨f, g, put⟩ := taken.seq
  rw [put, seq]
  exact ⟨rfl, fun item => by simp [item]⟩

theorem seqRequest_of_noItem (item : s.seq.item = none) : s.seqRequest = false := by
  simp [State.seqRequest, item]

theorem decideNow_top_of_noItem (item : s.seq.item = none) : (decideNow s).seq.top = s.seq.top := by
  unfold decideNow
  split
  · split
    next => rfl
    next asks => exact absurd ((seqRequest_of_noItem item).symm.trans (decision_sequencer asks)) nofun
    next k _ => exact (grantDirect_top k _).1
  · rfl

theorem arbitrate_top_of_noItem (item : s.seq.item = none) : (arbitrate s).seq.top = s.seq.top := by
  unfold arbitrate
  split
  · rfl
  · exact decideNow_top_of_noItem item

theorem afterDirect_top_of_noItem (k : Fin 4) (item : s.seq.item = none) :
    (afterDirect k s).seq.top = s.seq.top := by
  unfold afterDirect
  split
  · split
    · split
      · exact (grantDirect_top _ s).1
      · rfl
    · exact decideNow_top_of_noItem (s := setLock .none s) item
  · exact decideNow_top_of_noItem (s := raise .lockLapsed (setLock .none s)) item
  · exact arbitrate_top_of_noItem item

theorem seqEndNotice_of_noItem (item : s.seq.item = none) (x : Transaction) (o : TxnOutcome) (v : Option Value) :
    StaysHalted s (seqEndNotice x o v s) ∧ (seqEndNotice x o v s).seq.item = none := by
  unfold seqEndNotice
  split
  · split
    next stopping => exact ⟨.inr ⟨stopping, rfl⟩, item⟩
    next => exact ⟨.inl rfl, item⟩
  · split
    next found => cases item.symm.trans found
    next => exact ⟨.inl rfl, item⟩

theorem endTransaction_halted (item : s.seq.item = none) (x : Transaction) (o : TxnOutcome) (v : Option Value) :
    StaysHalted s (endTransaction x o v s) := by
  have seq : (engineIdle (noticeHealth x.address o s)).seq = s.seq := by
    rw [noticeHealth_eq]
    rfl
  unfold endTransaction
  dsimp only
  split
  · have notice := seqEndNotice_of_noItem (s := engineIdle (noticeHealth x.address o s)) (by rw [seq]; exact item) x o v
    refine StaysHalted.then_top ?_ (arbitrate_top_of_noItem notice.2)
    simpa only [StaysHalted, seq] using notice.1
  next k _ =>
    refine .inl ((afterDirect_top_of_noItem k ?_).trans ?_)
    · exact (congrArg Sequencer.item seq).trans item
    · exact congrArg Sequencer.top seq

theorem attemptEnd_halted (item : s.seq.item = none) (r : AttemptResult) : StaysHalted s (attemptEnd r s) := by
  have ended (x : Transaction) (o : TxnOutcome) (v : Option Value) := endTransaction_halted item x o v
  unfold attemptEnd
  split
  · exact .inl rfl
  · split
    · exact ended ..
    · exact ended ..
    all_goals
      split
      · exact .inl rfl
      · exact ended ..

theorem live_halted (e : live s t = .next u) (h : StaysHalted s t) : StaysHalted s u := by
  unfold live at e
  split at e <;> cases e
  · exact .inl rfl
  · exact h

theorem ite_halted {p : Prop} [Decidable p] (h : p → StaysHalted s t) (g : ¬ p → StaysHalted s u) :
    StaysHalted s (if p then t else u) := by
  split
  · exact h ‹_›
  · exact g ‹_›

theorem openWrite_halted {a : Address} {o : Option State} (h : ∀ t, o = some t → t.seq = s.seq) :
    StaysHalted s (openWrite a o s) := by
  cases o with
  | none => exact .inl rfl
  | some t => exact .of_seq (h t rfl)

theorem lockedWrite_halted {a : Address} {o : Option State} (h : ∀ t, o = some t → t.seq = s.seq) :
    StaysHalted s (lockedWrite a o s) :=
  ite_halted (fun _ => by
    cases o with
    | none => exact .inl rfl
    | some t => exact .of_seq (h t rfl)) fun _ => .inl rfl

/-- In STOPPED and STOPPING no happening but ARM, SOFT_RESET and the reset pin moves the top state, but for the end of
STOPPING (R58, R159, R160). -/
theorem exec_halted {c : Instr} (h : s.SequencerOk) (halted : s.seq.top = .stopped ∨ s.seq.top = .stopping)
    (notArm : c ≠ .arm) (notReset : c ≠ .softReset) (notPin : movesResetPin c = false) (e : exec c s = .next t) :
    StaysHalted s t := by
  have notArmed : ¬ s.isArmed = true := by rcases halted with top | top <;> simp [State.isArmed, top]
  have notRunning : s.seq.top ≠ .running := by rcases halted with top | top <;> simp [top]
  have item : s.seq.item = none := Option.not_isSome_iff_eq_none.1 fun some => notRunning (h.running.2 some)
  have active : s.seq.active = .none := (h.stopped halted).1
  cases c with
  | resetNAssert | resetNRelease => cases notPin
  | arm => exact absurd rfl notArm
  | softReset => exact absurd rfl notReset
  | disarm => exact live_halted e (ite_halted (absurd · notArmed) fun _ => .inl rfl)
  | start =>
    refine live_halted e (ite_halted (fun _ => .inl rfl) fun taken => ?_)
    simp [eq_false_of_ne_true notArmed] at taken
  | stopAfterPass =>
    exact live_halted e (ite_halted (fun _ => .inl rfl) fun _ => .inl rfl)
  | trigger arg =>
    refine live_halted e ?_
    split
    · exact .inl rfl
    · refine ite_halted (fun _ => .inl rfl) fun taken => ?_
      simp [eq_false_of_ne_true notArmed] at taken
  | abortItem =>
    refine live_halted e ?_
    split
    next found => cases item.symm.trans found
    next => exact .inl rfl
  | abortChain =>
    refine live_halted e ?_
    simp only [State.abortableChain, if_neg notArmed]
    exact .inl rfl
  | abortAll =>
    exact live_halted e (ite_halted (fun work => absurd (Bool.and_eq_true_iff.1 work).1 notArmed) fun _ => .inl rfl)
  | revive arg =>
    refine live_halted e ?_
    split <;> exact .inl rfl
  | submit =>
    refine live_halted e ?_
    split
    · exact .inl rfl
    · exact .inl rfl
    · refine .inl ?_
      show (arbiterSubmit _ _ _).seq.top = s.seq.top
      unfold arbiterSubmit
      split
      · exact arbitrate_top_of_noItem (s := queueRequest _ _ s) item
      · split <;> rfl
      · rfl
      · split
        · rfl
        · exact (grantDirect_top _ _).1
      · rfl
  | cancel arg =>
    refine live_halted e ?_
    split
    · dsimp only
      split
      · refine .inl ?_
        show (cancelQueued _ s).seq.top = s.seq.top
        unfold cancelQueued
        dsimp only
        split
        · rfl
        · exact arbitrate_top_of_noItem item
      all_goals exact .inl rfl
    · exact .inl rfl
  | release arg =>
    refine live_halted e ?_
    split
    · dsimp only
      split <;> exact .inl rfl
    · exact .inl rfl
  | unknownCommand code arg =>
    simp only [exec, execUnknownCommand] at e
    split at e
    · exact live_halted e (.inl rfl)
    · cases e
  | readOnlyWrite a v =>
    simp only [exec, execReadOnlyWrite] at e
    split at e
    · exact live_halted e (.inl rfl)
    · cases e
  | pop =>
    refine live_halted e (.inl ?_)
    have seq := (popMove_facts s).1
    show (popWord s).seq.top = s.seq.top
    unfold popWord
    dsimp only
    split
    next waits =>
      rw [seq] at waits
      rcases halted with top | top <;> rw [top] at waits <;> exact absurd waits.1 nofun
    next => rw [seq]
  | snapshotCapture | eventLatchClear | eventEnableWrite | interruptControlWrite | dropCounterClear | overrunClear
  | stagingWrite | strayByte => exact live_halted e (.inl rfl)
  | windowStatusClear => exact live_halted e (ite_halted (fun _ => .inl rfl) fun _ => .inl rfl)
  | directDefaultsWrite v =>
    refine live_halted e (openWrite_halted fun t taken => ?_)
    split at taken <;> cases taken
    rfl
  | stationSelectWrite | itemSelectWrite | chainSelectWrite | timerSelectWrite | triggerSelectWrite
  | directSlotSelectWrite | resultSelectWrite | maskSelectWrite =>
    refine live_halted e (openWrite_halted fun t taken => ?_)
    obtain ⟨k, -, rfl⟩ := Option.map_eq_some_iff.1 taken
    rfl
  | linkConfigurationWrite v =>
    refine live_halted e (ite_halted (fun _ => openWrite_halted fun t taken => ?_) fun _ => .inl rfl)
    obtain ⟨k, -, rfl⟩ := Option.map_eq_some_iff.1 taken
    rfl
  | stationFieldWrite f v =>
    refine live_halted e (ite_halted (fun _ => ?_) fun _ => .inl rfl)
    split
    · exact .inl rfl
    · exact ite_halted (fun _ => .inl rfl) fun _ => .inl rfl
  | arbiterConfigurationWrite v =>
    refine live_halted e (lockedWrite_halted fun t taken => ?_)
    split at taken
    · split at taken <;> cases taken
      rfl
    · cases taken
  | resultConfigurationWrite | lineEdgeWrite =>
    refine live_halted e (lockedWrite_halted fun t taken => ?_)
    cases taken
    rfl
  | itemFieldWrite | chainFieldWrite | timerFieldWrite | triggerEntryWrite =>
    refine live_halted e (lockedWrite_halted fun t taken => ?_)
    obtain ⟨k, -, rfl⟩ := Option.map_eq_some_iff.1 taken
    rfl
  | lineEdge k =>
    refine live_halted e (ite_halted (fun _ => ite_halted (fun named => ?_) fun _ => .inl rfl) fun _ => .inl rfl)
    exact absurd (Bool.and_eq_true_iff.1 named).1 notArmed
  | paceTimerExpiry k =>
    refine live_halted e ?_
    unfold paceTimerExpiry
    split
    · exact ite_halted (absurd · notArmed) fun _ => .inl rfl
    · exact .inl rfl
  | frameSent =>
    refine live_halted e ?_
    unfold frameSent
    split <;> exact .inl rfl
  | responseStartBit =>
    refine live_halted e ?_
    unfold responseStartBit
    split
    · exact .inl rfl
    · exact ite_halted (fun _ => .inl rfl) fun _ => .inl rfl
    · exact .inl rfl
  | responseTimeout | byteGapExpiry | endWatchStartBit =>
    exact live_halted e (ite_halted (fun _ => attemptEnd_halted item _) fun _ => .inl rfl)
  | endWatchExpiry =>
    refine live_halted e (ite_halted (fun _ => ?_) fun _ => .inl rfl)
    unfold judgeResponse
    split
    · exact attemptEnd_halted item _
    · exact .inl rfl
  | settleEnd | backoffEnd =>
    refine live_halted e (ite_halted (fun _ => ?_) fun _ => .inl rfl)
    unfold nextAttempt
    split <;> exact .inl rfl
  | resetSettleEnd =>
    exact live_halted e (ite_halted (fun _ => .inl (arbitrate_top_of_noItem (s := engineIdle s) item))
      fun _ => .inl rfl)
  | conversionTimerExpiry =>
    refine live_halted e ?_
    simp only [conversionTimerExpiry, item]
    exact .inl rfl
  | suspendedTimerExpiry =>
    refine live_halted e ?_
    unfold suspendedTimerExpiry
    split
    · exact ite_halted (fun _ => .inl rfl) fun _ => .inl rfl
    · exact .inl rfl
  | grantPauseEnd =>
    exact live_halted e (ite_halted (fun _ => .inl (decideNow_top_of_noItem (s := { s with arb := { s.arb with pause := none } }) item))
      fun _ => .inl rfl)
  | lockWindowExpiry =>
    refine live_halted e ?_
    unfold lockWindowExpiry
    split
    · exact .inl (decideNow_top_of_noItem (s := raise .lockLapsed (setLock .none s)) item)
    · exact .inl rfl
  | responseByteReceived v f =>
    refine live_halted e ?_
    unfold receiveByte
    split
    · exact ite_halted (fun _ => .inl rfl) fun _ => .inl rfl
    · exact .inl rfl
  | triggerPinChange k l =>
    cases e
    exact ite_halted (fun _ => .inl rfl) fun _ => .inl rfl

/-- Settles O16: both resets lead to STOPPED, ARM is refused in STOPPING, and everything else stays halted. -/
theorem stoppedLeftByArmAlone : Obligations.StoppedLeftByArmAlone := by
  intro c s t h e
  by_cases pin : movesResetPin c = true
  · have stopped : t.seq.top = .stopped := by
      cases c with
      | resetNAssert | resetNRelease =>
        cases e
        rfl
      | _ => cases pin
    exact ⟨fun _ _ => stopped, fun _ => .inr stopped⟩
  by_cases soft : c = .softReset
  · subst soft
    have top : t.seq.top = s.seq.top ∨ t.seq.top = .stopped := by
      simp only [exec, execSoftReset, live] at e
      split at e <;> cases e
      · exact .inl rfl
      · exact .inr rfl
    exact ⟨fun stopped _ => top.elim (·.trans stopped) id, fun stopping => top.imp (·.trans stopping) id⟩
  by_cases arm : c = .arm
  · subst arm
    refine ⟨fun _ not => absurd rfl not, fun stopping => .inl ?_⟩
    have refused : ¬ s.isStopped = true := by simp [State.isStopped, stopping]
    simp only [exec, execArm, if_neg refused, live] at e
    split at e <;> cases e <;> exact stopping
  have stays := fun halted => exec_halted h.sequencer halted arm soft (eq_false_of_ne_true pin) e
  refine ⟨fun stopped _ => ?_, fun stopping => ?_⟩
  · rcases stays (.inl stopped) with same | ⟨stopping, -⟩
    · exact same.trans stopped
    · cases stopped.symm.trans stopping
  · exact (stays (.inr stopping)).imp (·.trans stopping) (·.2)

end Sys2Proof.Machine
end

section
/-! The Host Window's words: what they read as, bit by bit (section 10.7), and the flag words (section 10.5). -/

namespace Sys2Proof.Machine

-- One proof at a time: the whole text is compiled in one process of bounded memory.
set_option Elab.async false

variable {s : State}

/-! ## A word and its layout -/

/-- The fields of a layout, written from bit 15 down, stand in the word one above the other. -/
theorem place_append {n m : Nat} (u : BitVec n) (v : BitVec m) (lo : Nat) :
    place (no_index (u ++ v)) lo = place u (lo + m) ||| place v lo := by
  refine BitVec.eq_of_getLsbD_eq fun i h => ?_
  simp only [place_getLsbD, BitVec.getLsbD_or, BitVec.getLsbD_append]
  grind

theorem place_zeros (n lo : Nat) : place (0#n) lo = 0#16 := by
  refine BitVec.eq_of_getLsbD_eq fun i _ => ?_
  simp only [place_getLsbD, BitVec.getLsbD_zero, Bool.and_false]

theorem place_whole (w : Word) : place w 0 = w := by simp [place]

/-- A word is read in its layout. -/
theorem readWord_layout (up : s.resetHeld = false) {a : Address} {w : Word}
    (layout : s.wordAt a.toNat = place w 0) : s.readWord a = some w := by
  rw [readWord_eq up, layout, place_whole]

/-- A word that one field fills. -/
theorem readWord_whole (up : s.resetHeld = false) {a : Address} {w : Word} (content : s.wordAt a.toNat = w) :
    s.readWord a = some w :=
  (readWord_eq up a).trans (congrArg some content)

/-! ## The flag words -/

/-- Settles O20. -/
theorem flagWritesResult : Obligations.FlagWritesResult := by
  refine ⟨⟨rfl, rfl, fun _ => rfl⟩, fun s v up => ⟨⟨?_, ?_, ?_, readWord_whole up rfl, fun _ => rfl⟩, ?_, ?_,
    live_of_resetHigh up _, fun set => ?_, fun clear => ?_, live_of_resetHigh up _, ?_⟩⟩
  · exact readWord_layout up (by simp [place_append, place_zeros, State.wordAt])
  · exact readWord_layout up (by simp [place_append, place_zeros, State.wordAt])
  · exact readWord_layout up (by simp [place_append, place_zeros, State.wordAt])
  · refine ⟨_, live_of_resetHigh up _, fun e => ?_⟩
    cases e <;> simp [State.latched, cut, Event.bit]
  · refine ⟨_, live_of_resetHigh up _, fun e => ?_⟩
    cases e <;> simp [cut, Event.bit]
  · exact (live_of_resetHigh up _).trans (by simp only [flagAt, set, if_true])
  · exact (live_of_resetHigh up _).trans (by simp only [flagAt, clear, Bool.false_eq_true, if_false])
  · refine ⟨_, live_of_resetHigh up _, fun c => ?_⟩
    have small : c.overrunBit < 9 := by
      cases c with
      | normal => decide
      | inj k => exact k.isLt.trans (by decide)
    simp [cut, small]

/-- Every bit of the latch belongs to an event. -/
theorem exists_bit_eq {i : Nat} (h : i < 12) : ∃ e : Event, e.bit = i := by
  interval_cases i
  · exact ⟨.passEnd, rfl⟩
  · exact ⟨.injEnd, rfl⟩
  · exact ⟨.itemError, rfl⟩
  · exact ⟨.queueData, rfl⟩
  · exact ⟨.queueStall, rfl⟩
  · exact ⟨.recordDropped, rfl⟩
  · exact ⟨.triggerOverrun, rfl⟩
  · exact ⟨.stationOffline, rfl⟩
  · exact ⟨.stationBack, rfl⟩
  · exact ⟨.directDone, rfl⟩
  · exact ⟨.lockLapsed, rfl⟩
  · exact ⟨.seqStopped, rfl⟩

theorem ne_zero_iff_exists_event (m : BitVec 12) : m ≠ 0#12 ↔ ∃ e : Event, m.getLsbD e.bit = true := by
  constructor
  · intro nonzero
    by_contra none
    refine nonzero (BitVec.eq_of_getLsbD_eq fun i h => ?_)
    obtain ⟨e, rfl⟩ := exists_bit_eq h
    simpa using fun set => none ⟨e, set⟩
  · rintro ⟨e, set⟩ rfl
    simp at set

/-- Settles O21. -/
theorem interruptFollowsLatch : Obligations.InterruptFollowsLatch := by
  intro s up
  refine ⟨?_, readWord_layout up (by simp [place_append, place_zeros, State.wordAt, placeFlag])⟩
  have some_event := ne_zero_iff_exists_event (s.window.latch &&& s.window.enable)
  simp only [BitVec.getLsbD_and, Bool.and_eq_true] at some_event
  simp [State.intAsserted, up, State.latched, some_event]

/-! ## The select words -/

theorem selectByte_eq {n : Nat} {v : Word} (k : Fin n) (h : (v.extractLsb' 0 8).toNat = k.val) :
    selectByte n v = some k := by
  have small : (cut v 0 8).toNat < n := h ▸ k.isLt
  simp only [selectByte, dif_pos small]
  exact congrArg some (Fin.ext h)

theorem selectByte_none {n : Nat} {v : Word} (h : n ≤ (v.extractLsb' 0 8).toNat) : selectByte n v = none :=
  dif_neg (Nat.not_lt.2 h)

theorem selectNibble_eq {n : Nat} {v : Word} (k : Fin n) (h : (v.extractLsb' 0 4).toNat = k.val) :
    selectNibble n v = some k := by
  have small : (cut v 0 4).toNat < n := h ▸ k.isLt
  simp only [selectNibble, dif_pos small]
  exact congrArg some (Fin.ext h)

theorem selectNibble_none {n : Nat} {v : Word} (h : n ≤ (v.extractLsb' 0 4).toNat) : selectNibble n v = none :=
  dif_neg (Nat.not_lt.2 h)

theorem chainOfSelect_selectCode (c : Chain) : chainOfSelect c.selectCode = some c := by
  cases c with
  | normal => rfl
  | inj k => simp [chainOfSelect, Chain.selectCode]

theorem chainOfSelect_none {n : Nat} (h : 8 < n) : chainOfSelect n = none := by
  simp [chainOfSelect, Nat.not_lt.2 h.le, h.ne']

/-- A select write that names an entry is taken. -/
theorem openWrite_taken {α : Type} {a : Address} {o : Option α} {put : α → State} {k : α} (h : o = some k) :
    openWrite a (o.map put) s = put k := by
  subst h
  rfl

theorem openWrite_refused {α : Type} {a : Address} {o : Option α} {put : α → State} (h : o = none) :
    openWrite a (o.map put) s = refuseWrite a .invalid s := by
  subst h
  rfl

theorem select_taken {α : Type} (up : s.resetHeld = false) {a : Address} {o : Option α} {put : α → State} {k : α}
    (h : o = some k) : live s (openWrite a (o.map put) s) = .next (put k) := by
  rw [live_of_resetHigh up, openWrite_taken h]

theorem select_refused {α : Type} (up : s.resetHeld = false) {a : Address} {o : Option α} {put : α → State}
    (h : o = none) : live s (openWrite a (o.map put) s) = .next (refuseWrite a .invalid s) := by
  rw [live_of_resetHigh up, openWrite_refused h]

/-- A small number in the lowest bits reads the same in a byte. -/
theorem placeNat_widen {k n m : Nat} (h : k < 2 ^ n) (g : k < 2 ^ m) : placeNat k n 0 = placeNat k m 0 := by
  refine BitVec.eq_of_getLsbD_eq fun i _ => ?_
  have above {w : Nat} (small : k < 2 ^ w) (i : Nat) (beyond : w ≤ i) : k.testBit i = false :=
    Nat.testBit_lt_two_pow (small.trans_le (Nat.pow_le_pow_right (by decide) beyond))
  simp only [placeNat, place_getLsbD, BitVec.getLsbD_ofNat, Nat.sub_zero]
  by_cases a : i < n <;> by_cases b : i < m <;> simp [a, b]
  · simp [above g i (Nat.not_lt.1 b)]
  · simp [above h i (Nat.not_lt.1 a)]

theorem Chain.selectCode_le (c : Chain) : c.selectCode ≤ 8 := by
  cases c with
  | normal => exact le_rfl
  | inj k => exact k.isLt.le

/-- Settles O24. -/
theorem selectWritesResult : Obligations.SelectWritesResult := by
  intro s v up
  refine ⟨⟨?_, ?_, ?_, ?_, ?_, ?_, ?_, ?_⟩, fun k h => select_taken up (selectByte_eq k h),
    fun h => select_refused up (selectByte_none h), fun k h => select_taken up (selectByte_eq k h),
    fun h => select_refused up (selectByte_none h), fun c h => select_taken up (h ▸ chainOfSelect_selectCode c),
    fun h => select_refused up (chainOfSelect_none h), fun k h => select_taken up (selectByte_eq k h),
    fun h => select_refused up (selectByte_none h), fun k h => select_taken up (selectByte_eq k h),
    fun h => select_refused up (selectByte_none h), fun k h => select_taken up (selectByte_eq k h),
    fun h => select_refused up (selectByte_none h), fun k h => select_taken up (selectByte_eq k h),
    fun h => select_refused up (selectByte_none h), fun k h => select_taken up (selectNibble_eq k h),
    fun h => select_refused up (selectNibble_none h)⟩
  all_goals refine readWord_layout up ?_
  case refine_3 =>
    have code := s.tables.chainSelect.selectCode_le
    have widen := placeNat_widen (k := s.tables.chainSelect.selectCode) (n := 4) (m := 8) (by omega) (by omega)
    simpa [place_append, place_zeros, State.wordAt, placeNat] using widen
  case refine_8 =>
    have code := s.results.maskSelect.isLt
    have widen := placeNat_widen (k := s.results.maskSelect.val) (n := 4) (m := 8) (by omega) (by omega)
    simpa [place_append, place_zeros, State.wordAt, placeNat] using widen
  all_goals simp [place_append, place_zeros, State.wordAt, placeNat]

end Sys2Proof.Machine
end

section
/-! The configuration words of the window: written in the state their rules ask for, or refused, and what they read as
(chapters 1 to 3, 6, 7, 9). -/

namespace Sys2Proof.Machine

-- One proof at a time: the whole text is compiled in one process of bounded memory.
set_option Elab.async false

variable {s : State}

/-! ## Direct words and the link rate -/

/-- Settles O25. -/
theorem directWordsWritten : Obligations.DirectWordsWritten := by
  intro s v up
  refine ⟨⟨?_, ?_, ?_, readWord_whole up rfl, readWord_whole up rfl⟩,
    ⟨?_, ?_, readWord_whole up rfl, readWord_whole up rfl⟩, live_of_resetHigh up _, live_of_resetHigh up _,
    live_of_resetHigh up _, live_of_resetHigh up _, fun low high retry => ?_, fun wrong => ?_⟩
  case refine_6 => exact (live_of_resetHigh up _).trans (by rw [if_pos ⟨low, high, retry⟩]; rfl)
  case refine_7 =>
    refine (live_of_resetHigh up _).trans ?_
    rw [if_neg]
    · rfl
    · rintro ⟨low, high, retry⟩
      simp only [cut] at low high retry
      omega
  all_goals exact readWord_layout up (by
    simp [place_append, place_zeros, State.wordAt, State.slotStateWord, State.slotRequestWord, State.selectedSlot,
      placeFlag, placeNat])

theorem LinkRate.ofCode_code (r : LinkRate) : LinkRate.ofCode r.code = some r := by cases r <;> rfl

/-- Settles O26. -/
theorem linkConfigurationWritten : Obligations.LinkConfigurationWritten := by
  intro s v up
  refine ⟨readWord_layout up (by simp [place_append, place_zeros, State.wordAt]), fun r stopped idle code => ?_,
    fun stopped idle code => ?_, fun held => ?_⟩
  · refine (live_of_resetHigh up _).trans ?_
    rw [if_pos (by simp [State.isStopped, stopped, idle]), cut, code, LinkRate.ofCode_code]
    rfl
  · refine (live_of_resetHigh up _).trans ?_
    rw [if_pos (by simp [State.isStopped, stopped, idle]), cut, code]
    rfl
  · refine (live_of_resetHigh up _).trans ?_
    rw [if_neg (by simpa [State.isStopped, Classical.or_iff_not_imp_left] using held)]

/-! ## Locked words -/

theorem isStopped_of_top (h : s.seq.top = .stopped) : s.isStopped = true := by simp [State.isStopped, h]

theorem lockedWrite_of_armed (armed : s.seq.top ≠ .stopped) (a : Address) (o : Option State) :
    lockedWrite a o s = refuseWrite a .wrongState s :=
  if_neg (by simpa [State.isStopped] using armed)

theorem lockedWrite_of_stopped (stopped : s.seq.top = .stopped) (a : Address) (o : Option State) :
    lockedWrite a o s = openWrite a o s :=
  if_pos (isStopped_of_top stopped)

theorem locked_refused (up : s.resetHeld = false) (armed : s.seq.top ≠ .stopped) (a : Address) (o : Option State) :
    live s (lockedWrite a o s) = .next (refuseWrite a .wrongState s) := by
  rw [live_of_resetHigh up, lockedWrite_of_armed armed]

/-- Settles O27. -/
theorem lockedWritesRefused : Obligations.LockedWritesRefused := by
  intro s v up armed
  have station (f : StationField) :
      exec (.stationFieldWrite f v) s = .next (refuseWrite (stationFieldAddress f) .wrongState s) :=
    (live_of_resetHigh up _).trans (by rw [if_neg (by simpa [State.isStopped] using armed)])
  have locked := locked_refused up armed
  exact ⟨⟨station _, station _, station _, station _, station _⟩,
    ⟨locked _ _, locked _ _, locked _ _, locked _ _, locked _ _⟩, ⟨locked _ _, locked _ _, locked _ _⟩,
    ⟨locked _ _, locked _ _, locked _ _⟩, locked _ _, locked _ _, locked _ _, locked _ _⟩

theorem locked_taken {α : Type} (up : s.resetHeld = false) (stopped : s.seq.top = .stopped) {a : Address}
    {o : Option α} {put : α → State} {k : α} (h : o = some k) :
    live s (lockedWrite a (o.map put) s) = .next (put k) := by
  rw [lockedWrite_of_stopped stopped, select_taken up h]

theorem locked_invalid {α : Type} (up : s.resetHeld = false) (stopped : s.seq.top = .stopped) {a : Address}
    {o : Option α} {put : α → State} (h : o = none) :
    live s (lockedWrite a (o.map put) s) = .next (refuseWrite a .invalid s) := by
  rw [lockedWrite_of_stopped stopped, select_refused up h]

/-! ## Station words -/

theorem health_eq_offline_iff (f : Fin 16) : s.health f = .offline ↔
    s.stations.failures[f] ≠ 0#4 ∧ s.stations.failures[f] = (s.stations.entries[f]).failLimit := by
  unfold State.health
  split
  next online => simp [online]
  next some_failed =>
    split
    next limit => exact iff_of_true rfl ⟨some_failed, limit⟩
    next below => exact iff_of_false nofun (below ·.2)

/-- The flags a fold over the entries sets (R31). -/
theorem foldl_flags_getLsbD (p : Fin 16 → Prop) [DecidablePred p] (l : List (Fin 16)) (w : Word) (f : Fin 16) :
    (l.foldl (fun w e => if p e then w ||| (1#16 <<< e.val) else w) w).getLsbD f.val = true ↔
      w.getLsbD f.val = true ∨ f ∈ l ∧ p f := by
  induction l generalizing w with
  | nil => simp
  | cons e l ih =>
    rw [List.foldl_cons, ih]
    have flag : (1#16 <<< e.val).getLsbD f.val = true ↔ f = e := by
      simp only [BitVec.getLsbD_shiftLeft, BitVec.getLsbD_one, Fin.ext_iff]
      have := f.isLt
      simp
      omega
    by_cases offline : p e
    · rw [if_pos offline, BitVec.getLsbD_or, Bool.or_eq_true, flag, List.mem_cons]
      by_cases same : f = e
      · simp [same, offline]
      · simp [same]
    · rw [if_neg offline, List.mem_cons]
      by_cases same : f = e
      · simp [same, offline]
      · simp [same]

theorem healthSummary_getLsbD (f : Fin 16) : s.healthSummary.getLsbD f.val = true ↔ s.health f = .offline := by
  have flags := foldl_flags_getLsbD (fun e => s.health e = .offline) (List.finRange 16) 0#16 f
  exact flags.trans (by simp)

theorem station_taken (up : s.resetHeld = false) (stopped : s.seq.top = .stopped) {f : StationField} {v : Word}
    {e : StationEntry} (apply : applyStationField f v s.stations.entries[s.stations.select] = some e)
    (apart : s.duplicates f e = false) : exec (.stationFieldWrite f v) s = .next (writeEntry e s) := by
  refine (live_of_resetHigh up _).trans ?_
  rw [if_pos (isStopped_of_top stopped), apply]
  simp only [apart, Bool.false_eq_true, if_false]

theorem station_invalid (up : s.resetHeld = false) (stopped : s.seq.top = .stopped) {f : StationField} {v : Word}
    (apply : applyStationField f v s.stations.entries[s.stations.select] = none) :
    exec (.stationFieldWrite f v) s = .next (refuseWrite (stationFieldAddress f) .invalid s) := by
  refine (live_of_resetHigh up _).trans ?_
  rw [if_pos (isStopped_of_top stopped), apply]

theorem duplicates_iff (e : StationEntry) : s.duplicates .addressEnable e = true ↔
    e.enabled = true ∧ e.address ≠ 0#5 ∧ ∃ f : Fin 16, f ≠ s.stations.select ∧
      (s.stations.entries[f]).enabled = true ∧ (s.stations.entries[f]).address = e.address := by
  simp only [State.duplicates, State.addressTaken, StationEntry.matchesAddress, beq_self_eq_true, Bool.true_and,
    Bool.and_eq_true, List.any_eq_true, List.mem_finRange, true_and, bne_iff_ne, beq_iff_eq, and_assoc]
  refine and_congr_right fun _ => and_congr_right fun nonzero => exists_congr fun f => and_congr_right fun _ =>
    and_congr_right fun _ => ⟨(·.2), fun same => ⟨same ▸ nonzero, same⟩⟩

/-- Settles O28. -/
theorem stationFieldWritten : Obligations.StationFieldWritten := by
  intro s v up k e count offline suspect
  have online {f : Fin 16} (zero : count f = 0#4) : s.health f = .online := if_pos zero
  have atLimit {f : Fin 16} (limit : offline f) : s.health f = .offline := (health_eq_offline_iff f).2 limit
  have between {f : Fin 16} (some_failed : suspect f) : s.health f = .suspect :=
    (if_neg some_failed.1).trans (if_neg some_failed.2)
  have summary {h : Health} {code : Word} (health : s.health k = h)
      (layout : place (count k) 8 ||| placeNat h.code 2 0 = place code 0) : s.readWord 0x1E#7 = some code :=
    readWord_layout up (by rw [← layout, ← health]; rfl)
  refine ⟨fun f => ⟨online, atLimit, between⟩, ⟨?_, ?_, ?_, ?_, readWord_whole up rfl,
    fun zero => summary (online zero) ?_, fun some_failed => summary (between some_failed) ?_,
    fun limit => summary (atLimit limit) ?_, s.healthSummary, readWord_whole up rfl, fun f => ?_⟩, fun stopped => ?_⟩
  case refine_8 => exact (healthSummary_getLsbD f).trans (health_eq_offline_iff f)
  case refine_9 =>
    have taken {f : StationField} {new : StationEntry} (not : f ≠ .addressEnable)
        (apply : applyStationField f v e = some new) : exec (.stationFieldWrite f v) s = .next (writeEntry new s) :=
      station_taken up stopped apply (by simp [State.duplicates, not])
    have invalid {f : StationField} (apply : applyStationField f v e = none) := station_invalid up stopped apply
    refine ⟨fun free => station_taken up stopped rfl ?_, fun held => ?_, fun low high => taken nofun (if_pos ⟨low, high⟩),
      fun wrong => invalid (if_neg ?_), fun some_limit => taken nofun (if_neg some_limit),
      fun zero => invalid (if_pos zero), fun nonzero => taken nofun (if_neg nonzero), fun zero => invalid (if_pos zero),
      (taken (f := .conversionTime) nofun rfl).trans ?_⟩
    · exact eq_false_of_ne_true fun duplicate => free ((duplicates_iff _).1 duplicate)
    · have duplicate : s.duplicates .addressEnable { e with enabled := flagAt v 15, address := cut v 0 5 } = true :=
        (duplicates_iff _).2 held
      refine (live_of_resetHigh up _).trans ?_
      rw [if_pos (isStopped_of_top stopped)]
      exact congrArg _ (if_pos duplicate)
    · simp only [cut]
      omega
    · have whole : cut v 0 16 = v := by simp [cut]
      rw [whole]
      rfl
  case refine_5 | refine_6 | refine_7 => simp [place_append, place_zeros, placeNat, Health.code]
  all_goals exact readWord_layout up (by
    simp [place_append, place_zeros, State.wordAt, State.selectedEntry, placeFlag, e, k])

end Sys2Proof.Machine
end

section
/-! The tables' words, the Trigger Unit's and the policy words: written in STOPPED, and what they read as; and ARM
(chapters 3, 6, 7, 9, section 4.2). -/

namespace Sys2Proof.Machine

-- One proof at a time: the whole text is compiled in one process of bounded memory.
set_option Elab.async false

variable {s : State}

/-! ## Item words -/

theorem ItemKind.ofCode_code (k : ItemKind) : ItemKind.ofCode k.code = k := by cases k <;> rfl

theorem Post.ofCode_code (p : Post) : Post.ofCode p.code = some p := by cases p <;> rfl

/-- NONE and the slot numbers have codes of their own. -/
theorem slotOfCode_slotCode {w : BitVec 7} {k : Option (Fin 64)} (h : w.toNat = slotCode k) :
    slotOfCode w = some k := by
  cases k with
  | none => simp [slotOfCode, h, slotCode]
  | some k =>
    have small : w.toNat < 64 := h ▸ k.isLt
    simp only [slotOfCode, dif_pos small]
    exact congrArg (some ∘ some) (Fin.ext h)

theorem slotOfCode_none {w : BitVec 7} (low : 64 ≤ w.toNat) (high : w.toNat ≤ 126) : slotOfCode w = none := by
  rw [slotOfCode, dif_neg (by omega), if_neg (by omega)]

/-- Settles O29. -/
theorem itemFieldWritten : Obligations.ItemFieldWritten := by
  intro s v up n d
  refine ⟨⟨?_, ?_, readWord_whole up rfl, readWord_whole up rfl, ?_⟩, fun stopped => ?_⟩
  case refine_4 =>
    have taken {f : ItemField} {new : Item} (apply : applyItemField f v d = some new) :
        exec (.itemFieldWrite f v) s = .next { s with tables := { s.tables with items := s.tables.items.set n new } } :=
      locked_taken up stopped apply
    have invalid {f : ItemField} (apply : applyItemField f v d = none) :
        exec (.itemFieldWrite f v) s = .next (refuseWrite (itemFieldAddress f) .invalid s) :=
      locked_invalid up stopped apply
    refine ⟨fun k kind e station => taken ?_, fun low high => taken (if_pos ⟨low, high⟩),
      fun wrong => invalid (if_neg ?_), taken rfl, taken rfl, fun k p slot post => taken ?_, fun wrong => invalid ?_⟩
    · have same : (cut v 8 4).toFin = e := Fin.ext station
      simp only [applyItemField, same]
      rw [cut, kind, ItemKind.ofCode_code]
    · simp only [cut]
      omega
    · simp only [applyItemField]
      rw [slotOfCode_slotCode (w := cut v 0 7) slot, cut, post, Post.ofCode_code]
    · simp only [applyItemField]
      rcases wrong with ⟨low, high⟩ | post
      · rw [slotOfCode_none (w := cut v 0 7) low high]
      · have none : Post.ofCode (cut v 8 2) = none := by
          rw [cut, post]
          rfl
        rw [none]
        split <;> simp_all
  all_goals exact readWord_layout up (by
    simp [place_append, place_zeros, State.wordAt, State.selectedItem, placeNat, d, n])

/-! ## Chain words -/

/-- Settles O30. -/
theorem chainFieldWritten : Obligations.ChainFieldWritten := by
  intro s v up count reads
  have taken (stopped : s.seq.top = .stopped) {f : ChainField} {new : ItemMemory}
      (apply : applyChainField f v s = some new) : exec (.chainFieldWrite f v) s = .next { s with tables := new } :=
    locked_taken up stopped apply
  have invalid (stopped : s.seq.top = .stopped) {f : ChainField} (apply : applyChainField f v s = none) :
      exec (.chainFieldWrite f v) s = .next (refuseWrite (chainFieldAddress f) .invalid s) :=
    locked_invalid up stopped apply
  have readsAs {c : ChainDef} {m : Bool} (same : s.chainDef s.tables.chainSelect = c)
      (mode : (s.tables.chainSelect == .normal && s.tables.normalMode.bit) = m) : reads c m :=
    ⟨readWord_layout up (by simp [place_append, place_zeros, State.wordAt, State.chainControl, placeFlag, same, mode]),
      readWord_layout up (by simp [place_append, place_zeros, State.wordAt, same]),
      readWord_layout up (by simp [place_append, place_zeros, State.wordAt, same])⟩
  refine ⟨fun normal => readsAs (by rw [normal]; rfl) (by simp [normal, PassMode.bit]),
    fun k inj => readsAs (by rw [inj]; rfl) (by simp [inj]), fun stopped => ⟨fun normal => ?_, fun k inj => ?_⟩⟩
  · refine ⟨taken stopped ?_, taken stopped ?_, fun low high => taken stopped ?_, fun wrong => invalid stopped ?_⟩
    · simp only [applyChainField, normal, if_true, setChainDef, State.chainDef]
      rfl
    · simp only [applyChainField, normal, setChainDef, State.chainDef, cut]
    · simp only [applyChainField, normal, Chain.maxCount, setChainDef, State.chainDef]
      exact if_pos ⟨low, high⟩
    · simp only [applyChainField, normal, Chain.maxCount]
      refine if_neg fun ok => ?_
      simp only [cut] at ok
      simp only [count] at wrong
      omega
  · refine ⟨fun clear => taken stopped ?_, fun set => invalid stopped ?_, taken stopped ?_,
      fun low high => taken stopped ?_, fun wrong => invalid stopped ?_⟩
    · simp only [applyChainField, inj, flagAt, clear, reduceCtorEq, Bool.false_eq_true, if_false, setChainDef,
        State.chainDef]
    · simp only [applyChainField, inj, flagAt, set, reduceCtorEq, if_true, if_false]
    · simp only [applyChainField, inj, setChainDef, State.chainDef, cut]
    · simp only [applyChainField, inj, Chain.maxCount, setChainDef, State.chainDef]
      exact if_pos ⟨low, high⟩
    · simp only [applyChainField, inj, Chain.maxCount]
      refine if_neg fun ok => ?_
      simp only [cut] at ok
      simp only [count] at wrong
      omega

/-! ## The Trigger Unit's words -/

theorem EdgeSelect.code_ofCode (w : BitVec 2) : (EdgeSelect.ofCode w).code = w := by
  revert w
  decide

theorem Source.ofCode_of_toNat {w : BitVec 3} {src : Source} (h : w.toNat = src.code) : Source.ofCode w = src := by
  have upper (k : Fin 4) : Source.ofCode (BitVec.ofNat 3 (k.val + 4)) = .line k := by revert k; decide
  have lower (k : Fin 4) : Source.ofCode (BitVec.ofNat 3 k.val) = .timer k := by revert k; decide
  have word : w = BitVec.ofNat 3 src.code := by rw [← h, BitVec.ofNat_toNat, BitVec.setWidth_eq]
  rw [word]
  cases src with
  | timer k => exact lower k
  | line k => exact upper k

/-- Settles O31. -/
theorem triggerWordsWritten : Obligations.TriggerWordsWritten := by
  intro s v up k d r g f t
  refine ⟨⟨?_, ?_, readWord_whole up rfl, ?_, ?_, ?_, ?_⟩, fun stopped => ?_⟩
  case refine_7 =>
    have taken {f : TimerField} {new : TimerConfig} (apply : applyTimerField f v d = some new) :
        exec (.timerFieldWrite f v) s =
          .next { s with trigger := { s.trigger with timers := s.trigger.timers.set k new } } :=
      locked_taken up stopped apply
    have invalid {f : TimerField} (apply : applyTimerField f v d = none) :
        exec (.timerFieldWrite f v) s = .next (refuseWrite (timerFieldAddress f) .invalid s) :=
      locked_invalid up stopped apply
    refine ⟨taken rfl, fun nonzero => taken (if_neg nonzero), fun zero => invalid (if_pos zero),
      fun nonzero => taken (if_neg nonzero), fun zero => invalid (if_pos zero),
      ⟨#v[EdgeSelect.ofCode (cut v 0 2), EdgeSelect.ofCode (cut v 2 2), EdgeSelect.ofCode (cut v 4 2),
        EdgeSelect.ofCode (cut v 6 2)], ?_, fun l => ?_⟩,
      fun src c source target => ?_, fun wrong => ?_⟩
    · exact (live_of_resetHigh up _).trans (by rw [lockedWrite_of_stopped stopped]; rfl)
    · match l with
      | 0 | 1 | 2 | 3 => exact EdgeSelect.code_ofCode _
    · have chain : chainOfSelect (cut v 8 4).toNat = some c := by
        rw [cut, target, chainOfSelect_selectCode]
      refine (locked_taken up stopped chain).trans ?_
      rw [Source.ofCode_of_toNat (w := cut v 0 3) source]
      rfl
    · exact locked_invalid up stopped (chainOfSelect_none wrong)
  all_goals exact readWord_layout up (by
    simp [place_append, place_zeros, State.wordAt, State.selectedTimer, State.timerStatus, State.lineEdgeWord,
      State.lineLevel, State.triggerEntryWord, placePairs, TimerMode.bit, placeFlag, placeNat, d, k, r, g, f, t,
      BitVec.or_comm, BitVec.or_assoc])

/-! ## Policies -/

theorem PriorityMode.ofCode_code (m : PriorityMode) : PriorityMode.ofCode m.code = some m := by cases m <;> rfl

/-- Settles O32. -/
theorem policyWordsWritten : Obligations.PolicyWordsWritten := by
  intro s v up
  refine ⟨readWord_layout up (by simp [place_append, place_zeros, State.wordAt]),
    readWord_layout up (by simp [place_append, place_zeros, State.wordAt, placeFlag]),
    fun stopped => ⟨fun m mode nonzero => ?_, fun wrong => ?_, ?_⟩⟩
  all_goals refine (live_of_resetHigh up _).trans ?_; rw [lockedWrite_of_stopped stopped]
  · have named : PriorityMode.ofCode (cut v 8 2) = some m := by rw [cut, mode, PriorityMode.ofCode_code]
    simp only [named]
    rw [if_neg (show ¬ cut v 0 8 = 0#8 from nonzero)]
    rfl
  · rcases wrong with mode | zero
    · have none : PriorityMode.ofCode (cut v 8 2) = none := by
        rw [cut, mode]
        rfl
      simp only [none]
      rfl
    · split
      · rw [if_pos (show cut v 0 8 = 0#8 from zero)]
        rfl
      · rfl
  · rfl

/-! ## Arming -/

/-- Settles O33. -/
theorem armResult : Obligations.ArmResult := by
  intro s up
  refine ⟨readWord_layout up (by simp [place_append, place_zeros, State.wordAt, placeNat]), fun armed => ?_,
    fun d stopped failure => ?_, fun stopped passes =>
      ⟨#v[s.startTimer 0, s.startTimer 1, s.startTimer 2, s.startTimer 3], ?_, fun k => ?_⟩⟩
  · exact (live_of_resetHigh up _).trans (by rw [if_neg (by simpa [State.isStopped] using armed)])
  · refine (live_of_resetHigh up _).trans ?_
    rw [if_pos (isStopped_of_top stopped), failure]
    rfl
  · refine (live_of_resetHigh up _).trans ?_
    rw [if_pos (isStopped_of_top stopped), passes]
    rfl
  · match k with
    | 0 | 1 | 2 | 3 => rfl

end Sys2Proof.Machine
end

section
/-! The status words of section 10.7 and their readings BOUNDARY, COMPLETE and STOPPED (R81). -/

namespace Sys2Proof.Machine

-- One proof at a time: the whole text is compiled in one process of bounded memory.
set_option Elab.async false

variable {s : State}

/-- Sequencer status 0 with the phase and the restart count that are shown. -/
theorem seqStatus0_read (up : s.resetHeld = false) {phase restarts : Nat} (isPhase : s.phaseCode = phase)
    (isRestarts : s.restartField = restarts) :
    s.readWord 0x10#7 = some (BitVec.ofBool s.seq.pass.stopAfter ++ BitVec.ofBool s.seq.pass.startPending ++
      BitVec.ofBool s.seq.pass.present ++ BitVec.ofNat 2 restarts ++ BitVec.ofNat 3 phase ++
      BitVec.ofNat 4 s.seq.active.code ++ 0#1 ++ BitVec.ofNat 3 s.seq.top.code) :=
  readWord_layout up (by
    simp [place_append, place_zeros, State.wordAt, State.seqStatus0, placeFlag, placeNat, isPhase, isRestarts])

/-- Sequencer status 1 with the item and the position that are shown. -/
theorem seqStatus1_read (up : s.resetHeld = false) {item position : Nat} (current : s.currentItem = (item, position)) :
    s.readWord 0x11#7 = some (0#2 ++ BitVec.ofNat 6 position ++ 0#2 ++ BitVec.ofNat 6 item) :=
  readWord_layout up (by simp [place_append, place_zeros, State.wordAt, State.seqStatus1, placeNat, current])

theorem Context.chain_eq_some {c : Context} (h : c ≠ .none) : ∃ ch, c.chain = some ch := by
  cases c with
  | none => exact absurd rfl h
  | normal => exact ⟨_, rfl⟩
  | inj k => exact ⟨_, rfl⟩

theorem currentItem_of_stopped (h : s.seq.top = .stopped) : s.currentItem = (0, 0) := if_pos h

/-- What the sequencer status shows of an item in progress. -/
theorem status_of_item {it : ItemRun} (active : s.seq.active ≠ .none) (item : s.seq.item = some it) :
    s.phaseCode = it.phase.code ∧ s.restartField = it.restarts ∧
      (s.seq.top ≠ .stopped → s.currentItem = (it.item, it.position)) := by
  obtain ⟨c, chain⟩ := Context.chain_eq_some active
  refine ⟨?_, by simp [State.restartField, item, active], fun run => by simp [State.currentItem, run, chain, item]⟩
  unfold State.phaseCode
  split <;> simp_all

/-- What it shows at a boundary: the position whose item begins next. -/
theorem status_of_boundary {c : Chain} (active : s.seq.active.chain = some c) (item : s.seq.item = none)
    (boundary : s.phaseCode = 6) : s.restartField = 0 ∧
      (s.seq.top ≠ .stopped → s.currentItem = (s.itemNumber c (s.runOf c).position, (s.runOf c).position)) :=
  ⟨by simp [State.restartField, item], fun run => by simp [State.currentItem, run, active, item, boundary]⟩

/-- What it shows with no run in progress: the item last completed. -/
theorem status_of_complete
    (idle : s.seq.active = .none ∨ ∃ k, s.seq.active = .inj k ∧ s.seq.item = none ∧ s.seq.injRun = none) :
    s.phaseCode = 5 ∧ s.restartField = 0 ∧
      (s.seq.top ≠ .stopped → s.currentItem = (s.seq.lastItem, s.seq.lastPosition)) := by
  rcases idle with active | ⟨k, active, item, run⟩
  · refine ⟨by simp [State.phaseCode, active], ?_, fun up => by simp [State.currentItem, up, active, Context.chain]⟩
    cases item : s.seq.item <;> simp [State.restartField, active, item]
  · have complete : s.phaseCode = 5 := by simp [State.phaseCode, active, item, run]
    exact ⟨complete, by simp [State.restartField, item],
      fun up => by simp [State.currentItem, up, active, Context.chain, item, complete]⟩

/-- The owner field of the link status word: the owner's code and the tag of a direct owner (R126). -/
def ownerField : Owner → Word
  | .direct t => placeNat t.val 2 6 ||| placeNat 2 2 4
  | .sequencer => placeNat 1 2 4
  | .none => 0#16

theorem linkStatus_eq (s : State) : s.linkStatus =
    placeFlag (s.arb.lock != .none) 8 ||| ownerField s.owner ||| placeNat s.link.phase.code 3 0 := by
  unfold State.linkStatus ownerField
  cases s.owner <;> rfl

/-- Link status by the owner that is shown. -/
theorem linkStatus_read (up : s.resetHeld = false) {who tag : Nat}
    (owner : ownerField s.owner = placeNat tag 2 6 ||| placeNat who 2 4) :
    s.readWord 0x15#7 = some (0#7 ++ BitVec.ofBool (s.arb.lock != .none) ++ BitVec.ofNat 2 tag ++ BitVec.ofNat 2 who ++
      0#1 ++ BitVec.ofNat 3 s.link.phase.code) := by
  refine readWord_layout up ((linkStatus_eq s).trans ?_)
  rw [owner]
  simp [place_append, place_zeros, placeFlag, placeNat, BitVec.or_assoc]

theorem owner_of_free (free : s.link.txn = none) (closed : ∀ t d, s.arb.lock ≠ .window t d) :
    s.owner = if s.arb.tenure then .sequencer else .none := by
  cases lock : s.arb.lock with
  | window t d => exact absurd lock (closed t d)
  | none | held | lapsing => simp [State.owner, free, lock]

/-- Settles O22. -/
theorem statusWordsRead : Obligations.StatusWordsRead := by
  refine ⟨⟨rfl, rfl, rfl, fun _ => rfl, ⟨rfl, fun _ => rfl⟩, rfl, rfl, rfl, rfl⟩,
    ⟨⟨rfl, fun _ => rfl⟩, ⟨rfl, fun _ => rfl⟩, ⟨fun _ => rfl, fun _ => rfl⟩, rfl, rfl, rfl, rfl, rfl, rfl, rfl, rfl,
      ⟨rfl, fun _ => rfl, rfl⟩, rfl⟩, fun s up => ⟨⟨readWord_whole up rfl, readWord_whole up rfl⟩, ?_, ?_,
      ⟨fun it active item => ?_, fun active item => ?_, fun k r active item run => ?_, fun idle => ?_, fun stopped => ?_⟩,
      readWord_whole up rfl, fun none => ⟨?_, readWord_whole up ?_⟩, fun r suspended => ⟨?_, ?_⟩,
      ⟨fun x t txn who => ?_, fun x txn who => ?_, fun free => ⟨fun t d window => ?_, fun closed => ?_⟩⟩, ?_,
      s.selectedMask, ⟨readWord_whole up rfl, readWord_whole up rfl, readWord_whole up rfl, readWord_whole up rfl⟩,
      fun k selected => ?_, fun selected => ?_, fun selected => ?_⟩⟩
  · exact readWord_layout up (by simp [place_append, State.wordAt, State.commandStatus, placeNat])
  · exact readWord_layout up (by
      simp [place_append, place_zeros, State.wordAt, State.windowStatus, placeFlag, placeNat])
  · obtain ⟨phase, restarts, current⟩ := status_of_item active item
    exact ⟨seqStatus0_read up phase restarts, fun run => seqStatus1_read up (current run)⟩
  · have phase : s.phaseCode = 6 := by simp [State.phaseCode, active, item]
    obtain ⟨restarts, current⟩ := status_of_boundary (c := .normal) (by rw [active]; rfl) item phase
    exact ⟨seqStatus0_read up phase restarts, fun run => seqStatus1_read up (current run)⟩
  · have phase : s.phaseCode = 6 := by simp [State.phaseCode, active, item, run]
    obtain ⟨restarts, current⟩ := status_of_boundary (c := .inj k) (by rw [active]; rfl) item phase
    refine ⟨seqStatus0_read up phase restarts, fun top => ?_⟩
    exact seqStatus1_read up ((current top).trans (by simp [State.itemNumber, State.chainDef, State.runOf, run]))
  · obtain ⟨phase, restarts, current⟩ := status_of_complete idle
    exact ⟨seqStatus0_read up phase restarts, fun run => seqStatus1_read up (current run)⟩
  · exact readWord_whole up (by simp [State.wordAt, State.seqStatus1, currentItem_of_stopped stopped, placeNat, place])
  · exact readWord_layout up (by simp [place_append, place_zeros, State.wordAt, State.seqStatus2, none])
  · simp [State.wordAt, State.seqStatus3, none]
  · exact readWord_layout up (by
      simp [place_append, place_zeros, State.wordAt, State.seqStatus2, suspended, placeFlag, placeNat,
        show place 2#2 14 = place 1#1 15 from rfl])
  · exact readWord_layout up (by
      simp [place_append, place_zeros, State.wordAt, State.seqStatus3, suspended, placeNat])
  · exact linkStatus_read up (by simp [State.owner, txn, who, ownerField])
  · exact linkStatus_read up (by simp [State.owner, txn, who, ownerField, placeNat, place_zeros])
  · exact linkStatus_read up (by simp [State.owner, free, window, ownerField])
  · refine linkStatus_read up ?_
    rw [owner_of_free free closed]
    cases s.arb.tenure <;> simp [ownerField, placeNat, place_zeros]
  · exact readWord_layout up (by
      simp [place_append, place_zeros, State.wordAt, State.queueStatus, placeFlag, placeNat])
  · simp only [State.selectedMask, selected, k.isLt, dif_pos]
    rfl
  · simp [State.selectedMask, selected]
  · simp [State.selectedMask, selected]

end Sys2Proof.Machine
end

section
/-! The accesses of the host: which command each is, and what an edge of the strobes takes (sections 10.1 and 10.2). -/

namespace Sys2Proof.Machine

-- One proof at a time: the whole text is compiled in one process of bounded memory.
set_option Elab.async false

open Sys2Proof

variable {s t u : State}

/-! ## The command word -/

theorem extract_code (code arg : Byte) : (code ++ arg).extractLsb' 8 8 = code := by
  refine BitVec.eq_of_getLsbD_eq fun i h => ?_
  simp only [BitVec.getLsbD_extractLsb', BitVec.getLsbD_append]
  grind

theorem extract_arg (code arg : Byte) : (code ++ arg).extractLsb' 0 8 = arg := by
  refine BitVec.eq_of_getLsbD_eq fun i h => ?_
  simp only [BitVec.getLsbD_extractLsb', BitVec.getLsbD_append]
  grind

theorem commandOfWord_unknown {code : Byte} (arg : Byte) (unknown : code.toNat = 0 ∨ 14 ≤ code.toNat) :
    commandOfWord (code ++ arg) = .unknownCommand code arg := by
  unfold commandOfWord
  dsimp only
  rw [extract_code, extract_arg]
  split
  case h_14 => rfl
  all_goals omega

theorem isUnknownCode_iff (code : Byte) : isUnknownCode code = true ↔ code.toNat = 0 ∨ 14 ≤ code.toNat := by
  simp [isUnknownCode]

/-! ## Words that are not written, and reads -/

theorem writeCommand_readOnly {a : Address} (readOnly : isReadOnlyAddress a = true) (v : Word) :
    writeCommand a v = .readOnlyWrite a v := by
  unfold isReadOnlyAddress at readOnly
  unfold writeCommand
  split
  case h_42 => rfl
  all_goals
    rename_i here
    rw [here] at readOnly
    exact absurd readOnly (by decide)

theorem readCommand_plain {a : Address} (snapshot : a ≠ 0x51#7) (pop : a ≠ 0x58#7) : readCommand a = none := by
  unfold readCommand
  split
  next here => exact absurd (BitVec.eq_of_toNat_eq here) snapshot
  next here => exact absurd (BitVec.eq_of_toNat_eq here) pop
  next => rfl

theorem wordAt_past {n : Nat} (past : 0x65 ≤ n) (h : n < 128) : s.wordAt n = 0#16 := by
  interval_cases n <;> rfl

theorem wordAt_hole {n : Nat} (hole : n ∈ [0x02, 0x0C, 0x0D, 0x0E, 0x0F, 0x17, 0x26, 0x27, 0x2C, 0x2D, 0x2E, 0x2F, 0x37,
    0x3B, 0x3C, 0x3D, 0x3E, 0x3F, 0x49, 0x4A, 0x4B, 0x4C, 0x4D, 0x4E, 0x4F, 0x55, 0x56, 0x57]) : s.wordAt n = 0#16 := by
  have all : ∀ m ∈ [0x02, 0x0C, 0x0D, 0x0E, 0x0F, 0x17, 0x26, 0x27, 0x2C, 0x2D, 0x2E, 0x2F, 0x37, 0x3B, 0x3C, 0x3D,
      0x3E, 0x3F, 0x49, 0x4A, 0x4B, 0x4C, 0x4D, 0x4E, 0x4F, 0x55, 0x56, 0x57], s.wordAt m = 0#16 := by
    simp only [List.forall_mem_cons, List.not_mem_nil, false_imp_iff, implies_true, and_true]
    exact ⟨rfl, rfl, rfl, rfl, rfl, rfl, rfl, rfl, rfl, rfl, rfl, rfl, rfl, rfl, rfl, rfl, rfl, rfl, rfl, rfl, rfl, rfl,
      rfl, rfl, rfl, rfl, rfl, rfl⟩
  exact all n hole

/-! ## The strobes -/

theorem reading_inAccess {p : BusPins} (h : p.reading = true) : p.inAccess = true := by simp [BusPins.inAccess, h]

theorem writing_inAccess {p : BusPins} (h : p.writing = true) : p.inAccess = true := by simp [BusPins.inAccess, h]

/-- An edge that takes neither a write nor a read. -/
theorem busEdge_takes_nothing {new : BusPins} (empty : s.pending = [])
    (noWrite : s.port.pins.writing = false ∨ new.writing = true ∨ s.port.spoilt = true ∨ s.resetHeld = true)
    (noRead : new.reading = false ∨ s.spoilsAccess new = true) :
    s.busEdge new = { s with port := { pins := new, spoilt := s.spoilsAccess new, driven := none } } := by
  rw [busEdge_eq empty, writeAtEdge_eq noWrite, readAtEdge_none noRead]

/-- A read in reset or in a spoilt access is spoilt as long as it lasts. -/
theorem spoilsAccess_of_spoilt {new : BusPins}
    (h : s.resetHeld = true ∨ s.port.pins.inAccess = true ∧ s.port.spoilt = true) :
    s.spoilsAccess new = new.inAccess := by
  rcases h with low | ⟨on, spoilt⟩
  · simp [State.spoilsAccess, low]
  · simp [State.spoilsAccess, on, spoilt]

theorem spoilsAccess_of_both {new : BusPins} (reading : new.reading = true) (writing : new.writing = true) :
    s.spoilsAccess new = true := by
  simp [State.spoilsAccess, reading_inAccess reading, reading, writing]

/-- The read that begins at an edge. -/
theorem readAtEdge_begins {new : BusPins} (whole : s.spoilsAccess new = false) (before : s.port.pins.reading = false)
    (reading : new.reading = true) :
    s.readAtEdge new = (some (s.takeRead new.address).1, (s.takeRead new.address).2) := by
  simp [State.readAtEdge, reading, whole, before]

theorem readAtEdge_goesOn {new : BusPins} (whole : s.spoilsAccess new = false) (before : s.port.pins.reading = true)
    (reading : new.reading = true) : s.readAtEdge new = (s.port.driven, s) := by
  simp [State.readAtEdge, reading, whole, before]

theorem takeRead_plain {a : Address} (plain : readCommand a = none) : s.takeRead a = (s.wordAt a.toNat, s) := by
  simp [State.takeRead, plain]

theorem takeRead_command {a : Address} {c : Instr} (command : readCommand a = some c) (e : exec c s = .next t) :
    s.takeRead a = (t.window.readValue, t) := by
  simp [State.takeRead, command, take_eq e]

theorem writeAtEdge_ends {new : BusPins} (up : s.resetHeld = false) (writing : s.port.pins.writing = true)
    (high : new.writing = false) (whole : s.port.spoilt = false)
    (e : exec (writeCommand new.address new.data) s = .next t) : s.writeAtEdge new = t := by
  simp [State.writeAtEdge, writing, high, whole, up, State.takeWrite, take_eq e]

theorem settled_of_step {c : Instr} {rest : List Instr} (front : s.pending = c :: rest) (e : step s = .next t)
    (left : t.pending = rest) : s.settled = t.settled := by
  have taken : State.take { s with pending := rest } c = t := by
    simp only [step, front] at e
    exact take_eq e
  unfold State.settled
  rw [front, left]
  exact congrArg (settle rest) taken

/-- What the port takes at an edge while no command waits (R178, R189). -/
theorem busEdge_cases {new : BusPins} (empty : s.pending = []) (up : s.resetHeld = false) :
    (new.reading = true → new.writing = true →
      s.busEdge new = { s with port := { pins := new, spoilt := true, driven := none } }) ∧
    (s.port.spoilt = true → s.port.pins.inAccess = true →
      s.busEdge new = { s with port := { pins := new, spoilt := new.inAccess, driven := none } }) ∧
    (s.port.pins.writing = false → new.reading = false → (s.port.pins.inAccess = true → s.port.spoilt = false) →
      s.busEdge new = { s with port := { pins := new, spoilt := false, driven := none } }) := by
  refine ⟨fun reading writing => ?_, fun spoilt on => ?_, fun idle silent whole => ?_⟩
  · have spoils := spoilsAccess_of_both (s := s) reading writing
    rw [busEdge_takes_nothing empty (.inr (.inl writing)) (.inr spoils), spoils]
  · have spoils := spoilsAccess_of_spoilt (new := new) (.inr ⟨on, spoilt⟩)
    rw [busEdge_takes_nothing empty (.inr (.inr (.inl spoilt))), spoils]
    rw [spoils]
    cases reading : new.reading with
    | false => exact .inl rfl
    | true => exact .inr (reading_inAccess reading)
  · have spoils := not_spoilt up (.inl silent) whole
    rw [busEdge_takes_nothing empty (.inl idle) (.inl silent), spoils]

theorem busEdge_of_resetLow {new : BusPins} (empty : s.pending = []) (low : s.resetHeld = true) :
    s.busEdge new = { s with port := { pins := new, spoilt := new.inAccess, driven := none } } := by
  have spoils := spoilsAccess_of_spoilt (new := new) (.inl low)
  rw [busEdge_takes_nothing empty (.inr (.inr (.inr low))), spoils]
  rw [spoils]
  cases reading : new.reading with
  | false => exact .inl rfl
  | true => exact .inr (reading_inAccess reading)

/-- A read that begins at an edge is taken there, and its word is driven from then on. -/
theorem busEdge_read {new : BusPins} (empty : s.pending = []) (up : s.resetHeld = false)
    (silent : s.port.pins.reading = false) (idle : s.port.pins.writing = false) (reading : new.reading = true)
    (high : new.writing = false) (whole : s.port.pins.inAccess = true → s.port.spoilt = false) :
    s.busEdge new = { (s.takeRead new.address).2 with
      port := { pins := new, spoilt := false, driven := some (s.takeRead new.address).1 } } := by
  have spoils := not_spoilt up (.inr high) whole
  rw [busEdge_eq empty, writeAtEdge_eq (.inl idle), readAtEdge_begins spoils silent reading, spoils]

/-- The edge that ends a write takes it. -/
theorem busEdge_write {new : BusPins} (empty : s.pending = []) (up : s.resetHeld = false)
    (writing : s.port.pins.writing = true) (high : new.writing = false) (whole : s.port.spoilt = false)
    (e : exec (writeCommand new.address new.data) s = .next t) :
    s.busEdge new = { (t.readAtEdge new).2 with
      port := { pins := new, spoilt := false, driven := (t.readAtEdge new).1 } } := by
  rw [busEdge_eq empty, writeAtEdge_ends up writing high whole e, not_spoilt up (.inr high) fun _ => whole]

/-- Settles O23. -/
theorem windowAccesses : Obligations.WindowAccesses := by
  refine ⟨fun arg w => ?_, fun v => ?_, fun a => ⟨?_, writeCommand_readOnly⟩,
    ⟨rfl, rfl, fun a => readCommand_plain⟩, fun s a v => ⟨rfl, rfl⟩, fun s up => ⟨fun a v readOnly => ?_,
    fun code arg unknown => ?_, fun a zero => ?_⟩, fun p => ?_,
    fun s new empty => ⟨busEdge_of_resetLow empty, fun up => ?_⟩, fun s new => ⟨?_, settled_pending, settled_of_empty,
    fun c rest t => settled_of_step⟩⟩
  · simp only [commandOfWord, extract_code, extract_arg]
    refine ⟨rfl, rfl, rfl, rfl, rfl, rfl, rfl, rfl, rfl, rfl, rfl, rfl, rfl, rfl, fun code unknown => ?_⟩
    have word := commandOfWord_unknown arg unknown
    simpa only [commandOfWord, extract_code, extract_arg] using word
  · exact ⟨⟨rfl, rfl, rfl, rfl, rfl, rfl, rfl, rfl⟩, ⟨rfl, rfl, rfl, rfl, rfl, rfl⟩, ⟨rfl, rfl, rfl, rfl, rfl, rfl⟩,
      ⟨rfl, rfl, rfl, rfl⟩, ⟨rfl, rfl, rfl, rfl, rfl, rfl, rfl, rfl⟩, ⟨rfl, rfl, rfl, rfl, rfl⟩, rfl, rfl, rfl⟩
  · rw [isReadOnlyAddress, Bool.not_eq_true', ← Bool.not_eq_true, List.contains_iff_mem]
    exact Iff.rfl
  · have legal : (Instr.readOnlyWrite a v).wellFormed = true := readOnly
    simp only [exec, execReadOnlyWrite, legal, if_true, live_of_resetHigh up]
    rfl
  · have legal : (Instr.unknownCommand code arg).wellFormed = true := (isUnknownCode_iff code).2 unknown
    simp only [exec, execUnknownCommand, legal, if_true, live_of_resetHigh up]
    rfl
  · exact readWord_whole up (zero.elim wordAt_hole (wordAt_past · a.isLt))
  · simp [BusPins.reading, BusPins.writing, BusPins.inAccess]
  · obtain ⟨both, spoilt, idle⟩ := busEdge_cases (new := new) empty up
    refine ⟨both, spoilt, idle, fun w silent quiet reading high word whole => ?_,
      fun before reading quiet high whole => ?_, fun t writing high whole e => ?_⟩
    · have begins := busEdge_read empty up silent quiet reading high whole
      refine ⟨fun plain => ?_, fun c t command e => ?_⟩
      · obtain rfl : s.wordAt new.address.toNat = w := Option.some.inj ((readWord_eq up _).symm.trans word)
        rw [begins, takeRead_plain plain]
      · rw [begins, takeRead_command command e]
    · have spoils := not_spoilt up (.inr high) fun _ => whole
      rw [busEdge_eq empty, writeAtEdge_eq (.inl quiet), readAtEdge_goesOn spoils before reading, spoils]
    · have ends := busEdge_write empty up writing high whole e
      refine ⟨fun silent => ?_, fun reading before port upAfter => ?_⟩
      · rw [ends, readAtEdge_none (.inl silent)]
      · have spoils : t.spoilsAccess new = false := not_spoilt upAfter (.inr high) fun _ => port ▸ whole
        have begins := readAtEdge_begins spoils (by rw [port]; exact before) reading
        refine ⟨fun plain => ?_, fun c u command e => ?_⟩
        · rw [ends, begins, takeRead_plain plain]
        · rw [ends, begins, takeRead_command command e]
  · unfold State.busEdge
    rw [settled_of_empty settled_pending]

end Sys2Proof.Machine
end

section
/-! The engine's moves, the timers, happenings out of place, the slot commands and STOP_AFTER_PASS: one case of the
definition each (sections 1.4, 4.5, 6.1, 7.1, 7.4, 7.6). -/

namespace Sys2Proof.Machine

-- One proof at a time: the whole text is compiled in one process of bounded memory.
set_option Elab.async false

variable {s : State}

/-- A happening that is taken while RESET_N is high leaves what its definition says. -/
theorem live_eq (up : s.resetHeld = false) {t u : State} (h : t = u) : live s t = .next u :=
  (live_of_resetHigh up t).trans (congrArg _ h)

/-- Settles O36. -/
theorem stopAfterPassResult : Obligations.StopAfterPassResult := by
  intro s up
  refine ⟨fun armed continuous present => live_eq up ?_, fun missing => live_eq up ?_⟩
  · simp [armed, continuous, present, setPass]
  · have no : ¬ (s.isArmed && s.tables.normalMode == .continuous && s.seq.pass.present) = true := by
      rcases missing with h | h | h <;> simp [h]
    rw [if_neg no]

/-! ## Slots -/

theorem setSlot_eq (t : Fin 4) (d : DirectSlot) (s : State) :
    setSlot t d s = { s with direct := { s.direct with slots := s.direct.slots.set t d, order := s.direct.order } } := rfl

/-- Settles O44. -/
theorem slotCommandsResult : Obligations.SlotCommandsResult := by
  intro s arg up n
  refine ⟨fun past => ⟨live_eq up (dif_neg (by omega)), live_eq up (dif_neg (by omega))⟩, fun t named => ?_⟩
  intro d put gone
  have small : arg.toNat < 4 := named ▸ t.isLt
  have tag : (⟨arg.toNat, small⟩ : Fin 4) = t := Fin.ext named
  have cancels {u : State} (h : (match d.state with
      | .queued => answer 11#8 .accepted n (cancelQueued t s)
      | .active => answer 11#8 .late n (setSlot t { d with cancelLate := true } s)
      | .done => answer 11#8 .late n s
      | .free => answer 11#8 .noSuch n s
      | .cancelled => answer 11#8 .noSuch n s) = u) : exec (.cancel arg) s = .next u := by
    refine live_eq up ?_
    rw [dif_pos small, ← h]
    simp only [tag]
    rfl
  have releases {u : State} (h : (match d.state with
      | .done => answer 12#8 .accepted n (setSlot t {} s)
      | .cancelled => answer 12#8 .accepted n (setSlot t {} s)
      | .queued => answer 12#8 .wrongState n s
      | .active => answer 12#8 .wrongState n s
      | .free => answer 12#8 .noSuch n s) = u) : exec (.release arg) s = .next u := by
    refine live_eq up ?_
    rw [dif_pos small, ← h]
    simp only [tag]
    rfl
  refine ⟨fun queued free => cancels ?_, fun queued held => cancels ?_, fun active => cancels ?_, fun done => cancels ?_,
    fun none => cancels ?_, fun ended => releases ?_, fun busy => releases ?_, fun free => releases ?_⟩
  · simp only [queued]
    exact congrArg _ (if_neg free)
  · simp only [queued]
    exact congrArg _ (if_pos held)
  · simp only [active]
    rfl
  · simp only [done]
  · rcases none with h | h <;> simp only [h]
  · rcases ended with h | h <;> simp only [h] <;> rfl
  · rcases busy with h | h <;> simp only [h]
  · simp only [free]

/-! ## The engine -/

/-- The header byte of the response once a byte has been counted in (R5). -/
theorem head_value_append (l : List RxByte) (b : RxByte) : (((l ++ [b]).head?.map (·.value)).getD 0#8) = match l with
    | [] => b.value
    | h :: _ => h.value := by
  cases l <;> rfl

/-- A byte of the response is counted in; the byte expected as C begins the end watch (R12). -/
theorem receiveByte_of_open {x : Transaction} {b : RxByte} (receiving : s.link.phase = .receiving)
    (txn : s.link.txn = some x) (open_ : s.link.endWatch = false) : receiveByte b s =
      if x.expectedLength (match s.link.rx with
        | [] => b.value
        | h :: _ => h.value) ≤ s.link.rx.length + 1
      then { s with link := { s.link with
        rx := s.link.rx ++ [b], endWatch := true, timer := some (s.now + x.rate.byteTime * 1) } }
      else { s with link := { s.link with
        rx := s.link.rx ++ [b], endWatch := false, timer := some (s.now + x.rate.byteTime * 2) } } := by
  simp only [receiveByte, receiving, txn, open_, Bool.false_eq_true, if_false, head_value_append, List.length_append,
    List.length_singleton]
  generalize x.expectedLength _ = expected
  by_cases complete : expected ≤ s.link.rx.length + 1 <;> simp [complete, State.afterBytes]

/-- Settles O48. -/
theorem engineMoves : Obligations.EngineMoves := by
  intro s up
  refine ⟨live_eq up rfl, fun settle none => live_eq up ?_, fun x txn => ⟨rfl, fun sending => live_eq up ?_,
    fun await => live_eq up ?_, fun receiving open_ => ⟨live_eq up ?_, fun v f => ⟨fun short => live_eq up ?_,
    fun full => live_eq up ?_⟩⟩, fun settle => live_eq up ?_, fun backoff => live_eq up ?_⟩⟩
  · rw [if_pos ⟨settle, none⟩]
    simp only [engineIdle, none]
  · simp only [frameSent, sending, txn]
    rfl
  · simp only [responseStartBit, await]
  · simp [responseStartBit, receiving, open_]
  · refine (receiveByte_of_open receiving txn open_).trans ((if_neg (Nat.not_le.2 short)).trans ?_)
    simp [open_]
  · exact (receiveByte_of_open receiving txn open_).trans (if_pos full)
  · rw [if_pos settle]
    simp only [nextAttempt, txn]
    rfl
  · rw [if_pos backoff]
    simp only [nextAttempt, txn]
    rfl

/-! ## Happenings out of place, and in place -/

/-- Settles O49. -/
theorem happeningsOutOfPlace : Obligations.HappeningsOutOfPlace := by
  intro s up
  refine ⟨fun phase => live_eq up ?_, fun await receiving => live_eq up ?_, fun phase => live_eq up (if_neg phase),
    fun phase => ⟨live_eq up (if_neg fun h => phase h.1), live_eq up (if_neg fun h => phase h.1),
      live_eq up (if_neg fun h => phase h.1), fun v f => live_eq up ?_⟩,
    fun phase => ⟨live_eq up (if_neg phase), live_eq up (if_neg fun h => phase h.1)⟩,
    fun phase => live_eq up (if_neg phase), fun none => live_eq up ?_, fun none => live_eq up ?_,
    fun pause apart => live_eq up (if_neg (by simp [pause, apart])), fun closed => live_eq up ?_,
    fun k => ⟨fun still => live_eq up (if_neg fun h => ?_), fun off => live_eq up ?_, congrArg _ (if_pos rfl)⟩⟩
  · unfold frameSent
    split
    next sending _ => exact absurd sending phase
    next => rfl
  · unfold responseStartBit
    split
    next h => exact absurd h await
    next h => exact absurd h receiving
    next => rfl
  · unfold receiveByte
    split
    next h _ => exact absurd h phase
    next => rfl
  · unfold conversionTimerExpiry
    split
    next it item => exact if_neg fun converting => by simp [item, converting] at none
    next => rfl
  · unfold suspendedTimerExpiry
    split
    next r suspended => exact if_pos (by simpa [suspended] using none)
    next => rfl
  · unfold lockWindowExpiry
    split
    next t d window => exact absurd window (closed t d)
    next => rfl
  · rcases still with off | same
    · simp [off] at h
    · exact h.2 same
  · unfold paceTimerExpiry
    split
    next d running =>
      rcases off with stopped | disarmed
      · simp [running, TimerRun.due] at stopped
      · exact if_neg (by simp [disarmed])
    next => rfl

/-- Settles O58. -/
theorem timerHappenings : Obligations.TimerHappenings := by
  intro s up
  refine ⟨fun it item converting => live_eq up ?_, fun r suspended early => live_eq up ?_,
    fun due => live_eq up (if_pos ?_), fun t d window => live_eq up ?_⟩
  · simp only [conversionTimerExpiry, item, converting, if_true]
    rfl
  · simp only [suspendedTimerExpiry, suspended, early, Bool.false_eq_true, if_false]
    rfl
  · simpa [Option.isSome_iff_ne_none] using due
  · simp only [lockWindowExpiry, window]
    rfl

end Sys2Proof.Machine
end

section
/-! Health at the end of a transaction, records and slots, the grants to direct slots and the ends of their transactions
(sections 2.4, 7.1, 7.2, 7.4, 7.6, 9.1 to 9.5). -/

namespace Sys2Proof.Machine

-- One proof at a time: the whole text is compiled in one process of bounded memory.
set_option Elab.async false

variable {s : State}

/-! ## Health -/

theorem matchesAddress_iff (e : StationEntry) (a : BitVec 5) :
    e.matchesAddress a = true ↔ e.enabled = true ∧ e.address ≠ 0#5 ∧ e.address = a := by
  simp [StationEntry.matchesAddress, and_assoc]

theorem matchEntry_none {a : BitVec 5} (h : ∀ e : Fin 16, (s.stations.entries[e]).enabled = false ∨
    (s.stations.entries[e]).address = 0#5 ∨ (s.stations.entries[e]).address ≠ a) : s.matchEntry a = none := by
  refine List.find?_eq_none.2 fun e _ found => ?_
  obtain ⟨enabled, nonzero, same⟩ := (matchesAddress_iff _ _).1 found
  rcases h e with off | zero | other
  · exact absurd (off.symm.trans enabled) nofun
  · exact nonzero zero
  · exact other same

/-- No two enabled entries hold one nonzero address, so the match is the entry that has it (R23, R29). -/
theorem matchEntry_eq (h : s.TablesOk) {a : BitVec 5} {e : Fin 16} (enabled : (s.stations.entries[e]).enabled = true)
    (address : (s.stations.entries[e]).address = a) (nonzero : a ≠ 0#5) : s.matchEntry a = some e := by
  have here : (s.stations.entries[e]).matchesAddress a = true :=
    (matchesAddress_iff _ _).2 ⟨enabled, address ▸ nonzero, address⟩
  cases found : s.matchEntry a with
  | none => exact absurd here (List.find?_eq_none.1 found e (List.mem_finRange e))
  | some f =>
    obtain ⟨enabled', nonzero', same⟩ := (matchesAddress_iff _ _).1
      (List.find?_some (p := fun e : Fin 16 => (s.stations.entries[e]).matchesAddress a) found)
    rw [h.addresses f e enabled' enabled nonzero' (same.trans address.symm)]

/-- Settles O52. -/
theorem healthMoves : Obligations.HealthMoves := by
  intro s a o ok latch
  refine ⟨fun h => by simp only [noticeHealth, matchEntry_none h], fun e enabled address nonzero => ?_⟩
  intro n limit
  have notice : noticeHealth a o s = moveHealth e o s := by
    simp only [noticeHealth, matchEntry_eq ok enabled address nonzero]
  have some_limit : limit ≠ 0#4 := ok.failLimit e
  have below : n.toNat ≤ limit.toNat := ok.failures e
  refine ⟨fun heard => notice.trans ?_, fun silent => ⟨fun ne => notice.trans ?_, fun eq => notice.trans ?_⟩⟩
  · have hears : o.heard = true := by rcases heard with rfl | rfl | rfl <;> rfl
    have offline : s.health e = .offline ↔ n = limit := by
      refine (health_eq_offline_iff e).trans ⟨(·.2), fun eq => ⟨fun zero => some_limit ?_, eq⟩⟩
      exact eq.symm.trans zero
    simp only [moveHealth, hears, if_true, offline]
    by_cases eq : n = limit <;> simp only [eq, if_true, if_false] <;> rfl
  all_goals have deaf : o.heard = false := by rcases silent with rfl | rfl <;> rfl
  · have less : n.toNat < limit.toNat := by
      have := mt BitVec.eq_of_toNat_eq ne
      omega
    have last : n.toNat + 1 = limit.toNat ↔ n + 1#4 = limit := by
      rw [← BitVec.toNat_inj, BitVec.toNat_add]
      have := limit.isLt
      simp
      omega
    simp only [moveHealth, deaf, Bool.false_eq_true, if_false]
    rw [if_pos less]
    by_cases eq : n + 1#4 = limit
    · rw [if_pos (last.2 eq), if_pos eq]
      rfl
    · rw [if_neg (mt last.1 eq), if_neg eq]
      rfl
  · have full : ¬ n.toNat < limit.toNat := by
      rw [eq]
      exact lt_irrefl _
    simp only [moveHealth, deaf, Bool.false_eq_true, if_false]
    exact if_neg full

/-! ## Records and slots -/

/-- Settles O55. -/
theorem recordsAndSlots : Obligations.RecordsAndSlots := by
  intro s
  refine ⟨fun r => ?_, fun c => ⟨fun none => ?_, fun k slot outcome => ?_⟩⟩
  · intro room lost
    have hasRoom : (s.queueHasRoom && s.results.hold == []) = true ↔ room := by
      rw [Bool.and_eq_true, State.queueHasRoom, decide_eq_true_iff, beq_iff_eq]
      exact Iff.rfl
    have isLost : (r.isAbort || s.results.policy == .drop) = true ↔ lost := by simp [lost]
    refine ⟨fun h => ?_, fun h l => ?_, fun h l => ?_⟩
    · rw [offer, if_pos (hasRoom.2 h)]
      by_cases empty : s.results.queue = []
      · simp only [enqueue, empty, if_true]
        rfl
      · simp only [enqueue, empty, if_false]
    · rw [offer, if_neg (mt hasRoom.1 h), if_pos (isLost.2 l)]
      by_cases top : s.results.drops = 65535#16 <;> simp [Machine.discard, raise, Config.dropLimit, top]
    · rw [offer, if_neg (mt hasRoom.1 h), if_neg (mt isLost.1 l)]
      by_cases first : s.results.hold = []
      · simp only [holdRecord, first, if_true]
        rfl
      · simp only [holdRecord, first, if_false]
  · rcases none with slot | aborted
    · simp only [writeSlot, slot]
    · unfold writeSlot
      split
      · rfl
      · exact if_pos aborted
  · simp only [writeSlot, slot, if_neg outcome, ResultSlot.written]
    by_cases done : c.outcome = .done
    · cases value : c.value <;> simp [done]
    · cases o : c.outcome <;> simp_all

/-! ## Grants to direct slots -/

theorem touchSuspended_map (a : BitVec 5) (s : State) : touchSuspended a s = { s with seq := { s.seq with
    suspended := s.seq.suspended.map fun q =>
      if (s.stationOf q.item).address = a then { q with touched := true } else q } } := by
  unfold touchSuspended
  split
  next q suspended =>
    split
    next here => simp only [suspended, Option.map_some, if_pos here]
    next other =>
      have keep : s.seq.suspended = s.seq.suspended.map fun q =>
          if (s.stationOf q.item).address = a then { q with touched := true } else q := by
        rw [suspended, Option.map_some, if_neg other]
      rw [← keep]
  next none =>
    have keep (f : Suspension → Suspension) : s.seq.suspended.map f = s.seq.suspended := by rw [none, Option.map_none]
    rw [keep]

theorem touchActive_map (a : BitVec 5) (s : State) : touchActive a s = { s with seq := { s.seq with
    item := s.seq.item.map fun it =>
      if (it.phase = .converting ∨ it.phase = .fetchWait) ∧ (s.stationOf it.item).address = a then
        { it with touched := true } else it } } := by
  unfold touchActive
  have waits (it : ItemRun) : it.waits = true ↔ it.phase = .converting ∨ it.phase = .fetchWait := by
    simp [ItemRun.waits]
  split
  next it item =>
    simp only [waits]
    split
    next here => simp only [item, Option.map_some, if_pos here]
    next other =>
      have keep : s.seq.item = s.seq.item.map fun it =>
          if (it.phase = .converting ∨ it.phase = .fetchWait) ∧ (s.stationOf it.item).address = a then
            { it with touched := true } else it := by
        rw [item, Option.map_some, if_neg other]
      rw [← keep]
  next none =>
    have keep (f : ItemRun → ItemRun) : s.seq.item.map f = s.seq.item := by rw [none, Option.map_none]
    rw [keep]

theorem decideNow_direct {t : Fin 4} (can : s.canDecide = true) (grants : s.decision = .direct t) :
    decideNow s = grantDirect t (settleApart s) := by
  simp only [decideNow, can, if_true, grants]

theorem decideNow_none (none : s.canDecide = false ∨ s.decision = .none) : decideNow s = settleApart s := by
  rcases none with no | nothing
  · simp only [decideNow, no, Bool.false_eq_true, if_false]
  · unfold decideNow
    rw [nothing]
    split <;> rfl

theorem decideNow_sequencer (can : s.canDecide = true) (grants : s.decision = .sequencer) :
    decideNow s = grantSequencer (settleApart s) := by
  simp only [decideNow, can, if_true, grants]

/-- Only a grant to the Sequencer may be left to a happening of its own (log entry 27). -/
theorem arbitrate_eq_decideNow (h : s.canDecide = false ∨ s.decision ≠ .sequencer ∨ s.arb.apart = true) :
    arbitrate s = decideNow s := by
  refine if_neg ?_
  rintro ⟨can, grants, alone, -⟩
  rcases h with h | h | h
  · exact absurd (can.symm.trans h) nofun
  · exact h grants
  · exact absurd (alone.symm.trans h) nofun

theorem settleApart_of_settled (h : s.arb.apart = false) : settleApart s = s := by
  unfold settleApart
  rw [← h]

theorem canDecide_iff : s.canDecide = true ↔ s.link.phase = .idle ∧ s.arb.pause = none ∧ s.arb.lock = .none := by
  simp [State.canDecide, and_assoc]

/-- A decision does not look at what is left apart, and settles it. -/
theorem decideNow_apart (pause : s.arb.pause = none) :
    decideNow { s with arb := { s.arb with apart := true, pause := none } } = decideNow s := by
  rw [← pause]
  rfl

/-- The request of slot t is handed to the Link Engine, its data with a WRITE only (R8, R143). -/
def handRequest (t : Fin 4) (s : State) : State :=
  let r := (s.direct.slots[t]).request
  takeTransaction (.direct t) r.address r.op r.index r.length (r.op.writeValue r.data) (s.directParams r.address) s

/-- A grant to a direct slot is the move of the arbiter and the list, then the request handed over. -/
theorem grantDirect_eq (t : Fin 4) (s : State) : grantDirect t s = handRequest t
    { s with
      direct := { s.direct with order := s.direct.order.erase t }
      arb := { s.arb with
        lock := (setOrder (s.direct.order.erase t) s).lockAfterGrant t
        lastGrantee := if s.urgent t then s.arb.lastGrantee else .direct
        boundaryGrant := if s.urgent t then s.arb.boundaryGrant else false } } := by
  refine congrArg (handRequest t) ?_
  cases urgent : s.urgent t
  · exact if_neg (by simpa [State.urgent] using urgent)
  · exact if_pos (by simpa [State.urgent] using urgent)

/-- Settles O46. -/
theorem directGrantResult : Obligations.DirectGrantResult := by
  intro s t d r rest params x c
  refine ⟨fun idle pause lock grants => ?_, fun no => ?_, settleApart_of_settled, fun idle pause lock grants =>
    ⟨fun apart => arbitrate_eq_decideNow (.inr (.inr apart)), fun alone => ?_⟩, ?_⟩
  · have decides := decideNow_direct (canDecide_iff.2 ⟨idle, pause, lock⟩) grants
    exact ⟨(arbitrate_eq_decideNow (.inr (.inl (by simp [grants])))).trans decides, decides⟩
  · have none : s.canDecide = false ∨ s.decision = .none := by
      by_cases can : s.canDecide = true
      · obtain ⟨idle, pause, lock⟩ := canDecide_iff.1 can
        exact .inr (by simpa [idle, pause, lock] using no)
      · exact .inl (eq_false_of_ne_true can)
    have settles := decideNow_none none
    exact ⟨(arbitrate_eq_decideNow (none.imp_right fun nothing => .inl (by simp [nothing]))).trans settles, settles⟩
  · rcases arbitrate_cases s with now | ⟨-, -, -, later⟩
    · exact .inl now
    · refine .inr ⟨later, ?_, fun up =>
        (live_eq (s := { s with arb := { s.arb with apart := true } }) up (if_pos ?_)).trans ?_⟩
      · simp [State.due, State.arbiterDue]
      · simp
      · exact congrArg _ (decideNow_apart pause)
  · rw [grantDirect_eq]
    simp only [handRequest, takeTransaction, startNotice, touchSuspended_map, touchActive_map, startAttempt]
    rfl

end Sys2Proof.Machine
end

section
/-! How the Sequencer goes on leaves latched events latched and tenure ended; and what a grant to the Sequencer is used
for (sections 4.3, 5.7, 7.1, 7.2). -/

namespace Sys2Proof.Machine

-- One proof at a time: the whole text is compiled in one process of bounded memory.
set_option Elab.async false

variable {s t u : State}

/-! ## Going on -/

/-- From s to t no event is taken back and no tenure begins. -/
structure Onward (s t : State) : Prop where
  latched : ∀ e, s.latched e = true → t.latched e = true
  tenure : s.arb.tenure = false → t.arb.tenure = false

theorem Onward.refl (s : State) : Onward s s := ⟨fun _ h => h, fun h => h⟩

theorem Onward.trans (h : Onward s t) (g : Onward t u) : Onward s u :=
  ⟨fun e l => g.latched e (h.latched e l), fun f => g.tenure (h.tenure f)⟩

theorem Kept.onward (h : Kept s t) : Onward s t :=
  ⟨h.latched, fun f => by rw [h.arb]; exact f⟩

theorem latched_of_eq {w : State} (h : w.window = s.window) {e : Event} (l : s.latched e = true) : w.latched e = true := by
  unfold State.latched at *
  rw [h]
  exact l

theorem onward_of_eq (window : t.window = s.window) (arb : t.arb.tenure = s.arb.tenure ∨ t.arb.tenure = false) :
    Onward s t :=
  ⟨fun _ => latched_of_eq window, fun f => arb.elim (·.trans f) id⟩

theorem takeCompletion_latched (k : Completion) (s : State) {e : Event} (h : s.latched e = true) :
    (takeCompletion k s).latched e = true := by
  have written : (writeSlot k s).latched e = true := by
    unfold writeSlot
    split
    · exact h
    · split <;> exact h
  have raised : (if k.outcome.isFailure = true then raise .itemError (writeSlot k s) else writeSlot k s).latched e
      = true := by
    split
    · rw [raise_latched, written, Bool.true_or]
    · exact written
  unfold takeCompletion
  dsimp only
  split
  · exact offer_latched _ e raised
  · exact raised

theorem finishItem_onward (c : Chain) (it : ItemRun) (o : ItemOutcome) (v : Option Value) (s : State) :
    Onward s (finishItem c it o v s) := by
  refine ⟨fun e h => ?_, fun _ => rfl⟩
  exact (updateRun_kept c _ _).latched e (takeCompletion_latched _ s h)

theorem advance_kept (c : Chain) (s : State) : Kept s (advance c s) := by
  unfold advance
  split
  · exact updateRun_kept c _ s
  · exact endRun_kept c false s

theorem completeCurrent_onward (c : Chain) (it : ItemRun) (o : ItemOutcome) (v : Option Value) (s : State) :
    Onward s (completeCurrent c it o v s) :=
  (finishItem_onward c it o v s).trans (advance_kept c _).onward

/-- A completion ends tenure, whatever the run does then (R69). -/
theorem completeCurrent_tenure (c : Chain) (it : ItemRun) (o : ItemOutcome) (v : Option Value) (s : State) :
    (completeCurrent c it o v s).arb.tenure = false :=
  (advance_kept c (finishItem c it o v s)).onward.tenure rfl

/-- A completion that is a failure raises ITEM_ERROR (R164). -/
theorem finishItem_itemError {o : ItemOutcome} (failure : o.isFailure = true) (c : Chain) (it : ItemRun)
    (v : Option Value) (s : State) : (finishItem c it o v s).latched .itemError = true := by
  obtain ⟨-, -, -, -, error⟩ := takeCompletion_same (s.completionOf c it o v) s
  exact (updateRun_kept c _ _).latched _ (error failure)

theorem completeCurrent_itemError {o : ItemOutcome} (failure : o.isFailure = true) (c : Chain) (it : ItemRun)
    (v : Option Value) (s : State) : (completeCurrent c it o v s).latched .itemError = true :=
  (advance_kept c _).latched _ (finishItem_itemError failure c it v s)

/-- The slot an item names, written by a failed completion (R162). -/
def State.failedSlots (s : State) (c : Chain) (it : ItemRun) (o : ItemOutcome) : Vector ResultSlot 64 :=
  match (s.itemAt it.item).slot with
  | some k => s.results.slots.set k
      { value := (s.results.slots[k]).value, outcome := some o, state := .fresh,
        overwritten := (s.results.slots[k]).state == .fresh, writer := c,
        passNumber := if c = .normal then s.seq.pass.number else 0#16 }
  | none => s.results.slots

theorem writeSlot_failed {o : ItemOutcome} (failure : o.isFailure = true) (c : Chain) (it : ItemRun) (v : Option Value)
    (s : State) : (writeSlot (s.completionOf c it o v) s).results.slots = s.failedSlots c it o := by
  unfold writeSlot State.failedSlots
  simp only [State.completionOf]
  cases (s.itemAt it.item).slot with
  | none => rfl
  | some k =>
    cases o with
    | done | aborted => cases failure
    | _ => rfl

theorem completeCurrent_slots {o : ItemOutcome} (failure : o.isFailure = true) (c : Chain) (it : ItemRun)
    (v : Option Value) (s : State) : (completeCurrent c it o v s).results.slots = s.failedSlots c it o := by
  obtain ⟨-, -, -, slots, -⟩ := takeCompletion_same (s.completionOf c it o v) s
  refine (advance_kept c _).slots.trans (Eq.trans ?_ (slots.trans (writeSlot_failed failure c it v s)))
  exact (updateRun_kept c _ _).slots

theorem beginItem_window (c : Chain) (s : State) : (beginItem c s).window = s.window := rfl

theorem takeLowest_onward (s : State) : Onward s (takeLowest s) := by
  unfold takeLowest
  split
  · exact .refl s
  · exact onward_of_eq rfl (.inl rfl)

theorem takeLowest_results (s : State) : (takeLowest s).results = s.results := by
  unfold takeLowest
  split <;> rfl

theorem setAside_onward (s : State) : Onward s (setAside s) := by
  unfold setAside
  split
  · exact .refl s
  · split
    · exact onward_of_eq rfl (.inr rfl)
    · exact onward_of_eq rfl (.inl rfl)

theorem setAside_results (s : State) : (setAside s).results = s.results := by
  unfold setAside
  split
  · rfl
  · split <;> rfl

theorem proceed_onward (s : State) : Onward s (proceed s) := by
  unfold proceed
  split
  all_goals try exact .refl s
  all_goals
    split
    · split
      · exact onward_of_eq rfl (.inl rfl)
      · exact takeLowest_onward s
    · split
      · exact (setAside_onward s).trans (takeLowest_onward _)
      · split
        · exact onward_of_eq rfl (.inl rfl)
        · exact .refl s
    · exact .refl s

theorem proceed_results (s : State) : (proceed s).results = s.results := by
  unfold proceed
  split
  all_goals try rfl
  all_goals
    split
    · split
      · rfl
      · exact takeLowest_results s
    · split
      · exact (takeLowest_results _).trans (setAside_results s)
      · split <;> rfl
    · rfl

theorem restore_onward (r : Suspension) (s : State) : Onward s (restore r s) := by
  have back : Onward s (setActive .normal (setSuspended none s)) := onward_of_eq rfl (.inl rfl)
  have completes (o : ItemOutcome) := back.trans
    ((completeCurrent_onward .normal r.toRun o none _).trans (proceed_onward _))
  unfold restore
  dsimp only
  split
  · exact completes _
  · split
    · split
      · exact onward_of_eq rfl (.inl rfl)
      · exact completes _
    · exact onward_of_eq rfl (.inl rfl)

theorem handOver_onward (s : State) : Onward s (handOver s) := by
  unfold handOver
  split
  · exact takeLowest_onward s
  · split
    · exact restore_onward _ s
    · split <;> exact onward_of_eq rfl (.inl rfl)

theorem schedule_onward (s : State) : Onward s (schedule s) := by
  unfold schedule
  split
  all_goals try exact .refl s
  all_goals
    split
    · exact handOver_onward s
    · split
      · exact onward_of_eq rfl (.inl rfl)
      · exact .refl s
    · exact proceed_onward s

/-- The Result Store stands where the Sequencer goes on from no injected chain. -/
theorem schedule_results (normal : ∀ k, s.seq.active ≠ .inj k) : (schedule s).results = s.results := by
  unfold schedule
  split
  all_goals try rfl
  all_goals
    split
    next k active _ => exact absurd active (normal k)
    next k _ active _ => exact absurd active (normal k)
    next => exact proceed_results s

/-! ## A grant to the Sequencer -/

theorem itemOffline_iff (item : Nat) : s.itemOffline item = true ↔ s.health (s.itemAt item).station = .offline := by
  simp [State.itemOffline]

/-- The item and its transaction are handed over with this grant (R63, R66, R69, R102). -/
theorem sendWithGrant_eq (it : ItemRun) (phase : Phase) (op : Op) (s : State) : sendWithGrant it phase op s =
    startAttempt
      { requester := .sequencer, address := (s.stationOf it.item).address, op := op, index := (s.itemAt it.item).index,
        length := (s.itemAt it.item).length, value := op.writeValue (s.itemAt it.item).value,
        params := { timeout := (s.stationOf it.item).timeout, retry := (s.stationOf it.item).retry,
                    backoff := (s.stationOf it.item).backoff },
        rate := s.link.rate, attempt := 1, orphan := false }
      { s with
        arb := { s.arb with tenure := true }
        seq := { s.seq with
          item := some { it with phase := phase }
          suspended := s.seq.suspended.map fun q =>
            if (s.stationOf q.item).address = (s.stationOf it.item).address then { q with touched := true } else q } } := by
  simp only [sendWithGrant, sendFor, takeTransaction, startNotice, touchSuspended_map]
  rfl

/-- What a grant that is given back unused leaves (R63, R105, R129). -/
theorem giveBack_spec {c : Chain} (it : ItemRun) {o : ItemOutcome} (failure : o.isFailure = true)
    (active : s.seq.active.chain = some c) :
    (giveBack c it o s).link = s.link ∧ (giveBack c it o s).direct = s.direct ∧
    (giveBack c it o s).stations = s.stations ∧ (giveBack c it o s).arb.pause = some (s.now + 10) ∧
    (giveBack c it o s).arb.tenure = false ∧ (giveBack c it o s).arb.apart = s.arb.apart ∧
    (giveBack c it o s).arb.lastGrantee = s.arb.lastGrantee ∧ (giveBack c it o s).latched .itemError = true ∧
    (c = .normal → (giveBack c it o s).results.slots = s.failedSlots c it o) := by
  have frame := (completeCurrent_seqFrame c it o none { s with arb := { s.arb with pause := some (s.after 1) } }).trans
    (schedule_seqFrame _)
  have onward := schedule_onward
    (completeCurrent c it o none { s with arb := { s.arb with pause := some (s.after 1) } })
  have arb {α : Type} (f : Arbiter → α)
      (h : ∀ a b, f { s.arb with pause := some (s.after 1), tenure := a, boundaryGrant := b } =
        f { s.arb with pause := some (s.after 1) }) :
      f (giveBack c it o s).arb = f { s.arb with pause := some (s.after 1) } :=
    (congrArg f frame.arb).trans (h _ _)
  refine ⟨frame.link, frame.direct, frame.stations, arb (·.pause) fun _ _ => rfl,
    onward.tenure (completeCurrent_tenure ..), arb (·.apart) fun _ _ => rfl, arb (·.lastGrantee) fun _ _ => rfl,
    onward.latched _ (completeCurrent_itemError failure ..), fun normal => ?_⟩
  subst normal
  have results := schedule_results fun k => completeCurrent_normal (it := it) (o := o) (v := none)
    (s := { s with arb := { s.arb with pause := some (s.after 1) } }) (Context.chain_normal.1 active) k
  exact (congrArg (·.slots) results).trans (completeCurrent_slots failure ..)

/-- Settles O47. -/
theorem sequencerGrantResult : Obligations.SequencerGrantResult := by
  intro s c it idle pause lock grants active item d e sent unused
  have now := decideNow_sequencer (canDecide_iff.2 ⟨idle, pause, lock⟩) grants
  let g : State := { s with arb := { s.arb with apart := false, lastGrantee := .sequencer, boundaryGrant := false } }
  have first (phase : it.phase = .grantWait) : decideNow s = grantFirst c it g := by
    rw [now]
    simp only [grantSequencer, settleApart, active, item, phase]
    rfl
  have fetch (phase : it.phase = .fetchWait) : decideNow s = grantFetch c it g := by
    rw [now]
    simp only [grantSequencer, settleApart, active, item, phase]
    rfl
  have online (h : s.health d.station ≠ .offline) : ¬ g.itemOffline it.item = true := mt (itemOffline_iff _).1 h
  have back {o : ItemOutcome} (failure : o.isFailure = true) (h : decideNow s = giveBack c it o g) : unused o := by
    obtain ⟨link, direct, stations, paused, tenure, apart, grantee, error, slots⟩ :=
      giveBack_spec (s := g) it failure active
    simp only [unused, h]
    refine ⟨link, direct, stations, paused, tenure, apart, grantee, error, fun normal => ?_, fun running run => ?_⟩
    · rw [slots normal]
      subst normal
      rfl
    · refine ⟨_, rfl, completeCurrent_completes it o none active ?_ fun inj => ?_⟩
      · exact fun top => by simp [running] at top
      · exact Option.isSome_iff_ne_none.2 (run inj)
  refine ⟨fun phase h => ?_, fun phase h => ⟨fun untouched => ?_, fun touched few => ?_, fun touched many => ?_⟩,
    fun phase h => ?_⟩
  · have sends : decideNow s = sendWithGrant it .onLink d.kind.firstOp g := (first phase).trans (if_neg (online h))
    refine ⟨fun kind => ?_, fun kind => ?_, fun kind => ?_⟩ <;> rw [sends, sendWithGrant_eq, kind] <;> rfl
  · refine ((fetch phase).trans ((if_neg (online h)).trans (if_neg (by simp [untouched])))).trans ?_
    rw [sendWithGrant_eq]
    rfl
  · refine ((fetch phase).trans ((if_neg (online h)).trans ((if_pos touched).trans (if_pos few)))).trans ?_
    rw [sendWithGrant_eq]
    rfl
  · exact back rfl ((fetch phase).trans ((if_neg (online h)).trans ((if_pos touched).trans (if_neg (Nat.not_lt.2 many)))))
  · have offline : g.itemOffline it.item = true := (itemOffline_iff _).2 h
    rcases phase with phase | phase
    · exact back rfl ((first phase).trans (if_pos offline))
    · exact back rfl ((fetch phase).trans (if_pos offline))

end Sys2Proof.Machine
end

section
/-! Direct requests queued and the ends of their transactions (sections 7.4 and 7.6). -/

namespace Sys2Proof.Machine

-- One proof at a time: the whole text is compiled in one process of bounded memory.
set_option Elab.async false

variable {s : State}

/-- The state in which the Direct Request Unit has taken the end of its transaction and the arbiter has not yet gone on
(R17, R143). -/
def State.directEnded (s : State) (x : Transaction) (t : Fin 4) (o : TxnOutcome) (v : Option Value) : State :=
  let h := noticeHealth x.address o s
  { h with
    window := { h.window with latch := h.window.latch ||| Event.mask .directDone }
    direct := { s.direct with
      slots := s.direct.slots.set t
        { s.direct.slots[t] with state := .done, outcome := some o, value := v.getD 0#32 } }
    link := { s.link with phase := .idle, txn := none, timer := none, rx := [], endWatch := false } }

theorem directEndNotice_eq (x : Transaction) (t : Fin 4) (o : TxnOutcome) (v : Option Value) :
    directEndNotice t o v (engineIdle (noticeHealth x.address o s)) = s.directEnded x t o v := by
  unfold State.directEnded
  rw [noticeHealth_eq]
  rfl

theorem endTransaction_direct {x : Transaction} {t : Fin 4} (requester : x.requester = .direct t) (o : TxnOutcome)
    (v : Option Value) : endTransaction x o v s = afterDirect t (s.directEnded x t o v) := by
  simp only [endTransaction, requester, directEndNotice_eq]

theorem directEnded_arb (x : Transaction) (t : Fin 4) (o : TxnOutcome) (v : Option Value) :
    (s.directEnded x t o v).arb = s.arb ∧ (s.directEnded x t o v).now = s.now := by
  unfold State.directEnded
  rw [noticeHealth_eq]
  exact ⟨rfl, rfl⟩

theorem directEnded_carriesLock (x : Transaction) (t : Fin 4) (o : TxnOutcome) (v : Option Value) :
    (s.directEnded x t o v).carriesLock t = s.carriesLock t := by
  simp [State.directEnded, State.carriesLock]

/-- Settles O53. -/
theorem directTransactionEnds : Obligations.DirectTransactionEnds := by
  intro s x t o v requester h u
  obtain ⟨arb, now⟩ := directEnded_arb (s := s) x t o v
  have carries := directEnded_carriesLock (s := s) x t o v
  have ended : endTransaction x o v s = afterDirect t u := endTransaction_direct requester o v
  replace arb : u.arb = s.arb := arb
  replace now : u.now = s.now := now
  replace carries : u.carriesLock t = s.carriesLock t := carries
  clear_value u
  refine ⟨fun lock => ?_, fun k lock plain => ?_, fun k lock locked => ?_, fun lock locked => ?_, fun lock => ?_⟩ <;>
    rw [ended, afterDirect, arb, lock] <;> dsimp only
  · rw [if_neg (by simp [carries, plain]), setLock, arb]
  · rw [if_pos (carries.trans locked)]
  · rw [if_pos (carries.trans locked), setLock, arb, State.after, now]
    rfl
  · rw [lapse, setLock, arb]
    rfl

/-! ## SUBMIT -/

theorem Op.ofCode_code (op : Op) : Op.ofCode op.code = some op := by cases op <;> rfl

theorem Op.ofCode_none_iff (c : BitVec 3) : Op.ofCode c = none ↔ 4 < c.toNat := by
  revert c
  decide

/-- What R142 refuses: an unknown operation, address 0, a length outside 1 to 4, URGENT with LOCK. -/
def Staging.Wrong (g : Staging) : Prop :=
  g.address = 0#5 ∨ 4 < g.opcode.toNat ∨ g.length.toNat = 0 ∨ 4 < g.length.toNat ∨ (g.urgent = true ∧ g.lock = true)

theorem request_of_wrong {g : Staging} (h : g.Wrong) : g.request = none := by
  unfold Staging.request
  split
  next op code =>
    have known : ¬ 4 < g.opcode.toNat := fun unknown => by simp [(Op.ofCode_none_iff _).2 unknown] at code
    rcases h with address | unknown | zero | long | both
    · exact if_pos (.inl address)
    · exact absurd unknown known
    · exact if_pos (.inr (.inl zero))
    · exact if_pos (.inr (.inr (.inl long)))
    · exact if_pos (.inr (.inr (.inr both)))
  next => rfl

theorem request_of_valid {g : Staging} {op : Op} (h : ¬ g.Wrong) (code : g.opcode = op.code) :
    g.request = some { address := g.address, op := op, index := g.index, length := g.length, data := g.data,
                       urgent := g.urgent, lock := g.lock } := by
  have fine : ¬ (g.address = 0#5 ∨ g.length.toNat = 0 ∨ 4 < g.length.toNat ∨ (g.urgent = true ∧ g.lock = true)) := by
    unfold Staging.Wrong at h
    tauto
  simp only [Staging.request, code, Op.ofCode_code]
  exact if_neg fine

theorem request_some_of_valid {g : Staging} (h : ¬ g.Wrong) : ∃ r, g.request = some r := by
  cases code : Op.ofCode g.opcode with
  | none => exact absurd (.inr (.inl ((Op.ofCode_none_iff _).1 code))) h
  | some op =>
    unfold Staging.Wrong at h
    simp only [Staging.request, code]
    exact ⟨_, if_neg (by tauto)⟩

theorem freeSlot_none (h : ∀ t : Fin 4, (s.direct.slots[t]).state ≠ .free) : s.freeSlot = none := by
  simpa [State.freeSlot, List.find?_eq_none] using ⟨h 0, h 1, h 2, h 3⟩

/-- In an ascending list the lowest element with a property is the one that is found. -/
theorem find?_eq_some_iff_lowest {α : Type} [LinearOrder α] {l : List α} (sorted : l.Pairwise (· < ·))
    {p : α → Bool} {a : α} : l.find? p = some a ↔ a ∈ l ∧ p a = true ∧ ∀ b ∈ l, b < a → p b = false := by
  rw [List.find?_eq_some_iff_append]
  constructor
  · rintro ⟨holds, before, behind, rfl, none_before⟩
    refine ⟨by simp, holds, fun b mem less => ?_⟩
    rcases List.mem_append.1 mem with early | late
    · simpa using none_before b early
    · rcases List.mem_cons.1 late with rfl | later
      · exact absurd less (lt_irrefl _)
      · exact absurd less (lt_asymm ((List.pairwise_cons.1 (List.pairwise_append.1 sorted).2.1).1 b later))
  · rintro ⟨mem, holds, lowest⟩
    obtain ⟨before, behind, rfl⟩ := List.append_of_mem mem
    refine ⟨holds, before, behind, rfl, fun b early => ?_⟩
    have less : b < a := (List.pairwise_append.1 sorted).2.2 b early a (by simp)
    simp [lowest b (by simp [early]) less]

theorem find?_of_lowest {α : Type} [LinearOrder α] {l : List α} (sorted : l.Pairwise (· < ·)) {p : α → Bool} {a : α}
    (mem : a ∈ l) (holds : p a = true) (lowest : ∀ b, b < a → p b = false) : l.find? p = some a :=
  (find?_eq_some_iff_lowest sorted).2 ⟨mem, holds, fun b _ => lowest b⟩

theorem slots_all : ∀ t : Fin 4, t ∈ [0, 1, 2, 3] := by decide

theorem freeSlot_eq {t : Fin 4} (free : (s.direct.slots[t]).state = .free)
    (lowest : ∀ k, k < t → (s.direct.slots[k]).state ≠ .free) : s.freeSlot = some t :=
  find?_of_lowest (p := fun t : Fin 4 => (s.direct.slots[t]).state == .free) (by decide) (slots_all t)
    (beq_iff_eq.2 free) fun k less => beq_eq_false_iff_ne.2 (lowest k less)

theorem filter_of_urgentFirst {l : List (Fin 4)} {p : Fin 4 → Bool} (h : l.Pairwise fun a b => p b = true → p a = true) :
    l.takeWhile p = l.filter p ∧ l.dropWhile p = l.filter fun k => !p k := by
  have split := List.takeWhile_append_dropWhile (p := p) (l := l)
  have behind := urgentPrefix h
  have before : ∀ x ∈ l.takeWhile p, p x = true := fun x => List.mem_takeWhile_imp
  generalize l.takeWhile p = a at split before
  generalize l.dropWhile p = b at split behind
  subst split
  simp only [List.filter_append]
  rw [List.filter_eq_self.2 before, List.filter_eq_nil_iff.2 (by simpa using behind),
    List.filter_eq_nil_iff.2 (by simpa using before), List.filter_eq_self.2 (by simpa using behind)]
  simp

/-- With the URGENT entries first, a tag enters the list between them and the others (R141). -/
theorem insertTag_eq (h : s.DirectOk) (t : Fin 4) (urgent : Bool) : s.insertTag t urgent =
    if urgent then s.direct.order.filter s.urgent ++ t :: s.direct.order.filter (fun k => !s.urgent k)
    else s.direct.order ++ [t] := by
  obtain ⟨before, behind⟩ := filter_of_urgentFirst h.urgentFirst
  unfold State.insertTag
  rw [before, behind]

/-- The state in which the staged request stands in slot t, before the arbiter goes on (R141, R142). -/
def State.submitted (s : State) (t : Fin 4) (op : Op) : State :=
  let g := s.direct.staging
  { s with direct := { s.direct with
    slots := s.direct.slots.set t
      { state := .queued, outcome := none, value := 0#32, cancelLate := false,
        request := { address := g.address, op := op, index := g.index, length := g.length, data := g.data,
                     urgent := g.urgent, lock := g.lock } }
    order := if g.urgent then s.direct.order.filter s.urgent ++ t :: s.direct.order.filter (fun k => !s.urgent k)
      else s.direct.order ++ [t] } }

theorem execSubmit_eq (up : s.resetHeld = false) (ok : s.DirectOk) {t : Fin 4} {op : Op}
    (valid : ¬ s.direct.staging.Wrong) (code : s.direct.staging.opcode = op.code)
    (free : (s.direct.slots[t]).state = .free) (lowest : ∀ k, k < t → (s.direct.slots[k]).state ≠ .free) :
    exec .submit s = .next (answer 10#8 .accepted (BitVec.ofNat 4 t.val)
      (arbiterSubmit t s.direct.staging.urgent (s.submitted t op))) := by
  refine live_eq up ?_
  simp only [request_of_valid valid code, freeSlot_eq free lowest]
  rw [queueRequest, insertTag_eq ok]
  rfl

/-- The request on the link is not the one just queued, whose slot was FREE. -/
theorem submitted_lockOnLink (ok : s.DirectOk) {t : Fin 4} (op : Op) {x : Transaction} {k : Fin 4}
    (free : (s.direct.slots[t]).state = .free) (txn : s.link.txn = some x) (requester : x.requester = .direct k) :
    (s.submitted t op).lockOnLink = s.carriesLock k := by
  have active : (s.direct.slots[k]).state = .active := (ok.active k).2 ⟨x, txn, requester⟩
  have other : t.val ≠ k.val := fun same => by
    rw [Fin.ext same, active] at free
    cases free
  have link : (s.submitted t op).link.txn = some x := txn
  simp only [State.lockOnLink, link, requester]
  simp [State.carriesLock, State.submitted, Vector.getElem_set_ne _ _ other]

/-- Settles O45. -/
theorem submitResult : Obligations.SubmitResult := by
  intro s up inv g wrong
  refine ⟨fun bad => live_eq up ?_, fun valid full => live_eq up ?_, fun t op valid code free lowest => ?_⟩
  · rw [request_of_wrong (g := s.direct.staging) bad]
  · obtain ⟨r, request⟩ := request_some_of_valid (g := s.direct.staging) valid
    rw [request, freeSlot_none full]
  · intro u done
    have submit : ∀ v, arbiterSubmit t g.urgent u = v → done v := fun v h =>
      h ▸ execSubmit_eq up inv.direct valid code free lowest
    have arb : u.arb = s.arb := rfl
    have onLink : ∀ x k, s.link.txn = some x → x.requester = .direct k → u.lockOnLink = s.carriesLock k :=
      fun x k => submitted_lockOnLink inv.direct op free
    clear_value u
    refine ⟨fun lock => submit _ ?_, fun x k lock plain txn requester carries => submit _ ?_,
      fun x k lock txn requester stays => submit _ ?_, fun kept => submit _ ?_, fun k d lock plain => submit _ ?_,
      fun k d lock urgent => submit _ ?_⟩
    · rw [arbiterSubmit, arb, lock]
    · rw [arbiterSubmit, arb, lock]
      dsimp only
      rw [onLink x k txn requester, carries, plain, setLock, arb]
      rfl
    · rw [arbiterSubmit, arb, lock]
      dsimp only
      rw [onLink x k txn requester]
      rcases stays with urgent | carries
      · simp [urgent]
      · simp [carries]
    · rcases kept with ⟨k, lock⟩ | lock <;> rw [arbiterSubmit, arb, lock]
    · rw [arbiterSubmit, arb, lock, plain]
      rfl
    · rw [arbiterSubmit, arb, lock, urgent]
      rfl

end Sys2Proof.Machine
end

section
/-! Starts: what START and TRIGGER do where no chain breaks in, refuted for a part in which a grant to the Sequencer is
left to a happening of its own, and the break-in of an injected chain (sections 4.5, 5.1 to 5.4, 6.5). -/

namespace Sys2Proof.Machine

-- One proof at a time: the whole text is compiled in one process of bounded memory.
set_option Elab.async false

/-! ## START and TRIGGER take a grant that was left

A start that joins a waiting set or sets a pass aside is still a happening that a decision can follow (R130), so where a
grant to the Sequencer is left to a happening of its own (log entry 27), the start makes it. -/

/-- INJ0 runs with its item in GRANT_WAIT on a free link, and the grant it asks for is left to a happening of its own.
NORMAL and INJ1 are enabled and wait for nothing. -/
def grantLeft : State :=
  let station : StationEntry := { address := 5#5, enabled := true }
  let chain : ChainDef := { enabled := true, first := 0#6, count := 1#7 }
  { State.reset with
    stations := { State.reset.stations with entries := State.reset.stations.entries.set 0 station }
    tables := { State.reset.tables with
      items := State.reset.tables.items.set 0 { kind := .read }
      normal := chain
      inj := (State.reset.tables.inj.set 0 chain).set 1 chain }
    seq := { top := .running, active := .inj 0, item := some {}, injRun := some {} }
    arb := { apart := true } }

theorem grantLeft_inv : grantLeft.Inv := State.checkInv_sound (by decide)

/-- What a command leaves on the link. -/
def linkAfter : Host.Outcome State Fault Refusal → Option EngineState
  | .next t => some t.link.phase
  | _ => none

/-- Refutes O35: START behind an injected chain also makes the grant that was left, so the engine is SENDING. -/
theorem not_startResult : ¬ Obligations.StartResult := by
  intro h
  have start := (((h grantLeft rfl grantLeft_inv).2.1 rfl rfl).2.2.2.2.2 0 rfl rfl rfl)
  exact absurd (congrArg linkAfter start) (by decide)

/-- Refutes O37: TRIGGER 1 while INJ0 runs queues INJ1 and also makes the grant that was left, so the engine is
SENDING. -/
theorem not_triggerWaits : ¬ Obligations.TriggerWaits := by
  intro h
  have trigger := ((h grantLeft 1#8 rfl grantLeft_inv).2.2.2 1 rfl rfl rfl).2 rfl (.inr (.inl ⟨0, rfl⟩))
  exact absurd (congrArg linkAfter trigger) (by decide)

/-! ## A chain is taken -/

section
variable {s : State}

/-- INJ k with its run at the first expected position and that position's item in GRANT_WAIT (R86, R94). -/
def State.injectedTaken (s : State) (k : Fin 8) (left : BitVec 8) : State :=
  let p := (s.nextExpected (.inj k) 0).getD 0
  { s with seq := { s.seq with
      top := .running, active := .inj k, pendingSet := left
      injRun := some { position := p, mask := 0#64, done := 0, errors := 0, chainAbort := false }
      item := some { item := (s.tables.inj[k]).first.toNat + p, position := p } } }

theorem takeLowest_eq {k : Fin 8} (lowest : s.lowestPending = some k) :
    takeLowest s = s.injectedTaken k (s.seq.pendingSet &&& ~~~(1#8 <<< k.val)) := by
  simp only [takeLowest, lowest]
  rfl

theorem chains_all : ∀ k : Fin 8, k ∈ [0, 1, 2, 3, 4, 5, 6, 7] := by decide

theorem lowestPending_eq {k : Fin 8} (pending : s.isPending k = true) (lowest : ∀ j, j < k → s.isPending j = false) :
    s.lowestPending = some k :=
  find?_of_lowest (by decide) (chains_all k) pending lowest

theorem schedule_idle (top : s.seq.top = .idle ∨ s.seq.top = .running) (active : s.seq.active = .none)
    (pending : s.seq.pendingSet ≠ 0#8) : schedule s = takeLowest s := by
  rcases top with top | top <;> simp only [schedule, proceed, top, active, if_neg pending]

theorem schedule_breaksIn (top : s.seq.top = .idle ∨ s.seq.top = .running) (active : s.seq.active = .normal)
    (pending : s.seq.pendingSet ≠ 0#8) (yields : s.normalYields = true) : schedule s = takeLowest (setAside s) := by
  rcases top with top | top <;> simp only [schedule, proceed, top, active, if_pos (And.intro pending yields)]

theorem joined_pending : ∀ k : Fin 8, 0#8 ||| (1#8 <<< k.val) ≠ 0#8 ∧
    (0#8 ||| (1#8 <<< k.val)) &&& ~~~(1#8 <<< k.val) = 0#8 := by decide

theorem isPending_of_zero (pending : s.seq.pendingSet = 0#8) (k : Fin 8) : s.isPending k = false := by
  simp [State.isPending, pending]

/-- The set held nothing before INJ k joined it, so INJ k is the chain that is taken, and the set is as it was. -/
theorem takeLowest_joined {k : Fin 8} {old : BitVec 8} (joined : s.seq.pendingSet = old ||| (1#8 <<< k.val))
    (empty : old = 0#8) : takeLowest s = s.injectedTaken k old := by
  have only : ∀ k j : Fin 8, (0#8 ||| (1#8 <<< k.val)).getLsbD j.val = decide (j = k) := by decide
  subst empty
  have pending : ∀ j, s.isPending j = decide (j = k) := fun j => by rw [State.isPending, joined, only]
  have lowest : s.lowestPending = some k := lowestPending_eq (by simp [pending]) fun j less => by
    simp [pending, less.ne]
  rw [takeLowest_eq lowest, joined, (joined_pending k).2]

/-- A start of INJ k that is taken at once: the state it leaves, and the answer. -/
theorem execTrigger_taken (up : s.resetHeld = false) {arg : Byte} {k : Fin 8} (named : arg.toNat = k.val)
    (isArmed : s.isArmed = true) (enabled : (s.tables.inj[k]).enabled = true) (pending : s.seq.pendingSet = 0#8)
    {t : State} (taken : schedule (joinPending k s) = t) (left : t.seq.pendingSet = 0#8) :
    exec (.trigger arg) s = .next (answer 5#8 .accepted (arg.extractLsb' 0 4) (arbitrate t)) := by
  have chain : chainOfSelect arg.toNat = some (.inj k) := by
    rw [named]
    exact chainOfSelect_selectCode (.inj k)
  have start : startChain (.inj k) s = (.accepted, arbitrate t) := by
    simp [startChain, startInjected, isPending_of_zero pending, taken, isPending_of_zero left]
  refine live_eq up ?_
  rw [chain]
  have permitted : (!s.isArmed || !(s.chainDef (.inj k)).enabled ||
      (Chain.inj k == .normal && s.tables.normalMode == .continuous)) = false := by
    rw [show (s.chainDef (.inj k)).enabled = true from enabled, isArmed]
    rfl
  simp only [permitted, Bool.false_eq_true, if_false, start]
  rfl

/-- Nothing is suspended while no injected chain is active, and an item that has not left GRANT_WAIT holds no tenure. -/
theorem State.SequencerOk.unsuspended (ok : s.SequencerOk) (active : ∀ k, s.seq.active ≠ .inj k) :
    s.seq.suspended = none := by
  by_contra some
  obtain ⟨j, other⟩ := ok.suspended (Option.isSome_iff_ne_none.2 some)
  exact active j other

theorem State.SequencerOk.no_tenure (ok : s.SequencerOk)
    (waits : ∀ it, s.seq.item = some it → it.phase = .grantWait) : s.arb.tenure = false := by
  by_contra some
  obtain ⟨i, item, left⟩ := ok.tenure (by simpa using some)
  exact left (waits i item)

/-- Settles O38. -/
theorem injectionBreaksIn : Obligations.InjectionBreaksIn := by
  intro s arg k up inv named isArmed enabled flowing pending p taken
  have ok := inv.sequencer
  have joins : (joinPending k s).seq.pendingSet = s.seq.pendingSet ||| (1#8 <<< k.val) := rfl
  have some_pending : (joinPending k s).seq.pendingSet ≠ 0#8 := by
    rw [joins, pending]
    exact (joined_pending k).1
  have same : s.seq.suspended = none → s.arb.tenure = false → taken none false = taken s.seq.suspended s.arb.tenure :=
    fun suspended tenure => by rw [suspended, tenure]
  refine ⟨fun top => ?_, fun it active item phase restarts => ?_, fun it active item waits => ?_⟩
  · obtain ⟨active, -⟩ := ok.idle top
    have item : s.seq.item = none := (ok.context active).1
    rw [same (ok.unsuspended (by simp [active])) (ok.no_tenure (by simp [item]))]
    exact execTrigger_taken up named isArmed enabled pending
      ((schedule_idle (s := joinPending k s) (.inl top) active some_pending).trans (takeLowest_joined joins pending))
      pending
  · have top : s.seq.top = .running := ok.running.2 (by simp [item])
    have yields : (joinPending k s).normalYields = true := by
      simp [State.normalYields, joinPending, item, phase, restarts]
    have aside : setAside (joinPending k s) = setItem none (joinPending k s) := by
      simp [setAside, joinPending, item, ItemRun.waits, phase]
    rw [same (ok.unsuspended (by simp [active])) (ok.no_tenure (by simp [item, phase]))]
    exact execTrigger_taken up named isArmed enabled pending
      ((schedule_breaksIn (s := joinPending k s) (.inr top) active some_pending yields).trans
        (aside ▸ takeLowest_joined joins pending)) pending
  · have top : s.seq.top = .running := ok.running.2 (by simp [item])
    have iwaits : it.waits = true := by rcases waits with phase | phase <;> simp [ItemRun.waits, phase]
    have yields : (joinPending k s).normalYields = true := by
      rcases waits with phase | phase <;> simp [State.normalYields, joinPending, item, phase]
    have aside : setAside (joinPending k s) = setTenure false (setItem none (setSuspended (some
        { item := it.item, position := it.position, fetchDue := it.phase == .fetchWait, ackTime := it.ackTime,
          convDue := it.convDue, restarts := it.restarts, touched := it.touched }) (joinPending k s))) := by
      simp [setAside, joinPending, item, iwaits]
    exact execTrigger_taken up named isArmed enabled pending
      ((schedule_breaksIn (s := joinPending k s) (.inr top) active some_pending yields).trans
        (aside ▸ takeLowest_joined joins pending)) pending

end

end Sys2Proof.Machine
end

section
/-! The positions of a chain, and how the Sequencer goes on (sections 3.2, 4.1, 4.3, 5.1, 5.2, 5.4, 5.6). -/

namespace Sys2Proof.Machine

-- One proof at a time: the whole text is compiled in one process of bounded memory.
set_option Elab.async false

variable {s : State}

/-! ## Expected positions -/

/-- A position is expected when it lies inside the chain's count and its item is not OFF; then its item is one of the 64
(R45). -/
theorem isExpected_iff (c : Chain) (q : Nat) : s.isExpected c q = true ↔
    q < (s.chainDef c).count.toNat ∧
      ∃ n : Fin 64, n.val = (s.chainDef c).first.toNat + q ∧ (s.tables.items[n]).kind ≠ .off := by
  unfold State.isExpected State.itemNumber
  rw [Bool.and_eq_true, decide_eq_true_iff, bne_iff_ne]
  refine and_congr_right fun _ => ⟨fun on => ?_, ?_⟩
  · by_cases inside : (s.chainDef c).first.toNat + q < 64
    · exact ⟨⟨_, inside⟩, rfl, by rwa [State.itemAt, dif_pos inside] at on⟩
    · rw [State.itemAt, dif_neg inside] at on
      exact absurd rfl on
  · rintro ⟨n, number, on⟩
    rwa [← number, itemAt_val]

theorem expected_inside {c : Chain} {q : Nat} (h : s.isExpected c q = true) : q < 64 := by
  obtain ⟨-, n, number, -⟩ := (isExpected_iff c q).1 h
  omega

theorem nextExpected_some_iff (c : Chain) (p q : Nat) : s.nextExpected c p = some q ↔
    p ≤ q ∧ s.isExpected c q = true ∧ ∀ r, p ≤ r → r < q → ¬ s.isExpected c r = true := by
  unfold State.nextExpected
  rw [find?_eq_some_iff_lowest List.pairwise_lt_range]
  simp only [List.mem_range, Bool.and_eq_true, decide_eq_true_iff, Bool.and_eq_false_iff, decide_eq_false_iff_not]
  constructor
  · rintro ⟨inside, ⟨from_p, here⟩, before⟩
    refine ⟨from_p, here, fun r le less => ?_⟩
    rcases before r (by omega) less with below | off
    · exact absurd le below
    · simp [off]
  · rintro ⟨from_p, here, before⟩
    refine ⟨expected_inside here, ⟨from_p, here⟩, fun r _ less => ?_⟩
    by_cases le : p ≤ r
    · exact .inr (by simpa using before r le less)
    · exact .inl le

theorem nextExpected_none_iff (c : Chain) (p : Nat) :
    s.nextExpected c p = none ↔ ∀ q, p ≤ q → ¬ s.isExpected c q = true := by
  unfold State.nextExpected
  rw [List.find?_eq_none]
  simp only [List.mem_range, Bool.and_eq_true, decide_eq_true_iff, not_and]
  exact ⟨fun h q le here => h q (expected_inside here) le here, fun h q _ => h q⟩

/-- What HandOverChoices says of the positions of a chain, for its definition as the statement writes it. -/
theorem positions_spec (c : Chain) (p : Nat) (chain : ChainDef) (is : chain = s.chainDef c) :
    let expected := fun q : Nat =>
      q < chain.count.toNat ∧ ∃ n : Fin 64, n.val = chain.first.toNat + q ∧ (s.tables.items[n]).kind ≠ .off
    (∀ q, s.nextExpected c p = some q ↔ p ≤ q ∧ expected q ∧ ∀ r, p ≤ r → r < q → ¬ expected r) ∧
    (s.nextExpected c p = none ↔ ∀ q, p ≤ q → ¬ expected q) ∧
    (∀ q, s.itemNumber c q = chain.first.toNat + q) ∧ ∀ n : Fin 64, s.itemAt n.val = s.tables.items[n] := by
  subst is
  simp only [← isExpected_iff]
  exact ⟨nextExpected_some_iff c p, nextExpected_none_iff c p, fun q => rfl, itemAt_val⟩

/-! ## Going on -/

theorem schedule_stays (idle : s.seq.top ≠ .idle) (running : s.seq.top ≠ .running) : schedule s = s := by
  unfold schedule
  split
  next h => exact absurd h idle
  next h => exact absurd h running
  next => rfl

theorem proceed_stays (idle : s.seq.top ≠ .idle) (running : s.seq.top ≠ .running) : proceed s = s := by
  unfold proceed
  split
  next h => exact absurd h idle
  next h => exact absurd h running
  next => rfl

/-- Where no injected chain is active the Sequencer goes on as proceed says. -/
theorem schedule_eq_proceed (active : ∀ k, s.seq.active ≠ .inj k) : schedule s = proceed s := by
  by_cases top : s.seq.top = .idle ∨ s.seq.top = .running
  · cases context : s.seq.active with
    | inj k => exact absurd context (active k)
    | none => rcases top with top | top <;> simp only [schedule, top, context]
    | normal => rcases top with top | top <;> simp only [schedule, top, context]
  · obtain ⟨idle, running⟩ := not_or.1 top
    rw [schedule_stays idle running, proceed_stays idle running]

theorem schedule_injected {k : Fin 8} (top : s.seq.top = .idle ∨ s.seq.top = .running)
    (active : s.seq.active = .inj k) : schedule s = match s.seq.injRun with
      | none => handOver s
      | some _ => if s.seq.item = none then beginItem (.inj k) s else s := by
  cases run : s.seq.injRun <;> rcases top with top | top <;> simp only [schedule, top, active, run]

theorem schedule_none (top : s.seq.top = .idle ∨ s.seq.top = .running) (active : s.seq.active = .none) :
    schedule s = if s.seq.pendingSet = 0#8 then setTop .idle s else takeLowest s := by
  rcases top with top | top <;> simp only [schedule, proceed, top, active]

theorem schedule_normal (top : s.seq.top = .idle ∨ s.seq.top = .running) (active : s.seq.active = .normal) :
    schedule s = if s.seq.pendingSet ≠ 0#8 ∧ s.normalYields then takeLowest (setAside s)
      else if s.seq.item = none then beginItem .normal s else s := by
  rcases top with top | top <;> simp only [schedule, proceed, top, active]

theorem handOver_pending (pending : s.seq.pendingSet ≠ 0#8) : handOver s = takeLowest s := if_pos pending

theorem handOver_restores {r : Suspension} (pending : s.seq.pendingSet = 0#8) (suspended : s.seq.suspended = some r) :
    handOver s = restore r s := by
  rw [handOver, if_neg (not_not.2 pending), suspended]

theorem handOver_boundary (pending : s.seq.pendingSet = 0#8) (suspended : s.seq.suspended = none) :
    handOver s = if s.seq.pass.present then beginItem .normal (setActive .normal s)
      else setTop .idle (setActive .none s) := by
  rw [handOver, if_neg (not_not.2 pending), suspended]

theorem removed_eq (p : BitVec 8) (j k : Fin 8) :
    (p &&& ~~~(1#8 <<< k.val)).getLsbD j.val = (p.getLsbD j.val && j != k) := by
  have only : ∀ k j : Fin 8, (~~~(1#8 <<< k.val)).getLsbD j.val = (j != k) := by decide
  rw [BitVec.getLsbD_and, only]

/-- The suspended item is back in NORMAL, its record gone (R100). -/
def State.restoring (s : State) : State := setActive .normal (setSuspended none s)

/-- The restore's three ways on (R100). -/
theorem restore_eq (r : Suspension) (s : State) : restore r s =
    if s.itemOffline r.item then proceed (completeCurrent .normal r.toRun .offline none s.restoring)
    else if r.touched then
      if r.restarts < 3 then setItem (some r.toRun.restarted) s.restoring
      else proceed (completeCurrent .normal r.toRun .starved none s.restoring)
    else setItem (some r.toRun) s.restoring := rfl

theorem completeCurrent_pending (c : Chain) (it : ItemRun) (o : ItemOutcome) (v : Option Value) (s : State) :
    (completeCurrent c it o v s).seq.pendingSet = s.seq.pendingSet ∧
    (completeCurrent c it o v s).seq.suspended = s.seq.suspended := by
  have kept := advance_kept c (finishItem c it o v s)
  have offering := completeItem_offering c it o v s
  exact ⟨kept.pendingSet.trans offering.pendingSet, kept.suspended.trans offering.suspended⟩

theorem proceed_suspended (pending : s.seq.pendingSet = 0#8) : (proceed s).seq.suspended = s.seq.suspended := by
  unfold proceed
  simp only [pending, ne_eq, not_true_eq_false, false_and, if_true, if_false]
  split
  all_goals
    repeat' split
    all_goals rfl

/-- A restored item that fails at once: what the completion leaves, and that it is a completion of NORMAL (R100). -/
theorem restore_fails {r : Suspension} {o : ItemOutcome} (failure : o.isFailure = true)
    (pending : s.seq.pendingSet = 0#8)
    (falls : handOver s = proceed (completeCurrent .normal r.toRun o none s.restoring)) :
    let t := handOver s
    t.seq.suspended = none ∧ t.latched .itemError = true ∧ t.link = s.link ∧ t.stations = s.stations ∧
    t.results.slots = s.failedSlots .normal r.toRun o ∧
    (s.seq.top = .running → ∃ (it : ItemRun) (w : State), t = schedule w ∧ it.item = r.item ∧
      it.position = r.position ∧ it.restarts = r.restarts ∧
      ({ s with seq := { s.seq with active := .normal, suspended := none } } : State).Completes w .normal it o
        none false) := by
  have frame := handOver_seqFrame s
  obtain ⟨pends, susp⟩ := completeCurrent_pending .normal r.toRun o none s.restoring
  have stays := completeCurrent_normal (it := r.toRun) (o := o) (v := none) (s := s.restoring) rfl
  refine ⟨?_, ?_, frame.link, frame.stations, ?_, fun top => ⟨r.toRun,
    completeCurrent .normal r.toRun o none s.restoring, ?_, rfl, rfl, rfl, ?_⟩⟩
  · rw [falls, proceed_suspended (pends.trans pending), susp]
    rfl
  · rw [falls]
    exact (proceed_onward _).latched _ (completeCurrent_itemError failure ..)
  · rw [falls, proceed_results, completeCurrent_slots failure]
    rfl
  · rw [falls, schedule_eq_proceed stays]
  · exact completeCurrent_completes r.toRun o none rfl (fun idle => Top.noConfusion (top.symm.trans idle))
      fun ne => absurd rfl ne

/-- Settles O57. -/
theorem handOverChoices : Obligations.HandOverChoices := by
  refine ⟨fun s c p => positions_spec c p _ (by cases c <;> rfl), fun s => ⟨schedule_stays, fun top => ?_, ?_, ?_⟩⟩
  · intro begins
    refine ⟨fun k active => ?_, fun active => ?_, fun active => ?_⟩
    · have goes := schedule_injected top active
      refine ⟨fun run => by rw [goes, run], fun r it run item => ?_, fun r run item => ?_⟩
      · rw [goes, run]
        exact if_neg (by simp [item])
      · rw [goes, run]
        refine (if_pos item).trans ?_
        simp only [beginItem, State.runOf, run]
        rfl
    · rw [schedule_none top active]
      exact ⟨fun pending => if_pos pending, fun pending => (if_neg pending).trans (handOver_pending pending).symm⟩
    · rw [schedule_normal top active]
      refine ⟨fun item => ⟨fun pending => ?_, fun pending => ?_⟩, fun it item => ⟨fun stays => ?_, ?_, ?_⟩⟩
      · rw [if_neg (fun h => h.1 pending), if_pos item]
        rfl
      · rw [if_pos ⟨pending, by simp [State.normalYields, item]⟩, handOver_pending pending, setAside, item]
      · refine (if_neg ?_).trans (if_neg (by simp [item]))
        rintro ⟨some_pending, yields⟩
        rcases stays with pending | phase | phase | ⟨phase, restarts⟩
        · exact some_pending pending
        all_goals simp [State.normalYields, item, phase] at yields
        exact restarts yields
      · intro pending phase restarts
        rw [if_pos ⟨pending, by simp [State.normalYields, item, phase, restarts]⟩]
        refine Eq.trans ?_ (Eq.symm (handOver_pending pending))
        simp [setAside, item, ItemRun.waits, phase, setItem]
      · intro pending waits
        have iwaits : it.waits = true := by rcases waits with phase | phase <;> simp [ItemRun.waits, phase]
        have yields : s.normalYields = true := by
          rcases waits with phase | phase <;> simp [State.normalYields, item, phase]
        rw [if_pos ⟨pending, yields⟩]
        refine Eq.trans ?_ (Eq.symm (handOver_pending pending))
        simp only [setAside, item, iwaits, if_true]
        rfl
  · intro k pending lowest p
    have found := lowestPending_eq pending lowest
    have some_pending : s.seq.pendingSet ≠ 0#8 := fun zero => by simp [isPending_of_zero zero] at pending
    exact ⟨_, (handOver_pending some_pending).trans (takeLowest_eq found), fun j => removed_eq _ j k⟩
  · intro pending
    refine ⟨fun r suspended => ?_, fun suspended => ⟨fun present => ?_, fun absent => ?_⟩⟩
    · have restores := (handOver_restores pending suspended).trans (restore_eq r s)
      intro back ends
      have fails : ∀ o : ItemOutcome, o.isFailure = true →
          handOver s = proceed (completeCurrent .normal r.toRun o none s.restoring) → ends o :=
        fun o failure falls => restore_fails failure pending falls
      refine ⟨fun offline => fails _ rfl ?_, fun online => ⟨fun touched many => fails _ rfl ?_,
        fun touched few => ?_, fun untouched => ?_⟩⟩ <;> refine restores.trans ?_
      · exact if_pos ((itemOffline_iff _).2 offline)
      all_goals rw [if_neg (mt (itemOffline_iff _).1 online)]
      · rw [if_pos touched, if_neg (by omega)]
      · rw [if_pos touched, if_pos few]
        rfl
      · rw [if_neg (by simp [untouched])]
        simp only [Suspension.toRun, untouched]
        rfl
    · rw [handOver_boundary pending suspended, if_pos present]
      rfl
    · rw [handOver_boundary pending suspended, if_neg (by simp [absent])]
      rfl

end Sys2Proof.Machine
end

section
/-! The ends of runs: what a pass and an injected run leave, and what follows a pass (sections 4.5, 5.4, 7.2, 9.4). -/

namespace Sys2Proof.Machine

-- One proof at a time: the whole text is compiled in one process of bounded memory.
set_option Elab.async false

variable {s : State}

/-! ## What an offer leaves -/

/-- An offer moves the queue, the hold list, the drop counter, the latch and the top state alone. -/
theorem offer_eq (r : Record) (s : State) : offer r s = { s with
    results := { s.results with
      queue := (offer r s).results.queue, hold := (offer r s).results.hold, drops := (offer r s).results.drops }
    window := { s.window with latch := (offer r s).window.latch }
    seq := { s.seq with top := (offer r s).seq.top } } := by
  unfold offer enqueue Machine.discard holdRecord
  repeat' split
  all_goals rfl

/-- A mask is copied before or after an offer. -/
theorem offer_copyMask (r : Record) (c : Chain) (m : BitVec 64) (s : State) :
    offer r (copyMask c m s) = copyMask c m (offer r s) := by
  cases c <;>
  · unfold offer enqueue Machine.discard holdRecord State.queueHasRoom copyMask
    dsimp only
    repeat' split
    all_goals rfl

theorem offer_held (r : Record) (live : r.isAbort = false) (full : s.results.queue.length = 32)
    (stall : s.results.policy = .stall) : offer r s = holdRecord r s := by
  simp [offer, State.queueHasRoom, full, Config.queueCapacity, live, stall]

/-! ## The ends of runs in every state -/

/-- The state an injected run's end leaves of s, where the offer of its record leaves o (R96, R98). -/
def State.injRunEnded (s : State) (k : Fin 8) (run : RunContext) (o : State) : State :=
  { s with
    results := { s.results with
      injMasks := s.results.injMasks.set k (run.mask.setWidth 16)
      queue := o.results.queue, hold := o.results.hold, drops := o.results.drops }
    window := { s.window with latch := o.window.latch ||| Event.mask .injEnd }
    seq := { s.seq with
      top := o.seq.top, item := none, injRun := none
      active := if o.seq.top = .queueWait ∧ s.seq.suspended = none then
        (if s.seq.pass.present then .normal else .none) else s.seq.active } }

/-- The state the end of a NORMAL pass leaves of s, where the offer of its record leaves o (R74, R131). -/
def State.passEnded (s o : State) : State :=
  { s with
    results := { s.results with
      normalMask := s.seq.pass.run.mask, queue := o.results.queue, hold := o.results.hold, drops := o.results.drops }
    window := { s.window with latch := o.window.latch ||| Event.mask .passEnd }
    arb := { s.arb with boundaryGrant := s.arb.mode == .seqFirst || s.arb.boundaryGrant }
    seq := { s.seq with
      top := o.seq.top
      pass := { s.seq.pass with present := false, run := { s.seq.pass.run with chainAbort := false } } } }

theorem endInjRun_eq (k : Fin 8) (aborted : Bool) (s : State) : endInjRun k aborted s =
    s.injRunEnded k (s.runOf (.inj k))
      (offer (.injEnd k (s.runOf (.inj k)).done (s.runOf (.inj k)).errors aborted) s) := by
  unfold endInjRun
  dsimp only
  rw [offer_copyMask]
  have same := offer_eq (.injEnd k (s.runOf (.inj k)).done (s.runOf (.inj k)).errors aborted) s
  generalize offer _ s = o at same ⊢
  rw [same]
  rfl

theorem endPass_offer (aborted : Bool) (s : State) : endPass aborted s =
    s.passEnded (offer (.passEnd s.seq.pass.number s.seq.pass.run.done s.seq.pass.run.errors aborted) s) := by
  rw [endPass_eq]
  dsimp only
  rw [offer_copyMask]
  have same := offer_eq (.passEnd s.seq.pass.number s.seq.pass.run.done s.seq.pass.run.errors aborted) s
  generalize offer _ s = o at same ⊢
  rw [same]
  rfl

/-! ## What follows a pass -/

/-- A pass that begins after another: NORMAL stays active, and from IDLE the Sequencer is RUNNING (R72, R75). -/
theorem beginPass_normal_eq (active : s.seq.active = .normal) : beginPass s = { s with seq := { s.seq with
    pass := { s.seq.pass with
      present := true, number := s.seq.pass.number + 1#16
      run := { position := (s.nextExpected .normal 0).getD 0, mask := 0#64, done := 0, errors := 0,
               chainAbort := false } }
    top := if s.seq.top = .idle then .running else s.seq.top } } := by
  unfold beginPass
  have stays : ¬ (setPass { s.seq.pass with
      present := true, number := s.seq.pass.number + 1#16
      run := { position := (s.nextExpected .normal 0).getD 0 } } s).seq.active = .none := by
    simp [active]
  dsimp only
  rw [if_neg stays]
  by_cases idle : s.seq.top = .idle
  · rw [if_pos (by exact idle), if_pos idle]
    rfl
  · rw [if_neg (by exact idle), if_neg idle]
    rfl

theorem passFollows_oneShot (mode : s.tables.normalMode = .oneShot) : s.passFollows = s.seq.pass.startPending := by
  rw [State.passFollows, mode]

theorem passFollows_continuous (mode : s.tables.normalMode = .continuous) :
    s.passFollows = !s.seq.pass.stopAfter := by
  rw [State.passFollows, mode]

theorem followPass_cases (s : State) :
    let p := s.seq.pass
    let oneShot := s.tables.normalMode = .oneShot
    let flags : PassContext := { p with
      startPending := if oneShot then false else p.startPending
      stopAfter := if s.tables.normalMode = .continuous then false else p.stopAfter }
    (s.passFollows = true → followPass s =
      beginPass { s with seq := { s.seq with active := .normal, item := none, pass := flags } }) ∧
    (s.passFollows = false → followPass s =
      { s with seq := { s.seq with active := .none, item := none, pass := flags } }) := by
  intro p oneShot flags
  constructor <;> intro follows <;> rw [followPass, follows] <;> rfl

/-- Settles O56. -/
theorem runEnds : Obligations.RunEnds := by
  refine ⟨fun s k aborted => ?_, fun s aborted => ⟨endPass_offer aborted s, fun k r run => ?_⟩,
    fun s full stall waits => ?_, fun s aborted hold room => ?_⟩
  · intro t
    have ends : t = _ := endInjRun_eq k aborted s
    rw [ends]
    exact ⟨rfl, rfl, rfl, rfl, rfl, rfl⟩
  · rw [endInjRun_eq, State.runOf, run]
    rfl
  · intro p latch
    have holds (r : Record) (live : r.isAbort = false) : offer r s = { s with
        results := { s.results with hold := s.results.hold ++ [r] }
        seq := { s.seq with top := .queueWait }
        window := { s.window with latch :=
          if s.results.hold = [] then s.window.latch ||| Event.mask .queueStall else s.window.latch } } := by
      rw [offer_held r live full stall, holdRecord]
      by_cases first : s.results.hold = []
      · simp only [first, if_true]
        rfl
      · have waiting := waits first
        simp only [first, if_false, ← waiting]
    refine ⟨?_, fun k r run => ?_⟩
    · rw [endPass_offer, holds _ rfl]
      rfl
    · rw [endInjRun_eq, State.runOf, run, holds _ rfl]
      simp only [State.injRunEnded, Option.getD_some, true_and]
      rfl
  · intro latch p
    have enters (r : Record) : offer r s = { s with
        results := { s.results with queue := s.results.queue ++ [r] }
        window := { s.window with latch := s.window.latch |||
          (if s.results.queue = [] then Event.mask .queueData else 0#12) } } := by
      rw [offer_room r s hold room, enqueue]
      by_cases empty : s.results.queue = []
      · simp only [empty, if_true]
        rfl
      · simp [empty]
    refine ⟨?_, fun k r run flowing => ?_, ?_⟩
    · rw [endPass_offer, enters]
      rfl
    · rw [endInjRun_eq, State.runOf, run, enters]
      simp only [State.injRunEnded, Option.getD_some, flowing, false_and, if_false]
      rfl
    · intro first next rest
      obtain ⟨begins, ends⟩ := followPass_cases s
      refine ⟨fun mode => ⟨fun pending => ?_, fun idle => ?_⟩, fun mode => ⟨fun goes => ?_, fun stops => ?_⟩⟩
      · rw [begins ((passFollows_oneShot mode).trans pending), beginPass_normal_eq rfl, mode]
        rfl
      · have clear : p = { p with startPending := false } := by rw [← idle]
        rw [ends ((passFollows_oneShot mode).trans idle), mode]
        exact Eq.trans rfl (congrArg rest clear).symm
      · have clear : p = { p with stopAfter := false } := by rw [← goes]
        rw [begins ((passFollows_continuous mode).trans (congrArg not goes)), beginPass_normal_eq rfl, mode]
        exact Eq.trans rfl (congrArg next clear).symm
      · rw [ends ((passFollows_continuous mode).trans (congrArg not stops)), mode]
        rfl

end Sys2Proof.Machine
end

section
/-! What an abort of the current item and of the current run leaves (sections 8.2 and 8.3). -/

namespace Sys2Proof.Machine

-- One proof at a time: the whole text is compiled in one process of bounded memory.
set_option Elab.async false

variable {s t w : State}

/-! ## The run of the current item -/

/-- While an item is in progress the Sequencer is RUNNING and its chain's run exists. -/
theorem State.SequencerOk.inProgress (ok : s.SequencerOk) {it : ItemRun} (item : s.seq.item = some it) :
    s.seq.top = .running ∧ s.results.hold = [] ∧ ∃ c, s.seq.active.chain = some c ∧
      (c ≠ .normal → s.seq.injRun.isSome = true) := by
  have top : s.seq.top = .running := ok.running.2 (by simp [item])
  have hold : s.results.hold = [] := by
    by_contra held
    exact absurd ((ok.waiting.2 held).symm.trans top) nofun
  refine ⟨top, hold, ?_⟩
  cases active : s.seq.active with
  | none => exact absurd ((ok.context active).1.symm.trans item) nofun
  | normal => exact ⟨.normal, rfl, fun ne => absurd rfl ne⟩
  | inj k =>
    refine ⟨.inj k, rfl, fun _ => Option.isSome_iff_ne_none.2 fun run => ?_⟩
    exact absurd ((ok.ended k active run).1.symm.trans top) nofun

theorem offers_one_room {l : List Record} (short : l.length ≤ 1) (offers : s.Offers w l) (hold : s.results.hold = [])
    (room : s.results.queue.length < 32) : w.results.queue = s.results.queue ++ l ∧ w.seq.top = s.seq.top := by
  obtain ⟨queue, -, -, top, -⟩ := offers
  match l with
  | [] => exact ⟨queue.trans (List.append_nil _).symm, top⟩
  | [r] =>
    have enters : offer r s = enqueue r s := offer_room r s hold room
    simp only [List.foldl_cons, List.foldl_nil, enters] at queue top
    rw [queue, top]
    unfold enqueue
    dsimp only
    split <;> exact ⟨rfl, rfl⟩

theorem itemRecords_short (c : Chain) (it : ItemRun) (o : ItemOutcome) (v : Option Value) :
    (s.itemRecords c it o v).length ≤ 1 := by
  unfold State.itemRecords
  dsimp only
  split <;> simp

theorem updateRun_active (c : Chain) (f : RunContext → RunContext) (s : State) :
    (updateRun c f s).seq.active = s.seq.active := by cases c <;> rfl

theorem updateRun_injRun {k : Fin 8} (f : RunContext → RunContext) (some_run : s.seq.injRun.isSome = true) :
    (updateRun (.inj k) f s).seq.injRun.isSome = true := by
  simpa [updateRun] using some_run

/-- With a further expected position the completion of the current item moves the run there (R73, R95). -/
theorem completeCurrent_next {c : Chain} {it : ItemRun} {o : ItemOutcome} {v : Option Value} {q : Nat}
    (run : c ≠ .normal → s.seq.injRun.isSome = true) (next : s.nextExpected c ((s.runOf c).position + 1) = some q) :
    completeCurrent c it o v s = updateRun c (fun r => { r with position := q }) (finishItem c it o v s) := by
  have done := finishItem_finished it o v run
  have here : (finishItem c it o v s).nextExpected c (((finishItem c it o v s).runOf c).position + 1) = some q := by
    rw [done.runs, nextExpected_tables done.tables]
    exact next
  rw [completeCurrent, advance, here]

/-- The next item of the active run begins where no pending chain breaks in (R62). -/
theorem schedule_begins {c : Chain} (top : w.seq.top = .running) (active : w.seq.active.chain = some c)
    (run : c ≠ .normal → w.seq.injRun.isSome = true) (free : c = .normal → w.seq.pendingSet = 0#8)
    (item : w.seq.item = none) : schedule w = beginItem c w := by
  cases c with
  | normal =>
    rw [schedule_normal (.inr top) (Context.chain_normal.1 active), if_neg fun h => h.1 (free rfl), if_pos item]
  | inj k =>
    obtain ⟨r, is⟩ := Option.isSome_iff_exists.1 (run Chain.noConfusion)
    rw [schedule_injected (.inr top) (Context.chain_inj.1 active), is]
    exact if_pos item

/-- The current item completes, with room for its record and a further expected position, and the next item begins
(R62, R68, R73, R95). -/
theorem completeCurrent_begins_next {c : Chain} {it : ItemRun} {o : ItemOutcome} {v : Option Value} {q : Nat}
    (top : s.seq.top = .running) (active : s.seq.active.chain = some c)
    (run : c ≠ .normal → s.seq.injRun.isSome = true) (free : c = .normal → s.seq.pendingSet = 0#8)
    (hold : s.results.hold = []) (room : s.results.queue.length < 32)
    (next : s.nextExpected c ((s.runOf c).position + 1) = some q) :
    let w := completeCurrent c it o v s
    let u := schedule w
    u.seq.top = .running ∧ u.seq.active = s.seq.active ∧ u.seq.suspended = s.seq.suspended ∧
      u.seq.item = some { item := s.itemNumber c q, position := q } ∧
      u.runOf c = { (s.runOf c).completed it.position o with position := q } ∧
      u.results.slots = w.results.slots ∧ u.arb.tenure = false ∧
      u.results.queue = s.results.queue ++ s.itemRecords c it o v := by
  intro w u
  have completes := completeCurrent_completes it o v active (by simp [top]) run
  obtain ⟨⟨item, tenure, -, -, pending, suspended⟩, ⟨-, tables, -⟩, -, -, goes, -⟩ := completes
  obtain ⟨wactive, wrun, offers⟩ := goes q rfl next
  obtain ⟨queue, wtop⟩ := offers_one_room (itemRecords_short ..) offers hold room
  have runs : c ≠ .normal → w.seq.injRun.isSome = true := by
    intro injected
    have moved : w = updateRun c (fun r => { r with position := q }) (finishItem c it o v s) :=
      completeCurrent_next run next
    have kept := (finishItem_finished it o v run).injRun
    rw [moved]
    cases c with
    | normal => exact absurd rfl injected
    | inj k => exact updateRun_injRun _ (kept k rfl)
  have begins : u = beginItem c w := schedule_begins (wtop.trans top) ((congrArg _ wactive).trans active) runs
    (fun normal => pending.trans (free normal)) item
  have number : w.itemNumber c (w.runOf c).position = s.itemNumber c q := by
    rw [wrun]
    simp only [State.itemNumber, State.chainDef]
    have same : w.tables = s.tables := tables
    cases c <;> simp only [same]
  rw [begins]
  refine ⟨wtop.trans top, wactive, suspended, ?_, ?_, rfl, tenure, queue⟩
  · show some ({ item := w.itemNumber c (w.runOf c).position, position := (w.runOf c).position } : ItemRun) = _
    rw [number, wrun]
  · have same : (beginItem c w).runOf c = w.runOf c := by cases c <;> rfl
    rw [same, wrun]
    have fail : o.isFailure = true ↔ o ≠ .done ∧ o ≠ .aborted := by cases o <;> simp [ItemOutcome.isFailure]
    simp only [RunContext.completed, fail]

/-! ## ABORT_ITEM -/

theorem execAbortItem_noTarget (up : s.resetHeld = false)
    (none : s.seq.item = none ∨ ∃ it, s.seq.item = some it ∧ it.phase = .grantWait) :
    exec .abortItem s = .next (answer 6#8 .noTarget 0#4 s) := by
  refine live_eq up ?_
  rcases none with item | ⟨it, item, phase⟩
  · rw [item]
    split
    next h => cases h
    next => rfl
  · split
    next it' top active item' =>
      obtain rfl : it = it' := Option.some.inj (item.symm.trans item')
      simp only [phase]
    next => rfl

theorem execAbortItem_marks (up : s.resetHeld = false) {it : ItemRun} {c : Chain} (top : s.seq.top = .running)
    (active : s.seq.active.chain = some c) (item : s.seq.item = some it)
    (onLine : it.phase = .onLink ∨ it.phase = .onLinkFetch) :
    exec .abortItem s = .next (answer 6#8 .accepted 0#4 (setItem (some { it with abortMark := true }) s)) := by
  refine live_eq up ?_
  rw [top, active, item]
  rcases onLine with phase | phase <;> simp only [phase]

/-- Settles O39. -/
theorem abortItemResult : Obligations.AbortItemResult := by
  intro s up inv
  refine ⟨execAbortItem_noTarget up, fun it item onLine => ?_, fun it c item waits active => ?_⟩
  all_goals obtain ⟨top, hold, c', active', run⟩ := inv.sequencer.inProgress item
  · exact execAbortItem_marks up top active' item onLine
  · obtain rfl : c = c' := Option.some.inj (active.symm.trans active')
    have completes := completeCurrent_completes it .aborted none active (by simp [top]) run
    have frame := (completeCurrent_seqFrame c it .aborted none s).trans (schedule_seqFrame _)
    have slots : (completeCurrent c it .aborted none s).results.slots = s.results.slots := by
      rw [completes.2.2.2.1]
      cases (s.itemAt it.item).slot <;> rfl
    refine ⟨schedule (completeCurrent c it .aborted none s), live_eq up ?_, ⟨_, rfl, completes⟩, frame.stations,
      frame.link, frame.direct, (schedule_onward _).tenure (completeCurrent_tenure ..), ?_, ?_⟩
    · simp only [top, active, item]
      rcases waits with phase | phase <;> simp only [phase]
    · rintro rfl
      rw [schedule_results (completeCurrent_normal (Context.chain_normal.1 active)), slots]
    · intro q next free room post
      obtain ⟨-, -, suspended, begun, runOf, same, -, queue⟩ := completeCurrent_begins_next (it := it) (o := .aborted)
        (v := none) top active run (fun normal => free.resolve_left (not_not.2 normal)) hold room next
      have record : s.itemRecords c it .aborted none = [.item
          { chain := c, position := it.position, item := it.item, outcome := .aborted,
            slot := (s.itemAt it.item).slot, restarts := it.restarts, value := none,
            passNumber := if c = .normal then s.seq.pass.number else 0#16 }] := by
        refine if_pos ?_
        cases called : (s.itemAt it.item).post with
        | always => exact .inl rfl
        | errors => exact .inr ⟨rfl, nofun⟩
        | never => exact absurd called post
      exact ⟨same.trans slots, suspended, begun, runOf, queue.trans (by rw [record])⟩

end Sys2Proof.Machine
end

section
/-! ABORT_CHAIN: the early end of the current run (sections 8.1 and 8.3). -/

namespace Sys2Proof.Machine

-- One proof at a time: the whole text is compiled in one process of bounded memory.
set_option Elab.async false

variable {s t w : State}

/-! ## The run that ends early -/

/-- The records of a run that ends early: its item's, where that completes ABORTED, then the record of its end (R153). -/
def State.earlyRecords (s : State) (c : Chain) : List Record :=
  s.abandonedRecords c ++ [match c with
    | .normal => .passEnd s.seq.pass.number (s.runOf c).done (s.runOf c).errors true
    | .inj k => .injEnd k (s.runOf c).done (s.runOf c).errors true]

theorem earlyRecords_abort (s : State) (c : Chain) : ∀ r ∈ s.earlyRecords c, r.isAbort = true := by
  intro r h
  rcases List.mem_append.1 h with item | ends
  · exact abandoned_abort _ _ r item
  · rw [List.mem_singleton.1 ends]
    cases c <;> rfl

theorem abandonItem_seqFrame (c : Chain) (offLine : s.itemOnLink = false) : SeqFrame s (abandonItem c s) := by
  unfold abandonItem
  split
  · exact .refl s
  next it item =>
    split
    · split
      · exact setItem_seqFrame ..
      · exact finishItem_seqFrame ..
    · exact finishItem_seqFrame ..
    · exact finishItem_seqFrame ..
    next phase => simp [State.itemOnLink, item, phase] at offLine
    next phase => simp [State.itemOnLink, item, phase] at offLine

theorem finishItem_aborted_slots (c : Chain) (it : ItemRun) (v : Option Value) (s : State) :
    (finishItem c it .aborted v s).results.slots = s.results.slots := by
  obtain ⟨-, -, -, slots, -⟩ := takeCompletion_same (s.completionOf c it .aborted v) s
  have unwritten : writeSlot (s.completionOf c it .aborted v) s = s := ((recordsAndSlots s).2 _).1 (.inr rfl)
  exact (updateRun_kept c _ _).slots.trans (slots.trans (by rw [unwritten]))

theorem abandonItem_keeps (c : Chain) (s : State) : (abandonItem c s).results.slots = s.results.slots ∧
    (abandonItem c s).seq.pendingSet = s.seq.pendingSet ∧ (abandonItem c s).seq.suspended = s.seq.suspended := by
  have finished (it : ItemRun) : (finishItem c it .aborted none s).results.slots = s.results.slots ∧
      (finishItem c it .aborted none s).seq.pendingSet = s.seq.pendingSet ∧
      (finishItem c it .aborted none s).seq.suspended = s.seq.suspended :=
    have offering := completeItem_offering c it .aborted none s
    ⟨finishItem_aborted_slots c it none s, offering.pendingSet, offering.suspended⟩
  unfold abandonItem
  split
  · exact ⟨rfl, rfl, rfl⟩
  · split
    · split
      · exact ⟨rfl, rfl, rfl⟩
      · exact finished _
    all_goals exact finished _

/-- An item that goes without a completion held no tenure; a completion ends it (R69, R150). -/
theorem abandonItem_tenure (ok : s.SequencerOk) (c : Chain) : (abandonItem c s).arb.tenure = false := by
  unfold abandonItem
  split
  next item => exact ok.no_tenure (by simp [item])
  next it item =>
    split
    next phase =>
      split
      · exact ok.no_tenure (by simp [item, phase])
      · rfl
    all_goals rfl

/-- The offers of the early end are the records listed, in order. -/
theorem RunGoesOn_offers {c : Chain} {run : RunContext} {l : List Record} (goes : s.RunGoesOn w c run l true)
    (done : run.done = (s.runOf c).done) (errors : run.errors = (s.runOf c).errors)
    (records : l = s.abandonedRecords c) : s.Offers w (s.earlyRecords c) := by
  obtain ⟨-, ends⟩ := goes
  obtain ⟨normal, injected⟩ := ends (.inl rfl)
  unfold State.earlyRecords
  rw [← done, ← errors, ← records]
  cases c with
  | normal => exact (normal rfl).1
  | inj k => exact (injected k rfl).1

/-- What the early end of the active run leaves, before the Sequencer goes on (R153 to R155, R158). -/
theorem earlyEnd_spec (ok : s.SequencerOk) (offLine : s.itemOnLink = false) {c : Chain}
    (active : s.seq.active.chain = some c) (run : c ≠ .normal → s.seq.injRun ≠ none) :
    let w := endRun c true (abandonItem c s)
    s.RunGoesOn w c { s.runOf c with mask := (s.runOf c).mask ||| s.abandonedFlag } (s.abandonedRecords c) true ∧
      SeqFrame s w ∧ w.seq.item = none ∧ w.arb.tenure = false ∧ w.seq.pendingSet = s.seq.pendingSet ∧
      w.seq.suspended = s.seq.suspended ∧ w.results.slots = s.results.slots := by
  intro w
  have some_run : c ≠ .normal → s.seq.injRun.isSome = true := fun h => Option.isSome_iff_ne_none.2 (run h)
  have gone := abandonItem_finished some_run
  have kept := endRun_kept c true (abandonItem c s)
  have top : (abandonItem c s).seq.top ≠ .idle := by
    rw [gone.alike.top, (aborts_fold _ s (abandoned_abort s c) ok.queue).2.2.1]
    intro idle
    have none := (ok.idle idle).1
    rw [none] at active
    exact absurd active nofun
  obtain ⟨slots, pending, suspended⟩ := abandonItem_keeps c s
  exact ⟨endRun_goesOn gone active top (.inl rfl), (abandonItem_seqFrame c offLine).trans (endRun_seqFrame ..),
    endRun_item .., kept.onward.tenure (abandonItem_tenure ok c), kept.pendingSet.trans pending,
    kept.suspended.trans suspended, kept.slots.trans slots⟩

/-! ## ABORT_CHAIN -/

theorem abortableChain_none (no_run : s.isArmed = false ∨ s.seq.active = .none ∨
    ∃ k, s.seq.active = .inj k ∧ s.seq.injRun = none) : s.abortableChain = none := by
  unfold State.abortableChain
  rcases no_run with off | active | ⟨k, active, run⟩
  · exact if_neg (by simp [off])
  · simp [active]
  · simp [active, run]

theorem abortableChain_some {c : Chain} (isArmed : s.isArmed = true) (active : s.seq.active.chain = some c)
    (run : c ≠ .normal → s.seq.injRun.isSome = true) : s.abortableChain = some c := by
  unfold State.abortableChain
  rw [if_pos isArmed]
  cases c with
  | normal => rw [Context.chain_normal.1 active]
  | inj k =>
    obtain ⟨r, is⟩ := Option.isSome_iff_exists.1 (run Chain.noConfusion)
    rw [Context.chain_inj.1 active, is]

theorem execAbortChain_marks (up : s.resetHeld = false) (ok : s.SequencerOk) {it : ItemRun} {c : Chain}
    (item : s.seq.item = some it) (onLine : it.phase = .onLink ∨ it.phase = .onLinkFetch)
    (active : s.seq.active.chain = some c) :
    exec .abortChain s = .next (answer 7#8 .accepted 0#4 (markChain c s)) := by
  obtain ⟨top, -, c', active', run⟩ := ok.inProgress item
  obtain rfl : c = c' := Option.some.inj (active.symm.trans active')
  refine live_eq up ?_
  rw [abortableChain_some (isArmed_iff.2 (.inr (.inl top))) active run]
  refine if_pos ?_
  rcases onLine with phase | phase <;> simp [State.itemOnLink, item, phase]

/-- Settles O40. -/
theorem abortChainResult : Obligations.AbortChainResult := by
  intro s up inv
  have ok := inv.sequencer
  refine ⟨fun no_run => live_eq up (by rw [abortableChain_none no_run]), fun it item onLine =>
    ⟨fun active => ?_, fun k r active run => ?_⟩, fun isArmed offLine c active run => ?_⟩
  · rw [execAbortChain_marks up ok item onLine (Context.chain_normal.2 active), markChain, item]
    rfl
  · rw [execAbortChain_marks up ok item onLine (Context.chain_inj.2 active), markChain, item]
    simp only [updateRun, setItem, setInjRun, run]
    rfl
  · intro old records
    obtain ⟨goes, frame, item, tenure, pending, suspended, slots⟩ := earlyEnd_spec ok offLine active run
    obtain ⟨queue, hold, drops, top, latched⟩ := RunGoesOn_offers goes rfl rfl rfl
    obtain ⟨fqueue, fhold, ftop, fdrops, fdropped⟩ := aborts_fold (s.earlyRecords c) s (earlyRecords_abort s c) ok.queue
    have some_run : c ≠ .normal → s.seq.injRun.isSome = true := fun h => Option.isSome_iff_ne_none.2 (run h)
    have wtop := top.trans ftop
    refine ⟨endRun c true (abandonItem c s), live_eq up ?_, goes, item, tenure, pending, suspended, wtop,
      frame.stations, frame.link, frame.direct, slots, hold.trans fhold, fun empty fits => ?_, fun held => ?_,
      fun waits => ?_, fun k injected flows => ?_⟩
    · rw [abortableChain_some isArmed active some_run]
      exact if_neg (by simp [offLine])
    · rw [queue, fqueue, if_pos empty, List.take_of_length_le (by
        change s.results.queue.length + (s.earlyRecords c).length ≤ 32 at fits
        omega)]
      rfl
    · rw [if_neg held] at fqueue fdrops fdropped
      refine ⟨queue.trans (fqueue.trans (by simp)), latched _ (fdropped (.inl ?_)), ?_⟩
      · simp [State.earlyRecords]
      · rw [drops, fdrops]
        rfl
    · exact schedule_stays (by simp [wtop, waits]) (by simp [wtop, waits])
    · subst injected
      obtain ⟨-, ends⟩ := goes
      obtain ⟨-, -, -, ended, -, context⟩ := (ends (.inl rfl)).2 k rfl
      rw [if_neg fun h => flows (wtop.symm.trans h.1)] at context
      have going : (endRun (.inj k) true (abandonItem (.inj k) s)).seq.top = .idle ∨
          (endRun (.inj k) true (abandonItem (.inj k) s)).seq.top = .running := by
        rw [wtop]
        rcases isArmed_iff.1 isArmed with idle | running | waits
        · exact .inl idle
        · exact .inr running
        · exact absurd waits flows
      rw [schedule_injected going context, ended]

end Sys2Proof.Machine
end

section
/-! ABORT_ALL and DISARM: every run ends, and what is left (sections 8.4 to 8.6). -/

namespace Sys2Proof.Machine

-- One proof at a time: the whole text is compiled in one process of bounded memory.
set_option Elab.async false

variable {s t u w : State}

/-! ## The arbiter, while no item waits -/

/-- The arbiter goes on from s to t and grants nothing to the Sequencer: only the link, the arbiter and the direct slots
move, and tenure stands. -/
structure Elsewhere (s t : State) : Prop where
  seq : t.seq = s.seq
  results : t.results = s.results
  window : t.window = s.window
  trigger : t.trigger = s.trigger
  stations : t.stations = s.stations
  tenure : t.arb.tenure = s.arb.tenure

theorem Elsewhere.trans (h : Elsewhere s t) (g : Elsewhere t u) : Elsewhere s u :=
  ⟨g.seq.trans h.seq, g.results.trans h.results, g.window.trans h.window, g.trigger.trans h.trigger,
    g.stations.trans h.stations, g.tenure.trans h.tenure⟩

theorem grantDirect_elsewhere (k : Fin 4) (item : s.seq.item = none) (suspended : s.seq.suspended = none) :
    Elsewhere s (grantDirect k s) := by
  have seq : ∀ q : Sequencer, q.item = none → q.suspended = none → { q with item := none, suspended := none } = q := by
    rintro ⟨⟩ rfl rfl
    rfl
  have kept := seq s.seq item suspended
  rw [grantDirect_eq]
  simp only [handRequest, takeTransaction, startAttempt, startNotice, touchSuspended_map, touchActive_map, item,
    suspended, Option.map_none]
  exact ⟨kept, rfl, rfl, rfl, rfl, rfl⟩

theorem decideNow_elsewhere (item : s.seq.item = none) (suspended : s.seq.suspended = none) :
    Elsewhere s (decideNow s) := by
  have settled : Elsewhere s (settleApart s) := ⟨rfl, rfl, rfl, rfl, rfl, rfl⟩
  unfold decideNow
  split
  · split
    · exact settled
    next grants =>
      have asks := seqRequest_of_noItem item
      exact absurd grants (by
        unfold State.decision
        simp only [asks]
        repeat' split
        all_goals simp_all)
    · exact settled.trans (grantDirect_elsewhere _ item suspended)
  · exact settled

theorem arbitrate_elsewhere (item : s.seq.item = none) (suspended : s.seq.suspended = none) :
    Elsewhere s (arbitrate s) := by
  unfold arbitrate
  split
  · exact ⟨rfl, rfl, rfl, rfl, rfl, rfl⟩
  · exact decideNow_elsewhere item suspended

/-! ## The work of ABORT_ALL -/

theorem endPass_number (a : Bool) (s : State) : (endPass a s).seq.pass.number = s.seq.pass.number := by
  rw [endPass_offer]
  rfl

theorem abandonItem_number (s : State) : (abandonItem .normal s).seq.pass.number = s.seq.pass.number := by
  rw [(abandonItem_finished (s := s) (c := .normal) fun ne => absurd rfl ne).pass]
  rfl

theorem abortInjected_slots (s : State) : (abortInjected s).results.slots = s.results.slots := by
  unfold abortInjected
  split
  next k r _ _ => exact (endRun_kept (.inj k) true _).slots.trans (abandonItem_keeps _ s).1
  · rfl

theorem abortSuspended_keeps (s : State) : (abortSuspended s).results.slots = s.results.slots ∧
    (abortSuspended s).seq.pass.number = s.seq.pass.number := by
  unfold abortSuspended
  split
  next r _ =>
    have pass := (finishItem_finished (s := s) (c := .normal) r.toRun .aborted none fun ne => absurd rfl ne).pass
    have number : (finishItem .normal r.toRun .aborted none s).seq.pass.number = s.seq.pass.number := by
      rw [pass]
      rfl
    exact ⟨finishItem_aborted_slots .normal r.toRun none s, number⟩
  · exact ⟨rfl, rfl⟩

theorem abortPass_keeps (b : Bool) (s : State) : (abortPass b s).results.slots = s.results.slots ∧
    (abortPass b s).seq.pass.number = s.seq.pass.number := by
  unfold abortPass
  split
  · rw [(endPass_kept _ _).slots, endPass_number]
    split
    · exact ⟨(abandonItem_keeps _ s).1, abandonItem_number s⟩
    · exact ⟨rfl, rfl⟩
  · exact ⟨rfl, rfl⟩

/-- The room the records of an abort find: none while records are held (R158, R172). -/
def State.abortRoom (s : State) : Nat := if s.results.hold = [] then 32 - s.results.queue.length else 0

/-- What the work of ABORT_ALL leaves of the Result Store, the pass number and the top state (R156, R158). -/
theorem abortEverything_results (ok : s.SequencerOk) :
    let u := abortEverything s
    s.EndsEarly u ∧ u.results.slots = s.results.slots ∧ u.seq.pass.number = s.seq.pass.number ∧
      u.seq.pass.startPending = false ∧ u.seq.pass.stopAfter = false ∧
      u.seq.top = (if s.results.hold = [] then .idle else .queueWait) ∧ u.results.hold = s.results.hold ∧
      u.results.queue = s.results.queue ++ s.abortRecords.take s.abortRoom ∧
      u.results.drops.toNat = min 65535 (s.results.drops.toNat + (s.abortRecords.length - s.abortRoom)) ∧
      (s.abortRoom < s.abortRecords.length → u.latched .recordDropped = true) := by
  intro u
  obtain ⟨alike, early⟩ := abortWork_ended ok
  obtain ⟨fqueue, fhold, -, fdrops, fdropped⟩ := aborts_fold s.abortRecords s (abortRecords_abort s) ok.queue
  obtain ⟨slots3, number3⟩ := abortPass_keeps (s.seq.active == .normal) (abortSuspended (abortInjected s))
  obtain ⟨slots2, number2⟩ := abortSuspended_keeps (abortInjected s)
  have slots := slots3.trans (slots2.trans (abortInjected_slots s))
  have number := number3.trans (number2.trans (congrArg PassContext.number abortInjected_ended.pass))
  have cleared : u = clearWork (abortPass (s.seq.active == .normal) (abortSuspended (abortInjected s))) := rfl
  generalize abortPass _ _ = w at *
  have hold := alike.hold.trans fhold
  rw [cleared]
  refine ⟨early.keep rfl rfl rfl fun _ h => h, slots, number, rfl, rfl, ?_, hold, alike.queue.trans fqueue, ?_,
    fun lost => alike.latched _ (fdropped (.inl lost))⟩
  · show (if w.results.hold = [] then _ else _) = _
    rw [hold]
  · show w.results.drops.toNat = _
    rw [alike.drops]
    exact fdrops

theorem abandonItem_trigger (c : Chain) (s : State) : (abandonItem c s).trigger = s.trigger := by
  have finished (it : ItemRun) : (finishItem c it .aborted none s).trigger = s.trigger :=
    (finishItem_seqFrame ..).trigger
  unfold abandonItem
  split
  · rfl
  · split
    · split
      · rfl
      · exact finished _
    all_goals exact finished _

theorem abortEverything_trigger (s : State) : (abortEverything s).trigger = s.trigger := by
  have injected : (abortInjected s).trigger = s.trigger := by
    unfold abortInjected
    split
    · exact (endInjRun_seqFrame ..).trigger.trans (abandonItem_trigger ..)
    · rfl
  have pass (b : Bool) (t : State) : (abortPass b t).trigger = t.trigger := by
    unfold abortPass
    split
    · refine (endPass_seqFrame ..).trigger.trans ?_
      split
      · exact abandonItem_trigger ..
      · rfl
    · rfl
  exact (pass _ _).trans ((abortSuspended_seqFrame _).trigger.trans injected)

theorem hasWork_false (idle : s.seq.active = .none ∧ s.seq.pass.present = false ∧ s.seq.pendingSet = 0#8) :
    s.hasWork = false := by
  obtain ⟨active, present, pending⟩ := idle
  simp [State.hasWork, active, present, pending]

theorem hasWork_true (work : s.seq.active ≠ .none ∨ s.seq.pass.present = true ∨ s.seq.pendingSet ≠ 0#8) :
    s.hasWork = true := by
  simpa [State.hasWork, or_assoc] using work

theorem take_abort {l : List Record} (h : ∀ r ∈ l, r.isAbort = true) (n : Nat) : ∀ r ∈ l.take n, r.isAbort = true :=
  fun r mem => h r (List.mem_of_mem_take mem)

/-- Settles O41. -/
theorem abortAllResult : Obligations.AbortAllResult := by
  intro s up inv
  have ok := inv.sequencer
  refine ⟨fun nothing => live_eq up (if_neg ?_), fun isArmed work => ?_⟩
  · show ¬ (s.isArmed && s.hasWork) = true
    rcases nothing with off | idle
    · simp [off]
    · simp [hasWork_false idle]
  · obtain ⟨early, slots, number, startPending, stopAfter, top, hold, queue, drops, dropped⟩ :=
      abortEverything_results ok
    have trigger := abortEverything_trigger s
    have stations := (abortEverything_frame s).stations
    have clear : Cleared (abortEverything s) := by
      obtain ⟨x, is, -, cleared⟩ := abortEverything_spec ok
      rw [is]
      exact cleared
    have after := arbitrate_elsewhere clear.item clear.suspended
    have aborts : exec .abortAll s = .next (answer 8#8 .accepted 0#4 (arbitrate (abortEverything s))) :=
      live_eq up (if_pos (show (s.isArmed && s.hasWork) = true by simp [isArmed, hasWork_true work]))
    generalize abortEverything s = u at *
    refine ⟨arbitrate u, u, aborts, rfl, ?_⟩
    rw [after.seq, after.results, after.tenure, after.trigger, after.stations]
    exact ⟨clear.active, clear.item, clear.injRun, clear.suspended, clear.pending, clear.present, startPending,
      stopAfter, number, clear.tenure, top, hold, slots, trigger, stations,
      ⟨_, queue, take_abort (abortRecords_abort s) _⟩, early, queue, drops, dropped⟩

/-! ## DISARM -/

theorem postRecord_slots (s : State) (r : Record) : (postRecord s r).results.slots = s.results.slots := by
  unfold postRecord enqueue Machine.discard
  repeat' split
  all_goals rfl

theorem postRecords_slots (l : List Record) (s : State) :
    (l.foldl postRecord s).results.slots = s.results.slots := by
  induction l generalizing s with
  | nil => rfl
  | cons r l ih => exact (ih _).trans (postRecord_slots s r)

/-- What posting the hold list into a full queue leaves: every record of it is lost (R171, R174). -/
structure Posted (s p : State) : Prop where
  seq : p.seq = s.seq
  hold : p.results.hold = []
  queue : p.results.queue = s.results.queue
  slots : p.results.slots = s.results.slots
  drops : p.results.drops.toNat = min 65535 (s.results.drops.toNat + s.results.hold.length)
  injMasks : p.results.injMasks = s.results.injMasks
  normalMask : p.results.normalMask = s.results.normalMask
  arb : p.arb = s.arb
  dropped : 0 < s.results.hold.length → p.latched .recordDropped = true
  latched : ∀ e, s.latched e = true → p.latched e = true

theorem postHoldList_posted (bound : s.results.queue.length ≤ 32)
    (full : s.results.hold ≠ [] → s.results.queue.length = 32) : Posted s (postHoldList s) := by
  obtain ⟨-, hold, seq⟩ := postRecords_spec s.results.hold { s with results := { s.results with hold := [] } } bound
  have slots := postRecords_slots s.results.hold { s with results := { s.results with hold := [] } }
  by_cases empty : s.results.hold = []
  · have same : postHoldList s = { s with results := { s.results with hold := [] } } := by
      rw [postHoldList, empty]
      rfl
    have := s.results.drops.isLt
    rw [same]
    exact ⟨rfl, rfl, rfl, rfl, by simp only [empty, List.length_nil]; omega, rfl, rfl, rfl, by simp [empty],
      fun _ h => h⟩
  · obtain ⟨queue, drops, injMasks, normalMask, arb, dropped, latched⟩ :=
      postRecord_full s.results.hold { s with results := { s.results with hold := [] } }
        (by simp [full empty])
    exact ⟨seq, hold, queue, slots, drops, injMasks, normalMask, arb, dropped, latched⟩

/-- The state in which DISARM has stopped the timers and the Sequencer is still in the state the aborts left. -/
def State.disarming (s : State) : State := stopTimers (postHoldList (abortEverything s))

theorem abortEverything_seqOnLink (s : State) : (abortEverything s).seqOnLink = s.seqOnLink := by
  unfold State.seqOnLink
  rw [abortEverything_link]
  cases s.abortsOnLink
  · rfl
  · rw [if_pos rfl, orphanTransaction_link]
    cases s.link.txn <;> rfl

/-- DISARM's last step moves the top state, and latches SEQ_STOPPED where it leads to STOPPED (R159). -/
theorem stopSequencer_spec (s : State) : let u := stopSequencer s
    u.seq = { s.seq with top := if s.seqOnLink then .stopping else .stopped } ∧ u.results = s.results ∧
      u.trigger = s.trigger ∧ u.arb = s.arb ∧ (s.seqOnLink = false → u.latched .seqStopped = true) ∧
      ∀ e, s.latched e = true → u.latched e = true := by
  cases onLink : s.seqOnLink
  · simp only [stopSequencer, onLink, Bool.false_eq_true, if_false]
    refine ⟨rfl, rfl, rfl, rfl, fun _ => ?_, fun e here => ?_⟩
    · rw [raise_latched]
      simp [show Event.seqStopped.mask.getLsbD Event.seqStopped.bit = true by decide]
    · exact (raise_kept .seqStopped (setTop .stopped s)).latched e here
  · simp only [stopSequencer, onLink, if_true]
    exact ⟨rfl, rfl, rfl, rfl, nofun, fun _ here => here⟩

/-- Settles O42. -/
theorem disarmResult : Obligations.DisarmResult := by
  intro s up inv
  have ok := inv.sequencer
  refine ⟨fun off => live_eq up (if_neg (by simp [off])), fun isArmed => ?_⟩
  obtain ⟨early, slots, number, -, -, -, hold, queue, drops, dropped⟩ := abortEverything_results ok
  have clear : Cleared (abortEverything s) := by
    obtain ⟨x, is, -, cleared⟩ := abortEverything_spec ok
    rw [is]
    exact cleared
  have posted : Posted (abortEverything s) (postHoldList (abortEverything s)) := by
    refine postHoldList_posted clear.queue fun held => ?_
    rw [hold] at held
    rw [queue, State.abortRoom, if_neg held, List.take_zero, List.append_nil]
    exact ok.full held
  have onLink : s.disarming.seqOnLink = s.seqOnLink := by
    have link := (postHoldList_seqFrame (abortEverything s)).link
    have same : s.disarming.seqOnLink = (abortEverything s).seqOnLink := by
      unfold State.seqOnLink
      rw [show s.disarming.link = (abortEverything s).link from link]
    rw [same, abortEverything_seqOnLink]
  have trigger : s.disarming.trigger = { s.trigger with runs := Vector.replicate 4 .stopped } := by
    rw [← abortEverything_trigger s, ← (postHoldList_seqFrame (abortEverything s)).trigger]
    rfl
  have disarms : exec .disarm s = .next (answer 2#8 .accepted 0#4 (arbitrate (stopSequencer s.disarming))) :=
    live_eq up (if_pos isArmed)
  obtain ⟨useq, uresults, utrigger, uarb, stopped, ulatched⟩ := stopSequencer_spec s.disarming
  have dseq : s.disarming.seq = (abortEverything s).seq := posted.seq
  have darb : s.disarming.arb = (abortEverything s).arb := posted.arb
  have dresults : s.disarming.results = (postHoldList (abortEverything s)).results := rfl
  have dlatched : ∀ e, (abortEverything s).latched e = true → s.disarming.latched e = true := posted.latched
  have ddropped : 0 < (abortEverything s).results.hold.length → s.disarming.latched .recordDropped = true :=
    posted.dropped
  rw [dseq] at useq
  rw [darb] at uarb
  rw [onLink] at useq stopped
  have after := arbitrate_elsewhere (s := stopSequencer s.disarming) (by rw [useq]; exact clear.item)
    (by rw [useq]; exact clear.suspended)
  refine ⟨arbitrate (stopSequencer s.disarming), stopSequencer s.disarming, disarms, rfl, ?_⟩
  rw [after.seq, after.results, after.tenure, after.trigger]
  generalize stopSequencer s.disarming = u at *
  generalize abortEverything s = a at *
  generalize postHoldList a = p at *
  rw [uresults, uarb, utrigger, trigger, dresults, useq]
  refine ⟨clear.active, clear.item, clear.injRun, clear.suspended, clear.pending, clear.present, clear.tenure,
    posted.hold, posted.slots.trans slots, number, rfl, ⟨_, posted.queue.trans queue⟩, fun on => by rw [on]; rfl,
    fun off => ⟨by rw [off]; rfl, latched_of_eq after.window (stopped off)⟩, ?_, posted.queue.trans queue, ?_, ?_⟩
  · exact early.keep (by rw [uresults, dresults, posted.injMasks]) (by rw [uresults, dresults, posted.normalMask])
      (by rw [uarb]) fun e here => ulatched e (dlatched e here)
  · rw [posted.drops, drops, hold]
    show _ = min 65535 (_ + (s.abortRecords.length - s.abortRoom + s.results.hold.length))
    omega
  · intro lost
    rcases Nat.add_pos_iff_pos_or_pos.1 lost with records | held
    · exact ulatched _ (dlatched _ (dropped (Nat.sub_pos_iff_lt.1 records)))
    · exact ulatched _ (ddropped (by rw [hold]; exact held))

end Sys2Proof.Machine
end

section
/-! The end of the Sequencer's transaction (sections 1.4, 4.3, 4.5, 4.6, 8.2, 8.4). -/

namespace Sys2Proof.Machine

-- One proof at a time: the whole text is compiled in one process of bounded memory.
set_option Elab.async false

variable {s t u w : State}

/-! ## The notice -/

/-- The state in which the Station Table has taken the notice, the engine is IDLE, and the Sequencer takes its own
(R17). -/
def State.notified (s : State) (x : Transaction) (o : TxnOutcome) : State :=
  { noticeHealth x.address o s with
    link := { s.link with phase := .idle, txn := none, timer := none, rx := [], endWatch := false } }

/-- What the notice leaves alone, as the Sequencer reads it. -/
structure Notified (s u : State) : Prop where
  seq : u.seq = s.seq
  results : u.results = s.results
  tables : u.tables = s.tables
  entries : u.stations.entries = s.stations.entries
  now : u.now = s.now

theorem notified_spec (s : State) (x : Transaction) (o : TxnOutcome) : Notified s (s.notified x o) := by
  have entries := (noticeHealth_steady x.address o s).same.entries
  unfold State.notified
  rw [noticeHealth_eq] at *
  exact ⟨rfl, rfl, rfl, entries, rfl⟩

theorem endTransaction_sequencer {x : Transaction} (requester : x.requester = .sequencer) (o : TxnOutcome)
    (v : Option Value) : endTransaction x o v s = arbitrate (seqEndNotice x o v (s.notified x o)) := by
  have idle : engineIdle (noticeHealth x.address o s) = s.notified x o := by
    unfold State.notified
    rw [noticeHealth_eq]
    rfl
  simp only [endTransaction, requester, idle]

theorem seqEndNotice_orphan {x : Transaction} (orphan : x.orphan = true) (o : TxnOutcome) (v : Option Value)
    (s : State) : seqEndNotice x o v s = if s.seq.top = .stopping then raise .seqStopped (setTop .stopped s) else s :=
  if_pos orphan

theorem seqEndNotice_item {x : Transaction} {c : Chain} {it : ItemRun} (live : x.orphan = false)
    (active : s.seq.active.chain = some c) (item : s.seq.item = some it) (o : TxnOutcome) (v : Option Value) :
    seqEndNotice x o v s = schedule (itemTransactionEnd c it o v s) := by
  simp only [seqEndNotice, live, active, item]
  rfl

namespace Notified

theorem itemAt (h : Notified s u) (n : Nat) : u.itemAt n = s.itemAt n := by
  unfold State.itemAt
  rw [h.tables]

theorem stationOf (h : Notified s u) (n : Nat) : u.stationOf n = s.stationOf n := by
  unfold State.stationOf
  simp only [h.entries, h.itemAt]

theorem runOf (h : Notified s u) (c : Chain) : u.runOf c = s.runOf c := by
  cases c <;> simp only [State.runOf, h.seq]

theorem itemNumber (h : Notified s u) (c : Chain) (q : Nat) : u.itemNumber c q = s.itemNumber c q := by
  cases c <;> simp only [State.itemNumber, State.chainDef, h.tables]

theorem itemRecords (h : Notified s u) (c : Chain) (it : ItemRun) (o : ItemOutcome) (v : Option Value) :
    u.itemRecords c it o v = s.itemRecords c it o v := by
  simp only [State.itemRecords, h.itemAt, h.seq]

end Notified

/-! ## What becomes of the item -/

/-- The item whose SAMPLE is DONE, its conversion begun (R65). -/
def ItemRun.sampled (it : ItemRun) (s : State) : ItemRun :=
  let time := (s.stationOf it.item).convTime.toNat
  { it with
    phase := if time = 0 then .fetchWait else .converting, touched := false, ackTime := s.now
    convDue := if time = 0 then none else some (s.now + 10 * time) }

theorem sampled_converting {it : ItemRun} (time : (s.stationOf it.item).convTime.toNat ≠ 0) :
    it.sampled s = { it with phase := .converting, touched := false, ackTime := s.now
                             convDue := some (s.now + 10 * (s.stationOf it.item).convTime.toNat) } := by
  unfold ItemRun.sampled
  dsimp only
  rw [if_neg time, if_neg time]

theorem sampled_fetchWait {it : ItemRun} (time : (s.stationOf it.item).convTime.toNat = 0) :
    it.sampled s = { it with phase := .fetchWait, touched := false, ackTime := s.now, convDue := none } := by
  unfold ItemRun.sampled
  dsimp only
  rw [if_pos time, if_pos time]

theorem itemTransactionEnd_sampled {c : Chain} {it : ItemRun} {o : TxnOutcome} (unmarked : it.abortMark = false)
    (sampled : it.phase = .onLink ∧ (s.itemAt it.item).kind = .sampleFetch ∧ o = .done) (v : Option Value) :
    itemTransactionEnd c it o v s = setItem (some (it.sampled s)) s := by
  obtain ⟨phase, kind, done⟩ := sampled
  rw [itemTransactionEnd, if_neg (by simp [unmarked])]
  split
  next => exact if_pos ⟨kind, done⟩
  next fetching => exact absurd (phase.symm.trans fetching) nofun
  next other _ => exact absurd phase other

theorem itemTransactionEnd_completes {c : Chain} {it : ItemRun} {o : TxnOutcome} (unmarked : it.abortMark = false)
    (ends : it.phase = .onLinkFetch ∨
      (it.phase = .onLink ∧ ¬ ((s.itemAt it.item).kind = .sampleFetch ∧ o = .done))) (v : Option Value) :
    itemTransactionEnd c it o v s = completeCurrent c it o.toItem v s := by
  rcases ends with phase | ⟨phase, other⟩
  · simp only [itemTransactionEnd, unmarked, phase]
    rfl
  · simp only [itemTransactionEnd, unmarked, phase]
    exact if_neg other

theorem itemTransactionEnd_marked {c : Chain} {it : ItemRun} (marked : it.abortMark = true) (o : TxnOutcome)
    (v : Option Value) (s : State) : itemTransactionEnd c it o v s =
      if (s.runOf c).chainAbort then endRun c true (finishItem c it .aborted none s)
      else completeCurrent c it .aborted none s := if_pos marked

/-- Where an item is in progress, and no pending chain breaks in, the Sequencer has nothing to begin (R62, R86). -/
theorem schedule_inProgress {c : Chain} (top : s.seq.top = .running) (active : s.seq.active.chain = some c)
    (run : c ≠ .normal → s.seq.injRun.isSome = true) (free : c = .normal → s.seq.pendingSet = 0#8)
    (item : s.seq.item ≠ none) : schedule s = s := by
  cases c with
  | normal =>
    rw [schedule_normal (.inr top) (Context.chain_normal.1 active), if_neg fun h => h.1 (free rfl), if_neg item]
  | inj k =>
    obtain ⟨r, is⟩ := Option.isSome_iff_exists.1 (run Chain.noConfusion)
    rw [schedule_injected (.inr top) (Context.chain_inj.1 active), is]
    exact if_neg item

/-! ## No room under STALL -/

theorem offer_first_held (r : Record) (live : r.isAbort = false) (hold : s.results.hold = [])
    (full : s.results.queue.length = 32) (stall : s.results.policy = .stall) :
    let o := offer r s
    o.results.hold = [r] ∧ o.seq.top = .queueWait ∧ o.results.queue = s.results.queue ∧
      o.results.drops = s.results.drops ∧ o.results.policy = .stall ∧ o.latched .queueStall = true := by
  intro o
  have held : o = holdRecord r s := offer_held r live full stall
  rw [held, holdRecord, if_pos hold]
  refine ⟨by simp [raise, hold], rfl, rfl, rfl, stall, ?_⟩
  rw [raise_latched]
  simp [show Event.queueStall.mask.getLsbD Event.queueStall.bit = true by decide]

theorem offer_next_held (r : Record) (live : r.isAbort = false) (hold : s.results.hold ≠ [])
    (full : s.results.queue.length = 32) (stall : s.results.policy = .stall) :
    offer r s = { s with results := { s.results with hold := s.results.hold ++ [r] } } := by
  rw [offer_held r live full stall, holdRecord, if_neg hold]

/-- The record of the completion is held, and the record of a run's end behind it, in QUEUE_WAIT (R79, R170). -/
theorem offers_held {record : Record} {l : List Record} (offers : s.Offers w (record :: l)) (short : l.length ≤ 1)
    (live : ∀ r ∈ record :: l, r.isAbort = false) (hold : s.results.hold = []) (full : s.results.queue.length = 32)
    (stall : s.results.policy = .stall) :
    w.seq.top = .queueWait ∧ w.latched .queueStall = true ∧ w.results.queue = s.results.queue ∧
      w.results.drops = s.results.drops ∧ w.results.hold = record :: l := by
  obtain ⟨queue, held, drops, top, latched⟩ := offers
  obtain ⟨hold1, top1, queue1, drops1, stall1, latched1⟩ :=
    offer_first_held record (live record (by simp)) hold full stall
  rw [List.foldl_cons] at *
  match l with
  | [] => exact ⟨top.trans top1, latched _ latched1, queue.trans queue1, drops.trans drops1, held.trans hold1⟩
  | [r] =>
    have second := offer_next_held (s := offer record s) r (live r (by simp)) (by simp [hold1]) (by rw [queue1, full])
      stall1
    simp only [List.foldl_cons, List.foldl_nil, second] at *
    refine ⟨top.trans top1, latched _ latched1, queue.trans queue1, drops.trans drops1, held.trans ?_⟩
    rw [hold1]
    rfl

/-- The record of a run that ends of itself (R74, R96). -/
def State.endRecord (s : State) (done errors : Nat) : Chain → Record
  | .normal => .passEnd s.seq.pass.number done errors false
  | .inj k => .injEnd k done errors false

theorem Notified.endRecord (h : Notified s u) : u.endRecord = s.endRecord := by
  funext done errors c
  cases c with
  | normal =>
    show Record.passEnd u.seq.pass.number done errors false = _
    rw [h.seq]
    rfl
  | inj k => rfl

/-- A completion that calls for a record, with no room for it under STALL: the record is held, and behind it that of the
run, where it ends (R79, R170). -/
theorem completes_held {c : Chain} {it : ItemRun} {oc : ItemOutcome} {val : Option Value}
    (completes : s.Completes w c it oc val false) (hold : s.results.hold = []) (full : s.results.queue.length = 32)
    (stall : s.results.policy = .stall) (kept : oc ≠ .aborted)
    (calls : (s.itemAt it.item).post = .always ∨ ((s.itemAt it.item).post = .errors ∧ oc ≠ .done)) :
    let record := Record.item
      { chain := c, position := it.position, item := it.item, outcome := oc, slot := (s.itemAt it.item).slot,
        restarts := it.restarts, value := val, passNumber := if c = .normal then s.seq.pass.number else 0#16 }
    let done := if oc = .done then (s.runOf c).done + 1 else (s.runOf c).done
    let errors := if oc = .done then (s.runOf c).errors else (s.runOf c).errors + 1
    schedule w = w ∧ w.seq.top = .queueWait ∧ w.latched .queueStall = true ∧
    w.results.queue = s.results.queue ∧ w.results.drops = s.results.drops ∧
    w.results.hold = if s.nextExpected c ((s.runOf c).position + 1) = none then
      [record, s.endRecord done errors c] else [record] := by
  intro record done errors
  obtain ⟨-, -, -, -, goes, ends⟩ := completes
  have record_eq : s.itemRecords c it oc val = [record] := if_pos calls
  have live : record.isAbort = false := by simp [record, Record.isAbort, kept]
  have counted : (if oc ≠ .done ∧ oc ≠ .aborted then (s.runOf c).errors + 1 else (s.runOf c).errors) = errors := by
    simp only [errors]
    by_cases fine : oc = .done
    · simp [fine]
    · simp [fine, kept]
  have waits (h : w.seq.top = .queueWait) : schedule w = w := schedule_stays (by simp [h]) (by simp [h])
  have lives (e : Record) (h : e.isAbort = false) : ∀ r ∈ [record, e], r.isAbort = false := by
    simpa using ⟨live, h⟩
  rw [record_eq] at goes ends
  cases next : s.nextExpected c ((s.runOf c).position + 1) with
  | some q =>
    obtain ⟨-, -, offers⟩ := goes q rfl next
    obtain ⟨top, latched, queue, drops, held⟩ := offers_held offers (by simp) (by simpa using live) hold full stall
    exact ⟨waits top, top, latched, queue, drops, held.trans (if_neg nofun).symm⟩
  | none =>
    obtain ⟨normal, injected⟩ := ends (.inr next)
    rw [counted] at normal injected
    rw [if_pos rfl]
    cases c with
    | normal =>
      obtain ⟨top, latched, queue, drops, held⟩ :=
        offers_held (normal rfl).1 (by simp) (lives _ rfl) hold full stall
      exact ⟨waits top, top, latched, queue, drops, held⟩
    | inj k =>
      obtain ⟨top, latched, queue, drops, held⟩ :=
        offers_held (injected k rfl).1 (by simp) (lives _ rfl) hold full stall
      exact ⟨waits top, top, latched, queue, drops, held⟩

theorem toItem_eq_done_iff (o : TxnOutcome) : o.toItem = .done ↔ o = .done := by cases o <;> simp [TxnOutcome.toItem]

theorem toItem_ne_aborted (o : TxnOutcome) : o.toItem ≠ .aborted := by cases o <;> nofun

/-- The item whose transaction has ended and whose conversion begins, as the Sequencer leaves it (R65). -/
theorem seqEndNotice_sampled {x : Transaction} {c : Chain} {it : ItemRun} {o : TxnOutcome} (notified : Notified s u)
    (live : x.orphan = false) (active : s.seq.active.chain = some c) (item : s.seq.item = some it)
    (unmarked : it.abortMark = false)
    (sampled : it.phase = .onLink ∧ (s.itemAt it.item).kind = .sampleFetch ∧ o = .done) (v : Option Value) :
    seqEndNotice x o v u = schedule { u with seq := { s.seq with item := some (it.sampled s) } } := by
  have same : it.sampled u = it.sampled s := by
    simp only [ItemRun.sampled, notified.stationOf, notified.now]
  rw [← notified.itemAt] at sampled
  rw [seqEndNotice_item (s := u) live (by rw [notified.seq]; exact active) (by rw [notified.seq]; exact item),
    itemTransactionEnd_sampled unmarked sampled, same, setItem, notified.seq]

/-- The item whose transaction has ended it, as the Sequencer goes on from its completion (R64, R67). -/
theorem seqEndNotice_completes {x : Transaction} {c : Chain} {it : ItemRun} {o : TxnOutcome} (notified : Notified s u)
    (live : x.orphan = false) (active : s.seq.active.chain = some c) (item : s.seq.item = some it)
    (unmarked : it.abortMark = false)
    (ends : it.phase = .onLinkFetch ∨
      (it.phase = .onLink ∧ ¬ ((s.itemAt it.item).kind = .sampleFetch ∧ o = .done))) (v : Option Value) :
    seqEndNotice x o v u = schedule (completeCurrent c it o.toItem v u) := by
  rw [← notified.itemAt] at ends
  rw [seqEndNotice_item (s := u) live (by rw [notified.seq]; exact active) (by rw [notified.seq]; exact item),
    itemTransactionEnd_completes unmarked ends]

/-- An end notice that does not begin a conversion completes the item: ABORTED where it is marked, with its run's early
end where that is marked too, and by the transaction's outcome otherwise (R64, R67, R152, R153). -/
theorem seqEndNotice_went {x : Transaction} {c : Chain} {it : ItemRun} {o : TxnOutcome} {v val : Option Value}
    {oc : ItemOutcome} {early : Bool} (notified : Notified s u) (live : x.orphan = false) (top : s.seq.top = .running)
    (active : s.seq.active.chain = some c) (item : s.seq.item = some it)
    (run : c ≠ .normal → s.seq.injRun.isSome = true)
    (outcome : (it.abortMark = true ∧ oc = .aborted ∧ val = none ∧ early = (s.runOf c).chainAbort) ∨
      (it.abortMark = false ∧
        (it.phase = .onLinkFetch ∨
          (it.phase = .onLink ∧ ¬ (it.phase = .onLink ∧ (s.itemAt it.item).kind = .sampleFetch ∧ o = .done))) ∧
        oc = o.toItem ∧ val = v ∧ early = false)) :
    ∃ w, seqEndNotice x o v u = schedule w ∧ u.Completes w c it oc val early := by
  have active' : u.seq.active.chain = some c := by rw [notified.seq, active]
  have run' : c ≠ .normal → u.seq.injRun.isSome = true := by rwa [notified.seq]
  have top' : u.seq.top ≠ .idle := by simp [notified.seq, top]
  rcases outcome with ⟨marked, rfl, rfl, rfl⟩ | ⟨unmarked, finishes, rfl, rfl, rfl⟩
  · have goes := seqEndNotice_item (s := u) live active' (by rw [notified.seq]; exact item) o v
    rw [itemTransactionEnd_marked marked, notified.runOf] at goes
    cases chain : (s.runOf c).chainAbort with
    | true =>
      rw [if_pos chain] at goes
      exact ⟨_, goes, endRun_completes it .aborted none active' top' run'⟩
    | false =>
      rw [if_neg (by simp [chain])] at goes
      exact ⟨_, goes, completeCurrent_completes it .aborted none active' top' run'⟩
  · have goes := seqEndNotice_completes notified live active item unmarked
      (finishes.imp_right fun h => ⟨h.1, fun done => h.2 ⟨h.1, done.1, done.2⟩⟩) val
    exact ⟨_, goes, completeCurrent_completes it o.toItem val active' top' run'⟩

/-- Settles O54. -/
theorem sequencerTransactionEnds : Obligations.SequencerTransactionEnds := by
  intro s x o v requester h u
  have ends : endTransaction x o v s = arbitrate (seqEndNotice x o v u) := endTransaction_sequencer requester o v
  have notified : Notified s u := notified_spec s x o
  have stations : u.stations = h.stations := rfl
  clear_value u
  refine ⟨fun orphan top => ?_, fun orphan top => ?_, ?_, ?_⟩
  · rw [ends, seqEndNotice_orphan orphan, notified.seq, if_neg top]
  · rw [ends, seqEndNotice_orphan orphan, notified.seq, if_pos top, setTop, notified.seq]
    rfl
  · intro c it live top active item free run unmarked d time
    have some_run : c ≠ .normal → s.seq.injRun.isSome = true := fun h => Option.isSome_iff_ne_none.2 (run h)
    refine ⟨fun phase kind done => ?_, fun finishes q next hold room => ?_⟩
    · have begun := (seqEndNotice_sampled notified live active item unmarked ⟨phase, kind, done⟩ v).trans
        (schedule_inProgress (c := c) top active some_run free nofun)
      rw [ends, begun]
      exact ⟨fun some_time => by rw [sampled_converting some_time], fun no_time => by rw [sampled_fetchWait no_time]⟩
    · intro failed number old
      have top' : u.seq.top = .running := by rw [notified.seq, top]
      have active' : u.seq.active.chain = some c := by rw [notified.seq, active]
      have run' : c ≠ .normal → u.seq.injRun.isSome = true := by rwa [notified.seq]
      have completes := completeCurrent_completes it o.toItem v active' (by simp [top']) run'
      obtain ⟨utop, uactive, -, uitem, urun, uslots, tenure, queue⟩ := completeCurrent_begins_next (s := u) (it := it)
        (o := o.toItem) (v := v) top' active' run' (by rwa [notified.seq]) (by rw [notified.results, hold])
        (by rwa [notified.results]) (by rwa [notified.runOf, nextExpected_tables notified.tables])
      have frame := (completeCurrent_seqFrame c it o.toItem v u).trans (schedule_seqFrame _)
      refine ⟨_, ends.trans (congrArg arbitrate
        (seqEndNotice_completes notified live active item unmarked finishes v)), utop,
        uactive.trans (by rw [notified.seq]), tenure, frame.stations.trans stations, frame.link,
        uitem.trans (by rw [notified.itemNumber]), urun.trans ?_, fun failure => ?_, uslots.trans ?_, queue.trans ?_⟩
      · rw [notified.runOf]
        cases o <;> rfl
      · refine (schedule_onward _).latched _ (completeCurrent_itemError ?_ ..)
        cases o
        · exact absurd rfl failure
        all_goals rfl
      · rw [completes.2.2.2.1, notified.itemAt, notified.results, notified.seq]
        cases (s.itemAt it.item).slot with
        | none => rfl
        | some k => cases o <;> rfl
      · rw [notified.itemRecords, notified.results]
        unfold State.itemRecords
        simp only [ne_eq, toItem_eq_done_iff]
        split
        · rfl
        · exact List.append_nil _
  · intro c it live top active item run d time sampled old number
    have some_run : c ≠ .normal → s.seq.injRun.isSome = true := fun h => Option.isSome_iff_ne_none.2 (run h)
    refine ⟨fun unmarked sample => ?_, fun oc val early outcome => ?_⟩
    · rw [ends, seqEndNotice_sampled notified live active item unmarked sample]
      rfl
    · obtain ⟨w, notice, completes⟩ := seqEndNotice_went notified live top active item some_run outcome
      have goes := ends.trans (congrArg arbitrate notice)
      refine ⟨w, goes, completes, fun hold full stall kept calls => ?_⟩
      have whole : early = false := by
        rcases outcome with ⟨-, aborted, -⟩ | ⟨-, -, -, -, whole⟩
        · exact absurd aborted kept
        · exact whole
      subst whole
      have held := completes_held completes (by rw [notified.results, hold]) (by rw [notified.results, full])
        (by rw [notified.results, stall]) kept (by rwa [notified.itemAt])
      rw [notified.itemAt, notified.runOf, nextExpected_tables notified.tables, notified.results, notified.seq] at held
      obtain ⟨stays, waits, stalls, queue, drops, held⟩ := held
      refine ⟨stays, waits, stalls, queue, drops, held.trans ?_⟩
      rw [notified.endRecord]
      rfl

end Sys2Proof.Machine
end

section
/-! The reads with side effects, and what the record view and the snapshot view read as (sections 9.1 to 9.4, 10.1,
10.7). -/

namespace Sys2Proof.Machine

-- One proof at a time: the whole text is compiled in one process of bounded memory.
set_option Elab.async false

variable {s t : State}

/-! ## The views -/

/-- A word equals its layout when it is made of the same fields. -/
theorem eq_layout {v w : Word} (layout : v = place w 0) : v = w := layout.trans (place_whole w)

theorem itemRecord_words (r : ItemRecord) :
    recordWord (some (.item r)) 0 =
      BitVec.ofNat 4 r.outcome.code ++ BitVec.ofNat 6 r.position ++ BitVec.ofNat 4 r.chain.code ++ 1#2 ∧
    recordWord (some (.item r)) 1 = BitVec.ofBool r.value.isSome ++ BitVec.ofNat 2 r.restarts ++
      BitVec.ofNat 7 (slotCode r.slot) ++ BitVec.ofNat 6 r.item ∧
    recordWord (some (.item r)) 2 = (r.value.getD 0#32).extractLsb' 16 16 ∧
    recordWord (some (.item r)) 3 = (r.value.getD 0#32).extractLsb' 0 16 ∧
    recordWord (some (.item r)) 4 = r.passNumber := by
  refine ⟨eq_layout ?_, eq_layout ?_, rfl, rfl, rfl⟩ <;> simp [place_append, recordWord, placeNat, placeFlag]

/-- The counts of a run's record, and its aborted flag (section 10.7). -/
theorem endRecord_counts (done errors : Nat) (aborted : Bool) :
    placeFlag aborted 15 ||| placeNat errors 7 8 ||| placeNat done 7 0 =
      BitVec.ofBool aborted ++ BitVec.ofNat 7 errors ++ 0#1 ++ BitVec.ofNat 7 done :=
  eq_layout (by simp [place_append, place_zeros, placeNat, placeFlag])

theorem injEnd_kind (k : Fin 8) : placeNat (Chain.inj k).code 4 2 ||| placeNat 3 2 0 =
    0#10 ++ BitVec.ofNat 4 (k.val + 1) ++ 3#2 := by
  revert k
  decide

theorem endRecord_words (n : BitVec 16) (k : Fin 8) (done errors : Nat) (aborted : Bool) :
    let ends := BitVec.ofBool aborted ++ BitVec.ofNat 7 errors ++ 0#1 ++ BitVec.ofNat 7 done
    [0, 1, 2, 3, 4].map (recordWord (some (.passEnd n done errors aborted))) = [2#16, ends, 0#16, 0#16, n] ∧
    [0, 1, 2, 3, 4].map (recordWord (some (.injEnd k done errors aborted))) =
      [0#10 ++ BitVec.ofNat 4 (k.val + 1) ++ 3#2, ends, 0#16, 0#16, 0#16] := by
  intro ends
  simp only [ends, ← endRecord_counts, ← injEnd_kind]
  exact ⟨rfl, rfl⟩

theorem snapshotWord0_layout (s : State) :
    let c := s.results.snapshot.content
    s.snapshotWord0 = BitVec.ofNat 4 c.writer.code ++ BitVec.ofNat 3 (outcomeCode c.outcome) ++
      BitVec.ofBool c.overwritten ++ BitVec.ofNat 2 c.state.code ++ BitVec.ofNat 6 s.results.snapshot.slot.val :=
  eq_layout (by simp [place_append, State.snapshotWord0, placeNat, placeFlag])

/-! ## POP -/

/-- The Result Store with a record in its view, and the records that are left. -/
def State.popped (s : State) (view : Option Record) (queue hold : List Record) : State :=
  { s with results := { s.results with view := view, queue := queue, hold := hold } }

theorem pop_empty (queue : s.results.queue = []) (hold : s.results.hold = []) :
    moveHeld (popRecord s) = { s with results := { s.results with view := none } } := by
  simp [popRecord, moveHeld, queue, hold]

theorem pop_unheld {r : Record} {l : List Record} (queue : s.results.queue = r :: l) (hold : s.results.hold = []) :
    moveHeld (popRecord s) = { s with results := { s.results with view := some r, queue := l } } := by
  simp [popRecord, moveHeld, queue, hold]

/-- A held record moves up behind the records that are left; into a queue that holds some it raises nothing (R171). -/
theorem pop_held {r a : Record} {l m : List Record} (queue : s.results.queue = r :: l) (hold : s.results.hold = a :: m)
    (long : l ≠ []) : moveHeld (popRecord s) = s.popped (some r) (l ++ [a]) m := by
  simp [popRecord, moveHeld, queue, hold, enqueue, long, State.popped]

/-- A pop that leaves the hold list as the top state calls for does not reach the Sequencer (R79). -/
theorem execPop_quiet (up : s.resetHeld = false) (moved : moveHeld (popRecord s) = t)
    (stays : ¬ (t.seq.top = .queueWait ∧ t.results.hold = [])) :
    exec .pop s = .next { t with window := { t.window with readValue := recordWord t.results.view 0 } } := by
  refine live_eq up ?_
  rw [popWord, moved]
  dsimp only
  rw [if_neg stays]
  rfl

theorem frame_view (h : Frame s t) : t.results.view = s.results.view := by
  rw [h.results]

/-- A pop that empties the hold list ends QUEUE_WAIT (R58, R79). -/
theorem execPop_ends (up : s.resetHeld = false) (moved : moveHeld (popRecord s) = t)
    (ends : t.seq.top = .queueWait ∧ t.results.hold = []) :
    exec .pop s = .next
      (let u := arbitrate (schedule (setTop (if t.seq.active = .none then .idle else .running) t))
       { u with window := { u.window with readValue := recordWord t.results.view 0 } }) := by
  refine live_eq up ?_
  rw [popWord, moved]
  dsimp only
  rw [if_pos ends, endQueueWait, if_pos ends]
  have view := frame_view ((schedule_seqFrame
    (setTop (if t.seq.active = .none then .idle else .running) t)).frame.trans (arbitrate_frame _))
  generalize arbitrate _ = u at view ⊢
  have first : u.wordAt 0x58 = recordWord t.results.view 0 := congrArg (recordWord · 0) view
  rw [returnWord, first]

/-- Settles O60. -/
theorem readsTakeSideEffects : Obligations.ReadsTakeSideEffects := by
  refine ⟨fun i => ?_, itemRecord_words, endRecord_words, fun s up => ⟨⟨readWord_whole up rfl, readWord_whole up rfl,
    readWord_whole up rfl, readWord_whole up rfl, readWord_whole up rfl, readWord_whole up rfl⟩, ?_⟩,
    fun s up inv => ?_⟩
  · unfold recordWord
    rfl
  · intro c
    exact ⟨fun _ => readWord_whole up (snapshotWord0_layout s), readWord_whole up rfl, readWord_whole up rfl,
      readWord_whole up rfl⟩
  · intro k d
    have ok := inv.sequencer
    have quiet : s.results.hold = [] → ¬ (s.seq.top = .queueWait ∧ s.results.hold = []) :=
      fun _ h => ok.waiting.1 h.1 h.2
    refine ⟨fun empty => ?_, fun r l queue => ?_, ?_⟩
    · have hold : s.results.hold = [] := by
        by_contra held
        have := ok.full held
        rw [empty] at this
        cases this
      exact execPop_quiet up (pop_empty empty hold) (quiet hold)
    · intro word
      refine ⟨fun hold => ?_, fun a b m hold => ?_, fun a hold => ?_⟩
      · exact execPop_quiet up (pop_unheld queue hold) (quiet hold)
      all_goals
        have long : l ≠ [] := by
          rintro rfl
          have := ok.full (by simp [hold])
          rw [queue] at this
          cases this
      · exact execPop_quiet up (pop_held queue hold long) fun h => List.cons_ne_nil _ _ h.2
      · have waits : s.seq.top = .queueWait := ok.waiting.2 (by simp [hold])
        exact execPop_ends up (pop_held queue hold long) ⟨waits, rfl⟩
    · exact ⟨_, live_eq up rfl, fun _ => snapshotWord0_layout (captureSlot s)⟩

end Sys2Proof.Machine
end

section
/-! Source events: timers, line filters and pins, and what a delivery starts and drops (sections 6.1 to 6.4). -/

namespace Sys2Proof.Machine

-- One proof at a time: the whole text is compiled in one process of bounded memory.
set_option Elab.async false

variable {s t u : State}

/-! ## What a grant leaves of the Trigger Unit -/

theorem giveBack_trigger (c : Chain) (it : ItemRun) (o : ItemOutcome) (s : State) :
    (giveBack c it o s).trigger = s.trigger :=
  (schedule_seqFrame _).trigger.trans (completeCurrent_seqFrame ..).trigger

theorem sendWithGrant_trigger (it : ItemRun) (phase : Phase) (op : Op) (s : State) :
    (sendWithGrant it phase op s).trigger = s.trigger := by
  rw [sendWithGrant_eq]
  rfl

theorem grantSequencer_trigger (s : State) : (grantSequencer s).trigger = s.trigger := by
  unfold grantSequencer
  dsimp only
  split
  · split
    · unfold grantFirst
      split
      · exact giveBack_trigger ..
      · exact sendWithGrant_trigger ..
    · unfold grantFetch
      split
      · exact giveBack_trigger ..
      · split
        · split
          · exact sendWithGrant_trigger ..
          · exact giveBack_trigger ..
        · exact sendWithGrant_trigger ..
    · rfl
  · rfl

theorem grantDirect_trigger (k : Fin 4) (s : State) : (grantDirect k s).trigger = s.trigger := by
  rw [grantDirect_eq]
  simp only [handRequest, takeTransaction, startAttempt, startNotice, touchSuspended_map, touchActive_map]

theorem arbitrate_trigger (s : State) : (arbitrate s).trigger = s.trigger := by
  unfold arbitrate
  split
  · rfl
  · unfold decideNow
    split
    · split
      · rfl
      · exact grantSequencer_trigger _
      · exact grantDirect_trigger _ _
    · rfl

/-! ## The targets of a source event -/

/-- An enabled entry of the trigger table joins the source to the chain (R116, R117). -/
def State.joins (s : State) (src : Source) (c : Chain) : Prop :=
  ∃ e : Fin 8, (s.trigger.entries[e]).enabled = true ∧ (s.trigger.entries[e]).source = src ∧
    (s.trigger.entries[e]).target = c

theorem any_entry_iff (src : Source) (c : Chain) :
    s.trigger.entries.toList.any (fun e => e.enabled && e.source == src && e.target == c) = true ↔ s.joins src c := by
  rw [List.any_eq_true]
  constructor
  · rintro ⟨x, mem, holds⟩
    obtain ⟨i, small, rfl⟩ := List.getElem_of_mem mem
    have small' : i < 8 := by simpa using small
    simp only [Bool.and_eq_true, beq_iff_eq, and_assoc] at holds
    exact ⟨⟨i, small'⟩, by simpa using holds⟩
  · rintro ⟨e, enabled, source, target⟩
    exact ⟨s.trigger.entries[e], by simp, by simpa [and_assoc] using ⟨enabled, source, target⟩⟩

theorem targets_joins {src : Source} {c : Chain} (h : s.targets src c = true) : s.joins src c := by
  unfold State.targets at h
  simp only [Bool.and_eq_true] at h
  exact (any_entry_iff src c).1 h.1.1

theorem no_badTarget (pass : s.configCheck = none) (e : Fin 8) : ¬ s.badTarget e = true := by
  unfold State.configCheck at pass
  simp only [Option.orElse_eq_orElse, Option.orElse_eq_or, Option.or_eq_none_iff, Option.map_eq_none_iff,
    List.find?_eq_none] at pass
  exact pass.2.2.2.2.1 e (List.mem_finRange e)

/-- In a part whose configuration passes the check every joined chain is a target (R53, R117). -/
theorem targets_iff (pass : s.configCheck = none) (src : Source) (c : Chain) :
    s.targets src c = true ↔ s.joins src c := by
  refine ⟨targets_joins, fun joined => ?_⟩
  have found := (any_entry_iff src c).2 joined
  obtain ⟨e, enabled, source, rfl⟩ := joined
  have good := no_badTarget pass e
  rw [badTarget_iff] at good
  simp only [enabled, true_and, not_or, not_not, not_and] at good
  obtain ⟨on, shot⟩ := good
  unfold State.targets
  rw [found, on]
  by_cases normal : (s.trigger.entries[e]).target = .normal
  · have := shot normal
    cases mode : s.tables.normalMode
    · simp
    · exact absurd mode this
  · rw [bne_iff_ne.2 normal]
    rfl

theorem mem_injectedTargets (src : Source) (j : Fin 8) :
    j ∈ s.injectedTargets src ↔ s.targets src (.inj j) = true := by
  rw [State.injectedTargets, List.mem_filter]
  exact and_iff_right (chains_all j)

/-! ## Starts that join and starts that are dropped -/

/-- A state with another Sequencer, pending set, overrun word and latch. -/
def State.delivered (s : State) (q : Sequencer) (p : BitVec 8) (f : BitVec 9) (l : BitVec 12) : State :=
  { s with
    seq := { q with pendingSet := p }
    trigger := { s.trigger with overrun := f }
    window := { s.window with latch := l } }

theorem overrun_flag (c d : Chain) : (1#9 <<< c.overrunBit).getLsbD d.overrunBit = true ↔ d = c := by
  have injected : ∀ j k : Fin 8, (1#9 <<< j.val).getLsbD k.val = true ↔ k = j := by decide
  have normal : ∀ k : Fin 8, (1#9 <<< 8).getLsbD k.val = false ∧ (1#9 <<< k.val).getLsbD 8 = false := by decide
  cases c with
  | normal =>
    cases d with
    | normal => exact iff_of_true (by decide) rfl
    | inj k => exact iff_of_false (Bool.eq_false_iff.1 (normal k).1) nofun
  | inj j =>
    cases d with
    | normal => exact iff_of_false (Bool.eq_false_iff.1 (normal j).2) nofun
    | inj k => exact (injected j k).trans ⟨congrArg _, Chain.inj.inj⟩

theorem pending_flag (j k : Fin 8) : (1#8 <<< k.val).getLsbD j.val = true ↔ j = k := by
  revert j k
  decide

theorem latch_twice (l m : BitVec 12) : l ||| m ||| m = l ||| m := by
  rw [BitVec.or_assoc, BitVec.or_self]

/-- What the starts of one delivery to the injected chains ks make of t's pending set, overrun word and latch, against the
set as it stood before: which join, which are dropped (R117, R120). -/
structure Starts (before : BitVec 8) (ks : List (Fin 8)) (t : State) (p : BitVec 8) (f : BitVec 9) (l : BitVec 12) :
    Prop where
  joined : ∀ j : Fin 8, p.getLsbD j.val = true ↔
    t.isPending j = true ∨ (j ∈ ks ∧ before.getLsbD j.val = false)
  flagged : ∀ c : Chain, f.getLsbD c.overrunBit = true ↔ t.trigger.overrun.getLsbD c.overrunBit = true ∨
    ∃ j ∈ ks, c = .inj j ∧ before.getLsbD j.val = true
  raised : (∃ j ∈ ks, before.getLsbD j.val = true) → l = t.window.latch ||| Event.mask .triggerOverrun
  quiet : (∀ j ∈ ks, before.getLsbD j.val = false) → l = t.window.latch

section
variable {before : BitVec 8} {k : Fin 8} {ks : List (Fin 8)} {p : BitVec 8} {f : BitVec 9} {l : BitVec 12}

theorem Starts.drop (h : Starts before ks (dropStart (.inj k) t) p f l) (pending : before.getLsbD k.val = true) :
    Starts before (k :: ks) t p f l where
  joined j := by
    refine (h.joined j).trans (or_congr Iff.rfl ⟨fun new => ⟨List.mem_cons_of_mem _ new.1, new.2⟩, fun new => ?_⟩)
    rcases List.mem_cons.1 new.1 with rfl | later
    · exact absurd (pending.symm.trans new.2) nofun
    · exact ⟨later, new.2⟩
  flagged c := by
    refine (h.flagged c).trans ?_
    show (t.trigger.overrun ||| (1#9 <<< (Chain.inj k).overrunBit)).getLsbD c.overrunBit = true ∨ _ ↔ _
    rw [BitVec.getLsbD_or, Bool.or_eq_true, overrun_flag, or_assoc]
    refine or_congr Iff.rfl ⟨?_, ?_⟩
    · rintro (rfl | ⟨j, mem, rfl, was⟩)
      · exact ⟨k, by simp, rfl, pending⟩
      · exact ⟨j, by simp [mem], rfl, was⟩
    · rintro ⟨j, mem, rfl, was⟩
      rcases List.mem_cons.1 mem with rfl | later
      · exact .inl rfl
      · exact .inr ⟨j, later, rfl, was⟩
  raised _ := by
    by_cases more : ∃ j ∈ ks, before.getLsbD j.val = true
    · exact (h.raised more).trans (latch_twice ..)
    · exact h.quiet fun j mem => Bool.eq_false_iff.2 fun was => more ⟨j, mem, was⟩
  quiet none := absurd (pending.symm.trans (none k (by simp))) nofun

theorem Starts.join (h : Starts before ks (joinPending k t) p f l) (fresh : before.getLsbD k.val = false) :
    Starts before (k :: ks) t p f l where
  joined j := by
    refine (h.joined j).trans ?_
    show (t.seq.pendingSet ||| (1#8 <<< k.val)).getLsbD j.val = true ∨ _ ↔ _
    rw [BitVec.getLsbD_or, Bool.or_eq_true, pending_flag, or_assoc]
    refine or_congr Iff.rfl ⟨?_, ?_⟩
    · rintro (rfl | ⟨mem, was⟩)
      · exact ⟨by simp, fresh⟩
      · exact ⟨by simp [mem], was⟩
    · rintro ⟨mem, was⟩
      exact (List.mem_cons.1 mem).imp id fun later => ⟨later, was⟩
  flagged c := by
    refine (h.flagged c).trans (or_congr Iff.rfl ⟨?_, ?_⟩)
    · rintro ⟨j, mem, rfl, was⟩
      exact ⟨j, by simp [mem], rfl, was⟩
    · rintro ⟨j, mem, rfl, was⟩
      rcases List.mem_cons.1 mem with rfl | later
      · exact absurd (fresh.symm.trans was) nofun
      · exact ⟨j, later, rfl, was⟩
  raised some := by
    obtain ⟨j, mem, was⟩ := some
    rcases List.mem_cons.1 mem with rfl | later
    · exact absurd (fresh.symm.trans was) nofun
    · exact h.raised ⟨j, later, was⟩
  quiet none := h.quiet fun j mem => none j (by simp [mem])

end

theorem deliverInjected_fold (before : BitVec 8) (ks : List (Fin 8)) : ∀ t : State, ∃ p f l,
    ks.foldl (deliverInjected before) t = t.delivered t.seq p f l ∧ Starts before ks t p f l := by
  induction ks with
  | nil =>
    intro t
    refine ⟨t.seq.pendingSet, t.trigger.overrun, t.window.latch, rfl, ?_⟩
    constructor <;> simp [State.isPending]
  | cons k ks ih =>
    intro t
    obtain ⟨p, f, l, folds, starts⟩ := ih (deliverInjected before t k)
    cases pending : before.getLsbD k.val with
    | true =>
      have drops : deliverInjected before t k = dropStart (.inj k) t := if_pos pending
      rw [drops] at folds starts
      exact ⟨p, f, l, (congrArg (ks.foldl (deliverInjected before)) drops).trans folds, starts.drop pending⟩
    | false =>
      have joins : deliverInjected before t k = joinPending k t := if_neg (Bool.eq_false_iff.1 pending)
      rw [joins] at folds starts
      exact ⟨p, f, l, (congrArg (ks.foldl (deliverInjected before)) joins).trans folds, starts.join pending⟩

/-- A start that the delivery drops: NORMAL's, with one pending already, or that of an injected chain that is pending
(R120). -/
def State.dropsStart (s : State) (src : Source) (c : Chain) : Prop :=
  s.joins src c ∧ match c with
    | .normal => s.seq.pass.present = true ∧ s.seq.pass.startPending = true
    | .inj j => s.isPending j = true

/-- The Sequencer as a pass of NORMAL begins (R72). -/
def State.passBegun (s : State) : Sequencer :=
  { s.seq with
    pass := { s.seq.pass with
      present := true, number := s.seq.pass.number + 1#16
      run := { position := (s.nextExpected .normal 0).getD 0, mask := 0#64, done := 0, errors := 0,
               chainAbort := false } }
    active := if s.seq.active = .none then .normal else s.seq.active
    top := if s.seq.top = .idle then .running else s.seq.top }

theorem beginPass_eq (s : State) : beginPass s = { s with seq := s.passBegun } := by
  unfold beginPass State.passBegun
  dsimp only
  by_cases none : s.seq.active = .none <;> by_cases idle : s.seq.top = .idle <;>
    simp [none, idle, setPass, setActive, setTop]

/-- What the start of NORMAL leaves, where the delivery holds one (R76, R117). -/
structure NormalStart (s : State) (starts : Prop) (q : Sequencer) (f : BitVec 9) (l : BitVec 12) : Prop where
  unstarted : ¬ starts → q = s.seq
  present : starts → s.seq.pass.present = true → q = { s.seq with pass := { s.seq.pass with startPending := true } }
  absent : starts → s.seq.pass.present = false → q = s.passBegun
  flags : ∀ c : Chain, f.getLsbD c.overrunBit = true ↔ s.trigger.overrun.getLsbD c.overrunBit = true ∨
    (c = .normal ∧ starts ∧ s.seq.pass.present = true ∧ s.seq.pass.startPending = true)
  raised : starts → s.seq.pass.present = true → s.seq.pass.startPending = true →
    l = s.window.latch ||| Event.mask .triggerOverrun
  quiet : ¬ (starts ∧ s.seq.pass.present = true ∧ s.seq.pass.startPending = true) → l = s.window.latch

theorem normalStart_spec (starts : Prop) [Decidable starts] (s : State) : ∃ q f l,
    (if starts then (startNormal s).2 else s) = s.delivered q s.seq.pendingSet f l ∧ NormalStart s starts q f l := by
  by_cases yes : starts
  · rw [if_pos yes]
    cases present : s.seq.pass.present with
    | false =>
      refine ⟨s.passBegun, s.trigger.overrun, s.window.latch, ?_, ?_⟩
      · simp only [startNormal, present, Bool.false_eq_true, if_false, beginPass_eq]
        rfl
      · constructor <;> simp [yes, present]
    | true =>
      cases pending : s.seq.pass.startPending with
      | false =>
        refine ⟨{ s.seq with pass := { s.seq.pass with startPending := true } }, s.trigger.overrun, s.window.latch,
          ?_, ?_⟩
        · simp only [startNormal, present, pending, Bool.false_eq_true, if_true, if_false]
          rfl
        · constructor <;> simp [yes, present, pending]
      | true =>
        refine ⟨s.seq, s.trigger.overrun ||| (1#9 <<< Chain.normal.overrunBit),
          s.window.latch ||| Event.mask .triggerOverrun, ?_, ?_⟩
        · simp only [startNormal, present, pending, if_true]
          rfl
        · refine ⟨fun no => absurd yes no, fun _ _ => by rw [← pending], fun _ absent => ?_, fun c => ?_,
            fun _ _ _ => rfl, fun no => absurd ⟨yes, present, pending⟩ no⟩
          · exact absurd (present.symm.trans absent) nofun
          · rw [BitVec.getLsbD_or, Bool.or_eq_true, overrun_flag]
            simp [yes, present, pending]
  · rw [if_neg yes]
    refine ⟨s.seq, s.trigger.overrun, s.window.latch, rfl, ?_⟩
    constructor <;> simp [yes]

/-- What a delivery to at least one target leaves, as SourceEvents states it (R117 to R120). -/
theorem deliver_spec (pass : s.configCheck = none) (src : Source) (some_target : ∃ c, s.joins src c) :
    ∃ q p f l, deliver src s = arbitrate (schedule (s.delivered q p f l)) ∧
      (∀ j : Fin 8, p.getLsbD j.val = true ↔ s.isPending j = true ∨ s.joins src (.inj j)) ∧
      (∀ c : Chain, f.getLsbD c.overrunBit = true ↔
        s.trigger.overrun.getLsbD c.overrunBit = true ∨ s.dropsStart src c) ∧
      ((∃ c, s.dropsStart src c) → l = s.window.latch ||| Event.mask .triggerOverrun) ∧
      ((∀ c, ¬ s.dropsStart src c) → l = s.window.latch) ∧
      (¬ s.joins src .normal → q = s.seq) ∧
      (s.joins src .normal → s.seq.pass.present = true →
        q = { s.seq with pass := { s.seq.pass with startPending := true } }) ∧
      (s.joins src .normal → s.seq.pass.present = false → q = s.passBegun) := by
  have target := targets_iff pass src
  have members : ∀ j, j ∈ s.injectedTargets src ↔ s.joins src (.inj j) := fun j =>
    (mem_injectedTargets src j).trans (target _)
  have started : ¬ (s.targets src .normal = false ∧ s.injectedTargets src = []) := by
    rintro ⟨normal, injected⟩
    obtain ⟨c, joined⟩ := some_target
    cases c with
    | normal => exact absurd (normal.symm.trans ((target _).2 joined)) nofun
    | inj j => simpa [injected] using (members j).2 joined
  obtain ⟨q, f1, l1, start, is⟩ := normalStart_spec (s.targets src .normal = true) s
  obtain ⟨p, f, l, folds, joined, flagged, raised, quiet⟩ :=
    deliverInjected_fold s.seq.pendingSet (s.injectedTargets src) (s.delivered q s.seq.pendingSet f1 l1)
  have delivers : deliver src s = arbitrate (schedule (s.delivered q p f l)) := by
    rw [deliver, if_neg started]
    dsimp only
    rw [start, folds]
    rfl
  have is : NormalStart s (s.joins src .normal) q f1 l1 := propext (target .normal) ▸ is
  have dropped : (∃ j ∈ s.injectedTargets src, s.isPending j = true) ↔ ∃ j, s.dropsStart src (.inj j) :=
    exists_congr fun j => and_congr_left' (members j)
  refine ⟨q, p, f, l, delivers, fun j => (joined j).trans ?_, fun c => (flagged c).trans ?_, fun drops => ?_,
    fun none => ?_, is.unstarted, is.present, is.absent⟩
  · show s.isPending j = true ∨ (j ∈ s.injectedTargets src ∧ s.isPending j = false) ↔ _
    rw [members]
    cases s.isPending j <;> simp
  · refine (or_congr (is.flags c) Iff.rfl).trans (or_assoc.trans (or_congr Iff.rfl ?_))
    cases c with
    | normal => simp [State.dropsStart]
    | inj j => simp [State.dropsStart, members, State.isPending]
  · by_cases injected : ∃ j, s.dropsStart src (.inj j)
    · refine (raised (dropped.2 injected)).trans ?_
      show l1 ||| _ = _
      by_cases normal : s.dropsStart src .normal
      · rw [is.raised normal.1 normal.2.1 normal.2.2, latch_twice]
      · rw [is.quiet normal]
    · have still : l = l1 := quiet fun j mem =>
        Bool.eq_false_iff.2 fun was => injected (dropped.1 ⟨j, mem, was⟩)
      obtain ⟨c, drops⟩ := drops
      cases c with
      | normal => rw [still, is.raised drops.1 drops.2.1 drops.2.2]
      | inj j => exact absurd ⟨j, drops⟩ injected
  · have still : l = l1 := quiet fun j mem =>
      Bool.eq_false_iff.2 fun was => none (.inj j) ⟨(members j).1 mem, was⟩
    rw [still, is.quiet (none .normal)]

/-! ## Timers, filters and pins -/

theorem names_iff (e : EdgeSelect) (level : Bool) : e.names level = true ↔ match e with
    | .none => False
    | .rising => level = true
    | .falling => level = false
    | .both => True := by
  cases e <;> cases level <;> simp [EdgeSelect.names]

/-- The filtered level of a line takes the pin's level (R115). -/
def State.lineMoved (s : State) (k : Fin 4) : State :=
  { s with trigger := { s.trigger with
      filtered := s.trigger.filtered.set k s.trigger.pins[k], filters := s.trigger.filters.set k none } }

theorem lineEdge_eq {k : Fin 4} (filters : s.trigger.filters[k] ≠ none)
    (changes : s.trigger.pins[k] ≠ s.trigger.filtered[k]) : lineEdge k s =
      if s.isArmed && (s.trigger.edges[k]).names s.trigger.pins[k] then deliver (.line k) (s.lineMoved k)
      else s.lineMoved k :=
  if_pos ⟨Option.isSome_iff_ne_none.2 filters, changes⟩

theorem triggerPinChange_eq (up : s.resetHeld = false) (k : Fin 4) : triggerPinChange k (!s.trigger.pins[k]) s =
    { s with trigger := { s.trigger with
      pins := s.trigger.pins.set k !s.trigger.pins[k]
      filters := s.trigger.filters.set k
        (if (!s.trigger.pins[k]) = s.trigger.filtered[k] then none else some (s.now + 10)) } } := by
  have moves : ¬ s.trigger.pins[k] = !s.trigger.pins[k] := by cases s.trigger.pins[k] <;> nofun
  rw [triggerPinChange, if_neg moves]
  simp only [up, Bool.false_eq_true, or_false]
  rfl

/-- Without a target a source event delivers nothing (R117). -/
theorem deliver_nothing {src : Source} (none : ∀ c, ¬ s.joins src c) : deliver src s = s := by
  have untargeted (c : Chain) : s.targets src c = false := Bool.eq_false_iff.2 fun h => none c (targets_joins h)
  refine if_pos ⟨untargeted _, List.eq_nil_iff_forall_not_mem.2 fun j mem => ?_⟩
  exact absurd ((mem_injectedTargets src j).1 mem) (by simp [untargeted])

theorem deliver_overrun (pass : s.configCheck = none) (src : Source) (c : Chain) :
    (deliver src s).trigger.overrun.getLsbD c.overrunBit = true ↔
      s.trigger.overrun.getLsbD c.overrunBit = true ∨ s.dropsStart src c := by
  by_cases some_target : ∃ c, s.joins src c
  · obtain ⟨q, p, f, l, delivers, -, flags, -⟩ := deliver_spec pass src some_target
    rw [delivers, arbitrate_trigger, (schedule_seqFrame _).trigger]
    exact flags c
  · rw [deliver_nothing (not_exists.1 some_target)]
    exact (or_iff_left fun drops => some_target ⟨c, drops.1⟩).symm

/-- Settles O59. -/
theorem sourceEvents : Obligations.SourceEvents := by
  intro s k up timer level moved named
  have names : (s.trigger.edges[k]).names level = true ↔ named := names_iff _ _
  refine ⟨fun d running isArmed => ?_, fun filters changes => ⟨fun isArmed edge => ?_, fun unnamed => ?_⟩,
    fun away => ?_, fun back => ?_, fun src => ?_⟩
  · refine live_eq up ?_
    simp only [paceTimerExpiry, running, isArmed, if_true, setRun, State.runAfterExpiry]
    rfl
  · refine live_eq up ((lineEdge_eq filters changes).trans (if_pos ?_))
    rw [isArmed, names.2 edge]
    rfl
  · refine live_eq up ((lineEdge_eq filters changes).trans (if_neg fun both => ?_))
    obtain ⟨isArmed, edge⟩ := Bool.and_eq_true_iff.1 both
    rcases unnamed with off | silent
    · exact absurd (off.symm.trans isArmed) nofun
    · exact silent (names.1 edge)
  · refine congrArg _ ((triggerPinChange_eq up k).trans ?_)
    rw [if_pos (Bool.not_eq.2 away)]
  · refine congrArg _ ((triggerPinChange_eq up k).trans ?_)
    rw [if_neg fun h => Bool.not_eq.1 h back]
  · intro target t drops
    have is (c : Chain) : s.dropsStart src c ↔ drops c := by cases c <;> exact Iff.rfl
    refine ⟨deliver_nothing, fun pass some_target => ?_, fun pass c => ?_⟩
    · obtain ⟨q, p, f, l, delivers, joined, flags, raised, quiet, begins⟩ := deliver_spec pass src some_target
      simp only [is] at flags raised quiet
      exact ⟨q, p, f, l, delivers, joined, flags, raised, quiet, begins⟩
    · exact (deliver_overrun pass src c).trans (or_congr Iff.rfl (is c))

end Sys2Proof.Machine
end

section
/-! Frames, the line bit by bit, and the judgement of a response (sections 1.1, 1.2, 1.4). -/

namespace Sys2Proof.Machine

-- One proof at a time: the whole text is compiled in one process of bounded memory.
set_option Elab.async false

variable {s : State}

/-! ## Frames -/

theorem crc_snoc (l : List Byte) (b : Byte) : crc (l ++ [b]) = crcShift^[8] (crc l ^^^ b) := by
  rw [crc, List.foldl_append]
  rfl

theorem assemble_snoc (l : List Byte) (b : Byte) : assemble (l ++ [b]) = assemble l <<< 8 ||| b.setWidth 32 := by
  rw [assemble, List.foldl_append]
  rfl

theorem lowBytes_length (v : Value) (n : Nat) : (lowBytes v n).length = n := by
  induction n with
  | zero => rfl
  | succ n ih => simp [lowBytes, ih]

/-- Byte i of the n low bytes of a value, the most significant of them first. -/
theorem lowBytes_get (v : Value) {n i : Nat} (h : i < n) :
    (lowBytes v n)[i]? = some (v.extractLsb' (8 * (n - 1 - i)) 8) := by
  induction n generalizing i with
  | zero => omega
  | succ n ih =>
    cases i with
    | zero => rfl
    | succ i =>
      rw [lowBytes, List.getElem?_cons_succ, ih (by omega)]
      congr 3
      omega

/-- The worked frame of section 1.2. -/
theorem ping_frame (x : Transaction) (address : x.address = 5#5) (op : x.op = .ping) (index : x.index = 0#8)
    (length : x.length = 1#3) : x.frame = [0x28#8, 0x00#8, 0x01#8, 0xD9#8] := by
  unfold Transaction.frame Transaction.body
  rw [address, op, index, length, if_neg nofun]
  simp [crc, crcByte, crcShift, Op.code]

theorem frame_parts (x : Transaction) : ∃ data : List Byte,
    x.frame = [x.address ++ x.op.code, x.index, x.length.setWidth 8] ++ data ++
      [crc ([x.address ++ x.op.code, x.index, x.length.setWidth 8] ++ data)] ∧
    (x.op ≠ .write → data = []) ∧
    (x.op = .write → data.length = x.length.toNat ∧
      ∀ v, x.value = some v → ∀ i, i < data.length →
        data[i]? = some (v.extractLsb' (8 * (data.length - 1 - i)) 8)) := by
  refine ⟨if x.op = .write then lowBytes (x.value.getD 0#32) x.length.toNat else [], rfl, fun other => if_neg other,
    fun write => ?_⟩
  rw [if_pos write, lowBytes_length]
  refine ⟨rfl, fun v value i inside => ?_⟩
  rw [value]
  exact lowBytes_get v inside

/-! ## Bits -/

theorem byteBits_spec (b : Byte) : (byteBits b).length = 10 ∧ (byteBits b)[0]? = some false ∧
    (byteBits b)[9]? = some true ∧ ∀ i, i < 8 → (byteBits b)[i + 1]? = some (b.getLsbD i) :=
  ⟨byteBits_length b, rfl, rfl, fun _ => byteBits_data b⟩

theorem ltxd_rests (phase : s.link.phase ≠ .sending) : s.ltxd = true := by
  unfold State.ltxd
  split
  next sending _ _ => exact absurd sending phase
  next => rfl

theorem bitTime_pos (r : LinkRate) : 0 < r.bitTime := by cases r <;> decide

/-- In SENDING the bit whose time it is stands on LTXD (R1, R3). -/
theorem ltxd_sends {x : Transaction} {began i j d : Nat} {b : Byte} (phase : s.link.phase = .sending)
    (txn : s.link.txn = some x) (timer : s.link.timer = some (began + x.rate.byteTime * x.frame.length))
    (ten : x.rate.byteTime = 10 * x.rate.bitTime) (byte : x.frame[i]? = some b) (bit : j < 10)
    (inside : d < x.rate.bitTime) (now : s.now = began + x.rate.byteTime * i + x.rate.bitTime * j + d) :
    (byteBits b)[j]? = some s.ltxd := by
  have sent : i < x.frame.length := (List.getElem?_eq_some_iff.1 byte).1
  have positive := bitTime_pos x.rate
  have here : x.rate.byteTime * x.frame.length - (began + x.rate.byteTime * x.frame.length - s.now) =
      x.rate.bitTime * (10 * i + j) + d := by
    have whole : x.rate.byteTime * i + x.rate.byteTime ≤ x.rate.byteTime * x.frame.length := by
      rw [← Nat.mul_succ]
      exact Nat.mul_le_mul_left _ sent
    have short : x.rate.bitTime * j + x.rate.bitTime ≤ x.rate.byteTime := by
      rw [← Nat.mul_succ, ten, Nat.mul_comm 10]
      exact Nat.mul_le_mul_left _ bit
    have split : x.rate.bitTime * (10 * i + j) = x.rate.byteTime * i + x.rate.bitTime * j := by
      rw [ten]
      ring
    omega
  have index : (x.rate.bitTime * (10 * i + j) + d) / x.rate.bitTime = 10 * i + j := by
    rw [Nat.mul_add_div positive, Nat.div_eq_of_lt inside, Nat.add_zero]
  have frame : s.lineFrame = x.frame := by simp only [State.lineFrame, phase, txn]
  have level : s.ltxd = s.lineBits.getD (10 * i + j) true := by
    simp only [State.ltxd, phase, txn, timer, here, index]
  have found : s.lineBits[10 * i + j]? = (byteBits b)[j]? := by
    rw [State.lineBits, frame]
    exact flatMap_byteBits _ _ _ byte bit
  obtain ⟨v, is⟩ : ∃ v, (byteBits b)[j]? = some v := by
    have : j < (byteBits b).length := by simpa using bit
    exact ⟨_, List.getElem?_eq_getElem this⟩
  rw [level, List.getD_eq_getElem?_getD, found, is]
  rfl

/-! ## Hearing -/

/-- The eight samples of a byte's data bits give the byte. -/
theorem samples_byte (b : Byte) : (List.range 8).foldl
    (fun v i => if b.getLsbD i then v ||| (1#8 <<< i) else v) 0#8 = b := by
  revert b
  decide

/-- A byte's ten levels, each held for a bit time, are heard as the byte; the stop bit's level says whether there was a
framing error (R3). -/
theorem heard_byte {r : LinkRate} {level : Nat → Bool} {h : Nat} {b : Byte} {stop : Bool} (after : 0 < h)
    (mark : level (h - 1) = true)
    (bits : ∀ i d, i < 9 → d < 2 * r.bitTime → (byteBits b)[i]? = some (level (h + 2 * r.bitTime * i + d)))
    (ends : ∀ d, d < 2 * r.bitTime → level (h + 2 * r.bitTime * 9 + d) = stop) :
    isStartBit r level h = true ∧ sampleByte r level h = ⟨b, !stop⟩ := by
  have positive := bitTime_pos r
  have first := bits 0 0 (by omega) (by omega)
  have middle := bits 0 r.bitTime (by omega) (by omega)
  have space : level h = false := (Option.some.inj first).symm
  have sampled0 : sampleBit r level h 0 = false := by
    refine Eq.trans ?_ (Option.some.inj middle).symm
    rw [sampleBit]
    congr 1
    ring
  have sampled (i : Nat) (data : i < 8) : sampleBit r level h (i + 1) = b.getLsbD i := by
    have bit := bits (i + 1) r.bitTime (by omega) (by omega)
    rw [byteBits_data b data] at bit
    refine Eq.trans ?_ (Option.some.inj bit).symm
    rw [sampleBit]
    congr 1
    ring
  have sampled9 : sampleBit r level h 9 = stop := by
    refine Eq.trans ?_ (ends r.bitTime (by omega))
    rw [sampleBit]
    congr 1
    ring
  refine ⟨by simp [isStartBit, after, mark, space, sampled0], ?_⟩
  unfold sampleByte
  rw [sampled9]
  congr 1
  refine Eq.trans ?_ (samples_byte b)
  refine List.foldl_ext _ _ _ fun v i mem => ?_
  rw [sampled i (List.mem_range.1 mem)]

theorem isStartBit_short {r : LinkRate} {level : Nat → Bool} {h : Nat} (back : level (h + r.bitTime) = true) :
    isStartBit r level h = false := by
  simp [isStartBit, sampleBit, back]

theorem receiveAt_spec (r : LinkRate) (level : Nat → Bool) (h : Nat) :
    (isStartBit r level h = true → receiveAt r level h none = ([.startBit], some h)) ∧
    (isStartBit r level h = false → receiveAt r level h none = ([], none)) ∧
    ∀ b : Nat,
      let ended := b + 20 * r.bitTime ≤ h ∨ (b + 19 * r.bitTime < h ∧ isStartBit r level h = true)
      let byte := LineEvent.byte (sampleByte r level b)
      (¬ ended → receiveAt r level h (some b) = ([], some b)) ∧
      (ended → isStartBit r level h = true → receiveAt r level h (some b) = ([byte, .startBit], some h)) ∧
      (ended → isStartBit r level h = false → receiveAt r level h (some b) = ([byte], none)) := by
  have begins (start : isStartBit r level h = true) : startAt r level h = ([.startBit], some h) := if_pos start
  have rests (none : isStartBit r level h = false) : startAt r level h = ([], Option.none) :=
    if_neg (by simp [none])
  refine ⟨begins, rests, fun b => ?_⟩
  intro ended byte
  have over_iff : byteOver r level b h = true ↔ ended := by simp [byteOver, ended]
  refine ⟨fun still => if_neg (mt over_iff.1 still), fun past start => ?_, fun past none => ?_⟩
  · refine (if_pos (over_iff.2 past)).trans ?_
    rw [begins start]
  · refine (if_pos (over_iff.2 past)).trans ?_
    rw [rests none]

theorem hears_spec (s : State) :
    (s.link.phase = .sending → s.hearsStart = none) ∧
    (s.link.phase = .awaitResponse ∨ (s.link.phase = .receiving ∧ s.link.endWatch = false) →
      s.hearsStart = some .responseStartBit) ∧
    (s.link.phase = .receiving → s.link.endWatch = true → s.hearsStart = some .endWatchStartBit) ∧
    (s.link.phase = .idle ∨ s.link.phase = .settle ∨ s.link.phase = .backoff → s.hearsStart = some .strayByte) ∧
    (∀ b : RxByte, s.link.phase = .receiving → s.link.endWatch = false →
      s.hearsByte b = some (.responseByteReceived b.value b.framingError)) ∧
    (∀ b : RxByte, s.link.phase ≠ .receiving ∨ s.link.endWatch = true → s.hearsByte b = none) ∧
    (s.hearsStart = none → s.hear .startBit = s) ∧
    (∀ c t, s.hearsStart = some c → exec c s = .next t → s.hear .startBit = t) ∧
    (∀ b, s.hearsByte b = none → s.hear (.byte b) = s) ∧
    ∀ b c t, s.hearsByte b = some c → exec c s = .next t → s.hear (.byte b) = t := by
  have taken (o : Option Instr) (c : Instr) (t : State) (hears : o = some c) (next : exec c s = .next t) :
      (o.map s.take).getD s = t := by
    rw [hears]
    exact take_eq next
  have silent (o : Option Instr) (none : o = none) : (o.map s.take).getD s = s := by rw [none]; rfl
  refine ⟨fun phase => ?_, ?_, fun phase watch => ?_, ?_, fun b phase watch => if_pos ⟨phase, watch⟩,
    fun b other => if_neg ?_, silent _, fun c t => taken _ c t, fun b => silent _, fun b c t => taken _ c t⟩
  · simp only [State.hearsStart, phase]
  · rintro (phase | ⟨phase, watch⟩)
    · simp only [State.hearsStart, phase]
    · simp only [State.hearsStart, phase, watch]
      rfl
  · simp only [State.hearsStart, phase, watch]
    rfl
  · rintro (phase | phase | phase) <;> simp only [State.hearsStart, phase]
  · rintro ⟨phase, watch⟩
    rcases other with elsewhere | watching
    · exact elsewhere phase
    · exact absurd (watching.symm.trans watch) nofun

theorem listen_spec (s : State) (level : Nat → Bool) (h : Nat) :
    let rate := match s.link.txn with
      | some x => x.rate
      | none => s.link.rate
    let hearing := fun (t : State) (n : Option Nat) => ({ t with link := { t.link with incoming := n } } : State)
    s.listen level h = s.settled.listen level h ∧
    (s.pending = [] →
      (s.ldir = true ∨ s.resetHeld = true → s.listen level h = hearing s none) ∧
      (s.ldir = false → s.resetHeld = false → s.listen level h =
        hearing ((receiveAt rate level h s.link.incoming).1.foldl State.hear s)
          (receiveAt rate level h s.link.incoming).2)) :=
  ⟨listen_settled level h, fun settled => ⟨fun deaf => listen_deaf settled deaf level h,
    fun ldir up => listen_hearing settled ldir up level h⟩⟩

/-! ## The judgement -/

/-- A response is corrupt: a framing error, a check byte that does not fit, another address, or an unknown code (R13). -/
def Transaction.Wrong (x : Transaction) (h : RxByte) (data : List RxByte) (c : RxByte) : Prop :=
  (∃ b ∈ h :: (data ++ [c]), b.framingError = true) ∨ crc (h.value :: data.map (·.value)) ≠ c.value ∨
    h.value.extractLsb' 3 5 ≠ x.address ∨ h.value.extractLsb' 0 3 = 0#3 ∨ 4 ≤ (h.value.extractLsb' 0 3).toNat

/-- The judgement of a response of a header, data bytes and a check byte, by its code (R13). -/
theorem judge_eq (x : Transaction) (h : RxByte) (data : List RxByte) (c : RxByte) : x.judge (h :: (data ++ [c])) =
    if (h :: (data ++ [c])).any (·.framingError) || c.value != crc (h.value :: data.map (·.value)) ||
        h.value.extractLsb' 3 5 != x.address then
      .corrupt
    else
      match (h.value.extractLsb' 0 3).toNat with
      | 1 => .ack (if x.op = .read ∨ x.op = .fetch then some (assemble (data.map (·.value))) else none)
      | 2 => .busy
      | 3 => .reject
      | _ => .corrupt := by
  have bytes : (h :: (data ++ [c])).map (·.value) = (h.value :: data.map (·.value)) ++ [c.value] := by simp
  unfold Transaction.judge
  dsimp only
  rw [bytes, List.dropLast_concat, List.getLastD_concat]
  rfl

theorem judge_corrupt {x : Transaction} {h c : RxByte} {data : List RxByte} (wrong : x.Wrong h data c) :
    x.judge (h :: (data ++ [c])) = .corrupt := by
  rw [judge_eq]
  split
  next => rfl
  next fine =>
    simp only [Bool.or_eq_true, List.any_eq_true, bne_iff_ne, not_or, not_not] at fine
    obtain ⟨⟨framed, check⟩, address⟩ := fine
    rcases wrong with framing | crc | other | zero | large
    · exact absurd framing framed
    · exact absurd check.symm crc
    · exact absurd address other
    · simp only [zero]
      rfl
    · generalize (h.value.extractLsb' 0 3).toNat = n at large ⊢
      match n, large with
      | n + 4, _ => rfl

theorem judge_code {x : Transaction} {h c : RxByte} {data : List RxByte} (right : ¬ x.Wrong h data c) :
    x.judge (h :: (data ++ [c])) = match (h.value.extractLsb' 0 3).toNat with
      | 1 => .ack (if x.op = .read ∨ x.op = .fetch then some (assemble (data.map (·.value))) else none)
      | 2 => .busy
      | 3 => .reject
      | _ => .corrupt := by
  rw [judge_eq]
  refine if_neg fun bad => right ?_
  simp only [Bool.or_eq_true, List.any_eq_true, bne_iff_ne] at bad
  rcases bad with (framing | crc) | other
  · exact .inl framing
  · exact .inr (.inl (Ne.symm crc))
  · exact .inr (.inr (.inl other))

/-- Settles O50. -/
theorem responseJudged : Obligations.ResponseJudged := by
  refine ⟨rfl, crc_snoc, fun _ => rfl, ping_frame, frame_parts, byteBits_spec, fun _ => ltxd_rests,
    fun s x began i j d b => ltxd_sends, ⟨rfl, rfl, rfl⟩, fun r level h b stop => heard_byte,
    fun r level h => isStartBit_short, receiveAt_spec, hears_spec, listen_spec, ⟨rfl, assemble_snoc⟩,
    fun s x up txn phase watch => live_eq up ((if_pos ⟨phase, watch⟩).trans ?_), fun x h data c => ?_⟩
  · simp only [judgeResponse, txn]
  · intro rx code wrong
    have judged (right : ¬ wrong) := judge_code (x := x) (h := h) (data := data) (c := c) right
    refine ⟨judge_corrupt, fun right ack fetches => ?_, fun right ack other => ?_, fun right busy => ?_,
      fun right reject => ?_⟩
    · refine (judged right).trans ?_
      rw [show h.value.extractLsb' 0 3 = 1#3 from ack]
      exact congrArg _ (if_pos fetches)
    · refine (judged right).trans ?_
      rw [show h.value.extractLsb' 0 3 = 1#3 from ack]
      refine congrArg _ (if_neg ?_)
      rcases other with op | op | op <;> simp [op]
    · refine (judged right).trans ?_
      rw [show h.value.extractLsb' 0 3 = 2#3 from busy]
      rfl
    · refine (judged right).trans ?_
      rw [show h.value.extractLsb' 0 3 = 3#3 from reject]
      rfl

end Sys2Proof.Machine
end
